-- ==== Sys2Proof/Word.lean ====
section
/-! DEFINITION. The words of the machine: lane words, bytes, addresses, the sparse tables that
every large store of the state is held in, and the small keys that name agents.
Bit 0 is the least significant bit of any field (R5). -/

namespace Sys2Proof

/-- One 32-bit lane or scalar register value (R73). -/
abbrev Word := BitVec 32
/-- A 64-bit value: a register pair, an address or a counter (R42). -/
abbrev DWord := BitVec 64
/-- One byte of memory. -/
abbrev Byte := BitVec 8
/-- A lane mask: bit i stands for lane i (R5). -/
abbrev Mask := BitVec 32
/-- The 32 lanes of a vector value (R14). -/
abbrev Lanes := Vector Word 32

/-- A sparse table: keys strictly rising, no entry equal to what an unlisted key reads as. -/
abbrev Table (α : Type) := List (Nat × α)

/-- One of the two towers: 0 is T0, 1 is T1 (R1). -/
abbrev TowerId := Fin 2
/-- A compute layer of a tower, L0 to L7 (R1). -/
abbrev LayerId := Fin 8
/-- A core of a layer (R2). -/
abbrev CoreId := Fin 16
/-- A cluster of a layer (R2). -/
abbrev ClusterId := Fin 4

/-- A core of the package. -/
structure Place where
  tower : TowerId
  layer : LayerId
  core : CoreId
  deriving DecidableEq, Repr

/-- A group by its job and its job-wide group number (R320). -/
structure GroupKey where
  job : Nat
  gid : Nat
  deriving DecidableEq, Repr

/-- A wave by its group and its index within the group (R320). -/
structure WaveKey where
  job : Nat
  gid : Nat
  idx : Nat
  deriving DecidableEq, Repr

/-- The five engine classes of R250 in the code order of Table 9.9. -/
inductive EngClass where
  | cp | gt | mx | bc | ry
  deriving DecidableEq, Repr

/-- The four rounding modes of R11. -/
inductive Rnd where
  | rne | rz | ru | rd
  deriving DecidableEq, Repr

/-- The scopes of Table 0.5, narrowest first. -/
inductive Scope where
  | wv | gp | cl | ly | sk | dv | sy
  deriving DecidableEq, Repr

/-- The orderings of R12. -/
inductive Order where
  | rlx | acq | rel | ar
  deriving DecidableEq, Repr

/-- The causes of Table 14.3, in the order of their codes. -/
inductive Cause where
  | illop | resbits | illfmt | guardar | pfxbad | pfxdup | pfxend | runlong
  | tempdead | regrange | stallshort | fmttag | priv | brkpt | trapi | fetcherr
  | pagenp | pageprot | hbounds | hinval | align | acctbl | mmrace | scopemis
  | bspace | noslot | localoob | eccsram | eccmem | atomsp | xlate | linkfail
  | cancelled | lnchfull | lnchbad | taskbad | ctrunder | watchrun | watchdepth | watchovf
  | qlockbad | qovf | barbad | gangfail | fetchbad | waitpredx | deadline | preemptto
  | divzero | fpinv | fpovf | qscale | raybad | bvhdepth | smpbad | displink
  | towerdown | layeroff | reconfig | hosterr | fwfault | thermal | watchdog | machine
  deriving DecidableEq, Repr

/-- A trap as an instruction raises it (Table 14.3): its cause, whether it is taken after the
instruction's results (way A), the INFO, TADDR and TMASK values, and the DETAIL of the report that
causes of way "T and R" write beside the trap (R358). -/
structure TrapInfo where
  cause : Cause
  after : Bool
  info : BitVec 16
  addr : DWord
  mask : Mask
  detail : DWord
  deriving DecidableEq, Repr

end Sys2Proof
end

