-- ==== Sys2Proof/Syntax.lean ====
section
/-! DEFINITION. The syntax: operands (Table 3.4), hints (Table 3.2), guards (R78), the fields of an
instruction word (Table 3.1), and `Instr` with one constructor for every row of the opcode table.
The rows from RUN_START on are steps of the hardware and of the host: they have no word, and their
arguments say which agent or register the step concerns. -/

namespace Sys2Proof

/-- The special operands of Table 3.5. -/
inductive Special where
  | nil | laneid | em | clk | waveslot | grpslot | tileco | trigmask
  deriving DecidableEq, Repr

/-- An operand of the 9-bit namespace of Table 3.4. -/
inductive Opnd where
  /-- vector register v0-v319 -/
  | v (n : Fin 320)
  /-- scalar register s0-s127 -/
  | s (n : Fin 128)
  /-- run temporary t0-t7 -/
  | t (n : Fin 8)
  /-- predicate p0-p15 -/
  | p (n : Fin 16)
  /-- special operand -/
  | sp (k : Special)
  /-- tile z0-z15 -/
  | z (n : Fin 16)
  deriving DecidableEq, Repr

/-- The hint field of Table 3.2. -/
structure Hint where
  st : BitVec 3
  stop : Bool
  yld : Bool
  tv : Bool
  tok : BitVec 3
  await : BitVec 6
  deriving DecidableEq, Repr

/-- The guard field of Table 3.1: bit 4 negates, bits [3:0] select a predicate; all zero is "always" (R78). -/
structure Guard where
  neg : Bool
  p : BitVec 4
  deriving DecidableEq, Repr

/-- The fields of an instruction word beside its operation (Table 3.1). `mod` and `ext` are read
through the accessors of Machine/Operands.lean, whose layout each opcode gives. -/
structure Fields where
  mod : BitVec 7
  d : Opnd
  a : Opnd
  b : Opnd
  guard : Guard
  hint : Hint
  ext : BitVec 32
  deriving DecidableEq, Repr

/-- One constructor per row of spec/opcode_table.json. -/
inductive Instr where
  -- group 0x0, control (R153-R157)
  | bra (f : Fields) | brc (f : Fields) | brany (f : Fields) | brall (f : Fields)
  | call (f : Fields) | ret (f : Fields) | jmpi (f : Fields) | loop (f : Fields)
  | emset (f : Fields) | empush (f : Fields) | empop (f : Fields) | emand (f : Fields)
  | nop (f : Fields) | yield (f : Fields) | exit (f : Fields) | waittok (f : Fields)
  | sleepw (f : Fields)
  -- groups 0x1 and 0x2, integer and logic (R158-R163)
  | iadd (f : Fields) | isub (f : Fields) | iaddc (f : Fields) | isubb (f : Fields)
  | imul (f : Fields) | imulhi (f : Fields) | imad (f : Fields) | iadd64 (f : Fields)
  | imul64 (f : Fields) | idiv (f : Fields) | irem (f : Fields) | imin (f : Fields)
  | imax (f : Fields) | iabs (f : Fields) | ineg (f : Fields) | and (f : Fields)
  | or (f : Fields) | xor (f : Fields) | andn (f : Fields) | not (f : Fields)
  | shl (f : Fields) | shr (f : Fields) | sar (f : Fields) | rol (f : Fields)
  | shl64 (f : Fields) | shr64 (f : Fields) | bfe (f : Fields) | bfi (f : Fields)
  | popc (f : Fields) | clz (f : Fields) | ctz (f : Fields) | brev (f : Fields)
  | lea (f : Fields) | mov (f : Fields) | movi (f : Fields)
  -- group 0x3, predicate and select (R164-R166)
  | icmp (f : Fields) | fcmp (f : Fields) | sel (f : Fields) | pand (f : Fields)
  | por (f : Fields) | pxor (f : Fields) | pnot (f : Fields) | p2v (f : Fields)
  | v2p (f : Fields) | pmov (f : Fields)
  -- group 0x4, FP32 (R171-R174)
  | fadd (f : Fields) | fsub (f : Fields) | fmul (f : Fields) | ffma (f : Fields)
  | fdiv (f : Fields) | fmin (f : Fields) | fmax (f : Fields) | fabs (f : Fields)
  | fneg (f : Fields) | fclass (f : Fields) | ffloor (f : Fields) | fceil (f : Fields)
  | ftrunc (f : Fields) | frint (f : Fields) | ffract (f : Fields)
  -- group 0x5, scalar F64 (R176-R177)
  | dadd (f : Fields) | dmul (f : Fields) | dfma (f : Fields) | dcvt (f : Fields)
  -- group 0x6, packed F16 and BF16 (R175)
  | hadd2 (f : Fields) | hmul2 (f : Fields) | hfma2 (f : Fields) | hmin2 (f : Fields)
  | hmax2 (f : Fields) | fdot2 (f : Fields)
  -- group 0x7, conversion and SFU (R178-R185)
  | cvt (f : Fields) | pack2 (f : Fields) | unpk (f : Fields) | cvtq (f : Fields)
  | cvtdq (f : Fields) | frcp (f : Fields) | frsq (f : Fields) | fsqrt (f : Fields)
  | fexp2 (f : Fields) | flog2 (f : Fields) | fsin (f : Fields) | fcos (f : Fields)
  | ftanh (f : Fields) | fsigm (f : Fields)
  -- group 0x8, cross-lane (R186-R192)
  | shfl (f : Fields) | shflup (f : Fields) | shfldn (f : Fields) | shflx (f : Fields)
  | voteany (f : Fields) | voteall (f : Fields) | ballot (f : Fields) | match_ (f : Fields)
  | redadd (f : Fields) | redmin (f : Fields) | redmax (f : Fields) | redand (f : Fields)
  | redor (f : Fields) | scanadd (f : Fields) | permq (f : Fields)
  -- group 0x9, memory (R237-R249, R271, R272)
  | ld (f : Fields) | st (f : Fields) | ldl (f : Fields) | stl (f : Fields)
  | lds (f : Fields) | sts (f : Fields) | stb (f : Fields) | ldb (f : Fields)
  | pref (f : Fields) | cinv (f : Fields) | cwb (f : Fields) | pin (f : Fields)
  | unpin (f : Fields) | hset (f : Fields) | hget (f : Fields) | xlat (f : Fields)
  -- group 0xA, atomics and synchronisation (R310-R328)
  | atom (f : Fields) | cas (f : Fields) | red (f : Fields) | fence (f : Fields)
  | bar (f : Fields) | bararv (f : Fields) | barwt (f : Fields) | qlock (f : Fields)
  | qunlock (f : Fields) | qpush (f : Fields) | qpop (f : Fields) | qtry (f : Fields)
  | ctradd (f : Fields) | ctrwait (f : Fields) | mmstat (f : Fields)
  -- group 0xB, asynchronous engines (R250-R259, R273)
  | cpy (f : Fields) | cpyb (f : Fields) | gthr (f : Fields) | sctr (f : Fields)
  | bcast (f : Fields) | cntwait (f : Fields) | cntrd (f : Fields)
  -- group 0xC, matrix and scan (R193-R222)
  | mmq (f : Fields) | mzero (f : Fields) | mzld (f : Fields) | mzmv (f : Fields)
  | mzst (f : Fields) | mbsel (f : Fields) | scan (f : Fields) | scanst (f : Fields)
  -- group 0xD, task, launch and watch (R102-R112, R136)
  | lnch (f : Fields) | taskq (f : Fields) | succhint (f : Fields) | waitpred (f : Fields)
  | fetchw (f : Fields) | cancel (f : Fields) | ctrget (f : Fields) | watch (f : Fields)
  | unwatch (f : Fields) | watchq (f : Fields)
  -- group 0xE, render (R338-R350, R386-R394)
  | smpget (f : Fields) | smpput (f : Fields) | smprd (f : Fields) | pmapwr (f : Fields)
  | rayq (f : Fields) | rayrd (f : Fields) | tricls (f : Fields) | triras (f : Fields)
  | eyebor (f : Fields) | rowwait (f : Fields) | rowput (f : Fields)
  -- group 0xF, system (R363-R369, R274, R275)
  | trap (f : Fields) | eret (f : Fields) | csrr (f : Fields) | csrw (f : Fields)
  | brkpt (f : Fields) | tlbinv (f : Fields) | pagemap (f : Fields) | wakew (f : Fields)
  | slotreq (f : Fields) | slotrel (f : Fields) | layerps (f : Fields)
  -- prefixes (R82-R84)
  | ximm (f : Fields) | xfmt (f : Fields)
  -- steps of the hardware: issue, tokens and placement
  | runStart (p : Place) (port : Fin 2)
  | tokenClear (w : WaveKey) (tok : Fin 6)
  | dealTile (t : TowerId)
  | clusterEnqueue (t : TowerId) (l : LayerId)
  | placeUnit (t : TowerId) (l : LayerId) (c : ClusterId)
  | groupStart (g : GroupKey)
  | stealRequest (t : TowerId) (l : LayerId) (c : ClusterId)
  | donationRequest (t : TowerId) (l : LayerId)
  | unitRetire (u : Nat)
  | groupSave (g : GroupKey)
  | groupRestore (g : GroupKey)
  | engineComplete (w : WaveKey) (c : EngClass)
  | fetchwMailboxWrite (g : GroupKey)
  -- Advent and records
  | triggerChange (t : TowerId)
  | rateWindow (t : TowerId)
  | submissionSlotServe (t : TowerId)
  | heldUseRetry (n : Nat)
  | deadlineGuard (t : TowerId)
  | deadline (t : TowerId)
  | preemptto (t : TowerId) (u : Nat)
  | sleepTimeout (w : WaveKey)
  | watchdog (w : WaveKey)
  | ctrwaitSatisfied (w : WaveKey)
  | tlbShootdownDone (w : WaveKey)
  -- the stack, the link and migration
  | sectorTransmit (t : TowerId) (job : Nat)
  | almanacCommitApply (t : TowerId)
  | layerTransitionDone (t : TowerId) (l : LayerId)
  | rejoinDone (t : TowerId) (l : LayerId)
  | linkRetrain
  | linkRetrainEnd (ok : Bool)
  | pageMigration (job : Nat) (va : DWord)
  -- samplers, display, memory clock
  | lanternSweepStart (t : TowerId)
  | lanternEmitBlock (t : TowerId)
  | lanternPopItem (t : TowerId) (l : LayerId)
  | lineLit (t : TowerId)
  | rowwaitWake (w : WaveKey)
  | panelLockLoss (t : TowerId)
  | panelLockReturn (t : TowerId)
  | memclkChange (t : TowerId)
  | memclkStallEnd (t : TowerId)
  | borrowLate (w : WaveKey)
  -- fault records and hardware queues
  | faultRecordPush (t : TowerId) (job : Nat)
  | hwqueueRetry (t : TowerId)
  -- the host and boot
  | hostRead (t : TowerId) (dpa : DWord) (n : Nat)
  | hostWrite (t : TowerId) (dpa : DWord) (data : List Byte) (rel : Bool)
  | hostAtomic (t : TowerId) (dpa : DWord) (wide : Bool) (op : BitVec 4) (x : DWord)
  | powerOn
  | towerImageCheck
  -- device events
  | thermal
  | eccUncorrectable (code : Fin 9) (w : WaveKey) (addr : DWord)
  | eccCorrected (t : TowerId)
  | layeroff (t : TowerId) (l : LayerId)
  | machine (p : Place)
  | hosterr (t : TowerId)
  | hostAssistTimeout (t : TowerId)
  | fwfault (t : TowerId)
  -- register writes through the host register window
  | clswayWrite (t : TowerId) (x : Word)
  | almctlCommit (t : TowerId)
  | lntctlWrite (t : TowerId) (x : Word)
  | dspctlWrite (t : TowerId) (n : BitVec 12) (x : Word)
  | memclkArm (t : TowerId) (x : Word)
  | pwrctlGo (t : TowerId) (x : Word)
  | fnmodeWrite (t : TowerId) (x : Word)
  | hbootgo (t : TowerId)
  | hwcmdResume (t : TowerId)
  | hwcmdAbort (t : TowerId)
  | hwcmdTlbinv (t : TowerId)
  | htcountWrite (t : TowerId) (x : Word)
  | attctlGo (t : TowerId)
  | dmkctlWrite (t : TowerId) (x : Word)
  | jctlWrite (t : TowerId) (hi : Bool) (x : Word)
  | registerWrite (t : TowerId) (off : BitVec 16) (x : Word)
  | clockStepEnd
  deriving DecidableEq, Repr

end Sys2Proof
end

