-- ==== Sys2Proof/Machine/State.lean ====
section
/-! DEFINITION. The state of the machine as plain data: every piece of state the manual gives the
F2, each structure's docstring naming the rule it follows, and the state right after reset.
Large stores are sparse tables (`Table`), whose unlisted keys read as the default that the
accessors of Machine/Cells.lean give. -/

namespace Sys2Proof.Machine

/-- Reasons for which a step of the machine stops. No meaning of this model stops: every condition
of the manual is a trap, a park, a wait or a record, each a next state. The one constructor is
raised by nobody; it is safe. -/
inductive Fault where
  /-- raised by no meaning (safe) -/
  | none
  deriving DecidableEq, Repr

/-- Reasons for which a step has no meaning. -/
inductive Refusal where
  /-- an instruction without a meaning yet, raised by an arm of `exec` (safe) -/
  | notModelled (mnemonic : String)
  deriving DecidableEq, Repr

/-- A vector register or a run temporary: 32 lanes and a format tag (R56, R59). -/
structure VReg where
  tag : BitVec 4
  lanes : Lanes
  deriving DecidableEq, Repr

/-- The value of a vector register at group start: 0 with tag RAW (R60). -/
def VReg.zero : VReg := ⟨0, Vector.replicate 32 0⟩

/-- A tile z0-z15: element (m, n) of quarter q stands at index 64q + 8m + n (R194, Table 14.7). -/
structure Tile where
  tag : BitVec 4
  clean : Bool
  elems : Table Word
  deriving DecidableEq, Repr

/-- A tile at group start: +0.0, tag F32, clean (R60, R194). -/
def Tile.zero : Tile := ⟨3, true, []⟩

/-- The value that a register held before a write of the run; `gone` is a temporary without a value. -/
inductive OldVal where
  | vec (x : VReg)
  | word (x : Word)
  | gone
  deriving DecidableEq, Repr

/-- One write of the current run, kept until the run ends (R145-R147): the register by its index in
Table 3.4, the value it held before, the nominal time of the writer and the three latencies of its
row of Table 6.1 or 7.1. -/
structure LateWrite where
  reg : Nat
  old : OldVal
  at_ : Nat
  latT : Nat
  latV : Nat
  latS : Nat
  deriving DecidableEq, Repr

/-- Registers bound to a token that is set (R148): those that the pending instruction writes, and the
sources of a memory or atomics instruction. `reg` is the first index in Table 3.4. -/
structure PendReg where
  tok : Nat
  wr : Bool
  reg : Nat
  span : Nat
  deriving DecidableEq, Repr

/-- The prefixes read before the instruction to come (R82-R84): the address of the first one, XIMM's
address and upper half, and XFMT's address. -/
structure Prefix where
  start : Option DWord
  ximm : Option (DWord × Word)
  xfmt : Option DWord
  deriving DecidableEq, Repr

/-- No prefix. -/
def Prefix.none : Prefix := ⟨Option.none, Option.none, Option.none⟩

/-- A wave's arrival record (R318). -/
inductive Arrival where
  | none
  | pending (off : Nat)
  | complete (off : Nat) (res : Word)
  deriving DecidableEq, Repr

/-- Who made a release. -/
inductive Agent where
  | wave | hw | host
  deriving DecidableEq, Repr

/-- A release as a location remembers it: its scope, and the releasing agent with its place (R293). The unit tells
a group from a later one that has its number (R320). -/
structure RelInfo where
  scope : Scope
  by_ : Agent
  key : WaveKey
  place : Place
  unit : Nat
  deriving DecidableEq, Repr

/-- An earlier read of a wave that found releases: the releases, the address, and where the wave's group ran then
(R288, R297). -/
structure OldRead where
  rels : List RelInfo
  addr : DWord
  place : Place
  deriving DecidableEq, Repr

/-- What a wave outside a run waits for (R143, R372 wait code). -/
inductive Wait where
  | none
  /-- WAITPRED at the address kept, for the launch or satisfied link (R105) -/
  | waitpred (pc : DWord)
  /-- BAR or BARWT on the arrival record; the result goes to the operand (R319) -/
  | barrier (off : Nat) (d : Opnd)
  /-- QLOCK on the lock word at a DPA and VA (R321) -/
  | lock (dpa : Nat) (va : DWord) (scope : Option Scope)
  /-- QPUSH or QPOP on the descriptor at a DPA: the lanes, the operand, the items pushed, and the cause and
  address of the ring slot that it is parked on, in its place in the list (R323) -/
  | queue (dpa : Nat) (va : DWord) (push : Bool) (m : Mask) (d : Opnd) (items : List DWord) (scope : Option Scope)
      (stop : Option (Cause × DWord))
  /-- CTRWAIT on the counter at a DPA (R327) -/
  | counter (dpa : Nat) (va : DWord) (thr : Int) (scope : Option Scope) (swap : Bool)
  /-- SLEEPW (R157), with the clock value at which its sleep ends -/
  | sleep (until_ : Option DWord)
  /-- CNTWAIT (R258) -/
  | cntwait (c : EngClass) (n : Nat)
  /-- parked on a translation fault or an unhandled BRKPT: the cause and the address (R355, R360) -/
  | parked (c : Cause) (va : DWord)
  /-- parked at LNCH or TASKQ for a pending-launch queue entry (R103), or at FETCHW for the group's mailbox
  and a scoreboard entry (R136); the instruction is issued again -/
  | retry (fetchw : Bool)
  /-- ROWWAIT for a line with a lead; d receives DSPLINE (R393) -/
  | row (line : Int) (lead : Nat) (d : Opnd)
  /-- TLBINV until the shoot-down ends (R368) -/
  | shootdown
  /-- LAYERPS until the power change ends and the named layers of each tower, as masks, end their transitions;
  the instruction is issued again (R275, R421) -/
  | layers (m0 m1 : Nat)
  /-- SLOTREL until no sector of the job is queued in the named towers; it is issued again (R274) -/
  | slots (job : Nat) (t0 t1 : Bool)
  deriving DecidableEq, Repr

/-- What an engine command does (R250-R257, R210, R271, R273, R345, R389). -/
inductive EngOp where
  /-- CPY: direction, local offset, shape record, coordinates -/
  | cpy (toLocal : Bool) (lo : Nat) (shape : BitVec 512) (co : List Int)
  /-- CPYB: first B-store byte of the core's slice -/
  | cpyb (off : Nat) (shape : BitVec 512) (co : List Int)
  /-- GTHR: destination register, active lanes, coordinates per dimension -/
  | gthr (d : Nat) (m : Mask) (shape : BitVec 512) (co : List Lanes)
  /-- SCTR: data, active lanes, coordinates per dimension -/
  | sctr (data : Lanes) (m : Mask) (shape : BitVec 512) (co : List Lanes)
  /-- a broadcast write whose sectors are still to be transmitted -/
  | sectors (left : Nat)
  /-- BCAST: towers, first window offset, shape, coordinates, and whether the sectors are queued -/
  | bcast (t0 t1 : Bool) (off : Nat) (shape : BitVec 512) (co : List Int) (queued : Bool) (left : Nat)
  /-- MZST: the handle's entry, words by offset in the handle per quarter, whether they are added and as
  F32, the scope of its own release, and the releases that its writes make (R210, R297) -/
  | mzst (e : BitVec 256) (cells : List (List (Nat × Word))) (add : Bool) (f32 : Bool) (own : Option Scope)
      (rel : List RelInfo)
  /-- RAYQ: the ray slot -/
  | ray (slot : Nat)
  /-- EYEBOR: destination, pk, pl, lanes, window, deadline tick and first rank -/
  | eyebor (d pk pl : Nat) (m : Mask) (win : DWord) (dl : Word) (r0 : Word)
  deriving DecidableEq, Repr

/-- An engine command in progress (R371 engine record): class, work, element reached, token held,
completion counter with its scope, parked state and the errors to report at CNTWAIT (R257, R307). -/
structure EngCmd where
  /-- MODEL: its number, by which its sectors name it -/
  num : Nat
  cls : EngClass
  op : EngOp
  next : Nat
  tok : Option Nat
  ctr : Option DWord
  scope : Option Scope
  parked : Bool
  err : List TrapInfo
  /-- address of its instruction, for records (R357) -/
  pc : DWord
  /-- its command word, and the address of its shape record, 0 for none (R371) -/
  word : BitVec 96
  shapeAt : DWord
  deriving DecidableEq, Repr

/-- A ray slot (R345, R346, Table 14.7): the eight ray registers, the lanes submitted, CULLB, ANY,
the handle, and the lanes' results (t, u, v, id) with a status code of Table 14.7. -/
structure RaySlot where
  rays : List Lanes
  m : Mask
  cullb : Bool
  any_ : Bool
  handle : Nat
  pend : Bool
  status : List Nat
  res : List Lanes
  deriving DecidableEq, Repr

/-- A SCAN under way (R220, R430): SCB copy, destination, token, the step reached by each group of 8
channels, the F32 state h[p][d] at p·D + d, the flags raised so far, and the cause and address that it
is parked on. -/
structure ScanProg where
  scb : BitVec 1024
  d : Opnd
  tok : Nat
  done : Table Nat
  state : Table Word
  fl : BitVec 6
  stop : Option (Cause × DWord)
  /-- address of its instruction, for records (R357) -/
  pc : DWord
  deriving DecidableEq, Repr

/-- A row segment in flight (R394): the token that it holds, its line, the status destination, and its
pixels by x. -/
structure RowSeg where
  tok : Nat
  line : Int
  d : Opnd
  px : List (Nat × Word)
  deriving DecidableEq, Repr

/-- One wave (R152, Table 14.7). -/
structure Wave where
  job : Nat
  gid : Nat
  idx : Nat
  /-- false once the wave has ended (R157) -/
  alive : Bool
  pc : DWord
  /-- MODEL: where the instruction under way goes next -/
  npc : DWord
  em : Mask
  live : Mask
  /-- mask stack, top first (R152) -/
  stack : List Mask
  sregs : Table Word
  vregs : Table VReg
  temps : Table VReg
  preds : Table Mask
  tiles : Table Tile
  /-- tokens set (R69), and the registers bound to them (R148) -/
  tokens : BitVec 6
  pend : List PendReg
  /-- issue port of the run (R142) -/
  port : Nat
  /-- job control word as of the run's start (R351) -/
  jctl : DWord
  inRun : Bool
  /-- words of the run so far (R142) -/
  runLen : Nat
  /-- nominal time within the run (R146) -/
  time : Nat
  late : List LateWrite
  pfx : Prefix
  await : BitVec 6
  yielded : Bool
  passes : Nat
  wflags : BitVec 6
  sbchk : Bool
  tvec : DWord
  tepc : DWord
  cause : BitVec 6
  after : Bool
  inh : Bool
  info : BitVec 16
  taddr : DWord
  tmask : Mask
  tem : Mask
  mmScope : Bool
  /-- widest scope at which each later write acts as a release, after releasing fences (R297) -/
  fenceRel : Option Scope
  /-- earlier reads of the wave that found releases (R297, R303) -/
  relReads : List OldRead
  openLost : Bool
  mismatch : BitVec 16
  arrival : Arrival
  wait : Wait
  /-- its wait outside a run goes on, or no clock has passed since its end (R376) -/
  waited : Bool
  /-- wave tag of the next waiter (R320, R322) -/
  link : Word
  parkedMask : Mask
  /-- the token of the instruction that left its run parked, which the image shows among the tokens (R372) -/
  parkTok : Option Nat
  wakePend : Bool
  cmds : List EngCmd
  /-- errors of completed commands, to be reported at the next CNTWAIT of their class (R257, R307) -/
  engErr : List (EngClass × TrapInfo)
  rays : Table RaySlot
  /-- row segments that the display port has not performed yet, in program order (R394) -/
  segs : List RowSeg
  scan : Option ScanProg
  dogCount : Nat
  slot : Nat
  /-- its place among the claims for a pending-launch queue entry, while it is parked for one (R95) -/
  claim : Option Nat
  /-- an enabled flag's trap or another after-trap still to be taken -/
  pendTrap : Option TrapInfo
  deriving DecidableEq, Repr

/-- The wave before any group has started: its job number is that of no job (log 3). -/
def Wave.empty : Wave :=
  { job := 4096, gid := 0, idx := 0, alive := false, pc := 0, npc := 0, em := 0xFFFFFFFF,
    live := 0xFFFFFFFF, stack := [], sregs := [], vregs := [], temps := [], preds := [],
    tiles := [], tokens := 0, pend := [], port := 0, jctl := 0, inRun := false, runLen := 0, time := 0, late := [],
    pfx := .none, await := 0, yielded := false, passes := 0,
    wflags := 0, sbchk := false, tvec := 0, tepc := 0, cause := 0, after := false, inh := false,
    info := 0, taddr := 0, tmask := 0, tem := 0, mmScope := false, fenceRel := Option.none, relReads := [], openLost := false,
    mismatch := 0, arrival := .none, wait := .none, waited := false, link := 0, parkedMask := 0, parkTok := Option.none,
    wakePend := false, cmds := [], engErr := [], rays := [], segs := [], scan := Option.none, dogCount := 0, slot := 0, claim := Option.none,
    pendTrap := Option.none }

/-- A translation register (R229): handle number, entry copy (32 bytes), DPA of BASE, extent E, LRU rank. -/
structure TransReg where
  handle : Nat
  entry : BitVec 256
  base : Nat
  ext : Nat
  rank : Nat
  /-- the pages that E covers: VA and size of each leaf (R229) -/
  pages : List (Nat × Nat)
  deriving DecidableEq, Repr

/-- A live range of the range scoreboard (R251): the bytes [lo, hi), and whether it is a write entry;
`owner` is the class whose oldest command retires it, or the FETCHW mailbox. -/
structure Range where
  lo : Nat
  hi : Nat
  write : Bool
  wave : Nat
  mailbox : Bool
  deriving DecidableEq, Repr

/-- The fetch state of a persistent group (R136, R137, Table 14.6). -/
structure Fetch where
  /-- named launch by its record address -/
  launch : DWord
  mailbox : Nat
  pending : Bool
  /-- linear index of the fetched tile, when one is held -/
  tile : Option Nat
  deriving DecidableEq, Repr

/-- The states of a unit (Table 5.1); `queued` names a layer queue and, once moved, a cluster. -/
inductive UState where
  | held
  | queued (l : Nat) (c : Option Nat)
  | placed
  | running
  | saved
  | swapped
  | retired
  deriving DecidableEq, Repr

/-- One group (R14, R371). -/
structure Group where
  job : Nat
  gid : Nat
  /-- the unit it belongs to -/
  unit : Nat
  /-- accepted task record (R23, R26) -/
  task : BitVec 512
  waves : Nat
  /-- member of a gang (R123) -/
  gang : Bool
  /-- size in bytes of the local space it addresses (R227) -/
  space : Nat
  tower : TowerId
  layer : LayerId
  core : CoreId
  slot : Nat
  /-- resident on its core: false while saved or swapped (Table 5.1) -/
  resident : Bool
  started : Bool
  ended : Bool
  /-- ended by R355, or cancelled: its waves end at their next run boundary -/
  kill : Bool
  /-- cancelled: what its waves leave unfinished is abandoned (R22, R374) -/
  drop : Bool
  /-- it is to be saved: by a swap-out (R327), or by pre-emption (R370); its waves start no new run -/
  swapWant : Bool
  stop : Bool
  /-- tick of the decision to pre-empt it (R140) -/
  stopAt : Option Nat
  /-- the core on which it last ran, until its regions are copied; their bytes when that layer went off (R201) -/
  ranAt : Option Place
  regions : Option (List Host.Cell)
  trs : Table TransReg
  /-- region slots: base and length (R198) -/
  slots : Table (Nat × Nat)
  board : List Range
  /-- open-write list, oldest first: sectors by DPA div 32; their byte masks stand in the open tags (R306) -/
  opens : List Nat
  fetch : Option Fetch
  /-- position block: x, y, t of each draw (R337) -/
  posblk : List (BitVec 16 × BitVec 16 × Word)
  /-- the cause that a restore of its image refuses it with, when its image is bad (R373), and the address that failed
  (R358, R375) -/
  imgBad : Option (Cause × DWord)
  /-- its context image in the save pool, while it is saved or swapped: the bytes that are not zero, by offset (R371) -/
  image : Option (List Host.Cell)
  deriving DecidableEq, Repr

/-- The group before any has started: its job number is that of no job (log 3). -/
def Group.empty : Group :=
  { job := 4096, gid := 0, unit := 0, task := 0, waves := 0, gang := false, space := 0,
    tower := 0, layer := 0, core := 0, slot := 0, resident := false, started := false,
    ended := true, kill := false, drop := false, swapWant := false, stop := false, stopAt := none, ranAt := none, regions := none, trs := [], slots := [], board := [],
    opens := [], fetch := none, posblk := [], imgBad := none, image := none }

/-- A predecessor link (R96). -/
inductive Link where
  | none
  | pending (launch : Nat)
  | satisfied
  | cancelled
  deriving DecidableEq, Repr

/-- One unit of work: a task, or all groups of one tile of a gang launch (R16, R118). -/
structure WorkUnit where
  id : Nat
  job : Nat
  tower : TowerId
  /-- address of the launch or task record that it was made from; 0 for none -/
  recVa : DWord
  /-- one accepted task record per group, in placement order (R123) -/
  tasks : List (BitVec 512)
  /-- identity of the launch it belongs to, and its linear index -/
  launch : Option Nat
  lin : Nat
  st : UState
  layer : Nat
  cluster : Nat
  /-- order of acceptance (R125) -/
  seq : Nat
  link : Link
  /-- started its first run (R99) -/
  started : Bool
  cancelled : Bool
  /-- the pending trigger that made it, by number (R114) -/
  trigger : Option Nat
  /-- tick of its tower's time base at which its work was accepted (R391) -/
  since : Nat
  /-- positions of a sample unit (R336) -/
  posblk : List (BitVec 16 × BitVec 16 × Word)
  /-- who made its task, as R358 codes it, 4 a Lantern -/
  src : Nat
  /-- tick at which the saved or swapped unit became ready (R131) -/
  readyAt : Nat
  /-- MODEL: order in which units were placed (R139) -/
  placed : Nat
  deriving DecidableEq, Repr

/-- One accepted launch (R27, R31, R92). `image` is the copy of bytes 0-111 (R32), low bytes first. -/
structure Launch where
  id : Nat
  addr : DWord
  /-- DPA of the record, as its claim found it, and of its graph's record; 0 for none -/
  dpa : Nat
  graphAt : Nat
  job : Nat
  tower : TowerId
  image : BitVec 1024
  issued : Nat
  retired : Nat
  state : BitVec 4
  req : Bool
  reason : BitVec 8
  link : Link
  /-- linear indices hinted (R97) -/
  hinted : List Nat
  /-- next tile never dealt (R128) -/
  next : Nat
  /-- tiles dealt so far in each tower under the current pattern (R128) -/
  k0 : Nat
  k1 : Nat
  /-- tiles withdrawn by FETCHW or expanded by the host (R136, R416) -/
  taken : List Nat
  depth : Nat
  seq : Nat
  /-- tick of its tower's time base at its acceptance (R391) -/
  since : Nat
  /-- cancelled because no core can hold a unit of it (R122) -/
  gangfail : Bool
  /-- who submitted it, as R358 codes it: 0 a wave, 1 the host, 2 a successor block, 3 Advent -/
  src : Nat
  /-- its tiles are expanded by the host (R94, R416) -/
  hostExp : Bool
  deriving DecidableEq, Repr

/-- One job (R33, R351): its record's DPA, tables and live control words. -/
structure Job where
  id : Nat
  recAt : Nat
  /-- the virtual address by which the job names its record (R358, log 75) -/
  recVa : DWord
  ptroot : DWord
  htab : DWord
  /-- the live control word, as each tower holds it (R351) -/
  jctl0 : DWord
  jctl1 : DWord
  /-- live in each tower: it has accepted work of the job (R351, R352) -/
  live0 : Bool
  live1 : Bool
  /-- it has retired, and is live no more (R17) -/
  retired : Bool
  /-- a cancellation has been requested (R99) -/
  req : Bool
  reason : BitVec 8
  deriving DecidableEq, Repr

/-- A graph or phase record that the hardware knows: it has accepted a child of it, or a request for it (R18, R21,
R99). `kind` is 1 for a graph and 2 for a phase. -/
structure LiveLevel where
  job : Nat
  /-- DPA of the record -/
  at_ : Nat
  kind : Nat
  /-- DPA of its parent's record, as its first use found it -/
  up : Nat
  /-- accepted: counted into its parent (R18) -/
  counted : Bool
  /-- a cancellation has been requested, with its reason -/
  req : Bool
  reason : BitVec 8
  /-- the address by which its first use named the record -/
  va : DWord
  deriving DecidableEq, Repr

/-- A pending-launch queue entry (Table 4.2): held by a launch, or by a task's unit; entries stand in the order
of their claims (R95). -/
structure PlqEntry where
  job : Nat
  gid : Nat
  /-- unit of the group that owns the queue: a later group may have its number (R95, R320) -/
  owner : Nat
  launch : Option Nat
  unit : Option Nat
  deriving DecidableEq, Repr

/-- A step of the hardware at a retirement (R17, R20, R379): an address as the record `rec` names it. -/
inductive HwStep where
  /-- decrement the successor block at an address (R20) -/
  | block (va rec : DWord)
  /-- submit the launch record at an address, by the dispatcher of a tower (R20, R424) -/
  | submit (va rec : DWord) (t : TowerId)
  /-- subtract 1 from a completion counter (R19) -/
  | done (va rec : DWord)
  /-- add 1 to RETIRED of a launch, by its number (R19) -/
  | tile (launch : Nat)
  /-- decrement the counter of a record of a KIND (R17) -/
  | level (va rec : DWord) (kind : Nat)
  /-- decrement the job's counter (R18) -/
  | job
  /-- read the cancel words that a task's unit follows (R100), before it is dealt or started -/
  | look (unit : Nat)
  /-- write STATUS of a launch, by its number, as it then stands: held while the link keeps the write waiting (R284) -/
  | status (launch : Nat)
  /-- write the cancel word of the live launch (`lvl` clear) or known level of the job whose record stands at a DPA, held
  in the same way (R99, R284) -/
  | request (lvl : Bool) (dpa : Nat)
  deriving DecidableEq, Repr

/-- A held hardware use of a record address (R423): the job, the tower of the work, the DEPTH that its
writes carry, and the steps still to be performed, the held one first. -/
structure HeldUse where
  job : Nat
  tower : TowerId
  depth : Nat
  todo : List HwStep
  /-- tick of its tower's time base at which it is tried again -/
  due : Nat
  deriving DecidableEq, Repr

/-- An installed watch entry: the image of Table 4.4 and the frames it watches (R429). -/
structure WatchEntry where
  image : BitVec 512
  /-- DPAs of the 64 KiB units of the range, in range order, when BCAST is clear -/
  frames : List Nat
  deriving DecidableEq, Repr

/-- A pending trigger (R114). -/
structure Trigger where
  num : Nat
  job : Nat
  entry : Nat
  line : Nat
  dirty : BitVec 16
  depth : Nat
  changes : Nat
  isOpen : Bool
  host : Bool
  /-- of a submission range: whether the slot lies in the window, its offset or DPA, and its address (R116) -/
  slot : Option (Bool × Nat × DWord)
  deriving DecidableEq, Repr

/-- A change on its way to the pending-trigger table (R113). `line` is the offset of the line in the
range in granules. -/
structure Change where
  job : Nat
  entry : Nat
  line : Nat
  mask : BitVec 16
  depth : Nat
  host : Bool
  deriving DecidableEq, Repr

/-- How the bytes of a sector come about: as given, or the larger cells of R340 with .MAX. -/
structure Sector where
  job : Nat
  unit : Nat
  bytes : List (Nat × Byte)
  max : Bool
  /-- the wave and the number of the BC command that it belongs to -/
  owner : WaveKey
  cmd : Nat
  depth : Nat
  /-- the releases that the write makes (R271) -/
  rel : List RelInfo
  /-- a watch table write that takes effect with the sector: entry number and the new entry (R110, R111) -/
  watch : Option (Nat × Option WatchEntry)
  deriving DecidableEq, Repr

/-- A fault record (Table 14.4), as its 64 bytes. -/
structure FaultRec where
  job : Nat
  bits : BitVec 512
  /-- awaited by a parked wave or command, so never dropped (R359) -/
  awaited : Bool
  /-- sent to the host's record queue instead of the job's fault queue (R362, R414) -/
  host : Bool
  deriving DecidableEq, Repr

/-- The power states of a layer (Table 10.5). -/
inductive LayerSt where
  | awake | doze | off
  deriving DecidableEq, Repr

/-- A layer: its state, the state a transition leads to, and a further one queued after it (R275, R278). -/
structure Layer where
  st : LayerSt
  goal : Option LayerSt
  after : Option LayerSt
  deriving DecidableEq, Repr

/-- A rejoining layer's copy (R279): next 64-byte unit to land, the unit read ahead, and the rejoin
buffer, with the restarts of this rejoin. -/
structure Rejoin where
  layer : Nat
  landed : Nat
  readTo : Nat
  buf : List Sector
  restarts : Nat
  deriving DecidableEq, Repr

/-- One tower (R1). -/
structure Tower where
  /-- control registers by number; unlisted ones hold their reset value -/
  csr : Table Word
  /-- 64-bit clock counters by layer * 16 + core (R428) -/
  clk : Table DWord
  /-- by port * 128 + layer * 16 + core: waves in the order in which they last started a run at the
  port, latest first (R143) -/
  ports : Table (List WaveKey)
  /-- time base in 4 ns ticks (R6) -/
  now : Nat
  /-- the Almanac in force, its shadow, and a committed image that waits for its period (R263) -/
  almanac : Table Word
  shadow : Table Word
  almNext : Option (Table Word)
  bcast : List Host.Cell
  /-- table frames allotted, with their jobs (R109) -/
  frames : Table Nat
  watches : Table WatchEntry
  triggers : List Trigger
  changes : List Change
  trigSeq : Nat
  /-- tasks created in the current rate window by job * 64 + entry (R114) -/
  rateCnt : Table Nat
  /-- number of the window that they belong to -/
  rateWin : Nat
  sectors : List Sector
  layers : List Layer
  /-- copies under way, one for each rejoining layer (R279) -/
  rejoin : List Rejoin
  bstore : List Host.Cell
  damask : Table (BitVec 256)
  /-- pins: layer, line DPA, job (R236) -/
  pins : List (Nat × Nat × Nat)
  /-- Lantern: sweep number, its start tick (the tick at which EN was set, before sweep 0 starts), and the blocks
  still to be emitted with their numbers (R331-R335) -/
  sweep : Nat
  sweepAt : Nat
  sweeping : Bool
  draws : List (Nat × List (BitVec 16 × BitVec 16 × Word))
  /-- writes of Lantern registers that take effect at the next sweep start (R330) -/
  lntNext : Table Word
  /-- the broadcast space as of each sweep start that has passed and is still to be served, oldest first (R331) -/
  lntSnaps : List (List Host.Cell)
  /-- pixels of the port buffer, by line * 3840 + x (R392), and the line last lit -/
  pixels : Table Word
  lit : Table Word
  /-- the next line to light -/
  dspNext : Int
  /-- the next band whose deadline has not passed (R391) -/
  dspBand : Int
  panelLock : Bool
  memStall : Bool
  memRate : BitVec 2
  armLine : Option Int
  armRate : BitVec 2
  access : Table (BitVec 128)
  recs : List FaultRec
  seq : Word
  hostWin : Table Word
  bootDigest : BitVec 256
  /-- VERSION of the running image (R419) -/
  bootVersion : Nat
  /-- the image that T0 sends to T1 while it is verified there, as bytes (R417) -/
  bootImg : List Byte
  /-- ENTRY of the image at which the firmware started (R417) -/
  fwEntry : Option Nat
  /-- a report under way: its DPA and its bytes (R419) -/
  att : Option (Nat × List Byte)
  /-- tick by which the last write of an access table register has reached every target (R286) -/
  atDone : Nat
  deriving DecidableEq, Repr

/-- The tower link (R284). -/
structure LinkSt where
  retraining : Bool
  failures : Nat
  down : Bool
  deriving DecidableEq, Repr

/-- The fuses (R417, R418). -/
structure Fuses where
  rootHash : BitVec 256
  seed : BitVec 256
  rollback : Nat
  deriving DecidableEq, Repr

/-- The state of the device. -/
structure State where
  wave : Wave
  group : Group
  waves : List Wave
  groups : List Group
  units : List WorkUnit
  launches : List Launch
  jobs : List Job
  levels : List LiveLevel
  plq : List PlqEntry
  held : List HeldUse
  mem : List Host.Cell
  locals : Table (List Host.Cell)
  /-- poisoned 32-byte sectors by DPA div 32, with the structure code (R375) -/
  poison : Table Nat
  /-- open tags: sector DPA div 32 to (job, group, mask) (R306) -/
  opens : Table (Nat × Nat × Mask)
  /-- the releases that a read of a location finds, by location key: those of its last plain or ordered store, and
  of the atomics that followed it (R294, R300, R303) -/
  rels : Table (List RelInfo)
  tower0 : Tower
  tower1 : Tower
  link : LinkSt
  fuses : Fuses
  /-- migration (R282): the first tick of a count of remote accesses and the count, by frame; the starts of the
  windows of 1 ms, by page table entry -/
  remote : Table (Nat × Nat)
  migs : Table Nat
  /-- the mode that a power change in progress leads to, and the GOs that wait for its end (R421) -/
  powerNow : Option (BitVec 2)
  powerNext : List (BitVec 2 × Bool)
  /-- a clock step is in progress: no core issues (R421); the CLK that it leads to -/
  clockStop : Bool
  clkGoal : Nat
  /-- the thermal limit has lowered the clock since the last GO (R421) -/
  hot : Bool
  /-- host accesses that wait for the end of a retraining (R284) -/
  hostHeld : List Instr
  inbox : List Instr
  turns : List WaveKey
  /-- waves whose waited counter a write has satisfied (R327) -/
  ctrHits : List WaveKey
  stalled : Bool
  /-- MODEL: how many free values have been taken -/
  free : Nat
  /-- MODEL: acceptance order, unit and launch numbers given out -/
  seq : Nat
  deriving DecidableEq, Repr

/-- A tower right after reset: every register at its table's reset value, every layer awake (Table 10.6). -/
def Tower.reset : Tower :=
  { csr := [], clk := [], ports := [], now := 0, almanac := [], shadow := [], almNext := none, bcast := [], frames := [],
    watches := [], triggers := [], changes := [], trigSeq := 0, rateCnt := [], rateWin := 0, sectors := [],
    layers := List.replicate 8 ⟨.awake, none, none⟩, rejoin := [], bstore := [], damask := [],
    pins := [], sweep := 0, sweepAt := 0, sweeping := false, draws := [], lntNext := [], lntSnaps := [],
    pixels := [], lit := [], dspNext := 0, dspBand := 0, panelLock := true, memStall := false, memRate := 0,
    armLine := none, armRate := 0, access := [], recs := [], seq := 0, hostWin := [],
    bootDigest := 0, bootVersion := 0, bootImg := [], fwEntry := none, att := none, atDone := 0 }

/-- The device right after reset: no work, cores held in reset until the firmware starts (R417). -/
def State.reset : State :=
  { wave := Wave.empty, group := Group.empty, waves := [], groups := [], units := [],
    launches := [], jobs := [], levels := [], plq := [], held := [], mem := [], locals := [],
    poison := [], opens := [], rels := [], tower0 := Tower.reset, tower1 := Tower.reset,
    link := ⟨false, 0, false⟩, fuses := ⟨0, 0, 0⟩, remote := [], migs := [], powerNow := none, powerNext := [],
    clockStop := false, clkGoal := 0, hot := false, hostHeld := [], inbox := [], turns := [], ctrHits := [], stalled := false, free := 0, seq := 0 }

end Sys2Proof.Machine
end

