-- ==== Sys2Proof/Machine/Cells.lean ====
section
/-! DEFINITION. Sparse tables and byte memories in canonical form: keys strictly rising, and no entry
equal to what an unlisted key reads as. Every store of the machine is read and written through
these operations. Bytes are little-endian (R5). -/

namespace Sys2Proof.Machine

/-- The value at key `k`; an unlisted key reads as `d`. -/
def Table.get {α : Type} (d : α) : Table α → Nat → α
  | [], _ => d
  | (i, x) :: m, k => if k = i then x else Table.get d m k

/-- Remove the entry at key `k`. -/
def Table.erase {α : Type} (m : Table α) (k : Nat) : Table α := m.filter fun e => e.1 ≠ k

/-- Insert an entry before the first of a higher key. -/
def Table.insert {α : Type} : Table α → Nat → α → Table α
  | [], k, y => [(k, y)]
  | (i, x) :: m, k, y => if k < i then (k, y) :: (i, x) :: m else (i, x) :: Table.insert m k y

/-- Insert or replace the entry at key `k`, whatever its value. -/
def Table.put {α : Type} (m : Table α) (k : Nat) (y : α) : Table α := Table.insert (Table.erase m k) k y

/-- Write `y` at key `k` of a table whose unlisted keys read `d`; the canonical form is kept. -/
def Table.set {α : Type} [DecidableEq α] (d : α) (m : Table α) (k : Nat) (y : α) : Table α :=
  if y = d then Table.erase m k else Table.put m k y

/-- Is key `k` listed? -/
def Table.find {α : Type} : Table α → Nat → Option α
  | [], _ => none
  | (i, x) :: m, k => if k = i then some x else Table.find m k

/-- Every key of the table lies above `k`. -/
def Table.above {α : Type} (k : Nat) : Table α → Bool
  | [] => true
  | (i, _) :: _ => decide (k < i)

/-- The canonical form: keys strictly rising and no entry equal to `d`. -/
def Table.wf {α : Type} [DecidableEq α] (d : α) : Table α → Bool
  | [] => true
  | (i, x) :: m => decide (x ≠ d) && Table.above i m && Table.wf d m

/-- What a byte of memory that nothing has written reads as: 0 (log 1). -/
def Mem.blank : Byte := 0

/-- One byte of a memory. -/
def Mem.read (m : List Host.Cell) (a : Nat) : Byte := Table.get Mem.blank m a

/-- Store one byte. -/
def Mem.write (m : List Host.Cell) (a : Nat) (x : Byte) : List Host.Cell := Table.set Mem.blank m a x

/-- The canonical form of a memory. -/
def Mem.wf (m : List Host.Cell) : Bool := Table.wf Mem.blank m

/-- `n` bytes from address `a` upwards. -/
def Mem.readBytes (m : List Host.Cell) (a : Nat) : Nat → List Byte
  | 0 => []
  | n + 1 => Mem.read m a :: Mem.readBytes m (a + 1) n

/-- Store a list of bytes from address `a` upwards. -/
def Mem.writeBytes (m : List Host.Cell) (a : Nat) : List Byte → List Host.Cell
  | [] => m
  | x :: xs => Mem.writeBytes (Mem.write m a x) (a + 1) xs

/-- The little-endian number of a list of bytes (R5). -/
def Mem.number : List Byte → Nat
  | [] => 0
  | x :: xs => x.toNat + 256 * Mem.number xs

/-- `n` little-endian bytes of a number (R5). -/
def Mem.bytes (x : Nat) : Nat → List Byte
  | 0 => []
  | n + 1 => BitVec.ofNat 8 x :: Mem.bytes (x / 256) n

/-- The `n`-byte little-endian number at address `a`. -/
def Mem.readNat (m : List Host.Cell) (a n : Nat) : Nat := Mem.number (Mem.readBytes m a n)

/-- Store the low `n` bytes of a number at address `a`. -/
def Mem.writeNat (m : List Host.Cell) (a n x : Nat) : List Host.Cell :=
  Mem.writeBytes m a (Mem.bytes x n)

/-- The 64-bit word at address `a`. -/
def Mem.read64 (m : List Host.Cell) (a : Nat) : DWord := BitVec.ofNat 64 (Mem.readNat m a 8)

/-- Store a 64-bit word at address `a`. -/
def Mem.write64 (m : List Host.Cell) (a : Nat) (x : DWord) : List Host.Cell :=
  Mem.writeNat m a 8 x.toNat

/-- The memory with every byte of [a, a + n) back at the blank value (the zero-fill of R235). -/
def Mem.blankRange (m : List Host.Cell) (a n : Nat) : List Host.Cell :=
  m.filter fun c => c.1 < a || a + n ≤ c.1

/-- Bits [hi:lo] of a word. -/
def bits {w : Nat} (x : BitVec w) (hi lo : Nat) : Nat := (x.toNat / 2 ^ lo) % 2 ^ (hi + 1 - lo)

/-- Bit i of a lane mask (R5). -/
def laneOn (m : Mask) (i : Nat) : Bool := m.getLsbD i

/-- A mask from a test of each lane. -/
def maskOf (f : Nat → Bool) : Mask :=
  (List.range 32).foldr (fun i m => if f i then m ||| (1#32 <<< i) else m) 0

/-- The lanes set in a mask, ascending. -/
def lanesOf (m : Mask) : List Nat := (List.range 32).filter (laneOn m)

/-- Merge two lane vectors under a mask: the new value where the lane is set. -/
def mergeLanes (m : Mask) (new old : Lanes) : Lanes :=
  Vector.ofFn fun i : Fin 32 => if laneOn m i.val then new[i] else old[i]

/-- The same word in every lane. -/
def splat (x : Word) : Lanes := Vector.replicate 32 x

/-- The lane vector of a function of the lane index. -/
def lanesFn (f : Nat → Word) : Lanes := Vector.ofFn fun i : Fin 32 => f i.val

/-- Lane i of a lane vector; 0 beyond lane 31. -/
def laneAt (x : Lanes) (i : Nat) : Word := x[i]?.getD 0

end Sys2Proof.Machine
end

