-- ==== Sys2Proof/Machine/Form.lean ====
section
/-! DEFINITION. The form of each instruction (Tables 3.3 to 3.8 and the encoding rows of each
chapter): what each operand position of the word may name, how many registers it spans, which tags
a source may carry (R58), which modifier and extension bits are assigned, and the token, guard and
END rules. Decode.lean judges a word by its form, and Machine/Ops.lean makes the checks that need
the wave by the same form. -/

namespace Sys2Proof

/-- The special operand of a code, counted from index 472 (Table 3.5). -/
def Special.ofCode : Nat → Special
  | 0 => .nil | 1 => .laneid | 2 => .em | 3 => .clk | 4 => .waveslot | 5 => .grpslot
  | 6 => .tileco | _ => .trigmask

/-- The operand at an index of Table 3.4; none for the reserved indexes 480-495 (R73). -/
def Opnd.ofIndex (n : Nat) : Option Opnd :=
  if h : n < 320 then some (.v ⟨n, h⟩)
  else if h : n - 320 < 128 then some (.s ⟨n - 320, h⟩)
  else if h : n - 448 < 8 then some (.t ⟨n - 448, h⟩)
  else if h : n - 456 < 16 then some (.p ⟨n - 456, h⟩)
  else if n < 480 then some (.sp (Special.ofCode (n - 472)))
  else if n < 496 then none
  else if h : n - 496 < 16 then some (.z ⟨n - 496, h⟩)
  else none

/-- The index of an operand (Table 3.4). -/
def Opnd.index : Opnd → Nat
  | .v n => n
  | .s n => 320 + n
  | .t n => 448 + n
  | .p n => 456 + n
  | .sp .nil => 472 | .sp .laneid => 473 | .sp .em => 474 | .sp .clk => 475
  | .sp .waveslot => 476 | .sp .grpslot => 477 | .sp .tileco => 478 | .sp .trigmask => 479
  | .z n => 496 + n

/-- The first register of the operand within its file. -/
def Opnd.num : Opnd → Nat
  | .v n => n | .s n => n | .t n => n | .p n => n | .z n => n | .sp _ => 0

namespace Machine

def isV : Opnd → Bool | .v _ => true | _ => false
def isS : Opnd → Bool | .s _ => true | _ => false
def isT : Opnd → Bool | .t _ => true | _ => false
def isP : Opnd → Bool | .p _ => true | _ => false
def isZ : Opnd → Bool | .z _ => true | _ => false
def isNil : Opnd → Bool | .sp .nil => true | _ => false
def isEm : Opnd → Bool | .sp .em => true | _ => false
def isSp : Opnd → Bool | .sp _ => true | _ => false
/-- A uniform operand: an s register or a special operand other than `laneid` (R76). -/
def isUni : Opnd → Bool | .s _ => true | .sp .laneid => false | .sp _ => true | _ => false
/-- The bits of `mod` from lo to hi. -/
def mbits (f : Fields) (hi lo : Nat) : Nat := bits f.mod hi lo
/-- The bits of `ext` from lo to hi. -/
def ebits (f : Fields) (hi lo : Nat) : Nat := bits f.ext hi lo
/-- The immediate bit of Table 3.7. -/
def immOn (f : Fields) : Bool := f.mod.getLsbD 6
/-- .SAT of Table 3.7. -/
def satOn (f : Fields) : Bool := f.mod.getLsbD 5
/-- The type selector of Table 3.7. -/
def tsel (f : Fields) : Nat := mbits f 2 0
/-- The rounding code of Table 3.6. -/
def rndOf (n : Nat) : Rnd := match n with | 0 => .rne | 1 => .rz | 2 => .ru | _ => .rd
/-- The rounding mode of Table 3.7. -/
def rnd (f : Fields) : Rnd := rndOf (mbits f 4 3)
/-- The third source of the V3 class (Table 3.3); `nil` where the index is reserved. -/
def opC (f : Fields) : Opnd := (Opnd.ofIndex (ebits f 8 0)).getD (.sp .nil)

/-- One operand position: the kinds it takes, the registers it spans, whether it is read and
written, and the tags a source may carry beside RAW (none: every tag). -/
structure Pos where
  ok : Opnd → Bool
  span : Nat
  rd : Bool
  wr : Bool
  tags : Option (List Nat)

/-- Is the operand the first register of an aligned span: even for a pair (R42)? -/
def even (o : Opnd) : Bool := decide (o.num % 2 = 0)

/-- A source of the arithmetic groups: v, t, s or a special operand (R74, R77). -/
def Pos.src (tags : Option (List Nat)) : Pos :=
  ⟨fun o => isV o || isT o || isS o || isSp o, 1, true, false, tags⟩
/-- A 64-bit source: an even v or s pair (R42). -/
def Pos.srcPair (tags : Option (List Nat)) : Pos :=
  ⟨fun o => (isV o || isS o) && even o, 2, true, false, tags⟩
/-- A destination that an s register or `em` may take: the scalar pipe (R76). -/
def Pos.dst : Pos := ⟨fun o => isV o || isT o || isS o || isNil o || isEm o, 1, false, true, none⟩
/-- A vector destination: v, t or `nil`; `em` from uniform sources (R74, R76; log 83). -/
def Pos.dstV : Pos := ⟨fun o => isV o || isT o || isNil o || isEm o, 1, false, true, none⟩
/-- The destination of a variable-latency vector instruction: v or `nil` (R148); `em` as above. -/
def Pos.dstVn : Pos := ⟨fun o => isV o || isNil o || isEm o, 1, false, true, none⟩
/-- A 64-bit destination: an even v or s pair. -/
def Pos.dstPair : Pos := ⟨fun o => (isV o || isS o) && even o, 2, false, true, none⟩
/-- A uniform source (R76). -/
def Pos.uni : Pos := ⟨isUni, 1, true, false, none⟩
/-- A cross-lane source: v, t or a special operand, which every lane reads its own of; no s (R186, log 110). -/
def Pos.lane (tags : Option (List Nat)) : Pos :=
  ⟨fun o => isV o || isT o || isSp o, 1, true, false, tags⟩
def Pos.pRead : Pos := ⟨isP, 1, true, false, none⟩
def Pos.pWrite : Pos := ⟨isP, 1, false, true, none⟩
def Pos.sRead (span : Nat) : Pos :=
  ⟨fun o => isS o && (span = 1 || even o) && decide (o.num + span ≤ 128), span, true, false, none⟩
def Pos.sWrite (span : Nat) : Pos :=
  ⟨fun o => isS o && (span = 1 || even o) && decide (o.num + span ≤ 128), span, false, true, none⟩
/-- An s register or `nil`, read. -/
def Pos.sNil (span : Nat) : Pos :=
  ⟨fun o => isNil o || (isS o && (span = 1 || even o) && decide (o.num + span ≤ 128)), span, true, false, none⟩
/-- An s register or `nil`, written. -/
def Pos.sNilW (span : Nat) : Pos :=
  ⟨fun o => isNil o || (isS o && (span = 1 || even o) && decide (o.num + span ≤ 128)), span, false, true, none⟩
/-- A block of v registers that is read. -/
def Pos.vRead (span : Nat) (tags : Option (List Nat)) : Pos := ⟨isV, span, true, false, tags⟩
/-- A block of v registers that is written. -/
def Pos.vWrite (span : Nat) : Pos := ⟨isV, span, false, true, none⟩
/-- A field that holds a code below n, as an index of Table 3.4. -/
def Pos.code : Pos := ⟨fun _ => true, 0, false, false, none⟩
/-- An even v pair, written. -/
def Pos.vPair : Pos := ⟨fun o => isV o && even o, 2, false, true, none⟩

/-- What the form says of a token (R69). -/
inductive TokRule where
  | must | may | never
  deriving DecidableEq, Repr

/-- What the form says of a guard (R78, R153). -/
inductive GuardRule where
  | takes | illfmt | guardar
  deriving DecidableEq, Repr

/-- The form of one instruction word. -/
structure Form where
  d : Option Pos := none
  a : Option Pos := none
  b : Option Pos := none
  c : Option Pos := none
  /-- registers that ext names beside c -/
  extra : List (Opnd × Pos) := []
  /-- an unassigned bit of mod or ext is set (R67) -/
  res : Bool := false
  /-- an invalid modifier, class or pairing of operands (R79, R80, R76) -/
  ill : Bool := false
  tok : TokRule := .never
  guard : GuardRule := .guardar
  /-- it must carry END -/
  fin : Bool := false
  /-- it takes XFMT (R83) -/
  xfmt : Bool := false
  /-- it reads its immediate as a 64-bit operand, so it takes XIMM (R82) -/
  imm64 : Bool := false
  /-- it runs in the scalar pipe whatever d names (R151) -/
  scal : Bool := false
  /-- only a privileged wave may execute it -/
  priv : Bool := false
  /-- it ends the life of every temporary (R149) -/
  mem : Bool := false
  /-- a memory or atomics instruction, whose token also covers its source registers (R69, R148) -/
  hold : Bool := false
  /-- only the first register of a source span is read at a tagged type (R183) -/
  tagFirst : Bool := false

/-- The register positions of the word with their operands, in the order d, a, b, c; a position that
holds a code spans no register. -/
def Form.uses (m : Form) (f : Fields) : List (Opnd × Pos) :=
  ((m.d.map (f.d, ·)).toList ++ (m.a.map (f.a, ·)).toList ++ (m.b.map (f.b, ·)).toList ++
    (m.c.map (opC f, ·)).toList ++ m.extra).filter fun u => u.2.span ≠ 0

/-- A position that the form does not use must be zero (R67). -/
def Form.unusedOk (p : Option Pos) (o : Opnd) : Bool := p.isSome || decide (o = .v 0)

/-- A position that the form uses takes the operand's kind (R77). -/
def Form.kindOk (p : Option Pos) (o : Opnd) : Bool := match p with | none => true | some q => q.ok o

/-- Does the instruction run in the scalar pipe (R76, R151)? -/
def Form.scalar (m : Form) (f : Fields) : Bool := m.scal || (m.d.isSome && isS f.d)

/-! ### The arithmetic groups -/

def tI32 : Option (List Nat) := some [1, 2]
def tF32 : Option (List Nat) := some [3]
def tI64 : Option (List Nat) := some [13]
/-- The tags that the integer types of Table 6.3 accept (R58). -/
def tInt (ts : Nat) : Option (List Nat) :=
  if ts < 2 then some [1, 2] else if ts < 4 then some [10, 11] else some [8, 9]
/-- F16X2 or BF16X2 by TSEL (R175). -/
def tHalf (ts : Nat) : Option (List Nat) := some [if ts = 0 then 4 else 5]

/-- The form of an instruction of Table 3.7's layout: destination, sources in the order a, b, c, and
whether VI, .SAT, a rounding suffix and the TSEL are allowed. In the VI class the immediate replaces
the last source (R72); an instruction that is V3 only is read as V3. `uni` says that an s or `em` destination is the scalar pipe, whose sources
must be uniform (R76). -/
def Form.alu (f : Fields) (d : Pos) (srcs : List Pos) (vi sat rn ts : Bool) : Form :=
  let im := immOn f && vi
  let cut := if im then srcs.dropLast else srcs
  let used := [f.a, f.b, opC f].take cut.length
  { d := some d, a := cut[0]?, b := cut[1]?, c := cut[2]?,
    res := !im && (if srcs.length = 3 then
      decide (ebits f 31 9 ≠ 0) || (Opnd.ofIndex (ebits f 8 0)).isNone else decide (f.ext ≠ 0)),
    ill := (immOn f && !vi) || (satOn f && !sat) || (decide (mbits f 4 3 ≠ 0) && !rn) || !ts ||
      ((isS f.d || isEm f.d) && !used.all isUni),
    xfmt := true }

/-- A variable-latency instruction of the arithmetic groups: it must carry a token, and d names no
temporary (R69, R148). -/
def Form.star (m : Form) (f : Fields) : Form :=
  { m with tok := .must, ill := m.ill || isT f.d }

/-- A form with no tagged source, which takes no XFMT (R83). -/
def Form.plain (m : Form) : Form := { m with xfmt := false }

/-! ### Group 0x0, control (Table 6.2) -/

/-- A control instruction: no guard but where `g` says so, mod zero but where `md` says so, and ext
zero but for an offset. -/
def Form.ctl (f : Fields) (md : Nat) (off g fin scal : Bool) (d a : Option Pos) : Form :=
  { d := d, a := a, res := decide (md < 2 ^ 7 ∧ md ≤ f.mod.toNat) || (!off && decide (f.ext ≠ 0)),
    guard := if g then .takes else .illfmt, fin := fin, scal := scal }

/-! ### Group 0xF, system (Table 14.5) -/

/-- A system instruction: SEL and IMM of ext as the row allows, END as it must. -/
def Form.sys (f : Fields) (md : Nat) (ext fin priv : Bool) (d a b : Option Pos) : Form :=
  { d := d, a := a, b := b, res := decide (md ≤ f.mod.toNat) || !ext, fin := fin, priv := priv }

end Machine
end Sys2Proof
end

