-- ==== Sys2Proof/Machine/Forms.lean ====
section
/-! DEFINITION. The forms of the groups 0x0 to 0x8 and of the system group, row by row from
Tables 6.2, 6.4, 6.5, 7.2, 7.3 and 14.5 and from the entries of their chapters. -/

namespace Sys2Proof.Machine

/-! ### Group 0x0 (R153-R157) -/

def formBra (f : Fields) : Form := .ctl f 1 true false true false none none
def formBrc (f : Fields) : Form := .ctl f 2 true false true true none (some .uni)
def formBrany (f : Fields) : Form := .ctl f 1 true true true false none none
def formCall (f : Fields) : Form := .ctl f 1 true false true true (some (.sWrite 2)) none
def formRet (f : Fields) : Form := .ctl f 1 false false true true none (some (.sRead 2))
/-- LOOP reads and writes d. -/
def formLoop (f : Fields) : Form :=
  .ctl f 1 true false true true (some { Pos.sWrite 1 with rd := true }) none
def formEmset (f : Fields) : Form := .ctl f 1 false false false true none (some .uni)
def formEmplain (f : Fields) : Form := .ctl f 1 false false false false none none
def formEmand (f : Fields) : Form := .ctl f 2 false false false false none (some .pRead)
def formYield (f : Fields) : Form := .ctl f 1 false false true false none none
def formExit (f : Fields) : Form := .ctl f 1 false true true false none none
def formWaittok (f : Fields) : Form := .ctl f 64 false false true false none none
def formSleepw (f : Fields) : Form := .ctl f 1 false false true true none (some .uni)

/-! ### Groups 0x1 and 0x2 (Table 6.4) -/

/-- Two sources of a type of Table 6.3, TSEL below n. -/
def formInt2 (f : Fields) (n : Nat) (vi sat : Bool) : Form :=
  .alu f .dst [.src (tInt (tsel f)), .src (tInt (tsel f))] vi sat false (tsel f < n)
/-- IADDC and ISUBB: a predicate c in and out, no s destination, V3 only (R159, R160). -/
def formCarry (f : Fields) : Form :=
  let m := Form.alu f .dst [.src tI32, .src tI32, { Pos.pRead with wr := true }] false false false (tsel f < 2)
  { m with ill := m.ill || isS f.d || isEm f.d }
def formImad (f : Fields) : Form :=
  .alu f .dst [.src tI32, .src tI32, .src tI32] true true false (tsel f < 2)
/-- IADD64 and IMUL64. -/
def formInt64 (f : Fields) : Form :=
  { Form.alu f .dstPair [.srcPair tI64, .srcPair tI64] true true false (tsel f < 2) with imm64 := true }
def formIdiv (f : Fields) : Form :=
  (Form.alu f .dst [.src tI32, .src tI32] true false false (tsel f < 2)).star f
/-- IABS and INEG: the signed types. -/
def formIabs (f : Fields) : Form :=
  .alu f .dst [.src (tInt (tsel f))] true true false (tsel f = 0 || tsel f = 2 || tsel f = 4)
/-- Bit instructions of two and of one source: every tag. -/
def formBit2 (f : Fields) : Form := .alu f .dst [.src none, .src none] true false false (tsel f = 0)
def formBit1 (f : Fields) : Form := .alu f .dst [.src none] true false false (tsel f = 0)
/-- The pair of SHL64 and SHR64 must be I64 or RAW (R158); the amount takes every tag (log 84). -/
def formShl64 (f : Fields) (n : Nat) : Form :=
  .alu f .dstPair [.srcPair tI64, .src none] true false false (tsel f < n)
def formBfe (f : Fields) : Form := .alu f .dst [.src none, .src none] true false false (tsel f < 2)
def formBfi (f : Fields) : Form :=
  .alu f .dst [.src none, .src none, .src none] true false false (tsel f = 0)
def formLea (f : Fields) : Form := .alu f .dst [.src tI32, .src none] true false false true
/-- MOV.B64's pair must be I64 or RAW as every 64-bit operand of the group (R158, log 84). -/
def formMov (f : Fields) : Form :=
  if tsel f = 1 then { Form.alu f .dstPair [.srcPair tI64] true false false true with imm64 := true }
  else .alu f .dst [.src none] true false false (tsel f = 0)
/-- MOVI: VI only, its own mod layout; an s destination takes tag code 0 (R163). -/
def formMovi (f : Fields) : Form :=
  { d := some .dst, res := decide (mbits f 5 4 ≠ 0),
    ill := !immOn f || decide (13 ≤ mbits f 3 0) || (isS f.d && decide (mbits f 3 0 ≠ 0)) }

/-! ### Group 0x3 (Table 6.5) -/

def formIcmp (f : Fields) : Form := .alu f .pWrite [.src tI32, .src tI32] true false false true
def formFcmp (f : Fields) : Form := .alu f .pWrite [.src tF32, .src tF32] true false false true
def formSel (f : Fields) : Form :=
  .alu f .dstV [.pRead, .src none, .src none] true false false (tsel f = 0)
def formPand (f : Fields) : Form :=
  (Form.alu f .pWrite [.pRead, .pRead] false false false (tsel f = 0)).plain
def formPnot (f : Fields) : Form := (Form.alu f .pWrite [.pRead] false false false (tsel f = 0)).plain
def formP2v (f : Fields) : Form := (Form.alu f .dstV [.pRead] false false false (tsel f = 0)).plain
def formV2p (f : Fields) : Form :=
  .alu f .pWrite [⟨fun o => isV o || isT o || isS o, 1, true, false, none⟩] false false false (tsel f = 0)
def formPmov (f : Fields) : Form := (Form.alu f .pWrite [.uni] true false false (tsel f = 0)).plain

/-! ### Group 0x4 (R171-R174) -/

def formFp2 (f : Fields) : Form := .alu f .dst [.src tF32, .src tF32] true true true (tsel f = 0)
def formFfma (f : Fields) : Form :=
  .alu f .dst [.src tF32, .src tF32, .src tF32] true true true (tsel f = 0)
def formFdiv (f : Fields) : Form :=
  (Form.alu f .dstVn [.src tF32, .src tF32] true true true (tsel f = 0)).star f
def formFmin (f : Fields) : Form := .alu f .dst [.src tF32, .src tF32] true false false (tsel f = 0)
/-- One F32 source, V3 only; `rn` where a rounding suffix is taken. -/
def formFp1 (f : Fields) (rn : Bool) : Form := .alu f .dst [.src tF32] false false rn (tsel f = 0)

/-! ### Group 0x5 (R176, R177) -/

def Pos.sSrc (span : Nat) : Pos := Pos.sRead span
def formDadd (f : Fields) : Form :=
  { (Form.alu f (.sWrite 2) [.sSrc 2, .sSrc 2] true true true (tsel f = 0)).plain with imm64 := true }
def formDfma (f : Fields) : Form :=
  { (Form.alu f (.sWrite 2) [.sSrc 2, .sSrc 2, .sSrc 2] true true true (tsel f = 0)).plain with imm64 := true }
/-- DCVT: single registers or pairs by TSEL (R177). -/
def formDcvt (f : Fields) : Form :=
  let t := tsel f
  (Form.alu f (.sWrite (if t = 1 || t = 7 then 1 else 2))
    [.sSrc (if t = 0 || t = 2 || t = 3 then 1 else 2)] false (t = 1) (t = 1 || 4 ≤ t) true).plain

/-! ### Group 0x6 (Table 7.3) -/

def formHadd2 (f : Fields) (sat rn : Bool) : Form :=
  .alu f .dst [.src (tHalf (tsel f)), .src (tHalf (tsel f))] true sat rn (tsel f < 2)
def formHfma2 (f : Fields) : Form :=
  .alu f .dst [.src (tHalf (tsel f)), .src (tHalf (tsel f)), .src (tHalf (tsel f))] true true true (tsel f < 2)
def formFdot2 (f : Fields) : Form :=
  .alu f .dst [.src (tHalf (tsel f)), .src (tHalf (tsel f)), .src tF32] true true true (tsel f < 2)

/-! ### Group 0x7 (R178-R184) -/

/-- Source tags of CVT by TSEL (R178). -/
def cvtTags (t : Nat) : Option (List Nat) :=
  if t < 2 then some [1, 2] else if t < 6 then some [3] else if t = 6 then some [4] else some [5]
def formCvt (f : Fields) : Form :=
  .alu f .dst [.src (cvtTags (tsel f))] false (tsel f = 4 || tsel f = 5) (tsel f < 6) true
/-- Source tags of PACK2 by TSEL (R180). -/
def packTags (t : Nat) : Option (List Nat) :=
  if t < 2 then some [3] else if t < 4 then some [4] else if t < 6 then some [5]
  else if t = 6 then some [1, 2] else some [10, 11]
def formPack2 (f : Fields) : Form :=
  let t := tsel f
  .alu f .dst [.src (packTags t), .src (packTags t)] false (!(t = 2 || t = 4)) (t < 6) true
/-- Source tags of UNPK by TSEL (R181). -/
def unpkTags (t : Nat) : Option (List Nat) :=
  if t = 0 then some [4] else if t = 1 then some [5]
  else if t = 2 || t = 4 then some [6] else if t = 3 || t = 5 then some [7]
  else if t = 6 then some [10, 11] else some [8, 9]
/-- UNPK writes a pair of vector registers: no run temporaries (R181, log 109). -/
def formUnpk (f : Fields) : Form := .alu f .vPair [.src (unpkTags (tsel f))] false false false true
def formCvtq (f : Fields) : Form :=
  (Form.alu f .vPair [.vRead 8 tF32] false false false (tsel f = 0)).star f
def formCvtdq (f : Fields) : Form :=
  { (Form.alu f (.vWrite (if tsel f = 0 then 8 else 4)) [.vRead 2 (some [12])] false true true (tsel f < 3)).star f
    with tagFirst := true }
def formSfu (f : Fields) : Form :=
  (Form.alu f .dstVn [.src tF32] false false true (tsel f = 0)).star f

/-! ### Group 0x8 (R186-R192) -/

/-- b may be a special operand as well (R74, R76; log 85). -/
def formShfl (f : Fields) : Form :=
  .alu f .dstV [.lane none, .src none] true false false (tsel f < 5)
/-- sel may be any uniform operand of R76 (log 85). -/
def formPermq (f : Fields) : Form := .alu f .dstV [.lane none, .uni] true false false (tsel f = 0)
def formVote (f : Fields) : Form := (Form.alu f .pWrite [.pRead] false false false (tsel f = 0)).plain
def formBallot (f : Fields) : Form := (Form.alu f .dstV [.pRead] false false false (tsel f = 0)).plain
def formMatch (f : Fields) : Form :=
  .alu f .dstV [if tsel f = 1 then ⟨fun o => isV o && even o, 2, true, false, none⟩ else .lane none]
    false false false (tsel f < 2)
/-- Source tags of a reduction by type code (R191). -/
def redTags (t : Nat) : Option (List Nat) := if t < 2 then some [1, 2] else if t = 2 then some [3] else none
def formRedadd (f : Fields) : Form :=
  .alu f .dstV [.lane (redTags (tsel f))] false false (tsel f = 2) (tsel f < 3)
def formRedmin (f : Fields) : Form :=
  .alu f .dstV [.lane (redTags (tsel f))] false false false (tsel f < 3)
def formRedand (f : Fields) : Form := .alu f .dstV [.lane none] false false false (tsel f = 3)
def formScanadd (f : Fields) : Form :=
  .alu f .dstV [.lane (redTags (tsel f % 4))] false false (tsel f % 4 = 2) (tsel f ≠ 3 && tsel f ≠ 7)

/-! ### Group 0xF, system (Table 14.5) -/

/-- SEL, ext[11:0]. -/
def selOf (f : Fields) : Nat := ebits f 11 0
/-- IMM, ext[31:12]. -/
def immOf (f : Fields) : Nat := ebits f 31 12

def formTrap (f : Fields) : Form := .sys f 1 (selOf f = 0) true false none none none
def formEret (f : Fields) : Form := .sys f 1 (f.ext = 0) true false none none none
/-- TLBINV: an operand that the KIND does not use is 0, or the `nil` that its column allows (Table 14.5). -/
def formTlbinv (f : Fields) : Form :=
  let k := mbits f 1 0
  { Form.sys f 4 (f.ext = 0) true true none (if k = 2 && !isNil f.a then none else some (.sNil 1))
      (if k ≠ 0 && !isNil f.b then none else some (.sNil 2)) with ill := k = 3 }
def formPagemap (f : Fields) : Form :=
  .sys f 2 (f.ext = 0) true true (some { Pos.sWrite 2 with rd := true }) (some (.sRead 2)) (some (.sRead 2))
def formWakew (f : Fields) : Form :=
  { Form.sys f 4 (f.ext = 0) true (mbits f 1 0 ≠ 0) (some (.sNilW 1)) (some (.sNil 1)) (some (.sRead 1)) with
    ill := mbits f 1 0 = 3 }

/-- Numbers that Tables 5.2, 8.2, 9.5, 10.3, 10.6, 10.8, 13.1, 14.2, 15.2, 15.4, 20.2 and 20.5 and R286 give to registers. -/
def csrKnown (n : Nat) : Bool :=
  n ≤ 0x00A || (0x100 ≤ n && n ≤ 0x103) || (0x300 ≤ n && n ≤ 0x303) || (0x310 ≤ n && n ≤ 0x320) ||
    (0x330 ≤ n && n ≤ 0x334) || (0x340 ≤ n && n ≤ 0x342) || (0x350 ≤ n && n ≤ 0x35E) || (0x360 ≤ n && n ≤ 0x364) ||
    (0x370 ≤ n && n ≤ 0x378) || (0x380 ≤ n && n ≤ 0x385) || n = 0x390 || n = 0x3A0
/-- A register that holds W1C or W1S fields: .SET and .CLR are not allowed on it (R366). -/
def csrOnes (n : Nat) : Bool := n = 0x001 || n = 0x342 || n = 0x377 || n = 0x3A0
/-- A form of CSRR or CSRW: END outside the wave registers, .OTH not on them (R363, R366). -/
def Form.csr (f : Fields) (m : Form) : Form :=
  { m with
    fin := 0x100 ≤ selOf f
    ill := m.ill || !csrKnown (selOf f) || (mbits f 0 0 = 1 && selOf f < 0x100) }
def formCsrr (f : Fields) : Form :=
  Form.csr f (.sys f 2 (immOf f = 0) false (0x100 ≤ selOf f && selOf f ≠ 0x35E) (some (.sWrite 1)) none none)
def formCsrw (f : Fields) : Form :=
  let imm := mbits f 3 3 = 1
  Form.csr f { Form.sys f 16 (imm || immOf f = 0) false (0x100 ≤ selOf f) (some (.sNilW 1))
      (if imm then none else some (.sNil 1)) none with
    ill := mbits f 2 1 = 3 || (mbits f 2 1 ≠ 0 && csrOnes (selOf f)) }
def formSlotreq (f : Fields) : Form :=
  .sys f 4 (f.ext = 0) true true (some (.sWrite 1)) (some (.sRead 1)) (some (.sRead 1))
def formSlotrel (f : Fields) : Form :=
  .sys f 4 (f.ext = 0) true true (some (.sWrite 1)) (some (.sRead 1)) (some (.sNil 1))
def formLayerps (f : Fields) : Form :=
  { Form.sys f 16 (f.ext = 0) true true (some (.sWrite 1)) (some (.sRead 1)) none with ill := mbits f 1 0 = 3 }

/-! ### Prefixes (R82, R83) -/

/-- A prefix uses no field but, for XIMM, ext; its hint is zero but for END. -/
def formPrefix (f : Fields) (ext : Bool) : Form :=
  { res := decide (f.mod ≠ 0) || (!ext && decide (f.ext ≠ 0)) || decide (f.guard ≠ ⟨false, 0⟩) ||
      decide (f.hint.st ≠ 0) || f.hint.yld || f.hint.tv || decide (f.hint.tok ≠ 0) ||
      decide (f.hint.await ≠ 0),
    guard := .takes }

end Sys2Proof.Machine
end

