-- ==== Sys2Proof/Machine/MemForms.lean ====
section
/-! DEFINITION. The forms of the groups 0x9 to 0xE: memory, atomics and synchronisation, engines,
matrix and scan, task and watch, render. -/

namespace Sys2Proof.Machine

/-! ### Group 0x9 (Tables 9.6, 9.7 and 10.4) -/

/-- Bytes of a memory type code (Table 9.7). -/
def mtBytes (t : Nat) : Nat := [1, 2, 4, 8, 16, 1, 1, 2, 2, 4, 4, 4, 2, 2, 8].getD t 1
/-- Registers of a memory type code. -/
def mtRegs (t : Nat) : Nat := max 1 (mtBytes t / 4)
/-- The tag of a load; none where the handle's DFTAG gives it. -/
def mtTag (t : Nat) : Option (BitVec 4) :=
  [none, none, none, none, none, some 8, some 9, some 10, some 11, some 1, some 2, some 3, some 4, some 5, some 13].getD t none
/-- The tags, beside RAW, that a store accepts; none for every tag. -/
def mtAccept (t : Nat) : Option (List Nat) :=
  [none, none, none, none, none, some [8, 9], some [8, 9], some [10, 11], some [10, 11], some [1, 2],
   some [1, 2], some [3], some [4], some [5], some [13]].getD t none

/-- An index register: v, s or `nil`, read as .N32 (R237, R240, R58). -/
def Pos.index : Pos := ⟨fun o => isV o || isS o || isNil o, 1, true, false, some [1, 2]⟩
/-- A block of n v registers whose first is a multiple of n. -/
def Pos.vBlock (n : Nat) (rd wr : Bool) : Pos := ⟨fun o => isV o && decide (o.num % n = 0), n, rd, wr, none⟩
/-- A block of n s registers whose first is a multiple of n. -/
def Pos.sBlock (n : Nat) (rd wr : Bool) : Pos :=
  ⟨fun o => isS o && decide (o.num % n = 0 ∧ o.num + n ≤ 128), n, rd, wr, none⟩
/-- Store data: v or s. -/
def Pos.data (n : Nat) : Pos :=
  ⟨fun o => (isV o || isS o) && decide (o.num % n = 0) && (isV o || decide (o.num + n ≤ 128)), n, true, false, none⟩

/-- A memory instruction: it takes a guard and a token as its row says, and it ends temporaries. -/
def Form.memory (tok : TokRule) (ill res : Bool) (d a b : Option Pos) : Form :=
  { d := d, a := a, b := b, ill := ill, res := res, tok := tok, guard := .takes, mem := true, hold := true }

/-- MT and SCOPE of a memory word are valid; `mx` is the highest scope code (R237, R238). -/
def mtIll (f : Fields) (mx : Nat) : Bool := decide (mbits f 3 0 = 15) || decide (mx < mbits f 6 4)

def formLd (f : Fields) (mx : Nat) : Form :=
  .memory .must (mtIll f mx) false (some (.vBlock (mtRegs (mbits f 3 0)) false true)) none (some .index)
def formSt (f : Fields) (mx : Nat) : Form :=
  { Form.memory .may (mtIll f mx) false none (some (.data (mtRegs (mbits f 3 0)))) (some .index) with xfmt := true }
def uniIll (f : Fields) : Bool :=
  decide (mbits f 3 0 < 2 ∨ 4 < mbits f 3 0) || decide (6 < mbits f 6 4) || decide (f.guard ≠ ⟨false, 0⟩)
def formLds (f : Fields) : Form :=
  .memory .must (uniIll f) false (some (.sBlock (mtRegs (mbits f 3 0)) false true)) none (some (.sNil 1))
def formSts (f : Fields) : Form :=
  { Form.memory .may (uniIll f) false none (some (.sBlock (mtRegs (mbits f 3 0)) true false)) (some (.sNil 1)) with
    xfmt := true, scal := true }
def formPref (f : Fields) : Form := .memory .may false (decide (2 ≤ f.mod.toNat)) none none (some .index)
def formCinv (f : Fields) : Form :=
  .memory .may false (decide (2 ≤ f.mod.toNat)) none (some (.sNil 1)) (some (.sNil 1))
def formPin (f : Fields) : Form := .memory .may false (decide (f.mod ≠ 0)) none (some (.sNil 1)) (some (.sNil 1))
def formHset (f : Fields) : Form :=
  .memory .may false (decide (8 ≤ f.mod.toNat) || decide (ebits f 31 6 ≠ 0)) none none none
def formHget (f : Fields) : Form :=
  .memory .must false (decide (2 ≤ f.mod.toNat) || decide (ebits f 31 6 ≠ 0))
    (some ⟨fun o => isS o && even o && decide (o.num + 8 ≤ 128), 8, false, true, none⟩) none none
def formXlat (f : Fields) : Form :=
  .memory .must false (decide (f.mod ≠ 0)) (some .vPair) none (some .index)

/-! ### Group 0xA (Table 12.1) -/

/-- A v or s operand, or an even pair (R312). -/
def Pos.datum (n : Nat) (wr : Bool) (tags : Option (List Nat)) : Pos :=
  ⟨fun o => (isV o || isS o) && (n = 1 || even o), n, true, wr, tags⟩
/-- A 64-bit item: an even v or s pair (R323). -/
def Pos.item (rd wr : Bool) : Pos := ⟨fun o => (isV o || isS o) && even o, 2, rd, wr, none⟩
/-- A result or contribution of a barrier: v, s or `nil`. -/
def Pos.vsn (rd wr : Bool) : Pos := ⟨fun o => isV o || isS o || isNil o, 1, rd, wr, none⟩

/-- ORD of an atomic word. -/
def ordOf (f : Fields) : Nat := mbits f 1 0
/-- SCOPE of an ordered word. -/
def ordScope (f : Fields) : Nat := mbits f 4 2

/-- The operation code in the a field of ATOM and RED. -/
def atomOp (f : Fields) : Nat := Opnd.index f.a
/-- OP codes of a TY (R312). -/
def atomOpOk (ty op : Nat) : Bool :=
  match ty with
  | 0 => decide (op ≤ 10)
  | 1 => decide (op ≤ 10)
  | 2 => [0, 1, 3, 8].contains op
  | _ => false
/-- The operand tags of a TY and OP (R312). -/
def atomTags (ty op : Nat) : Option (List Nat) :=
  match ty with
  | 0 => if 5 ≤ op ∧ op ≤ 8 then none else some [1, 2]
  | 1 => some [13]
  | _ => some [3]

/-- A word of the ordered atomics: ORD and SCOPE, a guard, and the scalar form's rules (R311). -/
def Form.atomic (f : Fields) (tok : TokRule) (ill res : Bool) (d a : Pos) : Form :=
  let m := Form.memory tok
    (ill || ordScope f = 7 || (isS f.d && (isV f.b || decide (f.guard ≠ ⟨false, 0⟩))))
    (res || (ordOf f = 0 && ordScope f ≠ 0)) (some d) (some a) (some .index)
  m

def formAtom (f : Fields) : Form :=
  let ty := mbits f 6 5
  .atomic f .must (!atomOpOk ty (atomOp f)) (decide (16 ≤ atomOp f))
    (.datum (if ty = 1 then 2 else 1) true (atomTags ty (atomOp f))) .code
def formRed (f : Fields) : Form :=
  let ty := mbits f 6 5
  .atomic f .may (!atomOpOk ty (atomOp f) || atomOp f = 8 || !(ordOf f = 0 || ordOf f = 2))
    (decide (16 ≤ atomOp f)) (.datum (if ty = 1 then 2 else 1) false (atomTags ty (atomOp f))) .code
def formCas (f : Fields) : Form :=
  let n := if mbits f 5 5 = 1 then 2 else 1
  .atomic f .must (isS f.d != isS f.a) (mbits f 6 6 = 1) (.datum n true none) (.datum n false none)

/-- An instruction of the group that takes no guard (R311). -/
def Form.syncing (tok : TokRule) (ill res fin : Bool) (d a b : Option Pos) : Form :=
  { Form.memory tok ill res d a b with guard := .illfmt, fin := fin }

/-- A starred instruction with END names its own token in AWAIT (R311). -/
def ownToken (f : Fields) : Bool := f.hint.await.getLsbD f.hint.tok.toNat

def formFence (f : Fields) : Form :=
  .syncing .may (ordOf f = 0 || ordScope f = 7)
    (mbits f 6 5 ≠ 0 || f.ext ≠ 0 || (ordOf f = 0 && ordScope f ≠ 0)) false none none none
/-- A contribution: a predicate only with .POPC, and neither a v register nor a predicate where d is an s register
(R311, R76). -/
def Pos.contrib (f : Fields) : Pos :=
  ⟨fun o => isS o || isNil o || (!isS f.d && (isV o || (isP o && mbits f 2 0 = 4))), 1, true, false, none⟩
def barRes (f : Fields) : Bool := mbits f 6 3 ≠ 0 || ebits f 5 0 ≠ 0
def formBar (f : Fields) : Form :=
  .syncing .must (5 ≤ mbits f 2 0 || !ownToken f) (barRes f) true (some (.vsn false true)) (some (.contrib f)) (some (.sNil 1))
def formBararv (f : Fields) : Form :=
  .syncing .may (5 ≤ mbits f 2 0) (barRes f) false none (some (.contrib f)) (some (.sNil 1))
def formBarwt (f : Fields) : Form :=
  .syncing .must (!ownToken f) (f.mod ≠ 0 || ebits f 5 0 ≠ 0) true (some (.vsn false true)) none (some (.sNil 1))
def formQlock (f : Fields) (fin : Bool) : Form :=
  .syncing .may (mbits f 2 0 = 0 || mbits f 2 0 = 7) (mbits f 6 3 ≠ 0) fin none none (some (.sNil 1))
def formQpush (f : Fields) : Form :=
  .syncing .may (mbits f 2 0 = 7) (mbits f 6 3 ≠ 0) true (some (.item true false)) none (some (.sNil 1))
def formQpop (f : Fields) : Form :=
  .syncing .must (mbits f 2 0 = 7 || !ownToken f) (mbits f 6 3 ≠ 0) true (some (.item false true)) none (some (.sNil 1))
def formQtry (f : Fields) : Form :=
  .syncing .must (mbits f 3 1 = 7) (mbits f 6 4 ≠ 0) false
    (some (.item (mbits f 0 0 = 1) (mbits f 0 0 = 0))) (some .pWrite) (some (.sNil 1))
def formCtradd (f : Fields) : Form :=
  .syncing .may (mbits f 2 0 = 7 || 5 ≤ mbits f 5 3) (mbits f 6 6 ≠ 0) false none (some (.sRead 2)) (some (.sNil 1))
def formCtrwait (f : Fields) : Form :=
  .syncing .may (mbits f 2 0 = 7) (mbits f 6 4 ≠ 0) true none (some (.sNil 2)) (some (.sNil 1))
def formMmstat (f : Fields) : Form :=
  .syncing .must false (mbits f 6 1 ≠ 0 || f.ext ≠ 0) false (some (.sWrite 1)) none none

/-! ### Group 0xB (Table 9.9, R273) -/

/-- CV of the counter operand (Table 3.3). -/
def ctrOn (f : Fields) : Bool := f.ext.getLsbD 6

/-- An engine command: a token, a guard, a shape pair, and a scope that needs a counter (R252). -/
def Form.engine (f : Fields) (res : Bool) (d b : Pos) : Form :=
  { d := some d, a := some (.sRead 2), b := some b, tok := .must, guard := .takes, mem := true,
    res := res || mbits f 6 5 ≠ 0 || (!ctrOn f && (mbits f 4 2 ≠ 0 || f.ext ≠ 0)),
    ill := mbits f 4 2 = 7 }

def formCpy (f : Fields) : Form := .engine f (mbits f 1 1 ≠ 0) (.sRead 1) (.sRead 1)
def formCpyb (f : Fields) : Form := .engine f (mbits f 1 0 ≠ 0) (.sRead 1) (.sRead 1)
def formGthr (f : Fields) : Form := .engine f (mbits f 1 0 ≠ 0) (.vWrite 1) (.vRead 1 none)
def formSctr (f : Fields) : Form := .engine f (mbits f 1 0 ≠ 0) (.vRead 1 none) (.vRead 1 none)
def formBcast (f : Fields) : Form := .engine f false (.sRead 1) (.sRead 1)
def formCntwait (f : Fields) : Form :=
  { guard := .takes, mem := true, fin := true, ill := 5 ≤ mbits f 2 0, res := f.ext ≠ 0 }
def formCntrd (f : Fields) : Form :=
  { d := some (.sWrite 1), guard := .takes, mem := true, tok := .must, res := f.mod ≠ 0 || f.ext ≠ 0 }

/-! ### Group 0xC (Table 8.4) -/

/-- A tile. -/
def Pos.tile (rd wr : Bool) : Pos := ⟨isZ, 1, rd, wr, none⟩
/-- A uniform s register or `nil`. -/
def Pos.sn : Pos := .sNil 1

/-- A predicate that ext names: its number in [lo+3:lo], its enable at lo+4. -/
def extPred (f : Fields) (lo : Nat) : List (Opnd × Pos) :=
  if f.ext.getLsbD (lo + 4) then [(.p ⟨ebits f (lo + 3) lo % 16, Nat.mod_lt _ (by decide)⟩, .pRead)] else []

/-- A registers of an MMQ and the tags that they may carry (Table 8.1). -/
def mmqRegs (combo : Nat) : Nat := if 7 ≤ combo then 32 else 8
def mmqTags (combo : Nat) : List Nat :=
  match combo with
  | 0 => [4] | 1 => [5] | 2 => [6] | 3 => [7] | 4 => [6] | 5 => [7] | 6 => [8, 9] | 7 => [4] | _ => [5]

/-- The row and column predicates of ext are read only where their enable bits are set, and any number may stand in
the field of one that is not (log 107). -/
def formMmq (f : Fields) : Form :=
  let c := mbits f 3 0
  { d := some (.tile true true), a := some (.vRead (mmqRegs c) (some (mmqTags c))),
    b := some ⟨fun o => isV o || isS o || isNil o, 1, true, false, none⟩, extra := extPred f 0 ++ extPred f 5,
    res := mbits f 6 5 ≠ 0 || ebits f 31 16 ≠ 0, ill := 9 ≤ c, xfmt := true }
def formMzero (f : Fields) : Form :=
  { d := some (.tile false true), res := mbits f 6 1 ≠ 0 || f.ext ≠ 0 }
/-- MZLD and MZST: `two` is the ordering beside .RLX. -/
def Form.tileMem (f : Fields) (two : Nat) : Form :=
  { a := some .sn, b := some .index, res := ordOf f = 0 && ordScope f ≠ 0,
    ill := !(ordOf f = 0 || ordOf f = two) || ordScope f = 7 }
def formMzld (f : Fields) : Form :=
  let m := Form.tileMem f 1
  { m with d := some (.tile false true), res := m.res || mbits f 5 5 ≠ 0 }
def formMzst (f : Fields) : Form :=
  { Form.tileMem f 2 with d := some (.tile true false), tok := .must, xfmt := true }
def formMzmv (f : Fields) : Form :=
  let toZ := mbits f 0 0 = 1
  let ty := mbits f 1 1
  { d := some (if toZ then .tile false true else .vWrite 8),
    a := some (if toZ then .vRead 8 (some (if ty = 0 then [3] else [1, 2])) else .tile true false),
    res := mbits f 6 2 ≠ 0 || f.ext ≠ 0, tok := .must, xfmt := true }
def formMbsel (f : Fields) : Form :=
  { a := some .sn, b := some .sn, res := mbits f 6 6 ≠ 0 || f.ext ≠ 0, scal := true }
def formScan (f : Fields) : Form :=
  { d := some (.sWrite 1), b := some .sn, res := f.mod ≠ 0, tok := .must }
def formScanst (f : Fields) : Form :=
  { d := some (.sWrite 1), a := some .sn, b := some .sn, res := mbits f 6 2 ≠ 0 || f.ext ≠ 0,
    ill := mbits f 1 0 = 3, scal := true }

/-! ### Group 0xD (Table 4.3, R136) -/

/-- An instruction of the group: it ends temporaries and takes no guard. -/
def Form.task (tok : TokRule) (ill res fin : Bool) (d a b : Option Pos) : Form :=
  { d := d, a := a, b := b, tok := tok, ill := ill, res := res, fin := fin, mem := true }

def formLnch (f : Fields) : Form :=
  .task .must (!ownToken f) (mbits f 6 1 ≠ 0) true (if mbits f 0 0 = 1 then some .pWrite else none) none (some (.sNil 1))
def formSucchint (f : Fields) : Form := .task .never false (f.mod ≠ 0 || f.ext ≠ 0) false none none none
def formWaitpred (f : Fields) : Form := .task .never false (f.mod ≠ 0 || f.ext ≠ 0) true none none none
def formCancel (f : Fields) : Form :=
  let un := mbits f 2 0 = 0
  .task .never (5 ≤ mbits f 2 0) (mbits f 6 3 ≠ 0 || (un && f.ext ≠ 0)) false none (some (.sNil 1))
    (if un then none else some (.sNil 1))
/-- Table 4.3 assigns the scope bits to both orderings. -/
def formCtrget (f : Fields) : Form :=
  .task .must (2 ≤ ordOf f || ordScope f = 7) (mbits f 6 5 ≠ 0) false
    (some (.sWrite 2)) none (some (.sNil 1))
def formWatch (f : Fields) : Form :=
  .task .never false (mbits f 6 2 ≠ 0) false none (some (.sRead 1)) (some (.sNil 1))
def formUnwatch (f : Fields) : Form :=
  .task .never false (mbits f 6 2 ≠ 0 || f.ext ≠ 0) false none (some (.sRead 1)) none
def formWatchq (f : Fields) : Form :=
  .task .must (mbits f 1 0 = 3) (mbits f 6 2 ≠ 0) false (some (.sWrite 1)) (some (.sRead 1)) (some (.sNil 1))
def formFetchw (f : Fields) : Form :=
  .task .must (!ownToken f) (f.mod ≠ 0) true none (some (.sNil 1)) (some (.sNil 1))

/-! ### Group 0xE (Tables 13.4 and 15.3) -/

/-- A render instruction: it takes a guard and ends temporaries. -/
def Form.render (tok : TokRule) (ill res : Bool) (d a b : Option Pos) : Form :=
  { d := d, a := a, b := b, tok := tok, ill := ill, res := res, guard := .takes, mem := true }

/-- Predicates that ext names, written. -/
def extPw (f : Fields) (lo : Nat) : Opnd × Pos := (.p ⟨ebits f (lo + 3) lo % 16, Nat.mod_lt _ (by decide)⟩, .pWrite)

def formSmpget (f : Fields) : Form := .render .must false (f.mod ≠ 0 || f.ext ≠ 0) (some .vPair) (some .pWrite) none
def formPmapwr (f : Fields) : Form :=
  .render .never (mbits f 1 0 = 3 || 2 ≤ mbits f 3 2 || mbits f 6 4 = 7) (f.ext ≠ 0) none
    (some (.vRead 1 none)) (some (.vRead 1 (some [4])))
def formRayq (f : Fields) : Form :=
  .render .must false (mbits f 6 2 ≠ 0 || ebits f 31 8 ≠ 0) none (some (.vRead 8 tF32)) none
def formRayrd (f : Fields) : Form :=
  .render .must false (f.mod ≠ 0 || ebits f 5 0 ≠ 0 || ebits f 31 8 ≠ 0) (some (.vWrite 4)) (some .pWrite) none
def formTricls (f : Fields) : Form :=
  .render .must false (f.mod ≠ 0 || f.ext ≠ 0) (some .pWrite) (some (.vRead 6 tF32)) none
def formTriras (f : Fields) : Form :=
  { Form.render .must false (f.mod ≠ 0) (some (.vWrite 1)) (some (.vRead 10 none)) (some (.sRead 1)) with
    extra := [(f.a, .vRead 9 tF32)] }
/-- A mod value that Table 15.3 excludes is ILLFMT (R386). -/
def formSmpput (f : Fields) : Form :=
  .render .must (f.mod ≠ 0) (ebits f 31 6 ≠ 0) (some .pWrite) (some (.vRead 8 none)) none
def formSmprd (f : Fields) : Form :=
  { Form.render .must (f.mod ≠ 0) (ebits f 31 10 ≠ 0) (some (.vWrite 8)) (some (.sRead 2)) (some (.sRead 2)) with
    extra := [extPw f 6] }
def formEyebor (f : Fields) : Form :=
  { Form.render .must (f.mod ≠ 0 || ebits f 9 6 = ebits f 13 10) (ebits f 31 14 ≠ 0) (some (.vWrite 8))
      (some (.sRead 2)) (some (.sRead 2)) with
    extra := [extPw f 6, extPw f 10] }
def formRowwait (f : Fields) : Form :=
  { Form.render .never (f.mod ≠ 0) (f.ext ≠ 0) (some (.sNilW 1)) (some (.sRead 1)) (some (.sNil 1)) with
    guard := .illfmt, fin := true }
/-- Registers that a ROWPUT reads: F16X2 in three blocks, or one .B32 word for each pixel. -/
def formRowput (f : Fields) : Form :=
  .render .must (mbits f 6 1 ≠ 0) (f.ext ≠ 0) (some (.sWrite 1))
    (some (if mbits f 0 0 = 0 then .vRead 2 (some [4]) else .vRead 1 none)) (some (.sRead 2))

end Sys2Proof.Machine
end

