-- ==== Sys2Proof/Decode.lean ====
section
/-! DEFINITION. The decoder: a 96-bit word to an instruction, or the decoding fault that it raises
(Table 3.9, orders 2 to 5), from the opcode map of Table 3.8 and the forms; and the encoder, from the
same map. Only the step of the machine knows the address, so FETCHERR is raised there. -/

namespace Sys2Proof

open Machine

/-- The instructions of a group in value order (Table 3.8); the prefixes stand apart. -/
def opGroup : Nat → List (Fields → Instr)
  | 0 => [.bra, .brc, .brany, .brall, .call, .ret, .jmpi, .loop, .emset, .empush, .empop, .emand,
      .nop, .yield, .exit, .waittok, .sleepw]
  | 1 => [.iadd, .isub, .iaddc, .isubb, .imul, .imulhi, .imad, .iadd64, .imul64, .idiv, .irem,
      .imin, .imax, .iabs, .ineg, .and, .or, .xor, .andn, .not, .shl, .shr, .sar, .rol, .shl64,
      .shr64, .bfe, .bfi, .popc, .clz, .ctz, .brev, .lea, .mov, .movi]
  | 3 => [.icmp, .fcmp, .sel, .pand, .por, .pxor, .pnot, .p2v, .v2p, .pmov]
  | 4 => [.fadd, .fsub, .fmul, .ffma, .fdiv, .fmin, .fmax, .fabs, .fneg, .fclass, .ffloor,
      .fceil, .ftrunc, .frint, .ffract]
  | 5 => [.dadd, .dmul, .dfma, .dcvt]
  | 6 => [.hadd2, .hmul2, .hfma2, .hmin2, .hmax2, .fdot2]
  | 7 => [.cvt, .pack2, .unpk, .cvtq, .cvtdq, .frcp, .frsq, .fsqrt, .fexp2, .flog2, .fsin, .fcos,
      .ftanh, .fsigm]
  | 8 => [.shfl, .shflup, .shfldn, .shflx, .voteany, .voteall, .ballot, .match_, .redadd,
      .redmin, .redmax, .redand, .redor, .scanadd, .permq]
  | 9 => [.ld, .st, .ldl, .stl, .lds, .sts, .stb, .ldb, .pref, .cinv, .cwb, .pin, .unpin, .hset,
      .hget, .xlat]
  | 10 => [.atom, .cas, .red, .fence, .bar, .bararv, .barwt, .qlock, .qunlock, .qpush, .qpop,
      .qtry, .ctradd, .ctrwait, .mmstat]
  | 11 => [.cpy, .cpyb, .gthr, .sctr, .bcast, .cntwait, .cntrd]
  | 12 => [.mmq, .mzero, .mzld, .mzmv, .mzst, .mbsel, .scan, .scanst]
  | 13 => [.lnch, .taskq, .succhint, .waitpred, .fetchw, .cancel, .ctrget, .watch, .unwatch,
      .watchq]
  | 14 => [.smpget, .smpput, .smprd, .pmapwr, .rayq, .rayrd, .tricls, .triras, .eyebor, .rowwait,
      .rowput]
  | 15 => [.trap, .eret, .csrr, .csrw, .brkpt, .tlbinv, .pagemap, .wakew, .slotreq, .slotrel,
      .layerps]
  | _ => []

/-- The instruction of an opcode (R81). -/
def ofOp (op : Nat) : Option (Fields → Instr) :=
  if op = 0x3FE then some .ximm else if op = 0x3FF then some .xfmt else (opGroup (op / 64))[op % 64]?

/-- The opcode and the fields of an instruction; none for a step of the hardware, which has no word. -/
def opOf : Instr → Option (Nat × Fields)
  | .bra f => some (0x000, f)
  | .brc f => some (0x001, f)
  | .brany f => some (0x002, f)
  | .brall f => some (0x003, f)
  | .call f => some (0x004, f)
  | .ret f => some (0x005, f)
  | .jmpi f => some (0x006, f)
  | .loop f => some (0x007, f)
  | .emset f => some (0x008, f)
  | .empush f => some (0x009, f)
  | .empop f => some (0x00A, f)
  | .emand f => some (0x00B, f)
  | .nop f => some (0x00C, f)
  | .yield f => some (0x00D, f)
  | .exit f => some (0x00E, f)
  | .waittok f => some (0x00F, f)
  | .sleepw f => some (0x010, f)
  | .iadd f => some (0x040, f)
  | .isub f => some (0x041, f)
  | .iaddc f => some (0x042, f)
  | .isubb f => some (0x043, f)
  | .imul f => some (0x044, f)
  | .imulhi f => some (0x045, f)
  | .imad f => some (0x046, f)
  | .iadd64 f => some (0x047, f)
  | .imul64 f => some (0x048, f)
  | .idiv f => some (0x049, f)
  | .irem f => some (0x04A, f)
  | .imin f => some (0x04B, f)
  | .imax f => some (0x04C, f)
  | .iabs f => some (0x04D, f)
  | .ineg f => some (0x04E, f)
  | .and f => some (0x04F, f)
  | .or f => some (0x050, f)
  | .xor f => some (0x051, f)
  | .andn f => some (0x052, f)
  | .not f => some (0x053, f)
  | .shl f => some (0x054, f)
  | .shr f => some (0x055, f)
  | .sar f => some (0x056, f)
  | .rol f => some (0x057, f)
  | .shl64 f => some (0x058, f)
  | .shr64 f => some (0x059, f)
  | .bfe f => some (0x05A, f)
  | .bfi f => some (0x05B, f)
  | .popc f => some (0x05C, f)
  | .clz f => some (0x05D, f)
  | .ctz f => some (0x05E, f)
  | .brev f => some (0x05F, f)
  | .lea f => some (0x060, f)
  | .mov f => some (0x061, f)
  | .movi f => some (0x062, f)
  | .icmp f => some (0x0C0, f)
  | .fcmp f => some (0x0C1, f)
  | .sel f => some (0x0C2, f)
  | .pand f => some (0x0C3, f)
  | .por f => some (0x0C4, f)
  | .pxor f => some (0x0C5, f)
  | .pnot f => some (0x0C6, f)
  | .p2v f => some (0x0C7, f)
  | .v2p f => some (0x0C8, f)
  | .pmov f => some (0x0C9, f)
  | .fadd f => some (0x100, f)
  | .fsub f => some (0x101, f)
  | .fmul f => some (0x102, f)
  | .ffma f => some (0x103, f)
  | .fdiv f => some (0x104, f)
  | .fmin f => some (0x105, f)
  | .fmax f => some (0x106, f)
  | .fabs f => some (0x107, f)
  | .fneg f => some (0x108, f)
  | .fclass f => some (0x109, f)
  | .ffloor f => some (0x10A, f)
  | .fceil f => some (0x10B, f)
  | .ftrunc f => some (0x10C, f)
  | .frint f => some (0x10D, f)
  | .ffract f => some (0x10E, f)
  | .dadd f => some (0x140, f)
  | .dmul f => some (0x141, f)
  | .dfma f => some (0x142, f)
  | .dcvt f => some (0x143, f)
  | .hadd2 f => some (0x180, f)
  | .hmul2 f => some (0x181, f)
  | .hfma2 f => some (0x182, f)
  | .hmin2 f => some (0x183, f)
  | .hmax2 f => some (0x184, f)
  | .fdot2 f => some (0x185, f)
  | .cvt f => some (0x1C0, f)
  | .pack2 f => some (0x1C1, f)
  | .unpk f => some (0x1C2, f)
  | .cvtq f => some (0x1C3, f)
  | .cvtdq f => some (0x1C4, f)
  | .frcp f => some (0x1C5, f)
  | .frsq f => some (0x1C6, f)
  | .fsqrt f => some (0x1C7, f)
  | .fexp2 f => some (0x1C8, f)
  | .flog2 f => some (0x1C9, f)
  | .fsin f => some (0x1CA, f)
  | .fcos f => some (0x1CB, f)
  | .ftanh f => some (0x1CC, f)
  | .fsigm f => some (0x1CD, f)
  | .shfl f => some (0x200, f)
  | .shflup f => some (0x201, f)
  | .shfldn f => some (0x202, f)
  | .shflx f => some (0x203, f)
  | .voteany f => some (0x204, f)
  | .voteall f => some (0x205, f)
  | .ballot f => some (0x206, f)
  | .match_ f => some (0x207, f)
  | .redadd f => some (0x208, f)
  | .redmin f => some (0x209, f)
  | .redmax f => some (0x20A, f)
  | .redand f => some (0x20B, f)
  | .redor f => some (0x20C, f)
  | .scanadd f => some (0x20D, f)
  | .permq f => some (0x20E, f)
  | .ld f => some (0x240, f)
  | .st f => some (0x241, f)
  | .ldl f => some (0x242, f)
  | .stl f => some (0x243, f)
  | .lds f => some (0x244, f)
  | .sts f => some (0x245, f)
  | .stb f => some (0x246, f)
  | .ldb f => some (0x247, f)
  | .pref f => some (0x248, f)
  | .cinv f => some (0x249, f)
  | .cwb f => some (0x24A, f)
  | .pin f => some (0x24B, f)
  | .unpin f => some (0x24C, f)
  | .hset f => some (0x24D, f)
  | .hget f => some (0x24E, f)
  | .xlat f => some (0x24F, f)
  | .atom f => some (0x280, f)
  | .cas f => some (0x281, f)
  | .red f => some (0x282, f)
  | .fence f => some (0x283, f)
  | .bar f => some (0x284, f)
  | .bararv f => some (0x285, f)
  | .barwt f => some (0x286, f)
  | .qlock f => some (0x287, f)
  | .qunlock f => some (0x288, f)
  | .qpush f => some (0x289, f)
  | .qpop f => some (0x28A, f)
  | .qtry f => some (0x28B, f)
  | .ctradd f => some (0x28C, f)
  | .ctrwait f => some (0x28D, f)
  | .mmstat f => some (0x28E, f)
  | .cpy f => some (0x2C0, f)
  | .cpyb f => some (0x2C1, f)
  | .gthr f => some (0x2C2, f)
  | .sctr f => some (0x2C3, f)
  | .bcast f => some (0x2C4, f)
  | .cntwait f => some (0x2C5, f)
  | .cntrd f => some (0x2C6, f)
  | .mmq f => some (0x300, f)
  | .mzero f => some (0x301, f)
  | .mzld f => some (0x302, f)
  | .mzmv f => some (0x303, f)
  | .mzst f => some (0x304, f)
  | .mbsel f => some (0x305, f)
  | .scan f => some (0x306, f)
  | .scanst f => some (0x307, f)
  | .lnch f => some (0x340, f)
  | .taskq f => some (0x341, f)
  | .succhint f => some (0x342, f)
  | .waitpred f => some (0x343, f)
  | .fetchw f => some (0x344, f)
  | .cancel f => some (0x345, f)
  | .ctrget f => some (0x346, f)
  | .watch f => some (0x347, f)
  | .unwatch f => some (0x348, f)
  | .watchq f => some (0x349, f)
  | .smpget f => some (0x380, f)
  | .smpput f => some (0x381, f)
  | .smprd f => some (0x382, f)
  | .pmapwr f => some (0x383, f)
  | .rayq f => some (0x384, f)
  | .rayrd f => some (0x385, f)
  | .tricls f => some (0x386, f)
  | .triras f => some (0x387, f)
  | .eyebor f => some (0x388, f)
  | .rowwait f => some (0x389, f)
  | .rowput f => some (0x38A, f)
  | .trap f => some (0x3C0, f)
  | .eret f => some (0x3C1, f)
  | .csrr f => some (0x3C2, f)
  | .csrw f => some (0x3C3, f)
  | .brkpt f => some (0x3C4, f)
  | .tlbinv f => some (0x3C5, f)
  | .pagemap f => some (0x3C6, f)
  | .wakew f => some (0x3C7, f)
  | .slotreq f => some (0x3C8, f)
  | .slotrel f => some (0x3C9, f)
  | .layerps f => some (0x3CA, f)
  | .ximm f => some (0x3FE, f)
  | .xfmt f => some (0x3FF, f)
  | .runStart _ _ => none
  | .tokenClear _ _ => none
  | .dealTile _ => none
  | .clusterEnqueue _ _ => none
  | .placeUnit _ _ _ => none
  | .groupStart _ => none
  | .stealRequest _ _ _ => none
  | .donationRequest _ _ => none
  | .unitRetire _ => none
  | .groupSave _ => none
  | .groupRestore _ => none
  | .engineComplete _ _ => none
  | .fetchwMailboxWrite _ => none
  | .triggerChange _ => none
  | .rateWindow _ => none
  | .submissionSlotServe _ => none
  | .heldUseRetry _ => none
  | .deadlineGuard _ => none
  | .deadline _ => none
  | .preemptto _ _ => none
  | .sleepTimeout _ => none
  | .watchdog _ => none
  | .ctrwaitSatisfied _ => none
  | .tlbShootdownDone _ => none
  | .sectorTransmit _ _ => none
  | .almanacCommitApply _ => none
  | .layerTransitionDone _ _ => none
  | .rejoinDone _ _ => none
  | .linkRetrain => none
  | .linkRetrainEnd _ => none
  | .pageMigration _ _ => none
  | .lanternSweepStart _ => none
  | .lanternEmitBlock _ => none
  | .lanternPopItem _ _ => none
  | .lineLit _ => none
  | .rowwaitWake _ => none
  | .panelLockLoss _ => none
  | .panelLockReturn _ => none
  | .memclkChange _ => none
  | .memclkStallEnd _ => none
  | .borrowLate _ => none
  | .faultRecordPush _ _ => none
  | .hwqueueRetry _ => none
  | .hostRead _ _ _ => none
  | .hostWrite _ _ _ _ => none
  | .hostAtomic _ _ _ _ _ => none
  | .powerOn => none
  | .towerImageCheck => none
  | .thermal => none
  | .eccUncorrectable _ _ _ => none
  | .eccCorrected _ => none
  | .layeroff _ _ => none
  | .machine _ => none
  | .hosterr _ => none
  | .hostAssistTimeout _ => none
  | .fwfault _ => none
  | .clswayWrite _ _ => none
  | .almctlCommit _ => none
  | .lntctlWrite _ _ => none
  | .dspctlWrite _ _ _ => none
  | .memclkArm _ _ => none
  | .pwrctlGo _ _ => none
  | .fnmodeWrite _ _ => none
  | .hbootgo _ => none
  | .hwcmdResume _ => none
  | .hwcmdAbort _ => none
  | .hwcmdTlbinv _ => none
  | .htcountWrite _ _ => none
  | .attctlGo _ => none
  | .dmkctlWrite _ _ => none
  | .jctlWrite _ _ _ => none
  | .registerWrite _ _ _ => none
  | .clockStepEnd => none

/-- The form of an instruction; a step of the hardware has none of a word's. -/
def Machine.form : Instr → Form
  | .bra f => formBra f
  | .brc f => formBrc f
  | .brany f => formBrany f
  | .brall f => formBrany f
  | .call f => formCall f
  | .ret f => formRet f
  | .jmpi f => formRet f
  | .loop f => formLoop f
  | .emset f => formEmset f
  | .empush f => formEmplain f
  | .empop f => formEmplain f
  | .emand f => formEmand f
  | .nop f => formEmplain f
  | .yield f => formYield f
  | .exit f => formExit f
  | .waittok f => formWaittok f
  | .sleepw f => formSleepw f
  | .iadd f => formInt2 f 6 true true
  | .isub f => formInt2 f 6 true true
  | .iaddc f => formCarry f
  | .isubb f => formCarry f
  | .imul f => formInt2 f 2 true true
  | .imulhi f => formInt2 f 2 true false
  | .imad f => formImad f
  | .iadd64 f => formInt64 f
  | .imul64 f => formInt64 f
  | .idiv f => formIdiv f
  | .irem f => formIdiv f
  | .imin f => formInt2 f 6 true false
  | .imax f => formInt2 f 6 true false
  | .iabs f => formIabs f
  | .ineg f => formIabs f
  | .and f => formBit2 f
  | .or f => formBit2 f
  | .xor f => formBit2 f
  | .andn f => formBit2 f
  | .not f => formBit1 f
  | .shl f => formBit2 f
  | .shr f => formBit2 f
  | .sar f => formBit2 f
  | .rol f => formBit2 f
  | .shl64 f => formShl64 f 1
  | .shr64 f => formShl64 f 2
  | .bfe f => formBfe f
  | .bfi f => formBfi f
  | .popc f => formBit1 f
  | .clz f => formBit1 f
  | .ctz f => formBit1 f
  | .brev f => formBit1 f
  | .lea f => formLea f
  | .mov f => formMov f
  | .movi f => formMovi f
  | .icmp f => formIcmp f
  | .fcmp f => formFcmp f
  | .sel f => formSel f
  | .pand f => formPand f
  | .por f => formPand f
  | .pxor f => formPand f
  | .pnot f => formPnot f
  | .p2v f => formP2v f
  | .v2p f => formV2p f
  | .pmov f => formPmov f
  | .fadd f => formFp2 f
  | .fsub f => formFp2 f
  | .fmul f => formFp2 f
  | .ffma f => formFfma f
  | .fdiv f => formFdiv f
  | .fmin f => formFmin f
  | .fmax f => formFmin f
  | .fabs f => formFp1 f false
  | .fneg f => formFp1 f false
  | .fclass f => formFp1 f false
  | .ffloor f => formFp1 f false
  | .fceil f => formFp1 f false
  | .ftrunc f => formFp1 f false
  | .frint f => formFp1 f true
  | .ffract f => formFp1 f true
  | .dadd f => formDadd f
  | .dmul f => formDadd f
  | .dfma f => formDfma f
  | .dcvt f => formDcvt f
  | .hadd2 f => formHadd2 f true true
  | .hmul2 f => formHadd2 f true true
  | .hfma2 f => formHfma2 f
  | .hmin2 f => formHadd2 f false false
  | .hmax2 f => formHadd2 f false false
  | .fdot2 f => formFdot2 f
  | .cvt f => formCvt f
  | .pack2 f => formPack2 f
  | .unpk f => formUnpk f
  | .cvtq f => formCvtq f
  | .cvtdq f => formCvtdq f
  | .frcp f => formSfu f
  | .frsq f => formSfu f
  | .fsqrt f => formSfu f
  | .fexp2 f => formSfu f
  | .flog2 f => formSfu f
  | .fsin f => formSfu f
  | .fcos f => formSfu f
  | .ftanh f => formSfu f
  | .fsigm f => formSfu f
  | .shfl f => formShfl f
  | .shflup f => formShfl f
  | .shfldn f => formShfl f
  | .shflx f => formShfl f
  | .voteany f => formVote f
  | .voteall f => formVote f
  | .ballot f => formBallot f
  | .match_ f => formMatch f
  | .redadd f => formRedadd f
  | .redmin f => formRedmin f
  | .redmax f => formRedmin f
  | .redand f => formRedand f
  | .redor f => formRedand f
  | .scanadd f => formScanadd f
  | .permq f => formPermq f
  | .ld f => formLd f 6
  | .st f => formSt f 6
  | .ldl f => formLd f 2
  | .stl f => formSt f 2
  | .lds f => formLds f
  | .sts f => formSts f
  | .stb f => formSt f 6
  | .ldb f => formLd f 6
  | .pref f => formPref f
  | .cinv f => formCinv f
  | .cwb f => formCinv f
  | .pin f => formPin f
  | .unpin f => formPin f
  | .hset f => formHset f
  | .hget f => formHget f
  | .xlat f => formXlat f
  | .atom f => formAtom f
  | .cas f => formCas f
  | .red f => formRed f
  | .fence f => formFence f
  | .bar f => formBar f
  | .bararv f => formBararv f
  | .barwt f => formBarwt f
  | .qlock f => formQlock f true
  | .qunlock f => formQlock f false
  | .qpush f => formQpush f
  | .qpop f => formQpop f
  | .qtry f => formQtry f
  | .ctradd f => formCtradd f
  | .ctrwait f => formCtrwait f
  | .mmstat f => formMmstat f
  | .cpy f => formCpy f
  | .cpyb f => formCpyb f
  | .gthr f => formGthr f
  | .sctr f => formSctr f
  | .bcast f => formBcast f
  | .cntwait f => formCntwait f
  | .cntrd f => formCntrd f
  | .mmq f => formMmq f
  | .mzero f => formMzero f
  | .mzld f => formMzld f
  | .mzmv f => formMzmv f
  | .mzst f => formMzst f
  | .mbsel f => formMbsel f
  | .scan f => formScan f
  | .scanst f => formScanst f
  | .lnch f => formLnch f
  | .taskq f => formLnch f
  | .succhint f => formSucchint f
  | .waitpred f => formWaitpred f
  | .fetchw f => formFetchw f
  | .cancel f => formCancel f
  | .ctrget f => formCtrget f
  | .watch f => formWatch f
  | .unwatch f => formUnwatch f
  | .watchq f => formWatchq f
  | .smpget f => formSmpget f
  | .smpput f => formSmpput f
  | .smprd f => formSmprd f
  | .pmapwr f => formPmapwr f
  | .rayq f => formRayq f
  | .rayrd f => formRayrd f
  | .tricls f => formTricls f
  | .triras f => formTriras f
  | .eyebor f => formEyebor f
  | .rowwait f => formRowwait f
  | .rowput f => formRowput f
  | .trap f => formTrap f
  | .eret f => formEret f
  | .csrr f => formCsrr f
  | .csrw f => formCsrw f
  | .brkpt f => formTrap f
  | .tlbinv f => formTlbinv f
  | .pagemap f => formPagemap f
  | .wakew f => formWakew f
  | .slotreq f => formSlotreq f
  | .slotrel f => formSlotrel f
  | .layerps f => formLayerps f
  | .ximm f => formPrefix f true
  | .xfmt f => formPrefix f false
  | .runStart _ _ => {}
  | .tokenClear _ _ => {}
  | .dealTile _ => {}
  | .clusterEnqueue _ _ => {}
  | .placeUnit _ _ _ => {}
  | .groupStart _ => {}
  | .stealRequest _ _ _ => {}
  | .donationRequest _ _ => {}
  | .unitRetire _ => {}
  | .groupSave _ => {}
  | .groupRestore _ => {}
  | .engineComplete _ _ => {}
  | .fetchwMailboxWrite _ => {}
  | .triggerChange _ => {}
  | .rateWindow _ => {}
  | .submissionSlotServe _ => {}
  | .heldUseRetry _ => {}
  | .deadlineGuard _ => {}
  | .deadline _ => {}
  | .preemptto _ _ => {}
  | .sleepTimeout _ => {}
  | .watchdog _ => {}
  | .ctrwaitSatisfied _ => {}
  | .tlbShootdownDone _ => {}
  | .sectorTransmit _ _ => {}
  | .almanacCommitApply _ => {}
  | .layerTransitionDone _ _ => {}
  | .rejoinDone _ _ => {}
  | .linkRetrain => {}
  | .linkRetrainEnd _ => {}
  | .pageMigration _ _ => {}
  | .lanternSweepStart _ => {}
  | .lanternEmitBlock _ => {}
  | .lanternPopItem _ _ => {}
  | .lineLit _ => {}
  | .rowwaitWake _ => {}
  | .panelLockLoss _ => {}
  | .panelLockReturn _ => {}
  | .memclkChange _ => {}
  | .memclkStallEnd _ => {}
  | .borrowLate _ => {}
  | .faultRecordPush _ _ => {}
  | .hwqueueRetry _ => {}
  | .hostRead _ _ _ => {}
  | .hostWrite _ _ _ _ => {}
  | .hostAtomic _ _ _ _ _ => {}
  | .powerOn => {}
  | .towerImageCheck => {}
  | .thermal => {}
  | .eccUncorrectable _ _ _ => {}
  | .eccCorrected _ => {}
  | .layeroff _ _ => {}
  | .machine _ => {}
  | .hosterr _ => {}
  | .hostAssistTimeout _ => {}
  | .fwfault _ => {}
  | .clswayWrite _ _ => {}
  | .almctlCommit _ => {}
  | .lntctlWrite _ _ => {}
  | .dspctlWrite _ _ _ => {}
  | .memclkArm _ _ => {}
  | .pwrctlGo _ _ => {}
  | .fnmodeWrite _ _ => {}
  | .hbootgo _ => {}
  | .hwcmdResume _ => {}
  | .hwcmdAbort _ => {}
  | .hwcmdTlbinv _ => {}
  | .htcountWrite _ _ => {}
  | .attctlGo _ => {}
  | .dmkctlWrite _ _ => {}
  | .jctlWrite _ _ _ => {}
  | .registerWrite _ _ _ => {}
  | .clockStepEnd => {}

/-- A hint that breaks R69 whatever the instruction. -/
def hintBad (h : Hint) : Bool :=
  ((decide (h.await ≠ 0) || h.yld) && !h.stop) || (decide (h.st ≠ 0) && h.stop) ||
    (decide (h.tok ≠ 0) && !h.tv) || decide (6 ≤ h.tok.toNat)

/-- RESBITS: an unused operand field, mod or ext bit or hint bit is set (R67, R69). -/
def resFault (m : Form) (f : Fields) : Bool :=
  m.res || !Form.unusedOk m.d f.d || !Form.unusedOk m.a f.a || !Form.unusedOk m.b f.b || hintBad f.hint

/-- ILLFMT: an invalid modifier, operand kind, pair, token use, END or control guard
(R69, R72, R74-R77, R79, R80, R153). -/
def illFault (m : Form) (f : Fields) : Bool :=
  m.ill || !Form.kindOk m.d f.d || !Form.kindOk m.a f.a || !Form.kindOk m.b f.b || !Form.kindOk m.c (opC f) ||
    decide (m.tok = .must) && !f.hint.tv || decide (m.tok = .never) && f.hint.tv ||
    (m.fin && !f.hint.stop) || (decide (m.guard = .illfmt) && decide (f.guard ≠ ⟨false, 0⟩))

/-- GUARDAR: a guard on a group that takes none (R78). -/
def guardFault (m : Form) (f : Fields) : Bool :=
  decide (m.guard = .guardar) && decide (f.guard ≠ ⟨false, 0⟩)

/-- The first decoding fault of orders 3 to 5 (Table 3.9). -/
def staticFault (i : Instr) : Option Cause :=
  match opOf i with
  | none => none
  | some (_, f) =>
    let m := form i
    if resFault m f then some .resbits
    else if illFault m f then some .illfmt
    else if guardFault m f then some .guardar
    else none

/-- The operand fields of a word name no reserved index (R73). -/
def rawFields (w : BitVec 96) : Option Fields :=
  match Opnd.ofIndex (bits w 25 17), Opnd.ofIndex (bits w 34 26), Opnd.ofIndex (bits w 43 35) with
  | some d, some a, some b => some
    { mod := w.extractLsb' 10 7, d := d, a := a, b := b,
      guard := ⟨w.getLsbD 48, w.extractLsb' 44 4⟩,
      hint := { st := w.extractLsb' 49 3, stop := w.getLsbD 52, yld := w.getLsbD 53,
                tv := w.getLsbD 54, tok := w.extractLsb' 55 3, await := w.extractLsb' 58 6 },
      ext := w.extractLsb' 64 32 }
  | _, _, _ => none

/-- Decode a word: the instruction, or the first of ILLOP, RESBITS, ILLFMT and GUARDAR that it meets. -/
def decode (w : BitVec 96) : Except Cause Instr :=
  match ofOp (bits w 9 0) with
  | none => .error .illop
  | some k =>
    match rawFields w with
    | none => .error .resbits
    | some f =>
      match staticFault (k f) with
      | some c => .error c
      | none => .ok (k f)

/-- One bit as a bit vector. -/
def bit1 (b : Bool) : BitVec 1 := BitVec.ofBool b

/-- The word of an opcode and its fields (Tables 3.1 and 3.2). -/
def joinFields (op : Nat) (f : Fields) : BitVec 96 :=
  f.ext ++ f.hint.await ++ f.hint.tok ++ bit1 f.hint.tv ++ bit1 f.hint.yld ++ bit1 f.hint.stop ++
    f.hint.st ++ bit1 f.guard.neg ++ f.guard.p ++ BitVec.ofNat 9 (Opnd.index f.b) ++
    BitVec.ofNat 9 (Opnd.index f.a) ++ BitVec.ofNat 9 (Opnd.index f.d) ++ f.mod ++ BitVec.ofNat 10 op

/-- The word of an instruction; none for a step of the hardware. -/
def encode (i : Instr) : Option (BitVec 96) := (opOf i).map fun (op, f) => joinFields op f

/-- The word held by twelve bytes, the first lowest (R66). -/
def wordOf (bs : List Byte) : BitVec 96 := BitVec.ofNat 96 (Mem.number bs)

/-- The twelve bytes of a word (R66). -/
def bytesOf (w : BitVec 96) : List Byte := Mem.bytes w.toNat 12

/-- The instruction that the decoder reads from a word numbered as the opcode table numbers it: the
bits of the three parcels, lowest first; the bits above `nbits` are zero. -/
def decodeTableWord (nbits w : Nat) : Option Instr :=
  (decode (wordOf (bytesOf (BitVec.ofNat 96 (w % 2 ^ nbits))))).toOption

end Sys2Proof
end

