-- ==== Sys2Proof/Machine/Float.lean ====
section
/-! DEFINITION. Floating-point formats, exact values and the one rounding of a result
(R43-R49, R61, R427). Values are exact: a finite value is (-1)^neg * m * 2^e, and a result is
rounded once from an exact fraction. Flags are the six bits of WFLAGS: IV, DZ, OF, UF, NX, QZ. -/

namespace Sys2Proof.Machine

/-- The sticky flags of Table 2.3 in the bit order of WFLAGS (Table 14.2). -/
abbrev Flags := BitVec 6
def Flags.iv : Flags := 1
def Flags.dz : Flags := 2
def Flags.of_ : Flags := 4
def Flags.uf : Flags := 8
def Flags.nx : Flags := 16
def Flags.qz : Flags := 32

/-- A format of Table 2.1. -/
structure Fmt where
  ew : Nat
  fw : Nat
  bias : Nat
  hasInf : Bool
  deriving DecidableEq, Repr

def Fmt.f64 : Fmt := ⟨11, 52, 1023, true⟩
def Fmt.f32 : Fmt := ⟨8, 23, 127, true⟩
def Fmt.f16 : Fmt := ⟨5, 10, 15, true⟩
def Fmt.bf16 : Fmt := ⟨8, 7, 127, true⟩
def Fmt.e4m3 : Fmt := ⟨4, 3, 7, false⟩
def Fmt.e5m2 : Fmt := ⟨5, 2, 15, true⟩

/-- The sign bit's weight. -/
def Fmt.sign (f : Fmt) : Nat := 2 ^ (f.ew + f.fw)
/-- The all-ones exponent with fraction 0: +infinity where the format has infinities. -/
def Fmt.inf (f : Fmt) : Nat := (2 ^ f.ew - 1) * 2 ^ f.fw
/-- The canonical NaN of Table 2.1. -/
def Fmt.nan (f : Fmt) : Nat := if f.hasInf then f.inf + 2 ^ (f.fw - 1) else f.sign - 1
/-- The largest finite value's pattern (Table 2.1). -/
def Fmt.max (f : Fmt) : Nat := if f.hasInf then f.inf - 1 else f.sign - 2

/-- A decoded value: a NaN, an infinity or (-1)^neg * m * 2^e. -/
inductive FVal where
  | nan
  | inf (neg : Bool)
  | fin (neg : Bool) (m : Nat) (e : Int)
  deriving DecidableEq, Repr

/-- The value of a pattern (R43, R44). -/
def Fmt.decode (f : Fmt) (x : Nat) : FVal :=
  let neg := decide (f.sign ≤ x)
  let r := x % f.sign
  let ex := r / 2 ^ f.fw
  let fr := r % 2 ^ f.fw
  if f.hasInf && decide (f.inf < r) then .nan
  else if f.hasInf && decide (r = f.inf) then .inf neg
  else if !f.hasInf && decide (r = f.sign - 1) then .nan
  else if ex = 0 then .fin neg fr (1 - (f.bias : Int) - f.fw)
  else .fin neg (2 ^ f.fw + fr) ((ex : Int) - f.bias - f.fw)

/-- A rounded result with the flags it raises. -/
structure FRes where
  val : Nat
  fl : Flags
  deriving DecidableEq, Repr

def Fmt.signed (f : Fmt) (neg : Bool) (x : Nat) : Nat := if neg then f.sign + x else x

/-- The canonical NaN with given flags. -/
def Fmt.nanRes (f : Fmt) (fl : Flags) : FRes := ⟨f.nan, fl⟩

/-- A zero with a sign. -/
def Fmt.zeroRes (f : Fmt) (neg : Bool) : FRes := ⟨f.signed neg 0, 0⟩

/-- An infinite result that comes from an infinite operand or a division by zero: with .SAT the
largest finite value, and neither OF nor NX (R47); E4M3 saturates with OF and NX (R44). -/
def Fmt.infRes (f : Fmt) (sat neg : Bool) : FRes :=
  if !f.hasInf then ⟨f.signed neg f.max, Flags.of_ ||| Flags.nx⟩
  else if sat then ⟨f.signed neg f.max, 0⟩ else ⟨f.signed neg f.inf, 0⟩

/-- The quotient and remainder of n/d in units of 2^q. -/
def divScaled (n d : Nat) (q : Int) : Nat × Nat × Nat :=
  let num := n * 2 ^ (-q).toNat
  let den := d * 2 ^ q.toNat
  (num / den, num % den, den)

/-- Does the mode round the magnitude k + r/den (0 ≤ r < den) up? -/
def roundsUp (rnd : Rnd) (neg : Bool) (k r den : Nat) : Bool :=
  match rnd with
  | .rne => decide (den < 2 * r) || (decide (2 * r = den) && decide (k % 2 = 1))
  | .rz => false
  | .ru => decide (0 < r) && !neg
  | .rd => decide (0 < r) && neg

/-- floor(log2(n/d)) for positive n and d. -/
def ilog2 (n d : Nat) : Int :=
  let l : Int := (Nat.log2 n : Int) - Nat.log2 d
  if d * 2 ^ l.toNat ≤ n * 2 ^ (-l).toNat then l else l - 1

/-- What an overflow gives (Table 2.2, R44). -/
def Fmt.overflow (f : Fmt) (rnd : Rnd) (sat neg : Bool) : FRes :=
  let toMax := sat || !f.hasInf || (match rnd with
    | .rne => false | .rz => true | .ru => neg | .rd => !neg)
  ⟨f.signed neg (if toMax then f.max else f.inf), Flags.of_ ||| Flags.nx⟩

/-- The exact magnitude n/d, with a sign, rounded once to the format (R47). Tininess is judged after
rounding (R46). An exact zero keeps the sign given. -/
def Fmt.round (f : Fmt) (rnd : Rnd) (sat neg : Bool) (n d : Nat) : FRes :=
  if n = 0 then f.zeroRes neg else
  let e := ilog2 n d
  let emin : Int := 1 - (f.bias : Int)
  let q := (if e < emin then emin else e) - f.fw
  let (k, r, den) := divScaled n d q
  let k' := if roundsUp rnd neg k r den then k + 1 else k
  let x := if e < emin then k' else (e + f.bias).toNat * 2 ^ f.fw + k' - 2 ^ f.fw
  let lim := if f.hasInf then f.inf else f.sign - 1
  if lim ≤ x then f.overflow rnd sat neg
  else
    let tiny := decide (e < emin) &&
      (let (k2, r2, den2) := divScaled n d (e - f.fw)
       let k3 := if roundsUp rnd neg k2 r2 den2 then k2 + 1 else k2
       !(decide (e = emin - 1) && decide (k3 = 2 ^ (f.fw + 1))))
    let nx : Flags := if r = 0 then 0 else Flags.nx
    let uf : Flags := if tiny && decide (r ≠ 0) then Flags.uf else 0
    ⟨f.signed neg x, nx ||| uf⟩

/-- A dyadic magnitude m * 2^e rounded once. -/
def Fmt.roundDyadic (f : Fmt) (rnd : Rnd) (sat neg : Bool) (m : Nat) (e : Int) : FRes :=
  f.round rnd sat neg (m * 2 ^ e.toNat) (2 ^ (-e).toNat)

/-- A term of an exact sum (R427): `bad` is a product 0 * infinity. -/
inductive Term where
  | nan
  | bad
  | inf (neg : Bool)
  | fin (neg : Bool) (m : Nat) (e : Int)
  deriving DecidableEq, Repr

/-- A value as an addend. -/
def FVal.term : FVal → Term
  | .nan => .nan
  | .inf n => .inf n
  | .fin n m e => .fin n m e

/-- The exact product of two values as a term (R427). -/
def FVal.mul : FVal → FVal → Term
  | .nan, _ => .nan
  | _, .nan => .nan
  | .inf a, .inf b => .inf (a != b)
  | .inf a, .fin b m _ => if m = 0 then .bad else .inf (a != b)
  | .fin a m _, .inf b => if m = 0 then .bad else .inf (a != b)
  | .fin a m e, .fin b k g => .fin (a != b) (m * k) (e + g)

/-- The value with its sign inverted. -/
def FVal.neg : FVal → FVal
  | .nan => .nan
  | .inf n => .inf (!n)
  | .fin n m e => .fin (!n) m e

/-- A dyadic integer sum: (x * 2^e) + (m * 2^g) as one mantissa and exponent. -/
def addDyadic (x : Int) (e : Int) (m : Int) (g : Int) : Int × Int :=
  if e ≤ g then (x + m * 2 ^ (g - e).toNat, e) else (x * 2 ^ (e - g).toNat + m, g)

/-- The exact sum of the finite terms. -/
def sumDyadic : List Term → Int × Int
  | [] => (0, 0)
  | .fin neg m e :: ts =>
    if m = 0 then sumDyadic ts
    else
      let (x, g) := sumDyadic ts
      if x = 0 then ((if neg then -(m : Int) else m), e)
      else addDyadic x g (if neg then -(m : Int) else m) e
  | _ :: ts => sumDyadic ts

def Term.isNan : Term → Bool
  | .nan => true
  | .bad => true
  | _ => false

def Term.isBad (t : Term) : Bool := t = .bad
def Term.isInf (n : Bool) (t : Term) : Bool := t = .inf n
def Term.isNeg : Term → Bool
  | .fin n _ _ => n
  | .inf n => n
  | _ => false

/-- The exact sum of the terms, rounded once (R47, R61, R427). An exact zero is the common sign of
the terms when they all have one, else +0, and -0 under .RD. -/
def Fmt.sum (f : Fmt) (rnd : Rnd) (sat : Bool) (ts : List Term) : FRes :=
  let pinf := ts.any (Term.isInf false)
  let ninf := ts.any (Term.isInf true)
  let iv : Flags := if ts.any Term.isBad || (pinf && ninf) then Flags.iv else 0
  if ts.any Term.isNan || (pinf && ninf) then f.nanRes iv
  else if pinf then f.infRes sat false
  else if ninf then f.infRes sat true
  else
    let (x, e) := sumDyadic ts
    if x = 0 then
      if ts.all Term.isNeg then f.zeroRes (!ts.isEmpty)
      else if ts.any Term.isNeg then f.zeroRes (rnd = .rd)
      else f.zeroRes false
    else f.roundDyadic rnd sat (x < 0) x.natAbs e

def Fmt.add (f : Fmt) (rnd : Rnd) (sat : Bool) (x y : Nat) : FRes :=
  f.sum rnd sat [(f.decode x).term, (f.decode y).term]
def Fmt.sub (f : Fmt) (rnd : Rnd) (sat : Bool) (x y : Nat) : FRes :=
  f.sum rnd sat [(f.decode x).term, (f.decode y).neg.term]
def Fmt.mul (f : Fmt) (rnd : Rnd) (sat : Bool) (x y : Nat) : FRes :=
  f.sum rnd sat [(f.decode x).mul (f.decode y)]
/-- x * y + z, exact, rounded once (R171). -/
def Fmt.fma (f : Fmt) (rnd : Rnd) (sat : Bool) (x y z : Nat) : FRes :=
  f.sum rnd sat [(f.decode x).mul (f.decode y), (f.decode z).term]

/-- Division under the table of R172. -/
def Fmt.div (f : Fmt) (rnd : Rnd) (sat : Bool) (x y : Nat) : FRes :=
  match f.decode x, f.decode y with
  | .nan, _ => f.nanRes 0
  | _, .nan => f.nanRes 0
  | .inf _, .inf _ => f.nanRes Flags.iv
  | .inf a, .fin b _ _ => f.infRes sat (a != b)
  | .fin a _ _, .inf b => f.zeroRes (a != b)
  | .fin a m e, .fin b k g =>
    if k = 0 then
      if m = 0 then f.nanRes Flags.iv
      else ⟨(f.infRes sat (a != b)).val, Flags.dz⟩
    else f.round rnd sat (a != b) (m * 2 ^ (e - g).toNat) (k * 2 ^ (g - e).toNat)

/-- A comparison key of a non-NaN pattern: patterns order as the values do, -0 below +0 (R48). -/
def Fmt.key (f : Fmt) (x : Nat) : Int :=
  if f.sign ≤ x then -((x - f.sign : Nat) : Int) - 1 else x

/-- FMIN and FMAX (R48): the operand's bits, or the canonical NaN. -/
def Fmt.minmax (f : Fmt) (isMax : Bool) (x y : Nat) : Nat :=
  if f.decode x = .nan || f.decode y = .nan then f.nan
  else if (f.key x < f.key y) != isMax then x else y

/-- The order of two exact values, with -0 equal to +0: -1, 0 or 1; none when one is a NaN (R165). -/
def FVal.cmp : FVal → FVal → Option Int
  | .nan, _ => none
  | _, .nan => none
  | .inf a, .inf b => some (if a = b then 0 else if a then -1 else 1)
  | .inf a, .fin _ _ _ => some (if a then -1 else 1)
  | .fin _ _ _, .inf b => some (if b then 1 else -1)
  | .fin a m e, .fin b k g =>
    let x : Int := if a then -(m : Int) else m
    let y : Int := if b then -(k : Int) else k
    let (z, _) := addDyadic x e (-y) g
    some (if z < 0 then -1 else if z = 0 then 0 else 1)

/-- A conversion between formats: one rounding; exact when the target is wider (R178, R181). -/
def Fmt.convert (src dst : Fmt) (rnd : Rnd) (sat : Bool) (x : Nat) : FRes :=
  match src.decode x with
  | .nan => dst.nanRes 0
  | .inf n => dst.infRes sat n
  | .fin n m e => dst.roundDyadic rnd sat n m e

/-- An integer converted to a format, rounded once. -/
def Fmt.ofInt (f : Fmt) (rnd : Rnd) (x : Int) : FRes :=
  f.roundDyadic rnd false (x < 0) x.natAbs 0

/-- A magnitude m * 2^e rounded to an integer, and whether that was inexact. -/
def roundInt (rnd : Rnd) (neg : Bool) (m : Nat) (e : Int) : Nat × Bool :=
  let (k, r, den) := divScaled (m * 2 ^ e.toNat) (2 ^ (-e).toNat) 0
  (if roundsUp rnd neg k r den then k + 1 else k, decide (r ≠ 0))

/-- Conversion from floating point to an integer in [lo, hi] (R179). -/
def Fmt.toInt (f : Fmt) (rnd : Rnd) (lo hi : Int) (x : Nat) : Int × Flags :=
  match f.decode x with
  | .nan => (0, Flags.iv)
  | .inf n => (if n then lo else hi, Flags.iv)
  | .fin n m e =>
    let (k, inex) := roundInt rnd n m e
    let v : Int := if n then -(k : Int) else k
    if v < lo then (lo, Flags.iv)
    else if hi < v then (hi, Flags.iv)
    else (v, if inex then Flags.nx else 0)

/-- Rounding to an integral value of the format, no flags; a zero keeps the sign of x (R174). -/
def Fmt.integral (f : Fmt) (rnd : Rnd) (x : Nat) : Nat :=
  match f.decode x with
  | .nan => f.nan
  | .inf _ => x
  | .fin n m e => (f.roundDyadic .rz false n (roundInt rnd n m e).1 0).val

/-- FFRACT (R174). -/
def Fmt.fract (f : Fmt) (rnd : Rnd) (x : Nat) : FRes :=
  match f.decode x with
  | .nan => f.nanRes 0
  | .inf _ => f.nanRes Flags.iv
  | .fin n m e =>
    let k := (roundInt .rd n m e).1
    let fl : Int := if n then -(k : Int) else k
    let (y, g) := addDyadic (if n then -(m : Int) else m) e (-fl) 0
    if y = 0 then f.zeroRes false
    else
      let r := f.roundDyadic rnd false false y.natAbs g
      if r.val = f.bias * 2 ^ f.fw then ⟨r.val - 1, r.fl⟩ else r

/-- The class mask of FCLASS (R173). -/
def Fmt.classMask (f : Fmt) (x : Nat) : Nat :=
  match f.decode x with
  | .nan => 2 ^ 8
  | .inf n => if n then 2 ^ 0 else 2 ^ 7
  | .fin n m _ =>
    if m = 0 then (if n then 2 ^ 3 else 2 ^ 4)
    else if m < 2 ^ f.fw then (if n then 2 ^ 2 else 2 ^ 5)
    else (if n then 2 ^ 1 else 2 ^ 6)

/-- Integer square root: the bits of the root from bit i down. -/
def isqrtBits (n : Nat) : Nat → Nat → Nat
  | 0, r => r
  | i + 1, r =>
    let r' := r + 2 ^ i
    isqrtBits n i (if r' * r' ≤ n then r' else r)

/-- floor(sqrt n). -/
def isqrt (n : Nat) : Nat := isqrtBits n (Nat.log2 n / 2 + 1) 0

/-- The square root of n/d rounded once: a root with 80 spare bits, and a half unit beyond it when it
is not exact, which lies in the same rounding interval as the root itself. -/
def Fmt.sqrtRes (f : Fmt) (rnd : Rnd) (n d : Nat) : FRes :=
  let k := Nat.log2 d + 160
  let y := n * 2 ^ (2 * k) / d
  let r := isqrt y
  if r * r * d = n * 2 ^ (2 * k) then f.round rnd false false r (2 ^ k)
  else f.round rnd false false (2 * r + 1) (2 ^ (k + 1))

end Sys2Proof.Machine
end

