-- ==== Sys2Proof/Config.lean ====
section
/-! DEFINITION. What the manual leaves open: opaque constants without a body, so that no proof can
see a value of them, and a claim about the model holds whatever they are. Each names its log entry. -/

namespace Sys2Proof.Config

/-- Clocks of the core clock that pass on a core (of both towers, by tower * 128 + layer * 16 + core) in the
n-th span of time (log 5). -/
opaque clkStep : Nat → Nat → Nat
/-- Ticks of the tower time base that pass in the n-th span of time (log 5). -/
opaque tickStep : Nat → Nat
/-- The number at which the search for a free group number starts, at the n-th group start (R320, log 17). -/
opaque groupBase : Nat → Nat
/-- Whether the n-th PIN line finds a way that it may take (R246, log 18). -/
opaque wayFree : Nat → Bool
/-- Demand misses of a tower's layers with pinned lines that are served without allocation, in the n-th span of time
(R236, log 18). -/
opaque pinMiss : Nat → Nat → Nat
/-- Ticks that the n-th write of an access table register takes to reach its last target (R286, log 94). -/
opaque atLag : Nat → Nat
/-- Units of 64 bytes by which a rejoining layer's copy advances, at the n-th free value (R279, log 16). -/
opaque copyStep : Nat → Nat
/-- The tag that a typed load with no active lane gives through an entry whose DFTAG is a reserved tag (R56, log 114). -/
opaque openTag : BitVec 256 → Fin 14
/-- The SM3 digest of a byte string (R417-R419, log 11). -/
opaque sm3 : List Byte → BitVec 256
/-- SM2 verification: public key, signature, digest (R417, log 11). -/
opaque sm2Verify : BitVec 512 → BitVec 512 → BitVec 256 → Bool
/-- SM2 signature of a digest with a private key, at the n-th report (R419, log 11). -/
opaque sm2Sign : Nat → BitVec 256 → Nat → BitVec 512
/-- SM2 public key of a private key (R418, log 11). -/
opaque sm2Public : Nat → BitVec 512
/-- The SM2 group order (R418, log 11). -/
opaque sm2Order : Nat
/-- A correctly rounded special function whose enclosure at the model's precision does not decide the
rounding: function code, operand, mode (R184, log 12). -/
opaque sfuOpen : Nat → Word → Rnd → Word
/-- The value that an instruction's unstated result takes, at the n-th free value (log 19). -/
opaque freeWord : Nat → Word

end Sys2Proof.Config
end

