-- ==== Sys2Proof/Machine/Operands.lean ====
section
/-! DEFINITION. Registers and operands: what an instruction reads, with the stale reads of R147, and
what it writes, with the log of the run's writes (R145). A register has one home here: every other
file reads and writes registers through these operations. -/

namespace Sys2Proof.Machine

/-- The group of Table 1.4 fields: bits [hi:lo] of byte `b` of the accepted task record (R23). -/
def taskBits (t : BitVec 512) (b hi lo : Nat) : Nat := bits t (8 * b + hi) (8 * b + lo)

/-- Vector registers of each wave: VBUDGET × 8 (R26). -/
def Group.budget (g : Group) : Nat := 8 * taskBits g.task 32 5 0

def Wave.vreg (w : Wave) (n : Nat) : VReg := Table.get VReg.zero w.vregs n
def Wave.sreg (w : Wave) (n : Nat) : Word := Table.get 0 w.sregs n
def Wave.pred (w : Wave) (n : Nat) : Mask := Table.get 0 w.preds n
def Wave.tile (w : Wave) (n : Nat) : Tile := Table.get Tile.zero w.tiles n
def Wave.temp (w : Wave) (n : Nat) : Option VReg := Table.find w.temps n

def Wave.setV (w : Wave) (n : Nat) (x : VReg) : Wave :=
  { w with vregs := Table.set VReg.zero w.vregs n x }
def Wave.setS (w : Wave) (n : Nat) (x : Word) : Wave := { w with sregs := Table.set 0 w.sregs n x }
def Wave.setP (w : Wave) (n : Nat) (x : Mask) : Wave := { w with preds := Table.set 0 w.preds n x }
def Wave.setZ (w : Wave) (n : Nat) (x : Tile) : Wave :=
  { w with tiles := Table.set Tile.zero w.tiles n x }
def Wave.setT (w : Wave) (n : Nat) (x : Option VReg) : Wave :=
  { w with temps := match x with | some y => Table.put w.temps n y | none => Table.erase w.temps n }

/-- The registers of an s pair as a 64-bit value (R42). -/
def Wave.pair (w : Wave) (n : Nat) : DWord := w.sreg (n + 1) ++ w.sreg n

/-! ### Stale reads (R146, R147) -/

/-- The latencies of a row of Tables 6.1 and 7.1: read as a temporary, as v or p, as s or by the scalar
pipe, and an s result read by a vector instruction (log 25). -/
structure Lat where
  t : Nat
  v : Nat
  s : Nat
  sv : Nat

/-- A write that every later read of the run finds on time: a token or an interlock covers it (R148). -/
def Lat.now : Lat := ⟨0, 0, 0, 0⟩
/-- Such a write. -/
def Lat.waits (l : Lat) : Bool := decide (l.t = 0 ∧ l.v = 0 ∧ l.s = 0)
/-- Integer and logic, predicate and select (Table 6.1). -/
def Lat.int : Lat := ⟨1, 3, 2, 2⟩
/-- The multiplies and 64-bit operations (Table 6.1). -/
def Lat.mul : Lat := ⟨3, 5, 4, 2⟩
/-- FP32 arithmetic, packed, CVT, PACK2 (Table 7.1). -/
def Lat.fp : Lat := ⟨2, 4, 3, 3⟩
/-- FDOT2, UNPK (Table 7.1). -/
def Lat.dot : Lat := ⟨3, 5, 4, 4⟩
/-- DADD, DMUL, DCVT (Table 7.1). -/
def Lat.f64 : Lat := ⟨6, 6, 5, 5⟩
/-- DFMA (Table 7.1). -/
def Lat.dfma : Lat := ⟨7, 7, 6, 6⟩
/-- Shuffles and votes (Table 7.1). -/
def Lat.lane : Lat := ⟨2, 4, 4, 4⟩
/-- MATCH (Table 7.1). -/
def Lat.mtch : Lat := ⟨4, 6, 6, 6⟩
/-- Reductions and SCANADD (Table 7.1). -/
def Lat.red : Lat := ⟨6, 8, 8, 8⟩

/-- The latency that a reader must keep: of a temporary, of any register read by the scalar pipe, or of
a register read by a vector instruction. -/
def LateWrite.need (e : LateWrite) (scal : Bool) : Nat :=
  if 448 ≤ e.reg ∧ e.reg < 456 then e.latT else if scal then e.latS else e.latV

/-- Is a read at nominal time `now` on time for this write (R146)? -/
def LateWrite.onTime (e : LateWrite) (scal : Bool) (now : Nat) : Bool :=
  decide (e.at_ + e.need scal ≤ now)

/-- The wave with one register put back to the value it held before a write. -/
def Wave.undo (w : Wave) (e : LateWrite) : Wave :=
  match Opnd.ofIndex e.reg, e.old with
  | some (.v n), .vec x => w.setV n x
  | some (.s n), .word x => w.setS n x
  | some (.p n), .word x => w.setP n x
  | some (.t n), .vec x => w.setT n (some x)
  | some (.t n), .gone => w.setT n none
  | _, _ => w

/-- Is some write of a register among those not on time? A later write lands after it (R145). -/
def lateIn (scal : Bool) (now : Nat) (l : List LateWrite) (reg : Nat) : Bool :=
  l.any fun e => decide (e.reg = reg) && !e.onTime scal now

/-- The late writes of a run without those of n registers from one on: a write that a token covers takes effect after the
earlier writes of its register, so what reads it finds them landed (R145, R147). -/
def Wave.landed (w : Wave) (reg n : Nat) : List LateWrite :=
  w.late.filter fun e => e.reg < reg || decide (reg + n ≤ e.reg)

/-- Undo, newest first, the writes that have not landed: those not on time and those behind them (R145). -/
def Wave.rewind (scal : Bool) (now : Nat) : List LateWrite → Wave → Wave
  | [], w => w
  | e :: es, w => Wave.rewind scal now es (if lateIn scal now (e :: es) e.reg then w.undo e else w)

/-- The wave as a reader at its nominal time sees its registers (R147 with SBCHK clear). -/
def Wave.seen (w : Wave) (scal : Bool) : Wave := Wave.rewind scal w.time w.late w

/-- Has a write of the register not landed for this reader (R145, R147)? -/
def Wave.isLate (w : Wave) (scal : Bool) (reg : Nat) : Bool := lateIn scal w.time w.late reg

/-! ### Special operands (Table 3.5) -/

/-- The index of a group's core in the tables of its tower. -/
def Group.coreIdx (g : Group) : Nat := g.layer.val * 16 + g.core.val

def State.tower (s : State) (t : TowerId) : Tower := if t = 0 then s.tower0 else s.tower1
def State.setTower (s : State) (t : TowerId) (x : Tower) : State :=
  if t = 0 then { s with tower0 := x } else { s with tower1 := x }

/-- The wave's key (R320). -/
def Wave.key (w : Wave) : WaveKey := ⟨w.job, w.gid, w.idx⟩
/-- The group's key. -/
def Group.key (g : Group) : GroupKey := ⟨g.job, g.gid⟩
/-- The 64-bit clock counter of a group's core (R428). -/
def State.clock (s : State) (g : Group) : DWord := Table.get 0 (s.tower g.tower).clk g.coreIdx

/-- What a special operand reads (Table 3.5). -/
def State.special (s : State) (k : Special) : Lanes :=
  match k with
  | .nil => splat 0
  | .laneid => lanesFn fun i => BitVec.ofNat 32 i
  | .em => splat s.wave.em
  | .clk => splat ((s.clock s.group).setWidth 32)
  | .waveslot => splat (BitVec.ofNat 32 s.wave.slot)
  | .grpslot => splat (BitVec.ofNat 32 s.group.slot)
  | .tileco => splat (BitVec.ofNat 32 (taskBits s.group.task 16 31 0))
  | .trigmask => splat (BitVec.ofNat 32
      (if taskBits s.group.task 35 3 3 = 1 then taskBits s.group.task 48 15 0 else 0))

/-! ### Reading -/

/-- What an instruction reads from: the state before it, the wave as it sees its registers, the
fields, XIMM's half, and the effective mask (R78). -/
structure Ctx where
  s : State
  w : Wave
  f : Fields
  ximm : Option Word
  m : Mask

/-- The lanes and the tag of an operand; a uniform one gives every lane its word with tag RAW (R74, R77). -/
def Ctx.src (x : Ctx) (o : Opnd) : VReg :=
  match o with
  | .v n => x.w.vreg n
  | .t n => (x.w.temp n).getD VReg.zero
  | .s n => ⟨0, splat (x.w.sreg n)⟩
  | .p n => ⟨0, lanesFn fun i => if laneOn (x.w.pred n) i then 1 else 0⟩
  | .sp k => ⟨0, x.s.special k⟩
  | .z _ => VReg.zero

/-- Register k of a span: no span leaves its file, and a special operand stands for all of its span. -/
def Opnd.step (o : Opnd) (k : Nat) : Opnd :=
  match o with
  | .v n => if h : n.val + k < 320 then .v ⟨n.val + k, h⟩ else .sp .nil
  | .s n => if h : n.val + k < 128 then .s ⟨n.val + k, h⟩ else .sp .nil
  | .sp x => .sp x
  | o => if k = 0 then o else .sp .nil

/-- The lanes of an operand. -/
def Ctx.lanes (x : Ctx) (o : Opnd) : Lanes := (x.src o).lanes
/-- Lane i of the 64-bit value of a pair (R42). -/
def Ctx.lane64 (x : Ctx) (o : Opnd) (i : Nat) : DWord :=
  laneAt (x.lanes (Opnd.step o 1)) i ++ laneAt (x.lanes o) i
/-- A uniform operand's word. -/
def Ctx.uni (x : Ctx) (o : Opnd) : Word := laneAt (x.lanes o) 0
/-- A uniform pair's value; 0 for `nil`. -/
def Ctx.uni64 (x : Ctx) (o : Opnd) : DWord := if isNil o then 0 else x.lane64 o 0
/-- A predicate's bits. -/
def Ctx.prd (x : Ctx) (o : Opnd) : Mask := match o with | .p n => x.w.pred n | _ => 0

/-- The source that an immediate may replace (R72): its lanes and tag. -/
def Ctx.srcI (x : Ctx) (o : Opnd) : VReg := if immOn x.f then ⟨0, splat x.f.ext⟩ else x.src o

/-- How a 64-bit immediate without XIMM is widened (R72). -/
inductive Widen where
  | sign | zero | f64
  deriving DecidableEq, Repr

/-! ### Writing -/

/-- Record a write of the run before it is made (R145). -/
def Wave.log (w : Wave) (o : Opnd) (old : OldVal) (l : Lat) : Wave :=
  { w with late := ⟨Opnd.index o, old, w.time, l.t, l.v, l.s⟩ ::
      if l.waits then w.landed (Opnd.index o) 1 else w.late }

/-- Write a vector register under a mask; the tag is set for all lanes (R59). -/
def Wave.writeV (w : Wave) (n : Fin 320) (m : Mask) (l : Lat) (tag : BitVec 4) (x : Lanes) : Wave :=
  (w.log (.v n) (.vec (w.vreg n)) l).setV n ⟨tag, mergeLanes m x (w.vreg n).lanes⟩

/-- Write a temporary under a mask; `base` fills the lanes not written when it held no value. -/
def Wave.writeT (w : Wave) (n : Fin 8) (m : Mask) (l : Lat) (tag : BitVec 4) (x base : Lanes) : Wave :=
  let old := match w.temp n with | some y => OldVal.vec y | none => .gone
  (w.log (.t n) old l).setT n
    (some ⟨tag, mergeLanes m x ((w.temp n).map VReg.lanes |>.getD base)⟩)

def Wave.writeS (w : Wave) (n : Fin 128) (l : Lat) (x : Word) : Wave :=
  (w.log (.s n) (.word (w.sreg n)) { l with v := l.sv }).setS n x

/-- Write a predicate in the lanes of a mask (R164). -/
def Wave.writeP (w : Wave) (n : Fin 16) (m : Mask) (l : Lat) (x : Mask) : Wave :=
  (w.log (.p n) (.word (w.pred n)) l).setP n ((x &&& m) ||| (w.pred n &&& ~~~m))

/-- The lanes of a temporary that has held no value: free values (log 19). -/
def State.freeLanes (s : State) : Lanes := lanesFn fun i => Config.freeWord (s.free + i)

/-- Write an operand: v and t in the lanes of the mask, s and `em` whole from lane 0, `nil` discards
(R74, R151, R152). -/
def State.write (s : State) (o : Opnd) (m : Mask) (l : Lat) (tag : BitVec 4) (x : Lanes) : State :=
  match o with
  | .v n => { s with wave := s.wave.writeV n m l tag x }
  | .t n => { s with wave := s.wave.writeT n m l tag x s.freeLanes, free := s.free + 32 }
  | .s n => { s with wave := s.wave.writeS n l (laneAt x 0) }
  | .p n => { s with wave := s.wave.writeP n m l (maskOf fun i => (laneAt x i).getLsbD 0) }
  | .sp .em => { s with wave := { s.wave with em := laneAt x 0 &&& s.wave.live } }
  | _ => s

/-- Write a 64-bit result to a register pair (R42). -/
def State.write64 (s : State) (o : Opnd) (m : Mask) (l : Lat) (tag : BitVec 4) (x : Nat → DWord) :
    State :=
  (s.write o m l tag (lanesFn fun i => (x i).setWidth 32)).write (Opnd.step o 1) m l tag
    (lanesFn fun i => (x i >>> 32).setWidth 32)

/-- Write a predicate operand in the lanes of a mask. -/
def State.writePred (s : State) (o : Opnd) (m : Mask) (l : Lat) (x : Mask) : State :=
  match o with
  | .p n => { s with wave := s.wave.writeP n m l x }
  | _ => s

/-- Write an s register; `nil` and every other operand discard. -/
def State.writeS (s : State) (o : Opnd) (l : Lat) (x : Word) : State :=
  match o with
  | .s n => { s with wave := s.wave.writeS n l x }
  | _ => s

/-- Write an s pair. -/
def State.writeS64 (s : State) (o : Opnd) (l : Lat) (x : DWord) : State :=
  (s.writeS o l (x.setWidth 32)).writeS (Opnd.step o 1) l ((x >>> 32).setWidth 32)

end Sys2Proof.Machine
end

