-- ==== Sys2Proof/Machine/Flags.lean ====
section
/-! DEFINITION. The sticky flags (R49, Table 2.3) and the trap of an enabled flag. -/

namespace Sys2Proof

/-- A precise trap: the cause alone. -/
def TrapInfo.plain (c : Cause) : TrapInfo := ⟨c, false, 0, 0, 0, 0⟩
/-- A precise trap with an address or offset and the failing lanes. -/
def TrapInfo.at_ (c : Cause) (a : DWord) (m : Mask) : TrapInfo := ⟨c, false, 0, a, m, 0⟩
/-- A trap after the instruction's results. -/
def TrapInfo.late (c : Cause) (a : DWord) : TrapInfo := ⟨c, true, 0, a, 0, 0⟩

namespace Machine

/-- The trap of the first flag raised whose enable is set in the job control word: FPINV, DIVZERO,
FPOVF, QSCALE in that order (R49, Table 14.1). -/
def flagTrap (jctl : DWord) (fl : Flags) : Option TrapInfo :=
  if fl.getLsbD 0 && jctl.getLsbD 2 then some (.late .fpinv 0)
  else if fl.getLsbD 1 && jctl.getLsbD 3 then some (.late .divzero 0)
  else if fl.getLsbD 2 && jctl.getLsbD 4 then some (.late .fpovf 0)
  else if fl.getLsbD 5 && jctl.getLsbD 5 then some (.late .qscale 0)
  else none

/-- A trap to be taken once the instruction has written its results; an earlier one stays. -/
def State.post (s : State) (t : Option TrapInfo) : State :=
  { s with wave := { s.wave with pendTrap := s.wave.pendTrap.or t } }

/-- Raise flags in WFLAGS, and the trap of an enabled one (R49). -/
def State.raise (s : State) (fl : Flags) : State :=
  ({ s with wave := { s.wave with wflags := s.wave.wflags ||| fl } }).post
    (flagTrap s.wave.jctl fl)

/-- The OR of the flags of the lanes set in a mask (R49). -/
def orFlags (m : Mask) (fl : Nat → Flags) : Flags :=
  (lanesOf m).foldl (fun x i => x ||| fl i) 0

/-- A rounded 32-bit result per lane. -/
def FRes.word (r : FRes) : Word := BitVec.ofNat 32 r.val

/-- A lane result made of a list of packed element results, `w` bits each, element 0 lowest (R42). -/
def packRes (w : Nat) : List FRes → FRes
  | [] => ⟨0, 0⟩
  | r :: rs => let t := packRes w rs; ⟨r.val % 2 ^ w + 2 ^ w * t.val, r.fl ||| t.fl⟩

/-- Element j, `w` bits wide, of a lane (R42). -/
def elem (w j : Nat) (x : Word) : Nat := (x.toNat / 2 ^ (w * j)) % 2 ^ w

end Machine
end Sys2Proof
end

