-- ==== Sys2Proof/Machine/Store.lean ====
section
/-! DEFINITION. Finding and changing waves, groups, jobs and towers, and a store of global bytes: the
comparison of watched stores (R113), the poison of soft errors (R375) and the release that a location
remembers (R294). The lists of waiting waves (R320-R323) are unlinked here. -/

namespace Sys2Proof.Machine

/-! ### Waves and groups -/

def Wave.inGroup (w : Wave) (g : GroupKey) : Bool := decide (w.job = g.job ∧ w.gid = g.gid)

/-- The wave with a key, among the focus wave and the others. -/
def State.findWave (s : State) (k : WaveKey) : Option Wave :=
  if s.wave.key = k then some s.wave else s.waves.find? (fun w => w.key = k)

/-- Change the wave with a key. -/
def State.mapWave (s : State) (k : WaveKey) (f : Wave → Wave) : State :=
  { s with wave := if s.wave.key = k then f s.wave else s.wave,
           waves := s.waves.map fun w => if w.key = k then f w else w }

/-- Change every wave of a group. -/
def State.mapGroupWaves (s : State) (g : GroupKey) (f : Wave → Wave) : State :=
  { s with wave := if s.wave.inGroup g then f s.wave else s.wave,
           waves := s.waves.map fun w => if w.inGroup g then f w else w }

/-- Every live and ended wave. -/
def State.allWaves (s : State) : List Wave := s.wave :: s.waves
/-- Every group. -/
def State.allGroups (s : State) : List Group := s.group :: s.groups

def State.findGroup (s : State) (g : GroupKey) : Option Group :=
  if s.group.key = g then some s.group else s.groups.find? (fun x => x.key = g)

def State.mapGroup (s : State) (g : GroupKey) (f : Group → Group) : State :=
  { s with group := if s.group.key = g then f s.group else s.group,
           groups := s.groups.map fun x => if x.key = g then f x else x }

/-- The group of a wave. -/
def State.groupOf (s : State) (w : Wave) : Group := (s.findGroup ⟨w.job, w.gid⟩).getD Group.empty

def State.findJob (s : State) (j : Nat) : Option Job := s.jobs.find? (fun x => x.id = j)
def State.mapJob (s : State) (j : Nat) (f : Job → Job) : State :=
  { s with jobs := s.jobs.map fun x => if x.id = j then f x else x }
def State.findLaunch (s : State) (n : Nat) : Option Launch := s.launches.find? (fun x => x.id = n)
def State.mapLaunch (s : State) (n : Nat) (f : Launch → Launch) : State :=
  { s with launches := s.launches.map fun x => if x.id = n then f x else x }
def State.findUnit (s : State) (n : Nat) : Option WorkUnit := s.units.find? (fun x => x.id = n)
def State.mapUnit (s : State) (n : Nat) (f : WorkUnit → WorkUnit) : State :=
  { s with units := s.units.map fun x => if x.id = n then f x else x }
def State.mapTower (s : State) (t : TowerId) (f : Tower → Tower) : State :=
  s.setTower t (f (s.tower t))

/-- The tag of a wave (R320). -/
def Wave.tag (w : Wave) : Word := BitVec.ofNat 32 (w.idx % 16 + 16 * (w.gid % 2 ^ 27) + 2 ^ 31)

/-- Nothing of an ended wave is left to complete. -/
def Wave.gone (w : Wave) : Bool := !w.alive && w.cmds.isEmpty && w.segs.isEmpty && decide (w.tokens = 0)

/-- Bring the wave with a key, and its group, into focus. A focus wave that is gone is let go. -/
def State.focusOn (s : State) (k : WaveKey) : State :=
  if s.wave.key = k then s
  else match s.waves.find? (fun w => w.key = k) with
    | none => s
    | some w =>
      let rest := s.waves.filter fun x => x.key ≠ k
      let s := { s with wave := w, waves := if s.wave.gone then rest else rest ++ [s.wave] }
      if s.group.key = ⟨k.job, k.gid⟩ then s
      else
        let g := s.groupOf w
        let rest := s.groups.filter fun x => x.key ≠ g.key
        { s with group := g, groups := if s.group = Group.empty then rest else rest ++ [s.group] }

/-- Entries in the order that they had before; new ones last. -/
def keepOrder {α κ : Type} [DecidableEq κ] (key : α → κ) (old new : List α) : List α :=
  old.filterMap (fun a => new.find? fun b => key b = key a) ++ new.filter fun b => !old.any fun a => key a = key b

/-- Act as another wave, and come back: the lists of waves and groups keep their order. -/
def State.as (s : State) (k : WaveKey) (f : State → State) : State :=
  let t := (f (s.focusOn k)).focusOn s.wave.key
  { t with waves := keepOrder Wave.key s.waves t.waves, groups := keepOrder Group.key s.groups t.groups }

/-- Write a result into a wave that is outside a run: v in the lanes of the mask, s whole. -/
def Wave.give (w : Wave) (o : Opnd) (m : Mask) (tag : BitVec 4) (x : Lanes) : Wave :=
  match o with
  | .v n => w.setV n ⟨tag, mergeLanes m x (w.vreg n).lanes⟩
  | .s n => w.setS n (laneAt x 0)
  | _ => w

/-! ### Device physical addresses and locations -/

/-- In range: the reserved bits are clear and the offset lies within 24 GiB (R231). -/
def dpaOk (a : Nat) : Bool := decide (a < 2 ^ 41 ∧ a % 2 ^ 40 < 0x600000000)
/-- The tower whose memory holds a byte (R231). -/
def dpaTower (a : Nat) : TowerId := if a / 2 ^ 40 % 2 = 1 then 1 else 0

/-- Keys of locations: a global byte, a byte of a tower's broadcast space, a local byte of a unit's space. -/
def locGlobal (a : Nat) : Nat := a
def locBcast (t : TowerId) (o : Nat) : Nat := 2 ^ 48 + t.val * 2 ^ 22 + o
def locLocal (u o : Nat) : Nat := 2 ^ 49 + u * 2 ^ 22 + o

/-- The releases that a location holds. -/
def State.relAt (s : State) (loc : Nat) : List RelInfo := Table.get [] s.rels loc

/-- Mark bytes as written by releases, or by a plain write. -/
def State.setRel (s : State) (loc n : Nat) (r : List RelInfo) : State :=
  { s with rels := (List.range n).foldl (fun t i => Table.set [] t (loc + i) r) s.rels }

/-- A write that is one step of each of its locations' orders extends the releases that each holds (R287, R294,
R300). -/
def State.extendRel (s : State) (loc n : Nat) (r : List RelInfo) : State :=
  { s with rels := (List.range n).foldl (fun t i =>
      Table.set [] t (loc + i) ((Table.get [] t (loc + i) ++ r).eraseDups)) s.rels }

/-- Sectors touched by n bytes. -/
def sectorsOf (dpa n : Nat) : List Nat := (List.range ((dpa + n - 1) / 32 + 1 - dpa / 32)).map (dpa / 32 + ·)

/-! ### Watched stores (R113) -/

/-- The fields of a watch entry's image (Table 4.4). -/
def wBits (e : WatchEntry) (b hi lo : Nat) : Nat := bits e.image (8 * b + hi) (8 * b + lo)
def wBase (e : WatchEntry) : Nat := wBits e 0 63 0
def wGran (e : WatchEntry) : Nat := wBits e 8 31 0
def wBcast (e : WatchEntry) : Bool := wBits e 45 0 0 = 1
/-- Valid and not disabled. -/
def wLive (e : WatchEntry) : Bool := decide (wBits e 15 0 0 = 1 ∧ wBits e 15 1 1 = 0)

/-- The image with a field written. -/
def setField (x : BitVec 512) (lo w v : Nat) : BitVec 512 :=
  BitVec.ofNat 512 (x.toNat - (x.toNat / 2 ^ lo % 2 ^ w) * 2 ^ lo + (v % 2 ^ w) * 2 ^ lo)

/-- Add one to a 32-bit counter of the image at a byte. -/
def WatchEntry.bump (e : WatchEntry) (b : Nat) : WatchEntry :=
  { e with image := setField e.image (8 * b) 32 (wBits e b 31 0 + 1) }

/-- The granule of the range at which a 64-byte line of global memory lies (R429). -/
def globalGran (e : WatchEntry) (line : Nat) : Option Nat :=
  if wBcast e then none
  else (List.range e.frames.length).findSome? fun k =>
    let fr := e.frames.getD k 0
    if fr ≤ 64 * line ∧ 64 * line < fr + 2 ^ 16 then
      let va := wBase e / 2 ^ 16 * 2 ^ 16 + 2 ^ 16 * k + (64 * line - fr)
      if wBase e ≤ va ∧ va < wBase e + 64 * wGran e then some ((va - wBase e) / 64) else none
    else none

/-- The granule of the range at which a line of the broadcast window lies. -/
def bcastGran (e : WatchEntry) (line : Nat) : Option Nat :=
  if wBcast e ∧ wBase e ≤ 64 * line ∧ 64 * line < wBase e + 64 * wGran e then
    some ((64 * line - wBase e) / 64) else none

/-- The changed words of a line: bit w for word w (R113). -/
def lineMask (old new : List Host.Cell) (line : Nat) : BitVec 16 :=
  BitVec.ofNat 16 (((List.range 16).filter fun w =>
    decide (Mem.readNat old (64 * line + 4 * w) 4 ≠ Mem.readNat new (64 * line + 4 * w) 4)).map (2 ^ ·)).sum

/-- Compare one store against every live entry of a tower: silent stores count, and a changed line
makes a change of depth + 1. -/
def Tower.compare (t : Tower) (gran : WatchEntry → Nat → Option Nat) (old new : List Host.Cell)
    (lines : List Nat) (depth : Nat) (host : Bool) : Tower :=
  t.watches.foldl (fun t (k, e) =>
    if !wLive e then t
    else
      let hit := lines.filterMap fun l => (gran e l).map fun g => (g, lineMask old new l)
      if hit.isEmpty then t
      else if hit.all fun h => h.2 = 0 then { t with watches := Table.put t.watches k (e.bump 52) }
      else { t with changes := t.changes ++ (hit.filter fun h => h.2 ≠ 0).map fun h =>
          ⟨k / 64, k % 64, h.1, h.2, depth + 1, host⟩ }) t

/-- Lines touched by n bytes. -/
def linesOf (a n : Nat) : List Nat := (List.range ((a + n - 1) / 64 + 1 - a / 64)).map (a / 64 + ·)

/-! ### Stores -/

/-- Clear the poison of a sector that a store overwrites whole (R375). -/
def State.heal (s : State) (dpa n : Nat) : State :=
  { s with poison := (sectorsOf dpa n).foldl (fun t k =>
      if dpa ≤ 32 * k ∧ 32 * k + 32 ≤ dpa + n then Table.erase t k else t) s.poison }

/-- Clear the poison of the sectors that the lanes of one store overwrite whole together (R375). -/
def State.healAll (s : State) (l : List (Nat × Nat)) : State :=
  if s.poison.isEmpty then s
  else { s with poison := s.poison.filter fun (e : Nat × Nat) =>
    !(List.range 32).all fun i => l.any fun (p : Nat × Nat) => decide (p.1 ≤ 32 * e.1 + i ∧ 32 * e.1 + i < p.1 + p.2) }

/-- The home slice evaluates the condition of each wave that waits for a counter in the bytes written (R327). -/
def State.evalCounters (s : State) (dpa n : Nat) : State :=
  let hit (w : Wave) : Bool := match w.wait with
    | .counter d _ thr _ _ => w.alive && decide (d < dpa + n ∧ dpa < d + 8 ∧ (Mem.read64 s.mem d).toInt ≤ thr)
    | _ => false
  { s with ctrHits := (s.ctrHits ++ (s.allWaves.filter hit).map Wave.key).eraseDups }

/-- Bytes written at a DPA: they are compared with the watch entries of its home (R113), the poison that they
overwrite goes (R375), and waits for counters are evaluated (R327). -/
def State.putBytes (s : State) (dpa : Nat) (bs : List Byte) (depth : Nat) (host : Bool) : State :=
  if bs.isEmpty then s
  else
    let m := Mem.writeBytes s.mem dpa bs
    let s' := { s with mem := m }
    let s' := s'.mapTower (dpaTower dpa) fun t => t.compare globalGran s.mem m (linesOf dpa bs.length) depth host
    (s'.heal dpa bs.length).evalCounters dpa bs.length

/-- One store of bytes at a DPA, remembered as a release or a plain write. -/
def State.store (s : State) (dpa : Nat) (bs : List Byte) (depth : Nat) (host : Bool) (r : List RelInfo) : State :=
  (s.putBytes dpa bs depth host).setRel (locGlobal dpa) bs.length r

/-- The write of an atomic, or of another single step of its location's order, which extends the releases that the
location holds (R291, R294). -/
def State.update (s : State) (dpa : Nat) (bs : List Byte) (depth : Nat) (host : Bool) (r : List RelInfo) : State :=
  (s.putBytes dpa bs depth host).extendRel (locGlobal dpa) bs.length r

/-- The release of a hardware agent's write (R308). -/
def relHw : List RelInfo := [⟨.dv, .hw, ⟨0, 0, 0⟩, ⟨0, 0, 0⟩, 0⟩]
/-- The release of a push onto the host's record queue (R414). -/
def relRecq : List RelInfo := [⟨.sy, .hw, ⟨0, 0, 0⟩, ⟨0, 0, 0⟩, 0⟩]

/-- A write of the hardware at a DPA (R308). -/
def State.hwStore (s : State) (dpa : Nat) (bs : List Byte) (depth : Nat) : State := s.store dpa bs depth false relHw
/-- The hardware counts in a 64-bit counter: a release that the counter holds beside the earlier ones (R300, R308). -/
def State.hwCount (s : State) (dpa : Nat) (x : DWord) (depth : Nat) : State :=
  s.update dpa (Mem.bytes x.toNat 8) depth false relHw

/-! ### Open sectors (R306) -/

/-- Close every sector on a group's open-write list (R306). -/
def State.closeOpens (s : State) (g : GroupKey) : State :=
  match s.findGroup g with
  | none => s
  | some x => { s.mapGroup g (fun y => { y with opens := [] }) with
      opens := x.opens.foldl (fun t k => Table.erase t k) s.opens }

/-! ### Waiter lists (R320-R323) -/

/-- A list of waiting waves: what its waves wait for (`none` a lock, else pop or push), and where its head,
tail and count stand in the word or descriptor (Tables 12.3 and 12.4). -/
structure WaitList where
  push : Option Bool
  head : Nat
  tail : Nat
  count : Nat

def WaitList.lock : WaitList := ⟨none, 8, 12, 4⟩
def WaitList.pops : WaitList := ⟨some false, 24, 28, 40⟩
def WaitList.pushes : WaitList := ⟨some true, 32, 36, 44⟩

/-- Does a wave wait on a list at a DPA? -/
def WaitList.holds (l : WaitList) (dpa : Nat) (w : Wave) : Bool :=
  w.alive && match w.wait with
  | .lock d _ _ => l.push.isNone && d = dpa
  | .queue d _ p _ _ _ _ _ => l.push = some p && d = dpa
  | _ => false

/-- The wave that a tag of the list names, when it waits on the list. -/
def State.waiter (s : State) (l : WaitList) (dpa tag : Nat) : Option Wave :=
  s.allWaves.find? fun w => w.tag.toNat = tag && l.holds dpa w

/-- The four-byte word at a DPA. -/
def State.read32 (s : State) (dpa : Nat) : Nat := Mem.readNat s.mem dpa 4
/-- Write a four-byte word as one step of its location's order, which keeps the releases it holds (R294). -/
def State.put32 (s : State) (dpa x depth : Nat) : State := s.update dpa (Mem.bytes x 4) depth false []

/-- Join the tail of a list; the wave's link ends it. -/
def State.joinList (s : State) (l : WaitList) (dpa depth : Nat) (w : Wave) : State :=
  let t := s.read32 (dpa + l.tail)
  let s := match (if s.read32 (dpa + l.head) = 0 then none else s.waiter l dpa t) with
    | some p => s.mapWave p.key fun x => { x with link := w.tag }
    | none => s.put32 (dpa + l.head) w.tag.toNat depth
  let s := s.put32 (dpa + l.tail) w.tag.toNat depth
  let s := s.put32 (dpa + l.count) (s.read32 (dpa + l.count) + 1) depth
  s.mapWave w.key fun x => { x with link := 0 }

/-- Remove a wave from the list it waits on. -/
def State.leaveList (s : State) (l : WaitList) (dpa depth : Nat) (w : Wave) : State :=
  let t := w.tag.toNat
  let s := s.put32 (dpa + l.count) (s.read32 (dpa + l.count) - 1) depth
  if s.read32 (dpa + l.head) = t then
    let s := s.put32 (dpa + l.head) w.link.toNat depth
    if w.link = 0 then s.put32 (dpa + l.tail) 0 depth else s
  else
    match s.allWaves.find? fun p => l.holds dpa p && p.link = w.tag with
    | none => s
    | some p =>
      let s := s.mapWave p.key fun x => { x with link := w.link }
      if s.read32 (dpa + l.tail) = t then s.put32 (dpa + l.tail) p.tag.toNat depth else s

/-- End a list whose head names no wave that waits on it (R321, R322). -/
def State.endList (s : State) (l : WaitList) (dpa depth : Nat) : State :=
  ((s.put32 (dpa + l.head) 0 depth).put32 (dpa + l.tail) 0 depth).put32 (dpa + l.count) 0 depth

/-- A wave that ends leaves the list that it waits on (R321). -/
def State.unlink (s : State) (w : Wave) : State :=
  match w.wait with
  | .lock d _ _ => s.leaveList .lock d 0 w
  | .queue d _ false _ _ _ _ _ => s.leaveList .pops d 0 w
  | .queue d _ true _ _ _ _ _ => s.leaveList .pushes d 0 w
  | _ => s

end Sys2Proof.Machine
end

