-- ==== Sys2Proof/Machine/Regs.lean ====
section
/-! DEFINITION. The control registers of a tower as words: their numbers, reset values, and reads and
writes of the stored ones. Registers that other state stands behind are composed in Csr.lean. -/

namespace Sys2Proof.Machine

/-- The value of a stored register at reset (Tables 5.2, 8.2, 9.5, 10.3, 10.8, 13.1, 15.2, 15.4, 20.2). -/
def csrReset (n : Nat) : Word :=
  match n with
  | 0x300 => 0x00021108
  | 0x301 => 0x00024244
  | 0x302 => 60
  | 0x332 => 256
  | 0x357 => 0x00003C00
  | 0x359 => 100
  | 0x35E => 0x41800000
  | 0x364 => 2500
  | 0x371 => 500
  | 0x3A0 => 0x00D20002
  | _ => 0

/-- A stored register. -/
def Tower.reg (t : Tower) (n : Nat) : Word := (Table.find t.csr n).getD (csrReset n)
/-- Write a stored register; one at its reset value is unlisted. -/
def Tower.setReg (t : Tower) (n : Nat) (x : Word) : Tower :=
  { t with csr := if x = csrReset n then Table.erase t.csr n else Table.put t.csr n x }
/-- Write bits [hi:lo] of a stored register. -/
def Tower.setBits (t : Tower) (n hi lo x : Nat) : Tower :=
  let w := t.reg n
  t.setReg n (BitVec.ofNat 32 (w.toNat - bits w hi lo * 2 ^ lo + x % 2 ^ (hi + 1 - lo) * 2 ^ lo))
/-- Add to a 16-bit counter at bit lo of a register, modulo 2^16. -/
def Tower.count (t : Tower) (n lo k : Nat) : Tower := t.setBits n (lo + 15) lo (bits (t.reg n) (lo + 15) lo + k)
/-- Two registers as one 64-bit value. -/
def Tower.reg2 (t : Tower) (n : Nat) : DWord := t.reg (n + 1) ++ t.reg n

/-- HSTAT of the host register window (Table 20.1): STATE 1 at power-on. -/
def Tower.hstat (t : Tower) : Word := (Table.find t.hostWin 0x4000).getD 1
/-- The firmware runs: the tower's cores are no longer held in reset (R417). -/
def Tower.booted (t : Tower) : Bool := decide (bits t.hstat 2 0 = 3)
/-- Set STATE and ERR. -/
def Tower.setHstat (t : Tower) (st err : Nat) : Tower :=
  { t with hostWin := Table.put t.hostWin 0x4000 (BitVec.ofNat 32 (st + err * 2 ^ 8)) }

def csrJobsel : Nat := 0x100
def csrClsway : Nat := 0x300
def csrClsbw : Nat := 0x301
def csrDspguard : Nat := 0x302
def csrPlacecnt : Nat := 0x303
def csrMigcnt : Nat := 0x331
def csrMigctl : Nat := 0x332
def csrMigfreeq : Nat := 0x333
def csrMigrelq : Nat := 0x334
def csrAlmsel : Nat := 0x340
def csrAlmctl : Nat := 0x342
def csrLntctl : Nat := 0x350
def csrLntent : Nat := 0x351
def csrLntarg : Nat := 0x353
def csrLntpar : Nat := 0x355
def csrLntmap : Nat := 0x356
def csrLntwgm : Nat := 0x357
def csrLntwe : Nat := 0x358
def csrLntswp : Nat := 0x359
def csrLntseed : Nat := 0x35A
def csrLntcnt : Nat := 0x35B
def csrLnthq : Nat := 0x35C
def csrProbethr : Nat := 0x35E
def csrDmkctl : Nat := 0x360
def csrDmkcnt : Nat := 0x361
def csrBfocal : Nat := 0x362
def csrBbase : Nat := 0x363
def csrBmargin : Nat := 0x364
def csrDspctl : Nat := 0x370
def csrDsprp : Nat := 0x371
def csrDspt0 : Nat := 0x372
def csrDspcnt : Nat := 0x376
def csrMemclk : Nat := 0x377
def csrMemline : Nat := 0x378
def csrLayerst : Nat := 0x330
def csrPwrctl : Nat := 0x3A0

end Sys2Proof.Machine
end

