-- ==== Sys2Proof/Machine/Ready.lean ====
section
/-! DEFINITION. Which waves are ready (R143): the conditions that a wave outside a run waits for, and the state of
layers, queues and links that they ask about. -/

namespace Sys2Proof.Machine

def Tower.layer (t : Tower) (l : Nat) : Layer := (t.layers[l]?).getD ⟨.off, none, none⟩
/-- A layer in a transition. -/
def Tower.busy (t : Tower) (l : Nat) : Bool := (t.layer l).goal.isSome
/-- The layers that a mask names. -/
def maskLayers (m : Nat) : List Nat := (List.range 8).filter fun l => m.testBit l
/-- Is a named layer of either tower in a transition? -/
def State.layersBusy (s : State) (m0 m1 : Nat) : Bool :=
  (maskLayers m0).any s.tower0.busy || (maskLayers m1).any s.tower1.busy
/-- Sectors of a job queued at a tower's base die (R268). -/
def Tower.queued (t : Tower) (job : Nat) : Nat := (t.sectors.filter fun q => q.job = job).length

/-- A group is to be saved: its waves start no new run. -/
def Group.stopping (g : Group) : Bool := g.stop || g.swapWant

/-- Entries of the pending-launch queue that a group holds (R95). -/
def State.plqOf (s : State) (g : Group) : Nat :=
  (s.plq.filter fun e => e.job = g.job ∧ e.gid = g.gid ∧ e.owner = g.unit).length
/-- Claims of the group's other waves that stand before a wave's: those made earlier, or all of them for a wave that
has made none (R95). -/
def State.claimsBefore (s : State) (g : Group) (w : Wave) : Nat :=
  (s.allWaves.filter fun v => v.inGroup g.key && v.alive && decide (v.key ≠ w.key) && match v.claim, w.claim with
    | some a, some b => decide (a < b)
    | some _, none => true
    | none, _ => false).length
/-- An entry of its group's queue falls to a wave (R95). -/
def State.entryFor (s : State) (g : Group) (w : Wave) : Bool := decide (s.plqOf g + s.claimsBefore g w < 4)

/-- The predecessor link of a group's unit (R96, R105). -/
def State.groupLink (s : State) (g : Group) : Link :=
  match s.findUnit g.unit with
  | none => .none
  | some u => match u.launch.bind s.findLaunch with
    | some l => l.link
    | none => u.link

/-- May a wave that waits start its next run? Waits that other steps end give false. -/
def State.waitOver (s : State) (g : Group) (w : Wave) : Bool :=
  match w.wait with
  | .none => true
  | .waitpred _ => match s.groupLink g with | .pending _ => false | _ => true
  | .retry false => s.entryFor g w
  | .retry true => !((g.fetch.map Fetch.pending).getD false) && decide (g.board.length < 8)
  | .layers m0 m1 => s.powerNow.isNone && !s.layersBusy m0 m1
  | .slots job t0 t1 => !(t0 && decide (s.tower0.queued job ≠ 0)) && !(t1 && decide (s.tower1.queued job ≠ 0))
  | _ => false

/-- Is a wave ready (R143)? One without a lane left ends instead once its tokens clear (R157). -/
def State.ready (s : State) (g : Group) (w : Wave) : Bool :=
  w.alive && decide (w.live ≠ 0) && !w.inRun && g.resident && g.started && !g.kill && !g.stopping &&
    decide (w.tokens &&& w.await = 0) && s.waitOver g w

/-! ### Waits, tokens and commands that end (R69, R374, R376, R378) -/

/-- A wave outside a run stops waiting; its watchdog count returns to 0 (R376). -/
def Wave.unwait (w : Wave) : Wave := { w with wait := .none, waited := false, dogCount := 0 }

/-- Clear a token of a wave, and what it binds (R69, R148). Where it ends the wave's wait at a run boundary, the
watchdog's count starts again (R376). -/
def Wave.clearTok (w : Wave) (tok : Nat) : Wave :=
  let left := w.tokens &&& ~~~(1#6 <<< tok)
  { w with tokens := left, pend := w.pend.filter fun p => p.tok ≠ tok
           dogCount := if !w.inRun && w.tokens &&& w.await ≠ 0 && left &&& w.await = 0 then 0 else w.dogCount }

/-- Does a command go on while its group is saved? Its sectors stay in flight (R271). -/
def EngOp.inFlight : EngOp → Bool
  | .sectors _ => true
  | .bcast _ _ _ _ _ q _ => q
  | _ => false

/-- What a wave of a cancelled group leaves unfinished is abandoned with its tokens: parked commands and a parked
SCAN, and those of a saved group that only its restore would continue (R22, R374, R378). `here` says that the group is
resident. -/
def Wave.abandon (here : Bool) (w : Wave) : Wave :=
  let gone (c : EngCmd) : Bool := c.parked || (!here && !c.op.inFlight)
  let scanGone : Bool := match w.scan with | some q => q.stop.isSome || !here | none => false
  let toks := ((w.cmds.filter gone).filterMap EngCmd.tok) ++ (if scanGone then (w.scan.map ScanProg.tok).toList else [])
  toks.foldl Wave.clearTok
    { w with cmds := w.cmds.filter fun c => !gone c, scan := if scanGone then none else w.scan }

/-! ### The watchdog (R376) -/

/-- Does a wave's watchdog count (R376): resident, and in a run or ready? -/
def State.watched (s : State) (w : Wave) : Bool :=
  let g := s.groupOf w
  w.alive && g.resident && (w.inRun || s.ready g w)

end Sys2Proof.Machine
end

