-- ==== Sys2Proof/Machine/Ops.lean ====
section
/-! DEFINITION. The shared operations of the machine: fault
records (R357-R359), taking a trap and its unhandled case (R353-R355), run ends (R142-R145), the
checks that every instruction makes before its effect (Table 3.9), interlocks (R70, R148), and
`issue`, through which every instruction runs. -/

namespace Sys2Proof.Machine

/-- A job's control word as a tower holds it (R351). -/
def Job.jctl (j : Job) (t : TowerId) : DWord := if t = 0 then j.jctl0 else j.jctl1

/-- The job control word in force in a tower (R351): of a live job, else 0. -/
def State.jctlOf (s : State) (j : Nat) (t : TowerId) : DWord := ((s.findJob j).map fun x => x.jctl t).getD 0

/-! ### Fault records (R357-R359) -/

/-- Assemble fields given as (lowest bit, width, value). -/
def packBits : List (Nat × Nat × Nat) → Nat
  | [] => 0
  | (lo, w, x) :: fs => (x % 2 ^ w) * 2 ^ lo + packBits fs

/-- The code of a cause (Table 14.3). -/
def causeCode (c : Cause) : Nat := c.ctorIdx

/-- The fields of a fault record beside those that its tower fills (Table 14.4). -/
structure RecArgs where
  cause : Cause
  kind : Nat := 0
  loc : Option (Nat × Nat) := none
  job : Nat := 0
  addr : DWord := 0
  pc : DWord := 0
  wtag : Word := 0
  mask : Mask := 0
  info : Nat := 0
  recAt : DWord := 0
  detail : DWord := 0
  /-- FN of a record for the host (Table 20.2); 0 for the job's fault queue -/
  fn : Nat := 0

/-- The 64 bytes of a record made by tower `t` (Table 14.4). -/
def RecArgs.image (r : RecArgs) (t : TowerId) (seq : Word) (now : Nat) : BitVec 512 :=
  BitVec.ofNat 512 (packBits
    [(0, 6, causeCode r.cause), (6, 2, r.kind), (8, 1, t.val),
     (16, 3, (r.loc.map Prod.fst).getD 0), (19, 1, if r.loc.isSome then 1 else 0),
     (20, 4, (r.loc.map Prod.snd).getD 0), (24, 8, r.fn), (32, 12, r.job), (64, 64, r.addr.toNat),
     (128, 64, r.pc.toNat), (192, 32, r.wtag.toNat), (224, 32, r.mask.toNat), (256, 32, r.info),
     (288, 32, seq.toNat), (320, 64, r.recAt.toNat), (384, 64, now), (448, 64, r.detail.toNat)])

/-- The number of the FLTCNT register (Table 14.2). -/
def csrFltcnt : Nat := 0x103

/-- The number of the FNMODE register (Table 20.2). -/
def csrFnmode : Nat := 0x390
/-- Does a tower give function k to the host (R414)? -/
def Tower.hostFn (t : Tower) (k : Nat) : Bool := (Table.get 0 t.csr csrFnmode).getLsbD k

/-- Page-fault records go to the host under FNMODE.PGFLT (R362). -/
def RecArgs.route (r : RecArgs) (t : Tower) : RecArgs :=
  if (r.cause = .pagenp ∨ r.cause = .pageprot) ∧ t.hostFn 0 then { r with fn := 1 } else r

/-- Write a record: it waits to be pushed; beyond 32 waiting records of the job, one that nothing
awaits is dropped and counted in FLTDROP (R359). Every record takes the next SEQ. -/
def State.report (s : State) (t : TowerId) (r : RecArgs) : State :=
  s.mapTower t fun x =>
    let r := r.route x
    let waiting := (x.recs.filter fun q => q.job = r.job).length
    let y := { x with seq := x.seq + 1 }
    if waiting < 32 ∨ r.kind = 1 then
      { y with recs := x.recs ++ [⟨r.job, r.image t x.seq x.now, r.kind = 1, r.fn ≠ 0⟩] }
    else
      let c := Table.get 0 x.csr csrFltcnt
      let n : Word := ((c.extractLsb' 16 16) ++ (c.extractLsb' 0 16 + 1 : BitVec 16) : BitVec 32)
      { y with csr := Table.set 0 x.csr csrFltcnt n }

/-- The record of a wave's own condition. -/
def State.waveRec (s : State) (c : Cause) (kind : Nat) (pc : DWord) : RecArgs :=
  { cause := c, kind := kind, loc := some (s.group.layer.val, s.group.core.val), job := s.wave.job,
    pc := pc, wtag := s.wave.tag }

/-! ### Run ends and the ends of waves (R142-R145, R157) -/

/-- A wave at a run boundary: it ends when its group is to end, or when LIVE is zero and its tokens
are clear (R157, R355). A cancelled one abandons what it cannot finish (R374). -/
def Wave.boundary (kill drop : Bool) (w : Wave) : Wave :=
  if w.inRun then w
  else if kill then
    let w := { w with live := 0, em := 0, alive := false, wait := .none, waited := false, parkedMask := 0, claim := none }
    if drop then w.abandon true else w
  else if w.live = 0 ∧ w.tokens = 0 then { w with alive := false, wait := .none }
  else w

/-- Leave the run: its temporaries die and its writes have all landed (R145, R149). A wave outside a run, such as one
that takes a trap at its run boundary, keeps its yielding end until its next run (R144). -/
def Wave.closeRun (w : Wave) (await : BitVec 6) (yld : Bool) : Wave :=
  { w with inRun := false, late := [], temps := [], runLen := 0, time := 0, pfx := .none,
           await := await, yielded := yld || (!w.inRun && w.yielded), waited := decide (w.wait ≠ .none), dogCount := if yld then 0 else w.dogCount }

/-- Note whether every wave of a group has ended (R157). -/
def State.groupEnd (s : State) (g : GroupKey) : State :=
  if s.allWaves.any fun w => w.inGroup g && w.alive then s
  else s.mapGroup g fun x => { x with ended := true }

/-- The focus wave leaves its run (R142). -/
def State.endRun (s : State) (await : BitVec 6) (yld : Bool) : State :=
  let w := (s.wave.closeRun await yld).boundary s.group.kill s.group.drop
  let s := if w.alive then s else s.unlink s.wave
  let s' := { s with wave := w }
  if w.alive then s' else s'.groupEnd s.group.key

/-- End a group: each of its waves ends at its next run boundary (R355, R99). `drop` says that it is cancelled: its open
sectors close (R306), and what its waves leave unfinished is abandoned (R22, R374). -/
def State.killGroup (s : State) (g : GroupKey) (drop : Bool) : State :=
  let s := if drop then s.closeOpens g else s
  let here := ((s.findGroup g).map Group.resident).getD false
  let stop (w : Wave) : Wave := if w.inRun then w else if drop then (w.boundary true true).abandon here else w.boundary true false
  let s := (s.allWaves.filter fun w => w.inGroup g && !w.inRun).foldl (fun s w => s.unlink ((s.findWave w.key).getD w)) s
  ((s.mapGroup g fun x => { x with kill := true, drop := x.drop || drop }).mapGroupWaves g stop).groupEnd g

/-! ### Taking a trap (R353-R355) -/

/-- TCAUSE as Table 14.2 lays it out. -/
def tcauseWord (code : Nat) (after inh : Bool) (info : Nat) : Nat :=
  packBits [(0, 6, code), (6, 1, if after then 1 else 0), (7, 1, if inh then 1 else 0), (16, 16, info)]

/-- Causes whose way is "T and R": a report is written beside the trap (Table 14.3, R233, R375, R376). -/
def causeReports : Cause → Bool
  | .xlate | .eccsram | .eccmem | .ctrunder | .watchdog => true
  | _ => false

/-- The report of a cause of way "T and R" (R358). -/
def State.sideReport (s : State) (t : TrapInfo) (pc : DWord) : State :=
  if causeReports t.cause then
    let r := s.waveRec t.cause 0 pc
    s.report s.group.tower
      (if t.cause = .ctrunder then { r with recAt := t.addr, mask := t.mask }
       else { r with addr := t.addr, mask := t.mask, info := t.info.toNat, detail := t.detail })
  else s

/-- A trap without a handler (R355): BRKPT parks the wave with a record of KIND 1, any other cause
ends the group with a record of KIND 2. -/
def State.unhandled (s : State) (t : TrapInfo) (pc resume : DWord) (await : BitVec 6) : State :=
  let k := if t.cause = .brkpt then 1 else 2
  let r := { s.waveRec t.cause k pc with
    addr := t.addr, mask := t.mask, detail := resume,
    info := tcauseWord (causeCode t.cause) t.after s.wave.inh t.info.toNat }
  let s := s.report s.group.tower r
  if t.cause = .brkpt then
    ({ s with wave := { s.wave with pc := resume, wait := .parked t.cause t.addr, parkedMask := 0 } }).endRun await false
  else (s.endRun await false).killGroup s.group.key false

/-- Take a trap of way T or A in the focus wave (R354): `pc` is the raising instruction, `resume` the
resume address, `await` the AWAIT of a raising instruction with END. -/
def State.takeTrap (s : State) (t : TrapInfo) (pc resume : DWord) (await : BitVec 6) : State :=
  let s := s.sideReport t pc
  let w : Wave := { s.wave with tepc := resume, pendTrap := none, claim := none }
  let s : State := { s with wave := w }
  if w.tvec = 0 ∨ w.inh then s.unhandled t pc resume await
  else
    ({ s with wave := { w with
        cause := BitVec.ofNat 6 (causeCode t.cause), after := t.after, inh := true, info := t.info,
        taddr := t.addr, tmask := t.mask, tem := w.em, em := w.live, pc := w.tvec,
        parkedMask := 0 } }).endRun await false

/-! ### Time (R6, R428) -/

/-- The clocks of a span of time on a core: an amount that the manual leaves open (log 5), and at least `own` on the
core of the group in focus. A clock step stops them (R428). -/
def State.span (s : State) (own : Nat) (t : TowerId) (k : Nat) : Nat :=
  if s.clockStop then 0
  else Config.clkStep s.free (t.val * 128 + k) + (if t = s.group.tower ∧ k = s.group.coreIdx then own else 0)

/-- The clock counters of a tower's cores after a span: those of layers that are powered count (R428). -/
def Tower.countClk (t : Tower) (f : Nat → Nat) : Tower :=
  { t with clk := (List.range 128).filterMap fun k =>
      let c : DWord := Table.get 0 t.clk k + (if (t.layer (k / 16)).st = .awake then BitVec.ofNat 64 (f k) else 0)
      if c = 0 then none else some (k, c) }

/-- The L2 slice of a line (R225). -/
def l2Slice (line : Nat) : Nat := ((line ^^^ (line >>> 4)) ^^^ ((line >>> 8) ^^^ (line >>> 12))) % 16

/-- The ways of a set that a class always may fill: its own and the common ones (R133, R134). -/
def Tower.waysOf (t : Tower) (cls : Nat) : Nat :=
  let r := t.reg 0x300
  let w (c : Nat) : Nat := bits r (5 * c + 4) (5 * c)
  w cls + (24 - (w 0 + w 1 + w 2 + w 3 + w 4))

/-- The fewest ways of a set that a request of a class may fill: its own and the common ones; for one without any, the own
ways of the smallest class (R133, R134). -/
def Tower.fewestWays (t : Tower) (cls : Nat) : Nat :=
  let r := t.reg 0x300
  let own := ((List.range 5).map fun c => bits r (5 * c + 4) (5 * c)).filter (0 < ·)
  if t.waysOf cls ≠ 0 then t.waysOf cls else own.foldl Nat.min 24

/-- The pinned lines of a slice of a layer. -/
def Tower.pinned (t : Tower) (layer slice : Nat) : List Nat :=
  (((t.pins.filter fun p => p.1 = layer).map fun p => p.2.1).filter fun k => l2Slice k = slice).eraseDups

/-- May the pins fill every way of some set that some class may fill? As many lines of its slice must be pinned. -/
def Tower.pinsFill (t : Tower) : Bool :=
  t.pins.any fun p => (List.range 5).any fun c => decide (t.fewestWays c ≤ (t.pinned p.1 (l2Slice p.2.1)).length)

/-- Demand misses that pinned ways leave without allocation count in PINBYP (R236, log 18). -/
def Tower.bypass (t : Tower) (n : Nat) : Tower :=
  if t.pinsFill then t.count 0x320 0 n else t

/-- PT, the ticks of a sweep. -/
def Tower.sweepTicks (t : Tower) : Nat := bits (t.reg csrLntswp) 9 0 * 250

/-- The Lantern is enabled. -/
def Tower.lntOn (t : Tower) : Bool := (t.reg csrLntctl).getLsbD 0

/-- The start tick of the next sweep (R331). -/
def Tower.nextSweep (t : Tower) : Nat :=
  if t.sweeping then t.sweepAt + t.sweepTicks else (t.sweepAt / t.sweepTicks + 1) * t.sweepTicks

/-- Ticks pass. A sweep start that they reach keeps the broadcast space as it stands then, for its sweep (R331). -/
def Tower.tick (t : Tower) (n : Nat) : Tower :=
  let due := if t.lntOn && decide (0 < t.sweepTicks ∧ t.nextSweep ≤ t.now + n)
    then (t.now + n - t.nextSweep) / t.sweepTicks + 1 - t.lntSnaps.length else 0
  { t with now := t.now + n, lntSnaps := t.lntSnaps ++ List.replicate due t.bcast }

/-- A span of time: ticks pass, every powered core counts its clocks, and so do the watchdogs of the waves that run or
are ready; the count of one whose wait has ended starts again (R6, R428, R376). -/
def State.lapse (s : State) (own ticks : Nat) : State :=
  let dog (w : Wave) : Wave :=
    if s.watched w then
      { w with dogCount := (if w.waited then 0 else w.dogCount) + s.span own (s.groupOf w).tower (s.groupOf w).coreIdx, waited := false }
    else w
  { s with
    tower0 := ((s.tower0.countClk (s.span own 0)).bypass (Config.pinMiss s.free 0)).tick ticks
    tower1 := ((s.tower1.countClk (s.span own 1)).bypass (Config.pinMiss s.free 1)).tick ticks
    wave := dog s.wave, waves := s.waves.map dog, free := s.free + 1 }

/-- Clocks and ticks pass at an issue: at least the issue clock and the stall count. -/
def State.pass (s : State) (n : Nat) : State := s.lapse n (Config.tickStep s.free)

/-! ### The checks before an instruction's effect (Table 3.9, orders 6 to 11) -/

/-- The address that a trap of the instruction reports: its first prefix (R84). -/
def Wave.pairStart (w : Wave) : DWord := w.pfx.start.getD w.pc

/-- The registers of a use, by index. -/
def useSpan (u : Opnd × Pos) : List Nat := (List.range u.2.span).map (Opnd.index u.1 + ·)

/-- REGRANGE: a v register at or above the budget (R75). -/
def outOfRange (g : Group) (u : Opnd × Pos) : Bool :=
  match u.1 with
  | .v n => decide (g.budget < n.val + u.2.span)
  | _ => false

/-- TEMPDEAD: a temporary read without a live value (R149). -/
def deadTemp (w see : Wave) (scal : Bool) (u : Opnd × Pos) : Bool :=
  match u.1 with
  | .t n => u.2.rd && (see.temp n).isNone && !(w.sbchk && w.isLate scal (448 + n))
  | _ => false

/-- The tag of a v or t register; RAW for every other operand. -/
def Wave.tagOf (w : Wave) (idx : Nat) : BitVec 4 :=
  match Opnd.ofIndex idx with
  | some (.v n) => (w.vreg n).tag
  | some (.t n) => ((w.temp n).map VReg.tag).getD 0
  | _ => 0

/-- FMTTAG: a source whose tag is neither RAW nor one that the position accepts (R58). A run temporary is tested by the
tag of the value that was forwarded to it (R56, log 108). -/
def badTag (m : Form) (see : Wave) (u : Opnd × Pos) : Bool :=
  match u.2.tags with
  | none => false
  | some l => u.2.rd && (isV u.1 || isT u.1) &&
      (if m.tagFirst then [Opnd.index u.1] else useSpan u).any fun i => decide (see.tagOf i ≠ 0) && !l.contains (see.tagOf i).toNat

/-- The guard's predicate as a use (R78). -/
def guardUse (f : Fields) : List (Opnd × Pos) :=
  if f.guard = ⟨false, 0⟩ then [] else [(.p ⟨f.guard.p.toNat % 16, Nat.mod_lt _ (by decide)⟩, Pos.pRead)]

/-- STALLSHORT with SBCHK set: the first register read late (R147). -/
def shortRead (w : Wave) (scal : Bool) (us : List (Opnd × Pos)) : Option Nat :=
  ((us.filter fun u => u.2.rd).flatMap useSpan).find? (w.isLate scal)

/-- PFXEND, PFXDUP and PFXBAD with the address each reports (R82-R84); of two prefixes that are both bad XIMM is
reported (log 98). -/
def prefixFault (i : Instr) (m : Form) (f : Fields) (w : Wave) : Option (Cause × DWord) :=
  match i with
  | .ximm _ => if f.hint.stop then some (.pfxend, w.pc) else if w.pfx.ximm.isSome then some (.pfxdup, w.pc) else none
  | .xfmt _ => if f.hint.stop then some (.pfxend, w.pc) else if w.pfx.xfmt.isSome then some (.pfxdup, w.pc) else none
  | _ => match w.pfx.ximm, w.pfx.xfmt with
    | some (p, _), _ => if !(m.imm64 && immOn f) then some (.pfxbad, p)
        else match w.pfx.xfmt with
          | some q => if m.xfmt then none else some (.pfxbad, q)
          | none => none
    | none, some q => if m.xfmt then none else some (.pfxbad, q)
    | none, none => none

/-- The first fault of orders 6 to 11, with the address it reports. -/
def dynFault (i : Instr) (m : Form) (f : Fields) (s : State) : Option (TrapInfo × DWord) :=
  let w := s.wave
  let scal := m.scalar f
  let see := w.seen scal
  let us := m.uses f ++ guardUse f
  match prefixFault i m f w with
  | some (c, p) => some (.plain c, p)
  | none =>
    if 24 ≤ w.runLen then some (.plain .runlong, w.pairStart)
    else if m.priv && !w.jctl.getLsbD 0 then some (.plain .priv, w.pairStart)
    else if us.any (outOfRange s.group) then some (.plain .regrange, w.pairStart)
    else if us.any (deadTemp w see scal) then some (.plain .tempdead, w.pairStart)
    else match (if w.sbchk then shortRead w scal us else none) with
      | some r => some ({ TrapInfo.plain .stallshort with info := BitVec.ofNat 16 r }, w.pairStart)
      | none =>
        if w.pfx.xfmt.isNone && us.any (badTag m see) then some (.plain .fmttag, w.pairStart) else none

/-! ### Interlocks (R70, R148) -/

/-- Do two spans of registers overlap? -/
def overlaps (a n b m : Nat) : Bool := decide (a < b + m ∧ b < a + n)

/-- A token is that of the barrier or queue word whose result the wave waits for (R319, R323). -/
def Wave.waitHolds (w : Wave) (tok : Nat) : Bool :=
  let waits (d : Opnd) : Bool := w.pend.any fun e => e.tok = tok && e.wr && overlaps e.reg e.span (Opnd.index d) 1
  match w.wait with
  | .barrier _ d => waits d
  | .queue _ _ _ _ d _ _ _ => waits d
  | _ => false

/-- A pending token forbids a use: any use of a register that the pending instruction writes, and a
write of a register that it reads. -/
def pendBlocks (e : PendReg) (u : Opnd × Pos) : Bool :=
  overlaps e.reg e.span (Opnd.index u.1) u.2.span && (e.wr || u.2.wr)

/-- The instruction does not issue yet: its token is still set, a register is bound to one, or a SCAN whose
flags may trap has results to write (R196). -/
def interlocked (m : Form) (f : Fields) (w : Wave) : Bool :=
  (f.hint.tv && w.tokens.getLsbD f.hint.tok.toNat) ||
    (w.scan.isSome && (w.jctl.getLsbD 2 || w.jctl.getLsbD 4)) ||
    w.pend.any fun e => (m.uses f ++ guardUse f).any (pendBlocks e)

/-- The registers that the instruction binds to its token: what it writes, and for a memory or
atomics instruction what it reads. -/
def bindings (m : Form) (f : Fields) : List PendReg :=
  if f.hint.tv then
    (m.uses f).flatMap fun u =>
      (if u.2.wr then [⟨f.hint.tok.toNat, true, Opnd.index u.1, u.2.span⟩] else []) ++
      (if u.2.rd && m.hold then [⟨f.hint.tok.toNat, false, Opnd.index u.1, u.2.span⟩] else [])
  else []

/-- The late writes of the run after an instruction: those of a register that its token covers have landed before what it
writes there (R145). -/
def tokenLanded (m : Form) (f : Fields) (w : Wave) : List LateWrite :=
  ((bindings m f).filter PendReg.wr).foldl (fun l b => { w with late := l }.landed b.reg b.span) w.late

/-! ### Issue -/

/-- How the body of an instruction ends. -/
inductive Out where
  /-- its results are in the state; `wave.npc` says where it goes -/
  | done (s : State)
  /-- a precise trap; the state keeps what the manual says was done before it -/
  | trap (t : TrapInfo) (s : State)
  /-- the wave leaves its run at the instruction, to issue it again later; `wave.wait` says when (R150, R360) -/
  | leave (s : State)
  /-- an interlock of the instruction's own entry: it does not issue yet -/
  | stall (s : State)

/-- The AWAIT of an instruction with END; none otherwise (R69, R354). WAITTOK adds its MASK (R157). -/
def awaitOf (i : Instr) (f : Fields) : BitVec 6 :=
  if f.hint.stop then
    match i with
    | .waittok f => f.hint.await ||| f.mod.setWidth 6
    | _ => f.hint.await
  else 0

/-- A yielding run end (R144). -/
def yields (i : Instr) (f : Fields) : Bool :=
  f.hint.stop && (f.hint.yld || (match i with | .yield _ => true | .sleepw _ => true | _ => false))

/-- Is it a prefix? -/
def isPrefix : Instr → Bool
  | .ximm _ => true
  | .xfmt _ => true
  | _ => false

/-- The run that has just ended was a yielding one (R144). -/
def State.yieldEnd (s : State) : State := { s with wave := { s.wave with yielded := true, dogCount := 0 } }

/-- After the results: the token is set, the word counts, the pc moves, and with END the run ends. A
trap of way A is taken here, at the address that follows (R353). -/
def State.retire (s : State) (i : Instr) (m : Form) (f : Fields) : State :=
  let pc := s.wave.pc
  let start := s.wave.pairStart
  let s := s.pass (1 + f.hint.st.toNat)
  let w := s.wave
  let w : Wave := { w with
    pc := w.npc, time := w.time + 1 + f.hint.st.toNat, runLen := w.runLen + 1,
    tokens := if f.hint.tv then w.tokens ||| (1 <<< f.hint.tok.toNat) else w.tokens,
    pend := bindings m f ++ w.pend,
    temps := if m.mem then [] else w.temps,
    late := (tokenLanded m f w).filter fun e => !m.mem || e.reg < 448 || 456 ≤ e.reg,
    pfx := if isPrefix i then w.pfx else .none,
    parkedMask := if isPrefix i then w.parkedMask else 0 }
  let s : State := { s with wave := w, stalled := false }
  match w.pendTrap with
  | some t =>
    let s := s.takeTrap t start (pc + 12) (awaitOf i f)
    if yields i f then s.yieldEnd else s
  | none => if f.hint.stop then s.endRun (awaitOf i f) (yields i f) else s

/-- The effective mask of the word (R78), and of a parked instruction that resumes (R361). -/
def maskFor (f : Fields) (w see : Wave) : Mask :=
  let g : Mask := if f.guard = ⟨false, 0⟩ then 0xFFFFFFFF
    else if f.guard.neg then ~~~(see.pred f.guard.p.toNat) else see.pred f.guard.p.toNat
  let m := w.em &&& g
  if w.parkedMask = 0 then m else m &&& w.parkedMask

/-- The context of an instruction that passes its checks. -/
def State.ctx (s : State) (m : Form) (f : Fields) : Ctx :=
  let see := s.wave.seen (m.scalar f)
  { s := { s with wave := { s.wave with npc := s.wave.pc + 12 } }, w := see, f := f,
    ximm := s.wave.pfx.ximm.map Prod.snd, m := maskFor f s.wave see }

/-- End an instruction as its body says. A precise trap of a word with END ends its run without yielding, whatever its YLD
says (log 123). -/
def finish (i : Instr) (m : Form) (f : Fields) : Out → State
  | .done s => s.retire i m f
  | .trap t s => { s with stalled := false }.takeTrap t s.wave.pairStart s.wave.pairStart (awaitOf i f)
  | .leave s =>
    { s with wave := { s.wave with
        pc := s.wave.pairStart, parkTok := if f.hint.tv then some f.hint.tok.toNat else none }, stalled := false }.endRun 0 false
  | .stall s => { s with stalled := true }

/-- The end of an attempt: one that does not issue yet has made no access, and keeps the state that it began with
(R70, R297). -/
def Out.fresh (s : State) : Out → Out
  | .stall _ => .stall s
  | o => o

/-- Run an instruction: the checks of Table 3.9 in their order, the interlocks, then its body. -/
def issue (i : Instr) (f : Fields) (body : Ctx → Out) (s : State) : State :=
  match staticFault i with
  | some c => s.takeTrap (.plain c) s.wave.pairStart s.wave.pairStart (awaitOf i f)
  | none =>
    let m := form i
    if interlocked m f s.wave then { s with stalled := true }
    else match dynFault i m f s with
      | some (t, p) => s.takeTrap t p p (awaitOf i f)
      | none => finish i m f ((body (s.ctx m f)).fresh s)

end Sys2Proof.Machine
end

