-- ==== Sys2Proof/Machine/Control.lean ====
section
/-! DEFINITION. Group 0x0: branches, calls, the execution mask and the life of the wave (R152-R157). -/

namespace Sys2Proof.Machine

/-- What every meaning answers. -/
abbrev Res := Host.Outcome State Fault Refusal

/-- The C-class target: address of the instruction + 4 × offset (Table 3.3). -/
def Ctx.target (x : Ctx) : DWord := x.s.wave.pc + 4 * x.f.ext.signExtend 64

/-- The state with the instruction's next pc set. -/
def State.goto (s : State) (a : DWord) : State := { s with wave := { s.wave with npc := a } }

/-- Branch to the C-class target when `c` holds (R154). -/
def Ctx.branch (x : Ctx) (s : State) (c : Bool) : Out := .done (if c then s.goto x.target else s)

/-- R154 -/
def execBra (f : Fields) (s : State) : Res := .next (issue (.bra f) f (fun x => x.branch x.s true) s)

/-- R154: .NZ is mod bit 0. -/
def execBrc (f : Fields) (s : State) : Res :=
  .next (issue (.brc f) f (fun x => x.branch x.s (decide (x.uni f.a ≠ 0) == f.mod.getLsbD 0)) s)

/-- R154 -/
def execBrany (f : Fields) (s : State) : Res :=
  .next (issue (.brany f) f (fun x => x.branch x.s (decide (x.m ≠ 0))) s)

/-- R154: taken when em AND the guard equals em, and so when em is 0. -/
def execBrall (f : Fields) (s : State) : Res :=
  .next (issue (.brall f) f (fun x => x.branch x.s (decide (x.m = x.s.wave.em))) s)

/-- R155 -/
def execCall (f : Fields) (s : State) : Res :=
  .next (issue (.call f) f
    (fun x => x.branch (x.s.writeS64 f.d .int (x.s.wave.pc + 12)) true) s)

/-- RET and JMPI: jump to the pair's address, which must be a multiple of 4 (R155). -/
def Ctx.jumpPair (x : Ctx) : Out :=
  let a := x.uni64 x.f.a
  if a.toNat % 4 ≠ 0 then .trap (.at_ .align a 0) x.s else .done (x.s.goto a)

/-- R155 -/
def execRet (f : Fields) (s : State) : Res := .next (issue (.ret f) f Ctx.jumpPair s)

/-- R155 -/
def execJmpi (f : Fields) (s : State) : Res := .next (issue (.jmpi f) f Ctx.jumpPair s)

/-- R154: d := d − 1, taken while it is not 0. -/
def execLoop (f : Fields) (s : State) : Res :=
  .next (issue (.loop f) f
    (fun x => let n := x.uni f.d - 1; x.branch (x.s.writeS f.d .int n) (decide (n ≠ 0))) s)

/-- R156 -/
def execEmset (f : Fields) (s : State) : Res :=
  .next (issue (.emset f) f
    (fun x => .done { x.s with wave := { x.s.wave with em := x.uni f.a &&& x.s.wave.live } }) s)

/-- R156: a full stack traps ILLFMT. -/
def execEmpush (f : Fields) (s : State) : Res :=
  .next (issue (.empush f) f
    (fun x => if 8 ≤ x.s.wave.stack.length then .trap (.plain .illfmt) x.s
      else .done { x.s with wave := { x.s.wave with stack := x.s.wave.em :: x.s.wave.stack } }) s)

/-- R156: an empty stack traps ILLFMT. -/
def execEmpop (f : Fields) (s : State) : Res :=
  .next (issue (.empop f) f
    (fun x => match x.s.wave.stack with
      | [] => .trap (.plain .illfmt) x.s
      | e :: st => .done { x.s with wave := { x.s.wave with em := e &&& x.s.wave.live, stack := st } }) s)

/-- R156: .NOT is mod bit 0. -/
def execEmand (f : Fields) (s : State) : Res :=
  .next (issue (.emand f) f
    (fun x =>
      let p := x.prd f.a
      let em := x.s.wave.em &&& (if f.mod.getLsbD 0 then ~~~p else p)
      .done { x.s with wave := { x.s.wave with em := em } }) s)

/-- R157: no effect. -/
def execNop (f : Fields) (s : State) : Res := .next (issue (.nop f) f (fun x => .done x.s) s)

/-- R157: a yielding run end, which `yields` gives. -/
def execYield (f : Fields) (s : State) : Res := .next (issue (.yield f) f (fun x => .done x.s) s)

/-- R157: remove the lanes of em AND the guard; the run end finds LIVE zero and ends the wave. -/
def execExit (f : Fields) (s : State) : Res :=
  .next (issue (.exit f) f
    (fun x =>
      let w := x.s.wave
      let k := ~~~x.m
      .done { x.s with wave := { w with live := w.live &&& k, em := w.em &&& k,
                                        stack := w.stack.map (· &&& k) } }) s)

/-- R157: ends the run with an await of MASK OR AWAIT, which `awaitOf` gives. -/
def execWaittok (f : Fields) (s : State) : Res := .next (issue (.waittok f) f (fun x => .done x.s) s)

/-- R157, R369: sleep until WAKEW, or for a × 64 clk; a pending wake ends it at once. -/
def execSleepw (f : Fields) (s : State) : Res :=
  .next (issue (.sleepw f) f
    (fun x =>
      let n := x.uni f.a
      let w := x.s.wave
      if w.wakePend then .done { x.s with wave := { w with wakePend := false } }
      else
        let t : Option DWord :=
          if n = 0 then none else some (x.s.clock x.s.group + n.setWidth 64 * 64)
        .done { x.s with wave := { w with wait := .sleep t } }) s)

end Sys2Proof.Machine
end

