-- ==== Sys2Proof/Machine/Memory.lean ====
section
/-! DEFINITION. Memory as agents reach it: handle entries (R37, R38), the page walk (R231-R233),
translation registers (R229), access tables (R285, R286), loads and stores of global bytes with
discarded pages (R235), releases and acquires (R293, R294, R303), race detection (R305-R307), soft
errors (R375) and the comparison of watched stores (R113). -/

namespace Sys2Proof.Machine

/-! ### Device physical addresses and the page walk -/

/-- A level of the walk: lowest VA bit of its index, index width, and log2 of its table's alignment (Table 9.3). -/
structure Level where
  num : Nat
  lo : Nat
  width : Nat
  align : Nat

/-- The levels from L4 down (Table 9.3). -/
def levels : List Level :=
  [⟨4, 53, 11, 14⟩, ⟨3, 42, 11, 14⟩, ⟨2, 31, 11, 14⟩, ⟨1, 21, 10, 13⟩, ⟨0, 16, 5, 8⟩]

/-- A page that a walk found: the entry and its address, its level, and the DPA of the byte. -/
structure Hit where
  entry : DWord
  at_ : Nat
  lvl : Nat
  dpa : Nat
  deriving DecidableEq, Repr

/-- Why a translation gives no page. -/
inductive Miss where
  /-- a clear V (R233) -/
  | np
  /-- a right of the leaf is missing (R233) -/
  | prot
  /-- a malformed walk: level and the DPA of the entry, or PTROOT (R233, R358) -/
  | bad (lvl : Nat) (detail : Nat)
  /-- the tower link is down (R284) -/
  | link
  deriving DecidableEq, Repr

def Hit.w (h : Hit) : Bool := h.entry.getLsbD 2
def Hit.x (h : Hit) : Bool := h.entry.getLsbD 3
def Hit.disc (h : Hit) : Bool := h.entry.getLsbD 4
def Hit.mtype (h : Hit) : Nat := bits h.entry 7 6

/-- FRAME of a leaf as a DPA. -/
def frameOf (e : DWord) : Nat := bits e 47 16 * 2 ^ 16
/-- NEXT of a non-leaf entry as a DPA. -/
def nextOf (e : DWord) : Nat := bits e 47 8 * 2 ^ 8

/-- A leaf that XLATE refuses (R233). -/
def leafBad (e : DWord) (l : Level) : Bool :=
  decide (bits e 11 8 ≠ 0 ∨ bits e 63 48 ≠ 0 ∨ 3 ≤ l.num ∨ frameOf e % 2 ^ l.lo ≠ 0 ∨
    (bits e 4 4 = 1 ∧ l.num ≠ 0) ∨ bits e 7 6 = 3) || !dpaOk (frameOf e)

/-- A non-leaf entry that XLATE refuses: `next` is the alignment of the table it points to. -/
def nodeBad (e : DWord) (next : Option Nat) : Bool :=
  match next with
  | none => true
  | some al => decide (bits e 7 2 ≠ 0 ∨ bits e 63 48 ≠ 0 ∨ nextOf e % 2 ^ al ≠ 0) || !dpaOk (nextOf e)

/-- The walk from a table (R233). -/
def walkFrom (m : List Host.Cell) (va : Nat) : Nat → List Level → Except Miss Hit
  | _, [] => .error .np
  | t, l :: ls =>
    let at_ := t + 8 * (va / 2 ^ l.lo % 2 ^ l.width)
    let e := Mem.read64 m at_
    if !e.getLsbD 0 then .error .np
    else if e.getLsbD 1 then
      if leafBad e l then .error (.bad l.num at_)
      else .ok ⟨e, at_, l.num, frameOf e + va % 2 ^ l.lo⟩
    else if nodeBad e ((ls.head?).map Level.align) then .error (.bad l.num at_)
    else walkFrom m va (nextOf e) ls

/-- The walk from PTROOT (R233). -/
def walk (m : List Host.Cell) (root va : DWord) : Except Miss Hit :=
  if root.toNat % 2 ^ 14 ≠ 0 ∨ !dpaOk root.toNat then .error (.bad 5 root.toNat)
  else walkFrom m va.toNat root.toNat levels

/-- The entries that a walk reads, by DPA (R232, R233). -/
def walkReads (m : List Host.Cell) (va : Nat) : Nat → List Level → List Nat
  | _, [] => []
  | t, l :: ls =>
    let at_ := t + 8 * (va / 2 ^ l.lo % 2 ^ l.width)
    let e := Mem.read64 m at_
    at_ :: if e.getLsbD 0 && !e.getLsbD 1 && !nodeBad e ((ls.head?).map Level.align) then walkReads m va (nextOf e) ls else []

/-- What an access does with the byte; `revive` is a read that brings a discarded page back (R310). -/
inductive Use where
  | read | write | fetch | revive
  deriving DecidableEq, Repr

def State.rootOf (s : State) (job : Nat) : DWord := ((s.findJob job).map Job.ptroot).getD 0
def State.htabOf (s : State) (job : Nat) : DWord := ((s.findJob job).map Job.htab).getD 0

/-- The entries that the walk of an address reads, by DPA; none under a PTROOT that no walk can start from. -/
def State.walkDpas (s : State) (job : Nat) (va : DWord) : List Nat :=
  let root := (s.rootOf job).toNat
  if root % 2 ^ 14 ≠ 0 ∨ !dpaOk root then [] else walkReads s.mem va.toNat root Sys2Proof.Machine.levels

/-- A walk from a tower reads an entry that the other tower homes, over the link (R284, log 8). -/
def State.walkFar (s : State) (job : Nat) (from_ : TowerId) (va : DWord) : Bool :=
  (s.walkDpas job va).any fun d => decide (dpaTower d ≠ from_)

/-- Translate an address of a job for a use from a tower (R229-R233, R284). A read of a discarded page needs no
link for the page (R235). -/
def State.translate (s : State) (job : Nat) (from_ : TowerId) (u : Use) (va : DWord) : Except Miss Hit :=
  if s.link.down && s.walkFar job from_ va then .error .link
  else match walk s.mem (s.rootOf job) va with
  | .error e => .error e
  | .ok h =>
    if (u = .write ∧ !h.w) ∨ (u = .fetch ∧ !h.x) then .error .prot
    else if s.link.down ∧ dpaTower h.dpa ≠ from_ ∧ ¬(u = .read ∧ h.disc) then .error .link
    else .ok h

/-- The trap of a translation that cannot park (R233, R284). -/
def Miss.trap (va : DWord) (m : Mask) : Miss → TrapInfo
  | .bad l d => ⟨.xlate, false, BitVec.ofNat 16 l, va, m, BitVec.ofNat 64 d⟩
  | .link => .at_ .linkfail va m
  | .prot => .at_ .pageprot va m
  | .np => .at_ .pagenp va m

/-! ### Handles (R37, R38) -/

def hBase (e : BitVec 256) : Nat := bits e 63 0
def hLimit (e : BitVec 256) : Nat := bits e 127 64
def hSpace (e : BitVec 256) : Nat := bits e 131 128
def hDftag (e : BitVec 256) : BitVec 4 := e.extractLsb' 152 4
def hRd (e : BitVec 256) : Bool := e.getLsbD 144
def hWr (e : BitVec 256) : Bool := e.getLsbD 145
def hAt (e : BitVec 256) : Bool := e.getLsbD 146

/-- A valid entry (R38). -/
def hValid (e : BitVec 256) : Bool :=
  decide (1 ≤ hSpace e ∧ hSpace e ≤ 4 ∧ bits e 138 136 ≤ 3 ∧ (hDftag e).toNat < 14 ∧ hBase e % 64 = 0 ∧
    bits e 135 132 = 0 ∧ bits e 143 139 = 0 ∧ bits e 151 147 = 0 ∧ bits e 255 156 = 0)

/-- The entry of handle h in the job's table (R37). -/
def State.tableEntry (s : State) (job h : Nat) : BitVec 256 :=
  BitVec.ofNat 256 (Mem.readNat s.mem ((s.htabOf job).toNat + 32 * h) 32)

/-- The translation register that holds a handle. -/
def Group.trFind (g : Group) (h : Nat) : Option (Nat × TransReg) := g.trs.find? fun e => e.2.handle = h

/-- The entry that an access through handle h uses: the copy of a TR, else the table's (R229). -/
def State.entry (s : State) (h : Nat) : BitVec 256 :=
  match s.group.trFind h with
  | some (_, t) => t.entry
  | none => s.tableEntry s.group.job h

/-- The size of a page that a leaf of a level maps (R232). -/
def pageSize (lvl : Nat) : Nat := 2 ^ (match lvl with | 0 => 16 | 1 => 21 | _ => 31)

/-- The extent E from a page onwards, with its pages: pages of like rights in consecutive frames, at most n leaves
(R229). -/
def State.extent (s : State) (job : Nat) (first : Hit) (va : Nat) (cap : Nat) : Nat → Nat → Nat → List (Nat × Nat) → Nat × List (Nat × Nat)
  | 0, got, _, ps => (min got cap, ps)
  | n + 1, got, dpa, ps =>
    if cap ≤ got then (cap, ps)
    else match walk s.mem (s.rootOf job) (BitVec.ofNat 64 (va + got)) with
      | .error _ => (got, ps)
      | .ok h =>
        if h.disc || decide (h.dpa ≠ dpa) || decide (dpaTower h.dpa ≠ dpaTower first.dpa) ||
            (h.w != first.w) || (h.x != first.x) || decide (h.mtype ≠ first.mtype) then (got, ps)
        else
          let size := pageSize h.lvl
          let step := size - (va + got) % size
          State.extent s job first va cap n (got + step) (dpa + step) (((va + got) / size * size, size) :: ps)

/-- A handle as a TR holds it: DPA of BASE and E; both 0 for a space without translation or an
unmapped BASE (R229, R247). A malformed walk at BASE counts as an unmapped one here: the access will trap XLATE
(log 103). -/
def State.makeTr (s : State) (h : Nat) (e : BitVec 256) : TransReg :=
  if hSpace e = 1 then
    match walk s.mem (s.rootOf s.group.job) (BitVec.ofNat 64 (hBase e)) with
    | .error _ => ⟨h, e, 0, 0, 0, []⟩
    | .ok p =>
      let x := s.extent s.group.job p (hBase e) (min (hLimit e) (2 ^ 31)) 16 0 p.dpa []
      ⟨h, e, p.dpa, x.1, 0, x.2⟩
  else ⟨h, e, 0, 0, 0, []⟩

/-- Age the translation registers that were used more recently than rank r. -/
def ageTrs (r : Nat) (t : Table TransReg) : Table TransReg :=
  t.map fun (k, x) => (k, if x.rank < r then { x with rank := x.rank + 1 } else x)

/-- The lowest rank that no register of a table has. -/
def freeRank (t : Table TransReg) : Nat := ((List.range 8).find? fun r => !t.any fun e => e.2.rank = r).getD 8

/-- Put a TR into register k as the most recently used; any other that holds the handle is cleared (R247). The ranks
of the others stay distinct and in their order. -/
def Group.putTr (g : Group) (k : Nat) (t : TransReg) : Group :=
  let rest := g.trs.filter fun e => e.1 ≠ k ∧ e.2.handle ≠ t.handle
  { g with trs := Table.put (ageTrs (freeRank rest) rest) k { t with rank := 0 } }

/-- The register that a first use fills: the lowest that is free, else the least recently used (R229). -/
def Group.victim (g : Group) : Nat :=
  match (List.range 8).find? fun k => (Table.find g.trs k).isNone with
  | some k => k
  | none => (g.trs.foldl (fun (b : Nat × Nat) e => if b.2 < e.2.rank + 1 then (e.1, e.2.rank + 1) else b) (0, 0)).1

/-- What an instruction needs of a handle: the spaces it may reach and its rights. -/
structure Need where
  spaces : List Nat
  rd : Bool := false
  wr : Bool := false
  at_ : Bool := false

/-- HINVAL (R38, R226); BASE + LIMIT of a broadcast handle lies within the window (R267). -/
def needBad (n : Need) (e : BitVec 256) : Bool :=
  !hValid e || !n.spaces.contains (hSpace e) || (n.rd && !hRd e) || (n.wr && !hWr e) || (n.at_ && !hAt e) ||
    (decide (hSpace e = 3) && decide (2 ^ 22 < hBase e + hLimit e))

/-- The handle number of a class M or K word. -/
def hOf (f : Fields) : Nat := ebits f 5 0
/-- The signed displacement of a class M word (Table 3.3). -/
def dispOf (f : Fields) : Int := (f.ext.extractLsb' 6 26).toInt

/-- A lane's offset: zext(b) + sext_26(disp), exact (R38, R240). -/
def Ctx.off (x : Ctx) (i : Nat) : Int := (laneAt (x.lanes x.f.b) i).toNat + dispOf x.f

/-- The size of the local space that the group addresses (R227). -/
def Group.localSize (g : Group) : Nat := g.space

/-- Checks 1 to 3 of R239 over lanes with their offsets: the first fault, if any. -/
def checkLanes (g : Group) (n : Need) (e : BitVec 256) (size align : Nat) (ls : List (Nat × Int)) : Option TrapInfo :=
  let fail (c : Cause) (bad : List (Nat × Int)) : Option TrapInfo :=
    match bad with
    | [] => none
    | (_, o) :: _ => some (.at_ c (BitVec.ofInt 64 o) (maskOf fun i => bad.any fun p => p.1 = i))
  match ls with
  | [] => none
  | _ =>
    if needBad n e then fail .hinval ls
    else
      (fail .align (ls.filter fun p => p.2 % (align : Int) ≠ 0)).or
        ((fail .hbounds (ls.filter fun p => p.2 < 0 ∨ (hLimit e : Int) < p.2 + size)).or
          (if hSpace e = 2 then
            fail .localoob (ls.filter fun p => (g.localSize : Int) < hBase e + p.2 + size) else none))

/-! ### Access tables (R285, R286) -/

/-- Master kinds of Table 10.9. -/
def kindWave : Nat := 0
def kindEng : EngClass → Nat | .cp => 1 | .gt => 2 | .mx => 3 | .bc => 4 | .ry => 5
def kindHost : Nat := 6
def kindHw : Nat := 7

/-- The number of the ATCTL register (R286). -/
def csrAtctl : Nat := 0x385

/-- Does one entry grant an access to the bytes [lo, hi) by a job and kind? -/
def entryGrants (e : BitVec 128) (job kind : Nat) (rd wr at_ : Bool) (lo hi : Nat) : Bool :=
  e.getLsbD 31 && decide (bits e 11 0 = job) && e.getLsbD (16 + kind) &&
    (!rd || e.getLsbD 24) && (!wr || e.getLsbD 25) && (!at_ || e.getLsbD 26) &&
    decide (bits e 95 64 * 2 ^ 16 ≤ lo ∧ hi ≤ bits e 127 96 * 2 ^ 16)

/-- Does a tower's target class grant the access (R286)? -/
def Tower.grants (t : Tower) (cls job kind : Nat) (rd wr at_ : Bool) (lo hi : Nat) : Bool :=
  !(Table.get 0 t.csr csrAtctl).getLsbD cls ||
    (List.range 32).any fun k => entryGrants (Table.get 0 t.access (32 * cls + k)) job kind rd wr at_ lo hi

/-- The target class that denies a global access from a tower: the gateway for the other tower's lines, then
the home's L2 slices or, uncached, its memory controllers (R223, R234, R281, R285); none grants it. -/
def State.denyClass (s : State) (from_ : TowerId) (mtype job kind : Nat) (rd wr at_ : Bool) (lo hi : Nat) : Option Nat :=
  let home := dpaTower lo
  let cls := if mtype = 1 then 1 else 0
  if home ≠ from_ ∧ !(s.tower from_).grants 2 job kind rd wr at_ lo hi then some 2
  else if (s.tower home).grants cls job kind rd wr at_ lo hi then none else some cls

/-- Do the targets of a global access grant it? -/
def State.globalOk (s : State) (from_ : TowerId) (mtype job kind : Nat) (rd wr at_ : Bool) (lo hi : Nat) : Bool :=
  (s.denyClass from_ mtype job kind rd wr at_ lo hi).isNone

/-! ### Locations, releases and acquires (R287-R303) -/

/-- The cluster of a core (R2). -/
def clusterOf (c : Nat) : Nat := 2 * (c / 4 / 2) + c % 4 / 2

def Group.place (g : Group) : Place := ⟨g.tower, g.layer, g.core⟩

/-- Does a scope's instance of one wave hold another (Table 11.1)? `mate` says that they are of one unit: the groups of
a gang share a cluster wherever they run, and a save and restore is invisible to them (R289, R300). -/
def reaches (sc : Scope) (mate : Bool) (a : WaveKey) (p : Place) (b : WaveKey) (q : Place) : Bool :=
  match sc with
  | .wv => mate && decide (a = b)
  | .gp => mate && decide (a.job = b.job ∧ a.gid = b.gid)
  | .cl => mate || (p.tower = q.tower && p.layer = q.layer && clusterOf p.core.val = clusterOf q.core.val)
  | .ly => mate || (p.tower = q.tower && p.layer = q.layer)
  | .sk => mate || p.tower = q.tower
  | .dv => true
  | .sy => true

def Scope.num : Scope → Nat
  | .wv => 0 | .gp => 1 | .cl => 2 | .ly => 3 | .sk => 4 | .dv => 5 | .sy => 6
/-- The scope of a code of Table 3.6; 7 is reserved. -/
def scopeOf : Nat → Option Scope
  | 0 => some .wv | 1 => some .gp | 2 => some .cl | 3 => some .ly | 4 => some .sk
  | 5 => some .dv | 6 => some .sy | _ => none

/-- R294's condition on the instances for an acquire at a scope by the focus wave, whose group ran at a place when it
read (R288). -/
def State.syncs (s : State) (sc : Scope) (at_ : Place) (r : RelInfo) : Bool :=
  match r.by_ with
  | .hw => decide (5 ≤ Scope.num sc)
  | .host => decide (sc = .sy)
  | .wave =>
    let mate := decide (r.unit = s.group.unit)
    reaches r.scope mate r.key r.place s.wave.key at_ && reaches sc mate s.wave.key at_ r.key r.place

/-- The wider of two scopes of later writes. -/
def widerScope (a : Option Scope) (b : Scope) : Scope :=
  match a with
  | some c => if Scope.num b ≤ Scope.num c then c else b
  | none => b

/-- The release that a write of a wave makes: at its own scope or at that of an earlier fence, the wider (R297). -/
def relOf (w : Wave) (g : Group) (sc : Option Scope) : List RelInfo :=
  match sc, w.fenceRel with
  | none, none => []
  | some c, f => [⟨widerScope f c, .wave, w.key, g.place, g.unit⟩]
  | none, some c => [⟨c, .wave, w.key, g.place, g.unit⟩]
/-- The release that a write of the focus wave makes. -/
def State.relBy (s : State) (sc : Option Scope) : List RelInfo := relOf s.wave s.group sc

/-- The distinct releases held by n locations. -/
def State.relsOf (s : State) (loc n : Nat) : List RelInfo :=
  ((List.range n).flatMap fun i => s.relAt (loc + i)).eraseDups

/-- One mismatch: SCOPE set, MISMATCH counted, and SCOPEMIS after the instruction under SCOPETRAP (R303). -/
def State.mismatch (s : State) (addr : DWord) : State :=
  let s := { s with wave := { s.wave with mmScope := true, mismatch := s.wave.mismatch + 1 } }
  if s.wave.jctl.getLsbD 6 then s.post (some (.late .scopemis addr)) else s

/-- A read by the wave that finds releases: it is remembered for later acquiring fences, and an acquire is judged at
once (R294, R297, R303). -/
def State.gotRel (s : State) (acq : Option Scope) (rs : List RelInfo) (addr : DWord) : State :=
  if rs.isEmpty then s
  else
    let s := { s with wave := { s.wave with relReads := ⟨rs, addr, s.group.place⟩ :: s.wave.relReads } }
    match acq with
    | some sc => if rs.all (s.syncs sc s.group.place) then s else s.mismatch addr
    | none => s

/-- A read of n locations by the wave, with the releases that they hold. -/
def State.readRel (s : State) (acq : Option Scope) (loc n : Nat) (addr : DWord) : State :=
  s.gotRel acq (s.relsOf loc n) addr

/-- A read of n bytes of a page by the wave; the zeros of a discarded page are nobody's release (R235, R303). -/
def State.readHit (s : State) (acq : Option Scope) (h : Hit) (n : Nat) (addr : DWord) : State :=
  if h.disc then s else s.readRel acq (locGlobal h.dpa) n addr

/-- The group whose list a release closes: one at .GP or wider does (R306). -/
def closesAt (sc : Option Scope) (g : GroupKey) : Option GroupKey :=
  match sc with
  | none => none
  | some .wv => none
  | some _ => some g

/-- A release at .GP or wider by a wave of the group closes its list (R306). -/
def State.release (s : State) (sc : Option Scope) : State :=
  match closesAt sc s.group.key with
  | some g => s.closeOpens g
  | none => s

/-! ### Race detection (R305-R307) -/

/-- Bits of launch byte 27 and the like: bits [hi:lo] of byte b of a launch image (R27). -/
def launchBits (l : BitVec 1024) (b hi lo : Nat) : Nat := bits l (8 * b + hi) (8 * b + lo)

/-- The launch that a group's unit belongs to. -/
def State.launchOf (s : State) (g : Group) : Option Launch :=
  match s.findUnit g.unit with
  | none => none
  | some u => match u.launch with | none => none | some l => s.findLaunch l

/-- A checked group (R305). -/
def State.checked (s : State) : Bool :=
  s.wave.jctl.getLsbD 1 &&
    match s.launchOf s.group with
    | none => true
    | some l => launchBits l.image 27 3 3 = 1

/-- The bytes [dpa, dpa + n) of sector k as a mask. -/
def sectorMask (k dpa n : Nat) : Mask := maskOf fun i => decide (dpa ≤ 32 * k + i ∧ 32 * k + i < dpa + n)

/-- The first byte of an access that lies in another group's open mask, with the opener (R307). -/
def State.raceByte (s : State) (dpa n : Nat) : Option (Nat × Nat) :=
  (List.range n).findSome? fun i =>
    match Table.find s.opens ((dpa + i) / 32) with
    | none => none
    | some (j, g, m) =>
      if (j ≠ s.group.job ∨ g ≠ s.group.gid) ∧ laneOn m ((dpa + i) % 32) then some (i, g) else none

/-- An unordered write of a checked group opens its sectors (R306). -/
def State.openSector (s : State) (k : Nat) (m : Mask) : State :=
  match Table.find s.opens k with
  | some (j, g, old) =>
    if j = s.group.job ∧ g = s.group.gid then { s with opens := Table.put s.opens k (j, g, old ||| m) } else s
  | none =>
    let s := match s.group.opens with
      | o :: os => if 64 ≤ (o :: os).length then
          { s with opens := Table.erase s.opens o, group := { s.group with opens := os },
                   wave := { s.wave with openLost := true } }
        else s
      | [] => s
    { s with opens := Table.put s.opens k (s.group.job, s.group.gid, m),
             group := { s.group with opens := s.group.opens ++ [k] } }

def State.openBytes (s : State) (dpa n : Nat) : State :=
  (sectorsOf dpa n).foldl (fun s k => s.openSector k (sectorMask k dpa n)) s

/-! ### Global bytes -/

/-- Revive a discarded page: clear DISC in its entry and fill the frame with zeros, uncompared (R235). The fill
overwrites every sector, so its poison goes (R375), and it is a plain write, so the releases go (R294). -/
def State.revive (s : State) (h : Hit) : State :=
  let e := Mem.read64 s.mem h.at_
  if h.disc && e.getLsbD 4 then
    let e := e &&& ~~~(0x10 : DWord)
    { s with
      mem := Mem.blankRange (Mem.write64 s.mem h.at_ e) (h.dpa / 2 ^ 16 * 2 ^ 16) (2 ^ 16)
      poison := s.poison.filter fun p => p.1 / 2 ^ 11 ≠ h.dpa / 2 ^ 16
      rels := s.rels.filter fun p => p.1 / 2 ^ 16 ≠ locGlobal h.dpa / 2 ^ 16 }
  else s

/-- The bytes that a read returns: zeros of a discarded page (R235). -/
def State.load (s : State) (h : Hit) (n : Nat) : List Byte :=
  if h.disc then List.replicate n 0 else Mem.readBytes s.mem h.dpa n

/-- The structure code of the first poisoned sector that an access reads (R375). -/
def State.poisoned (s : State) (dpa n : Nat) : Option Nat :=
  (sectorsOf dpa n).findSome? fun k => Table.find s.poison k

/-- The trap of a poisoned read: ECCMEM for LPDDR6, ECCSRAM for every other structure (R375). -/
def eccTrap (code : Nat) (addr : DWord) (m : Mask) : TrapInfo :=
  ⟨if code = 8 then .eccmem else .eccsram, false, BitVec.ofNat 16 code, addr, m, 0⟩

/-- A hardware read of poisoned bytes writes a record, and goes on with the bytes that are held (R375, log 91). -/
def State.hwEcc (s : State) (job : Nat) (t : TowerId) (va : DWord) (dpa n : Nat) : State :=
  match s.poisoned dpa n with
  | none => s
  | some code => s.report t
      { cause := if code = 8 then .eccmem else .eccsram, kind := 0, job := job, addr := va, info := code }

/-- The walk of an address reads poisoned entries: a hardware read writes a record for each (R375, log 91). -/
def State.walkEcc (s : State) (job : Nat) (t : TowerId) (va : DWord) : State :=
  if s.poison.isEmpty then s else (s.walkDpas job va).foldl (fun s d => s.hwEcc job t va d 8) s

/-- The walks of some addresses in the job's tables, for what they read. -/
def State.seeWalks (s : State) (vas : List DWord) : State :=
  if s.poison.isEmpty then s else vas.foldl (fun s va => s.walkEcc s.group.job s.group.tower va) s

/-- Where the entry of handle h stands in the job's table (R37). -/
def State.entryAt (s : State) (job h : Nat) : Nat := (s.htabOf job).toNat + 32 * h

/-- Use a valid handle: touch its TR, or load it into one (R229). -/
def State.useHandle (s : State) (h : Nat) (e : BitVec 256) : State :=
  match s.group.trFind h with
  | some (k, t) => { s with group := { s.group with trs := Table.put (ageTrs t.rank s.group.trs) k { t with rank := 0 } } }
  | none => { s with group := s.group.putTr s.group.victim (s.makeTr h e) }

/-- Count an access to a frame of 64 KiB from a tower that is not its home, within 100 µs (R282). What is counted of a
frame that no page of 64 KiB maps moves nothing. -/
def State.touchDpa (s : State) (from_ : TowerId) (dpa : Nat) : State :=
  if dpaTower dpa ≠ from_ then
    let k := dpa / 2 ^ 16
    let now := (s.tower (dpaTower dpa)).now
    let v : Nat × Nat := match Table.find s.remote k with
      | some (t0, n) => if now < t0 + 25000 then (t0, n + 1) else (now, 1)
      | none => (now, 1)
    { s with remote := Table.put s.remote k v }
  else s
/-- Count an access to a page: only those of 64 KiB can migrate (R282). -/
def State.touchFrom (s : State) (from_ : TowerId) (h : Hit) : State :=
  if h.lvl = 0 then s.touchDpa from_ h.dpa else s
/-- Count an access of the focus group. -/
def State.touch (s : State) (h : Hit) : State := s.touchFrom s.group.tower h

/-- Depth of the task whose wave or command performs a store (R113). -/
def Group.depth (g : Group) : Nat := taskBits g.task 36 15 12

/-! ### Local and broadcast bytes -/

def State.localMem (s : State) (u : Nat) : List Host.Cell := Table.get [] s.locals u
def State.setLocal (s : State) (u : Nat) (m : List Host.Cell) : State :=
  { s with locals := Table.set [] s.locals u m }

/-- A store to the group's local space. -/
def State.localStore (s : State) (o : Nat) (bs : List Byte) (r : List RelInfo) : State :=
  (s.setLocal s.group.unit (Mem.writeBytes (s.localMem s.group.unit) o bs)).setRel
    (locLocal s.group.unit o) bs.length r

/-- The cause of a park. -/
def Miss.cause (m : Miss) : Cause := if m = .prot then .pageprot else .pagenp

/-- The record of a park, of KIND 1, by the instruction at an address (R360). -/
def State.parkRec (s : State) (miss : Miss) (pc va : DWord) (write engine : Bool) (m : Mask) : State :=
  s.report s.group.tower { s.waveRec miss.cause 1 pc with
    addr := va, mask := m, info := (if write then 1 else 0) + (if engine then 2 else 0) }

/-- Parking of a memory instruction on a translation fault: one record of KIND 1, and the wave leaves
its run with its unfinished lanes (R233, R360). -/
def State.park (s : State) (miss : Miss) (va : DWord) (write engine : Bool) (m : Mask) : State :=
  let s := s.parkRec miss s.wave.pairStart va write engine m
  { s with wave := { s.wave with wait := .parked miss.cause va, parkedMask := m } }

/-- The watchdog count returns to 0 at a store, atomic or engine command (R376). -/
def State.fed (s : State) : State := { s with wave := { s.wave with dogCount := 0 } }

end Sys2Proof.Machine
end

