-- ==== Sys2Proof/Machine/MemOps.lean ====
section
/-! DEFINITION. Group 0x9: loads and stores of every space, prefetch, cache and translation control,
pins and handles (R237-R249, R271, R272). -/

namespace Sys2Proof.Machine

/-! ### Lanes, registers and bytes -/

/-- Active lanes with their offsets, ascending. -/
def Ctx.laneOffs (x : Ctx) : List (Nat × Int) := (lanesOf x.m).map fun i => (i, x.off i)

/-- The one offset of a uniform access; it stands for no lane, so its masks are 0 (Table 14.3). -/
def Ctx.uniOff (x : Ctx) : List (Nat × Int) := [(32, x.off 0)]

/-- The value of a span of registers in lane i, the first register lowest. -/
def Ctx.wide (x : Ctx) (o : Opnd) (regs i : Nat) : Nat :=
  ((List.range regs).map fun k => (laneAt (x.lanes (Opnd.step o k)) i).toNat * 2 ^ (32 * k)).sum

/-- Write a span of vector registers in the lanes of a mask: register k of lane i from bits of `v i`. -/
def State.writeWide (s : State) (o : Opnd) (regs : Nat) (m : Mask) (tag : BitVec 4) (v : Nat → Nat) : State :=
  (List.range regs).foldl (fun s k =>
    s.write (Opnd.step o k) m .now tag (lanesFn fun i => BitVec.ofNat 32 (v i / 2 ^ (32 * k)))) s

/-- Write a span of s registers from a number. -/
def State.writeSpan (s : State) (o : Opnd) (regs : Nat) (v : Nat) : State :=
  (List.range regs).foldl (fun s k =>
    s.writeS (Opnd.step o k) .now (BitVec.ofNat 32 (v / 2 ^ (32 * k)))) s

/-- The SCOPE code of a memory word: none for .RLX (R237). -/
def scopeArg (f : Fields) : Option Scope := if mbits f 6 4 = 0 then none else scopeOf (mbits f 6 4)

/-- FMTTAG of store data, after HBOUNDS and before translation (R239); XFMT lifts it. -/
def Ctx.dataBad (x : Ctx) (o : Opnd) (regs : Nat) (ok : Option (List Nat)) : Bool :=
  x.s.wave.pfx.xfmt.isNone && isV o &&
    match ok with
    | none => false
    | some l => (List.range regs).any fun k =>
        let t := (x.src (Opnd.step o k)).tag
        decide (t ≠ 0) && !l.contains t.toNat

/-! ### Global accesses -/

/-- A lane whose address was translated. -/
structure GLane where
  lane : Nat
  va : DWord
  hit : Hit

/-- What the lanes of a global access may do: performed, missing a page, denied by an access table. -/
structure Plan where
  go : List GLane
  missing : List (Nat × DWord × Miss)
  denied : List (Nat × DWord)
  /-- the addresses that were translated (R375) -/
  walked : List DWord

/-- The mask of a list of lanes. -/
def maskOfList (l : List Nat) : Mask := maskOf fun i => l.contains i

/-- The VA of an offset in a handle. -/
def vaOf (e : BitVec 256) (o : Int) : DWord := BitVec.ofInt 64 (hBase e + o)

/-- What an access needs of the pages and targets. -/
structure AccKind where
  use : Use
  rd : Bool
  wr : Bool
  /-- an operation of group 0xA, which no page of MTYPE 1 takes (R310) -/
  at_ : Bool
  /-- tested for races (R305) -/
  race : Bool
  kind : Nat := kindWave

/-- Translate the lanes of a global access and make the checks 5 and 6 of R239: XLATE, LINKFAIL,
ATOMSP, MMRACE and soft errors are precise; a retraining link makes the instruction wait. A read of a discarded
page faults nowhere (R235). -/
def Ctx.plan (x : Ctx) (e : BitVec 256) (k : AccKind) (n : Nat) (ls : List (Nat × Int)) : Except Out Plan :=
  let s := x.s
  let job := s.group.job
  let tr := ls.map fun (i, o) => (i, vaOf e o, s.translate job s.group.tower k.use (vaOf e o))
  let bad := tr.filterMap fun (i, va, r) => match r with
    | .error (.bad l d) => some (i, va, Miss.bad l d) | .error .link => some (i, va, Miss.link) | _ => none
  let go : List GLane := tr.filterMap fun (i, va, r) => match r with | .ok h => some ⟨i, va, h⟩ | _ => none
  let live := go.filter fun g => !(decide (k.use = .read) && g.hit.disc)
  let missing := tr.filterMap fun (i, va, r) => match r with
    | .error .np => some (i, va, Miss.np) | .error .prot => some (i, va, Miss.prot) | _ => none
  if s.link.retraining && tr.any (fun r => s.walkFar job s.group.tower r.2.1) then .error (.stall s)
  else match bad with
  | (_, va, m) :: _ => .error (.trap (m.trap va (maskOfList (bad.map fun b => b.1))) s)
  | [] =>
    if s.link.retraining ∧ live.any (fun g => dpaTower g.hit.dpa ≠ s.group.tower) then .error (.stall s)
    else
    match (if k.at_ then go.filter fun g => g.hit.mtype = 1 else []) with
    | g :: gs => .error (.trap (.at_ .atomsp g.va (maskOfList ((g :: gs).map GLane.lane))) s)
    | [] =>
      let races := if k.race && s.checked then
          live.filterMap fun g => (s.raceByte g.hit.dpa n).map fun r => (g, r) else []
      match races with
      | (g, b, op) :: _ =>
        .error (.trap ⟨.mmrace, false, BitVec.ofNat 16 op, g.va + BitVec.ofNat 64 b,
          maskOfList (races.map fun r => r.1.lane), 0⟩ s)
      | [] =>
        let ecc := if k.rd || k.at_ then (go.filter fun g => !g.hit.disc).filterMap fun g =>
            (s.poisoned g.hit.dpa n).map fun c => (g, c) else []
        match ecc with
        | (g, c) :: _ => .error (.trap (eccTrap c g.va (maskOfList (ecc.map fun r => r.1.lane))) s)
        | [] =>
          let ok (g : GLane) := (decide (k.use = .read) && g.hit.disc) ||
            s.globalOk s.group.tower g.hit.mtype job k.kind k.rd k.wr (k.at_ && k.rd && k.wr) g.hit.dpa (g.hit.dpa + n)
          .ok ⟨go.filter ok, missing, (go.filter fun g => !ok g).map fun g => (g.lane, g.va), tr.map fun r => r.2.1⟩

/-- The records of the poisoned entries that an access's walks read (R375, log 91). -/
def Plan.records (p : Plan) (s : State) : State :=
  s.seeWalks p.walked

/-- Denied lanes without a missing page trap ACCTBL after the others complete (R239). -/
def Plan.deny (p : Plan) (s : State) : State :=
  let s := p.records s
  match p.missing, p.denied with
  | [], (_, va) :: _ => s.post (some { TrapInfo.late .acctbl va with mask := maskOfList (p.denied.map Prod.fst) })
  | _, _ => s

/-- The end of a global access: done, or parked for the lanes without a page; denied lanes are
tried again with them (R233, R239, R360). -/
def Plan.out (p : Plan) (write : Bool) (s : State) : Out :=
  match p.missing with
  | [] => .done s
  | (_, va, m) :: _ =>
    .leave (s.park m va write false (maskOfList (p.missing.map (fun q => q.1) ++ p.denied.map Prod.fst)))

/-- Put an Except of ends into one end. -/
def ends (r : Except Out Out) : Out := match r with | .ok o => o | .error o => o

/-- The trap of an instruction that reads the poisoned table entry of a handle, with the entry's place in the table
(R375, log 91). -/
def Ctx.entryEcc (x : Ctx) (h : Nat) : Option TrapInfo :=
  (x.s.poisoned (x.s.entryAt x.s.group.job h) 32).map fun c => eccTrap c (BitVec.ofNat 64 (32 * h)) 0

/-- The read of a handle's entry in the table: over a link that is down it traps LINKFAIL, over one that retrains it waits
(R284), and a poisoned entry traps. -/
def Ctx.tableRead (x : Ctx) (h : Nat) : Except Out Unit :=
  let far : Bool := dpaTower (x.s.entryAt x.s.group.job h) ≠ x.s.group.tower
  if x.s.link.down && far then .error (.trap (.at_ .linkfail (BitVec.ofNat 64 (32 * h)) 0) x.s)
  else if x.s.link.retraining && far then .error (.stall x.s)
  else match x.entryEcc h with
    | some t => .error (.trap t x.s)
    | none => .ok ()

/-- The use of a handle reads its entry in the table only where no TR holds the handle (R229). -/
def Ctx.sound (x : Ctx) (h : Nat) : Except Out Unit :=
  if (x.s.group.trFind h).isSome then .ok () else x.tableRead h

/-- Walks of addresses, each with the lane that it is for, whose result an instruction only describes: over a link that
is down they trap LINKFAIL, over one that retrains they wait (R284). -/
def Ctx.walkLink (x : Ctx) (l : List (Nat × DWord)) : Except Out Unit :=
  let far := l.filter fun p => x.s.walkFar x.s.group.job x.s.group.tower p.2
  match far with
  | [] => .ok ()
  | p :: _ =>
    if x.s.link.down then .error (.trap (.at_ .linkfail p.2 (maskOfList (far.map Prod.fst))) x.s)
    else if x.s.link.retraining then .error (.stall x.s)
    else .ok ()

/-- The checks 1 to 3 of R239 for the word's handle; the state then holds the handle in a TR. An access that they trap
loads no TR and ages none (log 113). -/
def Ctx.access (x : Ctx) (need : Need) (size align : Nat) (ls : List (Nat × Int)) : Except Out (BitVec 256 × Ctx) :=
  let e := x.s.entry (hOf x.f)
  if ls.isEmpty then .ok (e, x)
  else
    match x.sound (hOf x.f), checkLanes x.s.group need e size align ls with
    | .error o, _ => .error o
    | .ok (), some t => .error (.trap t x.s)
    | .ok (), none => .ok (e, { x with s := x.s.useHandle (hOf x.f) e })

/-- Read the planned lanes: the state with their releases received, and each lane's number. -/
def loadLanes (n : Nat) (acq : Option Scope) (s : State) (gs : List GLane) : State × List (Nat × Nat) :=
  gs.foldl (fun (s, out) g =>
    ((s.readHit acq g.hit n g.va).touch g.hit, out ++ [(g.lane, Mem.number (s.load g.hit n))])) (s, [])

/-- The number of a lane in a list of results. -/
def laneVal (l : List (Nat × Nat)) (i : Nat) : Nat := ((l.find? fun p => p.1 = i).map Prod.snd).getD 0

/-- Perform the stores of the planned lanes, ascending: revive, write, compare, open (R235, R240, R306). -/
def storeLanes (n : Nat) (rel : Option Scope) (s : State) (gs : List (GLane × Nat)) : State :=
  (gs.foldl (fun s (g, v) =>
    let s := (s.revive g.hit).touch g.hit
    let s := s.store g.hit.dpa (Mem.bytes v n) s.group.depth false (s.relBy rel)
    if s.checked ∧ rel.isNone then s.openBytes g.hit.dpa n else s) s).healAll
      (gs.map fun (p : GLane × Nat) => (p.1.hit.dpa, n))

/-- Does a load of bytes at VAs wait for a tile store of the same wave that is still to be performed (R210)? -/
def Wave.drains (w : Wave) (vas : List Nat) (n : Nat) : Bool :=
  w.cmds.any fun c => match c.op with
    | .mzst e cells _ _ _ _ => hSpace e = 1 && cells.any fun q => q.any fun (o, _) =>
        vas.any fun v => decide (v < hBase e + o + 4 ∧ hBase e + o < v + n)
    | _ => false

/-- The tag that a load gives (Table 9.7). A load with no active lane tests no entry, and no register takes a reserved
tag: what it gives through an entry whose DFTAG is one is a free value (R56, log 114). -/
def loadTag (t : Nat) (e : BitVec 256) : BitVec 4 :=
  (mtTag t).getD (if (hDftag e).toNat < 14 then hDftag e else BitVec.ofNat 4 (Config.openTag e).val)

/-- R240 -/
def execLd (f : Fields) (s : State) : Res :=
  .next (issue (.ld f) f (fun x => ends do
    let t := mbits f 3 0
    let n := mtBytes t
    let (e, x) ← x.access { spaces := [1], rd := true } n n x.laneOffs
    if x.s.wave.drains (x.laneOffs.map fun p => (vaOf e p.2).toNat) n then .error (.stall x.s)
    let p ← x.plan e ⟨.read, true, false, false, true, kindWave⟩ n x.laneOffs
    let (s, out) := loadLanes n (scopeArg f) (p.deny x.s) p.go
    let s := s.writeWide f.d (mtRegs t) (maskOfList (out.map Prod.fst)) (loadTag t e) (laneVal out)
    .ok (p.out false s)) s)

/-- R240 -/
def execSt (f : Fields) (s : State) : Res :=
  .next (issue (.st f) f (fun x => ends do
    let t := mbits f 3 0
    let n := mtBytes t
    let (e, x) ← x.access { spaces := [1], wr := true } n n x.laneOffs
    if x.dataBad f.a (mtRegs t) (mtAccept t) then .error (.trap (.plain .fmttag) x.s)
    let p ← x.plan e ⟨.write, false, true, false, true, kindWave⟩ n x.laneOffs
    let s := p.deny x.s
    let s := if p.go.isEmpty then s else (s.release (scopeArg f)).fed
    let s := storeLanes n (scopeArg f) s (p.go.map fun g => (g, x.wide f.a (mtRegs t) g.lane))
    .ok (p.out true s)) s)

/-- R242 -/
def execLds (f : Fields) (s : State) : Res :=
  .next (issue (.lds f) f (fun x => ends do
    let t := mbits f 3 0
    let n := mtBytes t
    let ls := x.uniOff
    let (e, x) ← x.access { spaces := [1], rd := true } n n ls
    if x.s.wave.drains (ls.map fun p => (vaOf e p.2).toNat) n then .error (.stall x.s)
    let p ← x.plan e ⟨.read, true, false, false, true, kindWave⟩ n ls
    let (s, out) := loadLanes n (scopeArg f) (p.deny x.s) p.go
    let s := if p.go.isEmpty then s else s.writeSpan f.d (mtRegs t) (laneVal out 32)
    .ok (p.out false s)) s)

/-- R242 -/
def execSts (f : Fields) (s : State) : Res :=
  .next (issue (.sts f) f (fun x => ends do
    let t := mbits f 3 0
    let n := mtBytes t
    let ls := x.uniOff
    let (e, x) ← x.access { spaces := [1], wr := true } n n ls
    let p ← x.plan e ⟨.write, false, true, false, true, kindWave⟩ n ls
    let s := p.deny x.s
    let s := if p.go.isEmpty then s else (s.release (scopeArg f)).fed
    let s := storeLanes n (scopeArg f) s (p.go.map fun g => (g, x.wide f.a (mtRegs t) 0))
    .ok (p.out true s)) s)

/-! ### Local memory (R227, R241) -/

/-- Does an access to the group's local bytes wait for a live entry of the range scoreboard (R241)? -/
def Group.boardBlocks (g : Group) (write : Bool) (o n : Nat) : Bool :=
  g.board.any fun r => decide (r.lo < o + n ∧ o < r.hi) && (write || r.write)

/-- The byte of the group's local space that an offset names. -/
def localOff (e : BitVec 256) (o : Int) : Nat := (hBase e + o).toNat

/-- R241 -/
def execLdl (f : Fields) (s : State) : Res :=
  .next (issue (.ldl f) f (fun x => ends do
    let t := mbits f 3 0
    let n := mtBytes t
    let ls := x.laneOffs
    let (e, x) ← x.access { spaces := [2], rd := true } n n ls
    if ls.any fun (_, o) => x.s.group.boardBlocks false (localOff e o) n then .error (.stall x.s)
    let u := x.s.group.unit
    let s := ls.foldl (fun s (_, o) =>
      s.readRel (scopeArg f) (locLocal u (localOff e o)) n (BitVec.ofNat 64 (localOff e o))) x.s
    let v (i : Nat) : Nat := Mem.readNat (x.s.localMem u) (localOff e (x.off i)) n
    .ok (.done (s.writeWide f.d (mtRegs t) x.m (loadTag t e) v))) s)

/-- R241 -/
def execStl (f : Fields) (s : State) : Res :=
  .next (issue (.stl f) f (fun x => ends do
    let t := mbits f 3 0
    let n := mtBytes t
    let ls := x.laneOffs
    let (e, x) ← x.access { spaces := [2], wr := true } n n ls
    if x.dataBad f.a (mtRegs t) (mtAccept t) then .error (.trap (.plain .fmttag) x.s)
    if ls.any fun (_, o) => x.s.group.boardBlocks true (localOff e o) n then .error (.stall x.s)
    let s := if ls.isEmpty then x.s else x.s.release (scopeArg f)
    .ok (.done (ls.foldl (fun s (i, o) =>
      s.localStore (localOff e o) (Mem.bytes (x.wide f.a (mtRegs t) i) n) (s.relBy (scopeArg f))) s))) s)

/-! ### Broadcast space (R267-R272) -/

/-- Almanac entry (array, slot) of an image: unlisted entries hold the reset Almanac (R262, R425). -/
def almClass (j : Nat) : Nat :=
  [0, 1, 0, 1, 5, 0, 1, 4, 0, 1, 6, 0, 7, 1, 0, 5, 0, 1, 3, 0, 1, 4, 0, 1, 6, 0, 1, 7, 0, 5, 1, 0].getD j 7

/-- The number of slots of the class of slot k below k (R425). -/
def almRank (k : Nat) : Nat :=
  let c := almClass (k % 32)
  let inBlock (n : Nat) := ((List.range n).filter fun j => almClass j = c).length
  k / 32 * inBlock 32 + inBlock (k % 32)

/-- The reset Almanac's entry of slot k, the same in every array (R425). -/
def almReset (k : Nat) : Word :=
  let c := almClass (k % 32)
  let tx := if c = 0 ∨ c = 7 then 8 else if c = 5 then 9 else almRank k % 8
  BitVec.ofNat 32 (tx + 16 * c)

/-- Entry (a, k) of an Almanac image. -/
def almGet (t : Table Word) (a k : Nat) : Word := (Table.find t (1024 * a + k)).getD (almReset k)
/-- Write entry (a, k); an entry equal to the reset one is unlisted. -/
def almSet (t : Table Word) (a k : Nat) (x : Word) : Table Word :=
  if x = almReset k then Table.erase t (1024 * a + k) else Table.put t (1024 * a + k) x

/-- Does an entry give a broadcast slot to a job? -/
def almOwns (x : Word) (job : Nat) : Bool := decide (bits x 6 4 = 2 ∧ bits x 19 8 = job)

/-- Broadcast slots of a job in a tower: only listed entries can be of CLASS 2 (R269). -/
def Tower.slotsOf (t : Tower) (job : Nat) : Nat := (t.almanac.filter fun e => almOwns e.2 job).length

/-- Commands outstanding in a class (R250). -/
def Wave.count (w : Wave) (c : EngClass) : Nat := (w.cmds.filter fun k => k.cls = c).length

/-- Split the bytes of a broadcast write into sectors, one for each 32-byte unit, ascending (R268). -/
def sectorsFrom (job : Nat) (owner : WaveKey) (cmd depth : Nat) (rel : List RelInfo) (mx : Bool)
    (bytes : Table Byte) : List Sector :=
  ((bytes.map fun b => b.1 / 32).eraseDups).map fun u =>
    ⟨job, u, bytes.filter fun b => b.1 / 32 = u, mx, owner, cmd, depth, rel, none⟩

/-- R271 -/
def execStb (f : Fields) (s : State) : Res :=
  .next (issue (.stb f) f (fun x => ends do
    let t := mbits f 3 0
    let n := mtBytes t
    let ls := x.laneOffs
    let (e, x) ← x.access { spaces := [3], wr := true } n n ls
    if x.dataBad f.a (mtRegs t) (mtAccept t) then .error (.trap (.plain .fmttag) x.s)
    let s := x.s
    let tw := s.tower s.group.tower
    if tw.slotsOf s.group.job = 0 then
      .error (.trap (.at_ .noslot (BitVec.ofInt 64 ((ls.head?.map Prod.snd).getD 0)) x.m) s)
    if ls.isEmpty then .ok (.done s)
    else
      if 64 ≤ tw.queued s.group.job ∨ 63 ≤ s.wave.count .bc then .error (.stall s)
      let ok (o : Int) := tw.grants 5 s.group.job kindWave false true false (hBase e + o).toNat ((hBase e + o).toNat + n)
      let go := ls.filter fun p => ok p.2
      let no := ls.filter fun p => !ok p.2
      let s := match no with
        | [] => s
        | p :: _ => s.post (some { TrapInfo.late .acctbl (BitVec.ofInt 64 (hBase e + p.2)) with
            mask := maskOfList (no.map Prod.fst) })
      let s := (if go.isEmpty then s else s.release (scopeArg f)).fed
      let bytes : Table Byte := go.foldl (fun b (i, o) =>
        ((Mem.bytes (x.wide f.a (mtRegs t) i) n).zipIdx).foldl (fun b (v, k) => Table.put b ((hBase e + o).toNat + k) v) b) []
      let secs := sectorsFrom s.group.job s.wave.key s.seq s.group.depth (s.relBy (scopeArg f)) false bytes
      let cmd : EngCmd := ⟨s.seq, .bc, .sectors secs.length, 0, none, none, none, false, [], s.wave.pairStart,
        (encode (.stb f)).getD 0, 0⟩
      let s := s.mapTower s.group.tower fun y => { y with sectors := y.sectors ++ secs }
      .ok (.done { s with wave := { s.wave with cmds := s.wave.cmds ++ [cmd] }, seq := s.seq + 1 })) s)

/-- R272: the replica of the issuing layer holds the home image (R268). -/
def execLdb (f : Fields) (s : State) : Res :=
  .next (issue (.ldb f) f (fun x => ends do
    let t := mbits f 3 0
    let n := mtBytes t
    let ls := x.laneOffs
    let (e, x) ← x.access { spaces := [3], rd := true } n n ls
    let tw := x.s.tower x.s.group.tower
    let a (o : Int) : Nat := (hBase e + o).toNat
    let ok (o : Int) := tw.grants 5 x.s.group.job kindWave true false false (a o) (a o + n)
    let go := ls.filter fun p => ok p.2
    let no := ls.filter fun p => !ok p.2
    let s := match no with
      | [] => x.s
      | p :: _ => x.s.post (some { TrapInfo.late .acctbl (BitVec.ofNat 64 (a p.2)) with
          mask := maskOfList (no.map Prod.fst) })
    let s := go.foldl (fun s p =>
      s.readRel (scopeArg f) (locBcast s.group.tower (a p.2)) n (BitVec.ofNat 64 (a p.2))) s
    .ok (.done (s.writeWide f.d (mtRegs t) (maskOfList (go.map Prod.fst)) (loadTag t e)
      fun i => Mem.readNat tw.bcast (a (x.off i)) n))) s)

/-! ### Prefetch, cache control and pins (R243, R245, R246) -/

/-- R243: only HINVAL traps; no value that programs see changes. -/
def execPref (f : Fields) (s : State) : Res :=
  .next (issue (.pref f) f (fun x => ends do
    let e := x.s.entry (hOf f)
    match x.laneOffs with
    | [] => .ok (.done x.s)
    | (_, o) :: _ =>
      if needBad { spaces := [1], rd := true } e then .error (.trap (.at_ .hinval (BitVec.ofInt 64 o) x.m) x.s)
      else .ok (.done (x.s.useHandle (hOf f) e))) s)

/-- The range of CINV, CWB, PIN and UNPIN: its handle entry, first offset and size (R245); an empty range has no
byte beyond LIMIT (log 28). -/
def Ctx.range (x : Ctx) : Except Out (BitVec 256 × Int × Nat × Ctx) :=
  let e := x.s.entry (hOf x.f)
  let o := x.off 0
  let size := if isNil x.f.a then 64 else (x.uni x.f.a).toNat
  let fail (c : Cause) : Except Out (BitVec 256 × Int × Nat × Ctx) := .error (.trap (.at_ c (BitVec.ofInt 64 o) 0) x.s)
  if let .error o := x.sound (hOf x.f) then .error o
  else if needBad { spaces := [1], rd := true } e then fail .hinval
  else if size % 64 ≠ 0 ∨ 2 ^ 24 < size then fail .align
  else if size ≠ 0 ∧ (o < 0 ∨ (hLimit e : Int) < o + size) then fail .hbounds
  else .ok (e, o, size, { x with s := x.s.useHandle (hOf x.f) e })

/-- The addresses at which a range enters its 64 KiB pages, ascending: a malformed walk of one traps XLATE, and an
unmapped page is skipped (R233, R245). -/
def Ctx.rangePages (x : Ctx) (e : BitVec 256) (o : Int) (size : Nat) : Except Out Ctx :=
  if size = 0 then .ok x
  else
    let lo := (hBase e + o).toNat
    let pages := (List.range ((lo + size - 1) / 2 ^ 16 + 1 - lo / 2 ^ 16)).map fun k =>
      BitVec.ofNat 64 (max lo ((lo / 2 ^ 16 + k) * 2 ^ 16))
    match x.walkLink (pages.map fun va => (32, va)) with
    | .error o => .error o
    | .ok () => match pages.findSome? fun va => match walk x.s.mem (x.s.rootOf x.s.group.job) va with
        | .error (.bad l d) => some ((Miss.bad l d).trap va 0) | _ => none with
      | some t => .error (.trap t x.s)
      | none => .ok { x with s := x.s.seeWalks pages }

/-- A cache control instruction: its checks, and no change of a value (R245). -/
def Ctx.cacheCtl (x : Ctx) : Out :=
  if x.m = 0 then .done x.s
  else ends do
    let (e, o, size, x) ← x.range
    let x ← x.rangePages e o size
    .ok (.done x.s)

/-- R245 -/
def execCinv (f : Fields) (s : State) : Res := .next (issue (.cinv f) f Ctx.cacheCtl s)
/-- R245 -/
def execCwb (f : Fields) (s : State) : Res := .next (issue (.cwb f) f Ctx.cacheCtl s)

/-- The number of the PINCNT register (Table 9.5). -/
def csrPincnt : Nat := 0x320

/-- The lines of a range whose pages are mapped, ascending: the VA of each, and what its walk finds (R245). -/
def State.rangeLines (s : State) (e : BitVec 256) (o : Int) (size : Nat) : List (DWord × Hit) :=
  if size = 0 then []
  else
    let first := (hBase e + o).toNat / 64
    let count := ((hBase e + o).toNat + size - 1) / 64 + 1 - first
    (List.range count).filterMap fun k =>
      let va := BitVec.ofNat 64 (64 * (first + k))
      match walk s.mem (s.rootOf s.group.job) va with
      | .ok h => some (va, h)
      | .error _ => none

/-- Has the line's set a way to give (R246)? Always when the line is pinned there for another job, or when fewer lines
of its slice are pinned than the class has ways; never when the 24,576 lines of a slice (1.5 MiB, Table 9.1) are all
pinned; else it is open (log 18). -/
def State.hasWay (s : State) (line : Nat) : Bool :=
  let t := s.tower s.group.tower
  let here := t.pinned s.group.layer.val (l2Slice line)
  here.contains line || decide (here.length < t.waysOf (taskBits s.group.task 34 2 0)) ||
    (decide (here.length < 24576) && Config.wayFree s.free)

/-- Pin one line in the issuing layer's L2, or count it in PINFAIL (R246); a line that the other tower homes has
no way (R225). -/
def State.pinLine (s : State) (line : Nat) : State :=
  let g := s.group
  let t := s.tower g.tower
  if t.pins.contains (g.layer.val, line, g.job) then s
  else if dpaTower (64 * line) = g.tower ∧ s.hasWay line then
    { s.mapTower g.tower (fun t => { t with pins := t.pins ++ [(g.layer.val, line, g.job)] }) with free := s.free + 1 }
  else
    { s.mapTower g.tower (fun t =>
        let c := Table.get 0 t.csr csrPincnt
        { t with csr := Table.set 0 t.csr csrPincnt ((c.extractLsb' 16 16 + 1 : BitVec 16) ++ c.extractLsb' 0 16 : Word) }) with
      free := s.free + 1 }

/-- R246: the lines that an access table denies are not fetched, and trap ACCTBL after the others (R239, R286). Lines of
pages of MTYPE 1 are pinned as others are (log 112). -/
def execPin (f : Fields) (s : State) : Res :=
  .next (issue (.pin f) f (fun x =>
    if x.m = 0 then .done x.s
    else ends do
      let (e, o, size, x) ← x.range
      let x ← x.rangePages e o size
      let s := x.s
      let ls := s.rangeLines e o size
      let ok (p : DWord × Hit) : Bool := p.2.disc ||
        s.globalOk s.group.tower p.2.mtype s.group.job kindWave true false false p.2.dpa (p.2.dpa + 64)
      let s := match ls.find? fun p => !ok p with
        | some p => s.post (some (TrapInfo.late .acctbl p.1))
        | none => s
      .ok (.done ((ls.filter ok).foldl (fun s p => s.pinLine (p.2.dpa / 64)) s))) s)

/-- R246: clears the marks that the job holds in the issuing layer's L2, the layer in which PIN sets them (log 115). -/
def execUnpin (f : Fields) (s : State) : Res :=
  .next (issue (.unpin f) f (fun x =>
    if x.m = 0 then .done x.s
    else ends do
      let (e, o, size, x) ← x.range
      let x ← x.rangePages e o size
      let ls := (x.s.rangeLines e o size).map fun p => p.2.dpa / 64
      let g := x.s.group
      .ok (.done (x.s.mapTower g.tower fun t => { t with pins := t.pins.filter fun p =>
        !(p.1 = g.layer.val && p.2.2 = g.job && ls.contains p.2.1) }))) s)

/-! ### Translation registers and descriptions (R247-R249) -/

/-- The walk at BASE of an entry in global memory, which loading it makes (R229). -/
def Ctx.baseLink (x : Ctx) (e : BitVec 256) : Except Out Unit :=
  if hSpace e = 1 then x.walkLink [(32, BitVec.ofNat 64 (hBase e))] else .ok ()

/-- R247: HINVAL on an invalid entry; an unmapped BASE gives E = 0. -/
def execHset (f : Fields) (s : State) : Res :=
  .next (issue (.hset f) f (fun x =>
    if x.m = 0 then .done x.s
    else ends do
      x.tableRead (hOf f)
      let e := x.s.tableEntry x.s.group.job (hOf f)
      if !hValid e then .error (.trap (.at_ .hinval 0 0) x.s)
      x.baseLink e
      .ok (.done { x.s with group := x.s.group.putTr (mbits f 2 0) (x.s.makeTr (hOf f) e) })) s)

/-- R248: .E writes the table entry as stored; .T describes the handle as the TR that holds it does, and a
handle that none holds by the walk that would load it, which it does not load. -/
def execHget (f : Fields) (s : State) : Res :=
  .next (issue (.hget f) f (fun x => ends do
    let e := x.s.tableEntry x.s.group.job (hOf f)
    let tr (t : TransReg) (k : Nat) : Out :=
      .done (x.s.writeSpan f.d 8 ((if x.s.wave.jctl.getLsbD 0 then t.base else 0) + t.ext * 2 ^ 64 + k * 2 ^ 128))
    if mbits f 0 0 = 0 then
      x.tableRead (hOf f)
      .ok (.done (x.s.writeSpan f.d 8 e.toNat))
    else match x.s.group.trFind (hOf f) with
      | some (k, t) => .ok (tr t (k + 256))
      | none =>
        x.tableRead (hOf f)
        if !hValid e then .error (.trap (.at_ .hinval 0 0) x.s)
        x.baseLink e
        .ok (tr (x.s.makeTr (hOf f) e) 0)) s)

/-- The description of a translation (R249). -/
def xlatWord (priv : Bool) : Except Miss Hit → Nat
  | .error (.bad _ _) => 2 ^ 15
  | .error _ => 0
  | .ok h =>
    1 + bits h.entry 5 2 * 2 + h.mtype * 32 + (dpaTower h.dpa).val * 128 +
      (match h.lvl with | 0 => 0 | 1 => 1 | _ => 2) * 256 + (if priv then h.dpa / 2 ^ 16 * 2 ^ 16 else 0)

/-- R249 -/
def execXlat (f : Fields) (s : State) : Res :=
  .next (issue (.xlat f) f (fun x => ends do
    let ls := x.laneOffs
    let (e, x) ← x.access { spaces := [1] } 1 1 ls
    x.walkLink (ls.map fun p => (p.1, vaOf e p.2))
    let v (i : Nat) : Nat := xlatWord (x.s.wave.jctl.getLsbD 0)
      (walk x.s.mem (x.s.rootOf x.s.group.job) (vaOf e (x.off i)))
    .ok (.done ((x.s.seeWalks (ls.map fun p => vaOf e p.2)).writeWide f.d 2 x.m 13 v))) s)

end Sys2Proof.Machine
end

