-- ==== Sys2Proof/Machine/Atomics.lean ====
section
/-! DEFINITION. Atomics, fences, the memory-model status and the wait for a counter
(R310-R316, R327, R328). -/

namespace Sys2Proof.Machine

/-! ### One uniform global access -/

/-- Check and translate the one address of a uniform instruction: its VA, its DPA, and the context, in which the
access is counted (R282). A page that is missing parks the wave, with the lanes `m` as unfinished, and a denied access
traps ACCTBL with nothing done. -/
def Ctx.place (x : Ctx) (need : Need) (n align : Nat) (k : AccKind) (m : Mask := 0) : Except Out (GLane × Ctx) := do
  let (e, x) ← x.access need n align x.uniOff
  let p ← x.plan e k n x.uniOff
  match p.go with
  | g :: _ => .ok (g, { x with s := (p.records x.s).touch g.hit })
  | [] => .error (match p.missing with
    | (_, va, e) :: _ => .leave ((p.records x.s).park e va (k.use = .write) false m)
    | [] => .done (p.deny x.s))

/-- What a returning atomic, a lock, a queue or CTRADD needs (R310, R311). -/
def needAt : Need := { spaces := [1], rd := true, wr := true, at_ := true }
def accAt : AccKind := ⟨.write, true, true, true, false, kindWave⟩

/-! ### Atomics -/

/-- The value of a 32- or 64-bit pattern as a signed integer. -/
def sgn (w v : Nat) : Int := if 2 ^ (w - 1) ≤ v then (v : Int) - 2 ^ w else v

/-- The new value of an integer operation from the old one and the operand (R312). -/
def atomInt (w op o x : Nat) : Nat :=
  match op with
  | 0 => (o + x) % 2 ^ w
  | 1 => if sgn w x < sgn w o then x else o
  | 2 => min o x
  | 3 => if sgn w o < sgn w x then x else o
  | 4 => max o x
  | 5 => o &&& x
  | 6 => o ||| x
  | 7 => o ^^^ x
  | 8 => x
  | 9 => if x ≤ o then 0 else o + 1
  | _ => if o = 0 ∨ x < o then x else o - 1

/-- The new value of an F32 operation; no flag is raised (R312). -/
def atomF32 (op o x : Nat) : Nat :=
  match op with
  | 0 => (Fmt.f32.add .rne false o x).val
  | 1 => Fmt.f32.minmax false o x
  | 3 => Fmt.f32.minmax true o x
  | _ => x

/-- The new value of ATOM and RED by TY and OP. -/
def atomNew (ty op o x : Nat) : Nat :=
  match ty with
  | 0 => atomInt 32 op o x
  | 1 => atomInt 64 op o x
  | _ => atomF32 op o x

/-- Read and write a location in one step (R291, R310): the page is revived first, the read acquires and
the write releases as ordered and extends the releases that it reads (R294, R306). -/
def rmwLane (n : Nat) (acq rel : Option Scope) (new : Nat → Nat → Option Nat) (r : State × List (Nat × Nat))
    (g : GLane) : State × List (Nat × Nat) :=
  let s := (r.1.revive g.hit).touch g.hit
  let o := Mem.readNat s.mem g.hit.dpa n
  let s := s.readRel acq (locGlobal g.hit.dpa) n g.va
  let s := match new g.lane o with
    | none => s
    | some v => (s.release rel).update g.hit.dpa (Mem.bytes v n) s.group.depth false (s.relBy rel)
  (s, r.2 ++ [(g.lane, o)])

/-- The acquire and release scopes of an ordered word (R296). -/
def ordAcq (f : Fields) : Option Scope := if ordOf f = 1 ∨ ordOf f = 3 then scopeOf (ordScope f) else none
def ordRel (f : Fields) : Option Scope := if ordOf f = 2 ∨ ordOf f = 3 then scopeOf (ordScope f) else none

/-- Write a span of registers that keep their tags (R312). -/
def State.writeKeep (s : State) (o : Opnd) (regs : Nat) (m : Mask) (v : Nat → Nat) : State :=
  (List.range regs).foldl (fun s k =>
    s.write (Opnd.step o k) m .now (s.wave.tagOf (Opnd.index o + k)) (lanesFn fun i => BitVec.ofNat 32 (v i / 2 ^ (32 * k)))) s

/-- Run an atomic over its lanes, or once for an s operand: `new` gives a lane's new value from its old
one, and `ret` writes the old values to d. -/
def Ctx.atomic (x : Ctx) (need : Need) (regs : Nat) (ret : Bool) (new : Nat → Nat → Option Nat) : Out := ends do
  let f := x.f
  let n := 4 * regs
  let ls := if isS f.d then x.uniOff else x.laneOffs
  let (e, x) ← x.access need n n ls
  let p ← x.plan e ⟨.write, need.rd, true, true, false, kindWave⟩ n ls
  let s := p.deny x.s
  let s := if p.go.isEmpty then s else s.fed
  let (s, out) := p.go.foldl (rmwLane n (ordAcq f) (ordRel f) fun l => new (if l = 32 then 0 else l)) (s, [])
  let s := if !ret then s
    else if isS f.d then (if out.isEmpty then s else s.writeSpan f.d regs (laneVal out 32))
    else s.writeKeep f.d regs (maskOfList (out.map Prod.fst)) (laneVal out)
  .ok (p.out true s)

/-- R312 -/
def execAtom (f : Fields) (s : State) : Res :=
  .next (issue (.atom f) f (fun x =>
    let ty := mbits f 6 5
    let regs := if ty = 1 then 2 else 1
    x.atomic needAt regs true fun i o => some (atomNew ty (atomOp f) o (x.wide f.d regs i))) s)

/-- R313: ATOM without the write to d; of the handle it needs AT alone (R311). -/
def execRed (f : Fields) (s : State) : Res :=
  .next (issue (.red f) f (fun x =>
    let ty := mbits f 6 5
    let regs := if ty = 1 then 2 else 1
    x.atomic { spaces := [1], at_ := true } regs false fun i o => some (atomNew ty (atomOp f) o (x.wide f.d regs i))) s)

/-- R314: the location takes a where it equals d bit for bit. -/
def execCas (f : Fields) (s : State) : Res :=
  .next (issue (.cas f) f (fun x =>
    let regs := if mbits f 5 5 = 1 then 2 else 1
    x.atomic needAt regs true fun i o => if o = x.wide f.d regs i then some (x.wide f.a regs i) else none) s)

/-! ### Fences (R316, R297) -/

/-- A releasing fence: later writes are releases at its scope, and the group's open sectors close (R306). -/
def State.fenceRelease (s : State) (sc : Scope) : State :=
  let s := s.release (some sc)
  { s with wave := { s.wave with fenceRel := some (widerScope s.wave.fenceRel sc) } }

/-- The earlier reads that found a release which an acquire at a scope does not reach, judged where each read was made
(R288, R297). -/
def State.badReads (s : State) (sc : Scope) : List OldRead :=
  s.wave.relReads.filter fun r => !r.rels.all (s.syncs sc r.place)

/-- An acquiring fence: each earlier read acquires at its scope, and each that fails is a mismatch (R297, R303, log 86). -/
def State.fenceAcquire (s : State) (sc : Scope) : State :=
  (s.badReads sc).foldl (fun s r => s.mismatch r.addr) s

/-- R316: `ordAcq` and `ordRel` say which halves the fence has. -/
def execFence (f : Fields) (s : State) : Res :=
  .next (issue (.fence f) f (fun x =>
    let s := match ordRel f with | some sc => x.s.fenceRelease sc | none => x.s
    let s := match ordAcq f with | some sc => s.fenceAcquire sc | none => s
    .done s) s)

/-! ### Memory-model status (R328, Table 11.4) -/

/-- The wave's status word. -/
def State.mmWord (s : State) : Word :=
  BitVec.ofNat 32 (packBits [(0, 1, if s.wave.mmScope then 1 else 0), (1, 1, if s.wave.openLost then 1 else 0),
    (2, 1, if s.checked then 1 else 0), (16, 16, s.wave.mismatch.toNat)])

/-- R328: .CLR clears SCOPE, OPENLOST and MISMATCH in the step that reads them. -/
def execMmstat (f : Fields) (s : State) : Res :=
  .next (issue (.mmstat f) f (fun x =>
    let v := x.s.mmWord
    let s := if f.mod.getLsbD 0 then
        { x.s with wave := { x.s.wave with mmScope := false, openLost := false, mismatch := 0 } } else x.s
    .done (s.writeS f.d .now v)) s)

/-! ### Waiting for a counter (R327) -/

/-- A counter's value at a DPA (R17). -/
def State.counterAt (s : State) (dpa : Nat) : Int := (Mem.read64 s.mem dpa).toInt

/-- The groups of the focus group's unit are to be swapped out together (R123, R327): their waves start no new run. -/
def State.wantSwap (s : State) : State :=
  let n := s.group.unit
  let f (g : Group) : Group := if g.unit = n && !g.ended then { g with swapWant := true } else g
  { s with group := { s.group with swapWant := true }, groups := s.groups.map f }

/-- R327: a false condition waits outside the run; with .SWAP it makes the unit swapped. -/
def execCtrwait (f : Fields) (s : State) : Res :=
  .next (issue (.ctrwait f) f (fun x => ends do
    let sc := if mbits f 2 0 = 0 then none else scopeOf (mbits f 2 0)
    let thr : Int := (x.uni64 f.a).toInt
    let (g, x) ← x.place { spaces := [1], rd := true } 8 8 ⟨.revive, true, false, true, false, kindWave⟩
    let s := x.s.revive g.hit
    let c : Int := (BitVec.ofNat 64 (Mem.number (s.load g.hit 8))).toInt
    if c ≤ thr then .ok (.done (s.readHit sc g.hit 8 g.va))
    else
      let swap := f.mod.getLsbD 3
      let s := { s with wave := { s.wave with wait := .counter g.hit.dpa g.va thr sc swap },
                        ctrHits := s.ctrHits.filter (· ≠ s.wave.key) }
      .ok (.done (if swap then s.wantSwap else s))) s)

end Sys2Proof.Machine
end

