-- ==== Sys2Proof/Machine/Barrier.lean ====
section
/-! DEFINITION. Barriers in local memory: arrivals and waits (R317-R319). -/

namespace Sys2Proof.Machine

/-- The local offset of the barrier word, checked (R317): ALIGN, then LOCALOOB. -/
def Ctx.barWord (x : Ctx) : Except Out Nat :=
  let o := x.off 0
  if o % 8 ≠ 0 then .error (.trap (.at_ .align (BitVec.ofInt 64 o) 0) x.s)
  else if o < 0 ∨ (x.s.group.localSize : Int) < o + 8 then
    .error (.trap (.at_ .localoob (BitVec.ofInt 64 o) 0) x.s)
  else .ok o.toNat

/-- Does lane i contribute, as a predicate or as a value? -/
def Ctx.contribOn (x : Ctx) (i : Nat) : Bool :=
  match x.f.a with
  | .p n => laneOn (x.w.pred n) i
  | o => decide (laneAt (x.lanes o) i ≠ 0)

/-- The payload operation of a POP, with its identity (R318). -/
def popOp (p : Nat) : Word × (Word → Word → Word) :=
  match p with
  | 1 => (0xFFFFFFFF, (· &&& ·))
  | 2 => (0, (· ||| ·))
  | 3 => (0, (· + ·))
  | 4 => (0, (· + ·))
  | _ => (0, fun a _ => a)

/-- The wave's contribution over the lanes of `em` (R318). -/
def Ctx.contribution (x : Ctx) (p : Nat) : Word :=
  (lanesOf x.s.wave.em).foldl (fun c i =>
    (popOp p).2 c (if p = 4 then (if x.contribOn i then 1 else 0) else laneAt (x.lanes x.f.a) i)) (popOp p).1

/-- The scope of the arrivals of a group: .CL in a gang, else .GP (R319). -/
def Group.barScope (g : Group) : Scope := if g.gang then .cl else .gp

/-- Deliver a completed result to a wave that waits on it (R319). -/
def Wave.barWake (w : Wave) (acc : Word) : Wave :=
  match w.wait with
  | .barrier _ d => { (w.give d w.em 2 (splat acc)).unwait with arrival := .none }
  | _ => w

/-- Complete the records pending at an offset in the waves of a unit. -/
def State.barComplete (s : State) (unit o : Nat) (acc : Word) : State :=
  let f (w : Wave) : Wave :=
    if (s.groupOf w).unit = unit ∧ w.arrival = .pending o then { w with arrival := .complete o acc }.barWake acc else w
  { s with wave := f s.wave, waves := s.waves.map f }

/-- An arrival (R318); none is BARBAD. -/
def Ctx.arrive (x : Ctx) (o p : Nat) : Option State :=
  let s := x.s
  let u := s.group.unit
  let w := Mem.readNat (s.localMem u) o 8
  let ex := w % 2 ^ 16
  let arr := w / 2 ^ 16 % 2 ^ 16
  let pend : Bool := match s.wave.arrival with | .pending _ => true | _ => false
  if pend = true ∨ ex = 0 ∨ ex ≤ arr then none
  else
    let acc0 : Word := if arr = 0 then (popOp p).1 else BitVec.ofNat 32 (w / 2 ^ 32)
    let acc := if p = 0 then acc0 else (popOp p).2 acc0 (x.contribution p)
    let arr' := if arr + 1 = ex then 0 else arr + 1
    let s := s.release (some s.group.barScope)
    let s := s.localStore o (Mem.bytes (ex + arr' * 2 ^ 16 + acc.toNat * 2 ^ 32) 8) (s.relBy (some s.group.barScope))
    let s := { s with wave := { s.wave with arrival := .pending o, wait := .none } }
    some (if arr' = 0 then s.barComplete u o acc else s)

/-- Wait on the arrival record for an offset (R319); none is BARBAD. -/
def State.barWait (s : State) (o : Nat) (d : Opnd) : Option State :=
  match s.wave.arrival with
  | .pending o' => if o' = o then some { s with wave := { s.wave with wait := .barrier o d } } else none
  | .complete o' acc =>
    if o' = o then some { s.write d s.wave.em .now 2 (splat acc) with
        wave := { (s.write d s.wave.em .now 2 (splat acc)).wave with arrival := .none } }
    else none
  | .none => none

/-- End with a state, or trap BARBAD at the offset with nothing changed. -/
def Ctx.barOut (x : Ctx) (o : Nat) (r : Option State) : Out :=
  match r with
  | some s => .done s
  | none => .trap (.at_ .barbad (BitVec.ofNat 64 o) 0) x.s

/-- R319: the arrival, then the wait on it. -/
def execBar (f : Fields) (s : State) : Res :=
  .next (issue (.bar f) f (fun x => ends do
    let o ← x.barWord
    .ok (x.barOut o ((x.arrive o (mbits f 2 0)).bind fun s => s.barWait o f.d))) s)
/-- R319 -/
def execBararv (f : Fields) (s : State) : Res :=
  .next (issue (.bararv f) f (fun x => ends do
    let o ← x.barWord
    .ok (x.barOut o (x.arrive o (mbits f 2 0)))) s)
/-- R319 -/
def execBarwt (f : Fields) (s : State) : Res :=
  .next (issue (.barwt f) f (fun x => ends do
    let o ← x.barWord
    .ok (x.barOut o (x.s.barWait o f.d))) s)

end Sys2Proof.Machine
end

