-- ==== Sys2Proof/Machine/Queue.lean ====
section
/-! DEFINITION. Queue locks and hardware queues (R320-R324, R422). -/

namespace Sys2Proof.Machine

/-! ### Queue locks (R321) -/

/-- The scope of a word whose SCOPE stands alone in mod[2:0]; code 0 is .RLX (R311). -/
def scopeLow (f : Fields) : Option Scope := if mbits f 2 0 = 0 then none else scopeOf (mbits f 2 0)

/-- A trap that was posted to a wave at a run end is taken there. -/
def State.settle (s : State) : State :=
  match s.wave.pendTrap with
  | some t => if s.wave.inRun then s else s.takeTrap t (s.wave.pc - 12) s.wave.pc s.wave.await
  | none => s

/-- R321: a free lock is taken at once, and a held one puts the wave to sleep at the list's tail. -/
def execQlock (f : Fields) (s : State) : Res :=
  .next (issue (.qlock f) f (fun x => ends do
    let (g, x) ← x.place needAt 16 16 accAt
    let d := g.hit.dpa
    let s := (x.s.revive g.hit).fed
    let own := s.wave.tag.toNat
    let holder := s.read32 d
    if holder = own then .error (.trap (.at_ .qlockbad g.va 0) x.s)
    else if holder = 0 then
      .ok (.done ((s.readRel (scopeLow f) (locGlobal d) 4 g.va).update d (Mem.bytes own 4) s.group.depth false (s.relBy none)))
    else
      let s := s.joinList .lock d s.group.depth s.wave
      .ok (.done { s with wave := { s.wave with wait := .lock d g.va (scopeLow f) } })) s)

/-- The hand-over of a lock to the oldest waiter (R321). -/
def State.handOver (s : State) (d depth : Nat) : State :=
  let h := s.read32 (d + 8)
  if h = 0 then s.put32 d 0 depth
  else match s.waiter .lock d h with
    | none =>
      let s := (s.endList .lock d depth).put32 d 0 depth
      s.report s.group.tower { s.waveRec .qlockbad 0 s.wave.pairStart with }
    | some w =>
      let s := (s.leaveList .lock d depth w).put32 d h depth
      let (va, sc) := match w.wait with | .lock _ va sc => (va, sc) | _ => (0, none)
      s.as w.key fun s =>
        ({ s with wave := s.wave.unwait }.readRel sc (locGlobal d) 4 va).settle

/-- R321: only the holder may release; the release travels with the lock. -/
def execQunlock (f : Fields) (s : State) : Res :=
  .next (issue (.qunlock f) f (fun x => ends do
    let (g, x) ← x.place needAt 16 16 accAt
    let d := g.hit.dpa
    let s := x.s.revive g.hit
    if s.read32 d ≠ s.wave.tag.toNat then .error (.trap (.at_ .qlockbad g.va 0) x.s)
    else
      let s := (s.release (scopeLow f)).fed
      let s := s.setRel (locGlobal d) 4 (s.relBy (scopeLow f))
      .ok (.done (s.handOver d s.group.depth))) s)

/-! ### Hardware queues (R322, R323) -/

/-- A request: its wave, or none for the one that is being made; its size; the items it pushes. -/
structure QReq where
  key : Option WaveKey
  push : Bool
  n : Nat
  items : List DWord
  depth : Nat
  /-- parked on a ring slot: it keeps its place and is not served (R323) -/
  stop : Bool := false
  /-- made by a hardware agent, which reads a poisoned slot as it stands (R375, log 91) -/
  hw : Bool := false
  /-- the release that a push makes when it is served, and the group whose open-write list that closes (R306, R323) -/
  rel : List RelInfo := []
  closes : Option GroupKey := none

/-- The lanes of a request's operand: 0 alone for an s pair (R323). -/
def qLanes (d : Opnd) (m : Mask) : List Nat := if isS d then [0] else lanesOf m

/-- The request of a waiting wave. -/
def State.reqOf (s : State) (w : Wave) : QReq :=
  match w.wait with
  | .queue _ _ push m d items sc st =>
    { key := some w.key, push := push, n := (qLanes d m).length, items := items, depth := (s.groupOf w).depth, stop := st.isSome
      rel := if push then relOf w (s.groupOf w) sc else [], closes := if push then closesAt sc (s.groupOf w).key else none }
  | _ => { key := some w.key, push := false, n := 0, items := [], depth := 0 }

/-- The waves of a list from a tag on; a link that names no waiting wave ends it (R322). -/
def State.waitersFrom (s : State) (l : WaitList) (d : Nat) : Nat → Nat → List Wave
  | 0, _ => []
  | n + 1, t => match (if t = 0 then none else s.waiter l d t) with
    | none => []
    | some w => w :: State.waitersFrom s l d n w.link.toNat

/-- The requests of a list, oldest first. -/
def State.requests (s : State) (l : WaitList) (d : Nat) : List QReq :=
  (s.waitersFrom l d s.allWaves.length (s.read32 (d + l.head))).map s.reqOf

/-- A step of the unit under way: what HEAD and COUNT become, who still waits, the items pushed in this
step by ring slot with their pushers, and the requests served with the slots or items they took. -/
structure QRun where
  head : Nat
  count : Nat
  pops : List QReq
  pushes : List QReq
  fresh : List (Nat × DWord × QReq)
  done : List (QReq × List (Nat × Option (DWord × List RelInfo)))

/-- Serve the lists until neither rule applies (R323). -/
def QRun.serve (cap : Nat) : Nat → QRun → QRun
  | 0, q => q
  | k + 1, q =>
    let push (q : QRun) : QRun := match q.pushes with
      | [] => q
      | r :: rs =>
        if !r.stop && decide (r.n ≤ cap - q.count) then
          QRun.serve cap k { q with
            pushes := rs, count := q.count + r.n, done := q.done ++ [(r, [])],
            fresh := q.fresh ++ (r.items.zipIdx.map fun (v, j) => ((q.head + q.count + j) % cap, v, r)) }
        else q
    match q.pops with
    | [] => push q
    | r :: rs =>
      if !r.stop && decide (r.n ≤ q.count) then
        let slots := (List.range r.n).map fun j => (q.head + j) % cap
        let got := slots.map fun k => (k, (q.fresh.find? fun e => e.1 = k).map fun e => (e.2.1, e.2.2.rel))
        QRun.serve cap k { q with
          pops := rs, head := (q.head + r.n) % cap, count := q.count - r.n, done := q.done ++ [(r, got)],
          fresh := q.fresh.filter fun e => !slots.contains e.1 }
      else push q

/-- Where a queue's ring lies: a job's space, seen from the tower of the home slice, or physical addresses (R422). -/
structure QHome where
  job : Nat
  tower : TowerId
  raw : Bool

/-- Why a ring slot cannot be used (R323). -/
inductive QFault where
  | miss (m : Miss) (va : DWord) (write : Bool)
  | atomsp (va : DWord)
  /-- an item to be popped is poisoned (R375) -/
  | ecc (code : Nat) (va : DWord)
  /-- it is reached over the link, which retrains: the step waits (R284) -/
  | hold
  deriving DecidableEq, Repr

/-- Translate a ring slot. -/
def State.qSlot (s : State) (h : QHome) (write : Bool) (va : DWord) : Except QFault Hit :=
  if h.raw then
    if !dpaOk va.toNat then .error (.miss (.bad 5 0) va write)
    else if dpaTower va.toNat ≠ h.tower ∧ s.link.down then .error (.miss .link va write)
    else if dpaTower va.toNat ≠ h.tower ∧ s.link.retraining then .error .hold
    else .ok ⟨0, 0, 1, va.toNat⟩
  else if s.link.retraining && s.walkFar h.job h.tower va then .error .hold
  else match s.translate h.job h.tower (if write then .write else .read) va with
    | .error m => .error (.miss m va write)
    | .ok p =>
      if p.mtype = 1 then .error (.atomsp va)
      else if s.link.retraining ∧ dpaTower p.dpa ≠ h.tower ∧ (write ∨ !p.disc) then .error .hold
      else .ok p

/-- The address of ring slot k. -/
def State.qAddr (s : State) (d k : Nat) : DWord := Mem.read64 s.mem d + BitVec.ofNat 64 (8 * k)

/-- The first slot that faults, with the request that needs it. -/
def State.qCheck (s : State) (h : QHome) (d : Nat) (q : QRun) : Option (QReq × QFault) :=
  let slot (r : QReq) (write : Bool) (k : Nat) : Option (QReq × QFault) :=
    match s.qSlot h write (s.qAddr d k) with
    | .error e => some (r, e)
    | .ok p => if write || r.hw || p.disc then none else (s.poisoned p.dpa 8).map fun c => (r, .ecc c (s.qAddr d k))
  (q.done.findSome? fun (r, l) => l.findSome? fun (k, v) => if v.isNone then slot r false k else none).or
    (q.fresh.findSome? fun (k, _, r) => slot r true k)

/-- The unfinished lanes of a request, for its record: those of a v pair's mask (R310, R357). -/
def qMask (d : Opnd) (m : Mask) : Mask := if isS d then 0 else m

/-- A waiting request parks in its place in the list, with its record (R323, R360). -/
def Wave.stopQueue (w : Wave) (c : Cause) (va : DWord) : Wave :=
  match w.wait with
  | .queue d a push m o is sc _ => { w with wait := .queue d a push m o is sc (some (c, va)), parkedMask := 0 }
  | _ => w

/-- A fault of a waiting request, at its wave's instruction: a missing page parks it in its place, and any other
trap takes it from its list (R323), which ends its wait (R376). -/
def State.qFaulted (s : State) (d : Nat) (r : QReq) (k : WaveKey) (e : QFault) : State :=
  let park (m : Miss) (va : DWord) (wr : Bool) : State :=
    s.as k fun s =>
      let lanes := match s.wave.wait with | .queue _ _ _ em o _ _ _ => qMask o em | _ => 0
      let s := s.parkRec m (s.wave.pc - 12) va wr false lanes
      { s with wave := s.wave.stopQueue m.cause va }
  match s.findWave k, e with
  | none, _ => s
  | some _, .miss .np va wr => park .np va wr
  | some _, .miss .prot va wr => park .prot va wr
  | some w, e =>
    let s := s.leaveList (if r.push then .pushes else .pops) d r.depth w
    s.as k fun s =>
      let w := s.wave
      let own := w.pend.filter fun p => match w.wait with
        | .queue _ _ false _ o _ _ _ => p.wr && p.reg = Opnd.index o
        | _ => false
      let toks := own.foldl (fun (t : BitVec 6) p => t &&& ~~~(1#6 <<< p.tok)) w.tokens
      let s : State := { s with wave := { w.unwait with
        pc := w.pc - 12, tokens := toks, pend := w.pend.filter fun p => !own.contains p } }
      match e with
      | .miss m va _ => s.takeTrap (m.trap va 0) s.wave.pc s.wave.pc w.await
      | .atomsp va => s.takeTrap (.at_ .atomsp va 0) s.wave.pc s.wave.pc w.await
      | .ecc c va => s.takeTrap (eccTrap c va 0) s.wave.pc s.wave.pc w.await
      | .hold => s

/-- Give a popped list of items to an operand, lanes ascending, tagged I64 (R323). -/
def itemLanes (d : Opnd) (m : Mask) (items : List DWord) (hi : Bool) : Lanes :=
  lanesFn fun i =>
    let v : DWord := (((qLanes d m).zip items).find? fun p => p.1 = i).map Prod.snd |>.getD 0
    if hi then (v >>> 32).setWidth 32 else v.setWidth 32

/-- What a popped item brings: its value, and the releases that its push made (R323). -/
abbrev QItem := DWord × List RelInfo
/-- The releases of the items that one pop takes. -/
def itemRels (l : List QItem) : List RelInfo := (l.flatMap Prod.snd).eraseDups

/-- Wake a wave whose waiting request was served; a pop acquires what its items bring (R303, R323). -/
def State.qWake (s : State) (k : WaveKey) (items : List QItem) : State :=
  s.as k fun s =>
    match s.wave.wait with
    | .queue _ va false m o _ sc _ =>
      let l := items.map Prod.fst
      let w := (s.wave.give o m 13 (itemLanes o m l false)).give (Opnd.step o 1) m 13 (itemLanes o m l true)
      ({ s with wave := w.unwait }.gotRel sc (itemRels items) va).settle
    | _ => { s with wave := s.wave.unwait }

/-- The unit reaches a ring slot: its walk, and an access from the descriptor's home (R282, R375). -/
def State.qTouch (s : State) (h : QHome) (d k : Nat) (p : Hit) : State :=
  if h.raw then s else (s.walkEcc h.job h.tower (s.qAddr d k)).touchFrom h.tower p

/-- What a pop takes from a slot: an item of this step, or the slot's. -/
def State.qItem (s : State) (h : QHome) (d : Nat) : Nat × Option QItem → QItem
  | (_, some v) => v
  | (k, none) => match s.qSlot h false (s.qAddr d k) with
    | .ok p => (BitVec.ofNat 64 (Mem.number (s.load p 8)), if p.disc then [] else s.relsOf (locGlobal p.dpa) 8)
    | .error _ => (0, [])

/-- Perform a step whose slots are all usable: each push releases (R306), ring slots that keep an item are written,
HEAD and COUNT advance, and every waiting wave that was served wakes. Answers what the request being made received. -/
def State.qCommit (s : State) (h : QHome) (d : Nat) (q : QRun) : State × Option (List QItem) :=
  let vals := q.done.map fun (r, l) => (r, l.map (s.qItem h d))
  let slot (write : Bool) (k : Nat) : Option (Nat × Hit) := match s.qSlot h write (s.qAddr d k) with
    | .ok p => some (k, p)
    | .error _ => none
  let reads := (q.done.flatMap fun (_, l) => l.filterMap fun (k, v) => if v.isNone then some k else none).filterMap (slot false)
  let places := q.fresh.filterMap fun (k, v, r) => (slot true k).map fun (_, p) => (k, p, v, r)
  let s := (q.done.filterMap fun (r, _) => r.closes).foldl State.closeOpens s
  let s := reads.foldl (fun s (k, p) => s.qTouch h d k p) s
  let s := places.foldl (fun s (k, p, v, r) =>
    ((s.qTouch h d k p).revive p).store p.dpa (Mem.bytes v.toNat 8) r.depth false r.rel) s
  let s := if s.read32 (d + 16) = q.head then s else s.put32 (d + 16) q.head 0
  let rels := (q.done.flatMap fun (r, _) => r.rel).eraseDups
  let s := if s.read32 (d + 20) = q.count then s
    else s.update (d + 20) (Mem.bytes q.count 4) 0 false rels
  let s := vals.foldl (fun s (r, l) => match r.key.bind s.findWave with
    | none => s
    | some w => (s.leaveList (if r.push then .pushes else .pops) d r.depth w).qWake w.key l) s
  (s, (vals.find? fun p => p.1.key.isNone).map Prod.snd)

/-- What became of the request being made. -/
inductive QRes where
  | served (items : List QItem)
  | waits
  /-- the step needs the link, which retrains (R284) -/
  | held
  | faulted (e : QFault)

/-- One service of the unit at a descriptor, with a request being made at the tail of its list. -/
def State.serveQ (h : QHome) (d : Nat) (extra : Option QReq) : Nat → State → State × QRes
  | 0, s => (s, .waits)
  | n + 1, s =>
    let cap := s.read32 (d + 8)
    if cap = 0 ∨ s.read32 (d + 12) ≠ 0 then (s, .waits)
    else
      let pops := s.requests .pops d ++ (extra.filter fun r => !r.push).toList
      let pushes := s.requests .pushes d ++ (extra.filter QReq.push).toList
      let q := QRun.serve cap (pops.length + pushes.length) ⟨s.read32 (d + 16), s.read32 (d + 20), pops, pushes, [], []⟩
      match s.qCheck h d q with
      | some (r, e) => match e, r.key with
        | .hold, _ => (s, .held)
        | _, none => (s, .faulted e)
        | _, some k => State.serveQ h d extra n (s.qFaulted d r k e)
      | none =>
        let (s, got) := s.qCommit h d q
        (s, match got with | some l => .served l | none => .waits)

/-- A list whose head names no waiting wave has ended (R322). -/
def State.trimLists (s : State) (d depth : Nat) : State :=
  let trim (s : State) (l : WaitList) : State :=
    if s.read32 (d + l.head) ≠ 0 ∧ (s.waiter l d (s.read32 (d + l.head))).isNone then s.endList l d depth else s
  trim (trim s .pops) .pushes

/-- The unit serves every descriptor on which waves wait. -/
def State.serveWaiting (s : State) : State :=
  let ds := (s.allWaves.filterMap fun w => match w.wait with
    | .queue d _ _ _ _ _ _ _ => if w.alive then some (w.job, d) else none
    | _ => none).eraseDups
  ds.foldl (fun s (job, d) => (s.serveQ ⟨job, dpaTower d, false⟩ d none s.allWaves.length.succ).1) s

/-- The request of an instruction on its operand d, at a scope (R323). -/
def Ctx.qReq (x : Ctx) (push : Bool) (sc : Option Scope) : QReq :=
  let ls := qLanes x.f.d x.s.wave.em
  { key := none, push := push, n := ls.length, items := if push then ls.map fun i => x.lane64 x.f.d i else [],
    depth := x.s.group.depth, rel := if push then x.s.relBy sc else []
    closes := if push then closesAt sc x.s.group.key else none }

/-- Find the descriptor of a queue instruction and check it (R322): HINVAL, then QOVF unless `lax`. -/
def Ctx.qDesc (x : Ctx) (k : Nat) (lax : Bool) : Except Out (GLane × Ctx) := do
  let (g, x) ← x.place needAt 64 64 accAt (qMask x.f.d x.s.wave.em)
  let s := x.s.revive g.hit
  let d := g.hit.dpa
  if s.read32 (d + 8) = 0 ∨ s.read32 (d + 12) ≠ 0 then
    .error (.trap (.at_ .hinval (BitVec.ofInt 64 (x.off 0)) 0) x.s)
  else if !lax && decide (s.read32 (d + 8) < k) then .error (.trap (.at_ .qovf g.va 0) x.s)
  else .ok (g, { x with s := s.trimLists d s.group.depth })

/-- The home of a descriptor used by the wave. -/
def State.qHome (s : State) (d : Nat) : QHome := ⟨s.group.job, dpaTower d, false⟩

/-- Write a popped request's items to d and acquire what they bring, as one acquire (R303, R323). -/
def State.qTake (s : State) (g : GLane) (d : Opnd) (sc : Option Scope) (items : List QItem) : State :=
  let m := s.wave.em
  let l := items.map Prod.fst
  ((s.write d m .now 13 (itemLanes d m l false)).write (Opnd.step d 1) m .now 13 (itemLanes d m l true)).gotRel
    sc (itemRels items) g.va

/-- The end of a request whose ring slot faults (R323). -/
def Ctx.qFail (x : Ctx) (s : State) (e : QFault) : Out :=
  match e with
  | .miss .np va wr => .leave (s.park .np va wr false (qMask x.f.d x.s.wave.em))
  | .miss .prot va wr => .leave (s.park .prot va wr false (qMask x.f.d x.s.wave.em))
  | .miss m va _ => .trap (m.trap va 0) x.s
  | .atomsp va => .trap (.at_ .atomsp va 0) x.s
  | .ecc c va => .trap (eccTrap c va 0) x.s
  | .hold => .stall x.s

/-- QPUSH and QPOP (R323). -/
def Ctx.queueOp (x : Ctx) (push : Bool) : Out := ends do
  let sc := scopeLow x.f
  let r := x.qReq push sc
  if r.n = 0 then .ok (.done x.s)
  else
    let (g, x) ← x.qDesc r.n false
    let d := g.hit.dpa
    let join (s : State) (stop : Option (Cause × DWord)) : Out :=
      let s := s.joinList (if push then .pushes else .pops) d r.depth s.wave
      .done { s with wave := { s.wave with wait := .queue d g.va push s.wave.em x.f.d r.items sc stop } }
    let s := x.s.fed
    let m := qMask x.f.d s.wave.em
    match s.serveQ (s.qHome d) d (some r) s.allWaves.length.succ with
    | (s, .served l) => .ok (.done (if push then s else s.qTake g x.f.d sc l))
    | (s, .faulted (.miss .np va wr)) => .ok (join (s.parkRec .np s.wave.pc va wr false m) (some (.pagenp, va)))
    | (s, .faulted (.miss .prot va wr)) => .ok (join (s.parkRec .prot s.wave.pc va wr false m) (some (.pageprot, va)))
    | (s, .faulted e) => .ok (x.qFail s e)
    | (_, .held) => .ok (.stall x.s)
    | (s, .waits) => .ok (join s none)

/-- R323 -/
def execQpush (f : Fields) (s : State) : Res := .next (issue (.qpush f) f (fun x => x.queueOp true) s)
/-- R323 -/
def execQpop (f : Fields) (s : State) : Res := .next (issue (.qpop f) f (fun x => x.queueOp false) s)

/-- R324: it succeeds only when its direction has no waiter and the whole request is served at once. -/
def execQtry (f : Fields) (s : State) : Res :=
  .next (issue (.qtry f) f (fun x => ends do
    let push := f.mod.getLsbD 0
    let sc := if mbits f 3 1 = 0 then none else scopeOf (mbits f 3 1)
    let r := x.qReq push sc
    let m : Mask := if isS f.d then 0xFFFFFFFF else x.s.wave.em
    if r.n = 0 then .ok (.done x.s)
    else
    let (g, x) ← x.qDesc r.n true
    let d := g.hit.dpa
    let s := x.s.fed
    let fail : Out := .done (s.writePred f.a m .now 0)
    if s.read32 (d + 8) < r.n ∨ !(s.requests (if push then .pushes else .pops) d).isEmpty then .ok fail
    else match s.serveQ (s.qHome d) d (some r) s.allWaves.length.succ with
      | (t, .served l) => .ok (.done ((if push then t else t.qTake g f.d sc l).writePred f.a m .now 0xFFFFFFFF))
      | (t, .faulted e) => .ok (x.qFail t e)
      | (_, .held) => .ok (.stall x.s)
      | (_, .waits) => .ok fail) s)

/-! ### Pushes and pops of the hardware (R422) -/

/-- A request of a hardware agent on the descriptor at a DPA, whose push makes a release; none when it is not
served. -/
def State.hwQueue (s : State) (h : QHome) (d : Nat) (push : Bool) (rel : List RelInfo) (n : Nat) (items : List DWord) : Option (State × List DWord) :=
  let s := (s.hwEcc h.job h.tower (BitVec.ofNat 64 d) d 64).trimLists d 0
  if s.read32 (d + 8) = 0 ∨ s.read32 (d + 12) ≠ 0 ∨ !(s.requests (if push then .pushes else .pops) d).isEmpty then none
  else
    let s := if push then s else match s.qSlot h false (s.qAddr d (s.read32 (d + 16))) with
      | .ok p => s.hwEcc h.job h.tower (s.qAddr d (s.read32 (d + 16))) p.dpa 8
      | .error _ => s
    match s.serveQ h d (some { key := none, push := push, n := n, items := items, depth := 0, hw := true, rel := rel }) s.allWaves.length.succ with
    | (s, .served l) => some (s, l.map Prod.fst)
    | _ => none

end Sys2Proof.Machine
end

