-- ==== Sys2Proof/Machine/System.lean ====
section
/-! DEFINITION. The system instructions of chapter 14 but the register accesses, and the two prefixes
(R363-R369, R82-R84). -/

namespace Sys2Proof.Machine

/-! ### Traps and the return from one (R364, R365) -/

/-- A trap of way A with the code of the word as its address. -/
def Ctx.codeTrap (x : Ctx) (c : Cause) : Out :=
  .done (x.s.post (some (.late c (BitVec.ofNat 64 (immOf x.f)))))

/-- R364 -/
def execTrap (f : Fields) (s : State) : Res := .next (issue (.trap f) f (fun x => x.codeTrap .trapi) s)
/-- R364 -/
def execBrkpt (f : Fields) (s : State) : Res := .next (issue (.brkpt f) f (fun x => x.codeTrap .brkpt) s)

/-- R365 -/
def execEret (f : Fields) (s : State) : Res :=
  .next (issue (.eret f) f (fun x =>
    let w := x.s.wave
    if !w.inh then .trap (.plain .illfmt) x.s
    else if w.tepc.toNat % 4 ≠ 0 then .trap (.at_ .align w.tepc 0) x.s
    else .done { x.s with wave := { w with em := w.tem &&& w.live, inh := false, npc := w.tepc } }) s)

/-! ### Prefixes (R82-R84) -/

/-- R82: the upper half for the word to come. -/
def execXimm (f : Fields) (s : State) : Res :=
  .next (issue (.ximm f) f (fun x =>
    let w := x.s.wave
    .done { x.s with wave := { w with pfx := { w.pfx with start := some w.pairStart, ximm := some (w.pc, f.ext) } } }) s)
/-- R83: the word to come reads its sources whatever their tags. -/
def execXfmt (f : Fields) (s : State) : Res :=
  .next (issue (.xfmt f) f (fun x =>
    let w := x.s.wave
    .done { x.s with wave := { w with pfx := { w.pfx with start := some w.pairStart, xfmt := some w.pc } } }) s)

/-! ### Translation (R367, R368) -/

/-- The held uses of some jobs are tried again at once (R423). -/
def retryNow (p : Nat → Bool) (l : List HeldUse) : List HeldUse := l.map fun h => if p h.job then { h with due := 0 } else h
def State.retryJob (s : State) (job : Nat) : State := { s with held := retryNow (· == job) s.held }

/-- R367: one step at the home slice, and a release at .DV of every earlier write. -/
def execPagemap (f : Fields) (s : State) : Res :=
  .next (issue (.pagemap f) f (fun x =>
    let s := x.s
    let p := x.uni64 f.b
    let d := p.toNat
    if d % 8 ≠ 0 then .trap (.at_ .align p 0) s
    else if !dpaOk d then .trap (.at_ .hinval p 0) s
    else if s.link.down ∧ dpaTower d ≠ s.group.tower then .trap (.at_ .linkfail p 0) s
    else if s.link.retraining ∧ dpaTower d ≠ s.group.tower then .stall s
    else if let some c := s.poisoned d 8 then .trap (eccTrap c p 0) s
    else if !s.globalOk s.group.tower 0 s.group.job kindWave true true true d (d + 8) then
      .done (s.post (some (.late .acctbl p)))
    else
      let s := ((s.release (some .dv)).fed).retryJob s.group.job
      let o := Mem.read64 s.mem d
      let s := if !f.mod.getLsbD 0 || decide (o = x.uni64 f.d) then
          s.store d (Mem.bytes (x.uni64 f.a).toNat 8) s.group.depth false (s.relBy (some .dv)) else s
      .done (s.writeS64 f.d .now o)) s)

/-- The bytes of the page that now maps a VA in a job's space: 64 KiB where nothing maps it. -/
def State.pageOf (s : State) (job va : Nat) : Nat × Nat :=
  let size := match walk s.mem (s.rootOf job) (BitVec.ofNat 64 va) with
    | .ok h => pageSize h.lvl
    | .error _ => 2 ^ 16
  (va / size * size, size)

/-- Clear the TRs of a job's groups, or of every group, whose extent covers an invalidated page, or all of them: a page
that held or now holds the VA, of any size (R229, R368). The job's held uses are tried again (R423). -/
def State.tlbInv (s : State) (job : Option Nat) (page : Option (Nat × Nat × Nat)) : State :=
  let hit (t : TransReg) : Bool := match page with
    | none => true
    | some (va, lo, n) => t.pages.any fun p => decide (p.1 ≤ va ∧ va < p.1 + p.2 ∨ p.1 < lo + n ∧ lo < p.1 + p.2)
  let f (g : Group) : Group := if job.isNone || job = some g.job then { g with trs := g.trs.filter fun e => !hit e.2 } else g
  { s with group := f s.group, groups := s.groups.map f, held := retryNow (fun j => job.isNone || job = some j) s.held }

/-- The job that a[11:0] names, or the issuing job for `nil` (R368, R369). -/
def Ctx.jobArg (x : Ctx) : Nat := if isNil x.f.a then x.s.group.job else bits (x.uni x.f.a) 11 0

/-- R368: the wave's next run waits for the end of the shoot-down. -/
def execTlbinv (f : Fields) (s : State) : Res :=
  .next (issue (.tlbinv f) f (fun x =>
    let s := match mbits f 1 0 with
      | 0 => x.s.tlbInv (some x.jobArg) (some ((x.uni64 f.b).toNat, x.s.pageOf x.jobArg (x.uni64 f.b).toNat))
      | 1 => x.s.tlbInv (some x.jobArg) none
      | _ => x.s.tlbInv none none
    .done { s with wave := { s.wave with wait := .shootdown } }) s)

/-! ### Waking waves (R369) -/

/-- The live wave of a job with a tag (R369); one that has ended is named while a command or a SCAN of it is parked (log 37). -/
def State.tagged (s : State) (job : Nat) (tag : Word) : Option Wave :=
  if tag.getLsbD 31 then s.allWaves.find? fun w => (w.alive || w.cmds.any EngCmd.parked || (w.scan.bind ScanProg.stop).isSome) && w.job = job && w.tag = tag else none

def Wave.isParked (w : Wave) : Bool := match w.wait with | .parked _ _ => true | _ => false

/-- Is a SCAN of the wave parked (R430)? -/
def Wave.scanParked (w : Wave) : Option (Cause × DWord) := w.scan.bind ScanProg.stop

/-- Resume a parked wave, its parked commands and its parked SCAN (R361, R430). -/
def Wave.resume (w : Wave) : Wave :=
  { (match w.wait with
      | .parked _ _ => w.unwait
      | .queue d a push m o is sc _ => { w with wait := .queue d a push m o is sc none }
      | _ => w) with
    cmds := w.cmds.map fun c => { c with parked := false }
    scan := w.scan.map fun p => { p with stop := none } }

/-- What the wave, or its SCAN, is parked on. -/
def Wave.parkedOn (w : Wave) : Option (Cause × DWord) :=
  match w.wait with
  | .parked c va => some (c, va)
  | .queue _ _ _ _ _ _ _ (some p) => some p
  | _ => w.scanParked

/-- A wave's SCAN is given up, with its token (R310, R430). -/
def Wave.dropScan (w : Wave) : Wave :=
  match w.scan with
  | some q => ({ w with scan := none } : Wave).clearTok q.tok
  | none => w

/-- End the group of a parked wave with a record of KIND 2 that names what it parked on, which is given up (R355,
R369, R430). -/
def State.abort (s : State) (w : Wave) : State :=
  match w.parkedOn with
  | some (c, va) => s.as w.key fun s =>
      let r := { s.waveRec c 2 w.pc with
        addr := va, mask := w.parkedMask, detail := w.pc, info := tcauseWord (causeCode c) false w.inh 0 }
      let s := s.report s.group.tower r
      ({ s with wave := if s.wave.scanParked.isSome then s.wave.dropScan else s.wave } : State).killGroup s.group.key false
  | none => s

/-- A queue request that was parked is served again, in its place (R323, R361). -/
def State.retryQueue (s : State) (w : Wave) : State :=
  match w.wait with
  | .queue d _ _ _ _ _ _ (some _) => (s.serveQ ⟨w.job, dpaTower d, false⟩ d none s.allWaves.length.succ).1
  | _ => s

/-- The effect of WAKEW on wave W, and the result (R369). -/
def State.wake (s : State) (mode : Nat) (w : Wave) : State × Word :=
  match mode with
  | 0 => (s.mapWave w.key fun w => match w.wait with
      | .sleep _ => w.unwait
      | _ => { w with wakePend := true }, 1)
  | 1 => if w.parkedOn.isSome || w.cmds.any EngCmd.parked then ((s.mapWave w.key Wave.resume).retryQueue w, 1) else (s, 0)
  | _ => if w.parkedOn.isSome then (s.abort w, 1) else (s, 0)

/-- R369 -/
def execWakew (f : Fields) (s : State) : Res :=
  .next (issue (.wakew f) f (fun x =>
    let s := x.s
    if mbits f 1 0 = 0 ∧ x.jobArg ≠ s.group.job ∧ !s.wave.jctl.getLsbD 0 then .trap (.plain .priv) s
    else match s.tagged x.jobArg (x.uni f.b) with
      | none => .done (s.writeS f.d .now 0)
      | some w =>
        let (s, r) := (s.release (some .dv)).wake (mbits f 1 0) w
        .done (s.writeS f.d .now r)) s)

end Sys2Proof.Machine
end

