-- ==== Sys2Proof/Machine/Engine.lean ====
section
/-! DEFINITION. The engine commands at issue: shape records (R35, R36), counters, the range scoreboard, and
the waits for engines (R250-R259, R273). What a command transfers stands in EngineRun.lean. -/

namespace Sys2Proof.Machine

/-! ### Shape records (Table 1.10) -/

/-- Bits [hi:lo] of byte b of a shape record. -/
def shBits (s : BitVec 512) (b hi lo : Nat) : Nat := bits s (8 * b + hi) (8 * b + lo)
def shRank (s : BitVec 512) : Nat := shBits s 0 2 0
def shTag (s : BitVec 512) : BitVec 4 := s.extractLsb' 8 4
/-- Element size in bytes. -/
def shSize (s : BitVec 512) : Nat := 2 ^ shBits s 2 2 0
def shHandle (s : BitVec 512) : Nat := shBits s 3 5 0
def shZero (s : BitVec 512) : Bool := shBits s 4 0 0 = 1
def shBase (s : BitVec 512) : Nat := shBits s 8 63 0
def shExt (s : BitVec 512) (k : Nat) : Nat := shBits s (16 + 4 * k) 31 0
/-- Byte stride of dimension k, 1 to 4. -/
def shStride (s : BitVec 512) (k : Nat) : Nat := shBits s (32 + 4 * k) 31 0
/-- Elements of the box in dimension k. -/
def shBox (s : BitVec 512) (k : Nat) : Nat := shBits s (52 + k) 7 0 + 1

/-- A shape record with a defect of R36. -/
def shapeBad (s : BitVec 512) : Bool :=
  let r := shRank s
  decide (r = 0 ∨ 5 < r ∨ 4 < shBits s 2 2 0 ∨ shBits s 0 7 3 ≠ 0 ∨ shBits s 1 7 4 ≠ 0 ∨ shBits s 2 7 3 ≠ 0 ∨
    shBits s 3 7 6 ≠ 0 ∨ shBits s 4 7 1 ≠ 0 ∨ shBits s 5 23 0 ≠ 0 ∨ shBits s 57 55 0 ≠ 0 ∨
    shBase s % shSize s ≠ 0) ||
  (List.range 5).any (fun k => decide (shExt s k = 0) || (decide (r ≤ k) && decide (shExt s k ≠ 1 ∨ shBox s k ≠ 1))) ||
  ([1, 2, 3, 4].any fun k => (decide (r ≤ k) && decide (shStride s k ≠ 0)) || decide (shStride s k % shSize s ≠ 0))

/-- Elements of the box. -/
def shCount (s : BitVec 512) : Nat := shBox s 0 * shBox s 1 * shBox s 2 * shBox s 3 * shBox s 4

/-- The position in the box of the n-th element in dense order (R254). -/
def shPos (s : BitVec 512) (n k : Nat) : Nat :=
  n / (((List.range k).map (shBox s)).foldl (· * ·) 1) % shBox s k

/-- Does a tensor element lie inside the extents? -/
def shInside (s : BitVec 512) (g : Nat → Int) : Bool :=
  (List.range (shRank s)).all fun k => decide (0 ≤ g k ∧ g k < shExt s k)

/-- The byte offset of a tensor element within its handle (R35). -/
def shOff (s : BitVec 512) (g : Nat → Int) : Int :=
  shBase s + g 0 * shSize s + ((List.range (shRank s - 1)).map fun k => g (k + 1) * shStride s (k + 1)).sum

/-- The tensor element of the n-th element of a box at coordinates. -/
def boxElem (s : BitVec 512) (co : List Int) (n k : Nat) : Int := co.getD k 0 + shPos s n k

/-- The byte offset of the n-th element of a box; none outside the extents. -/
def boxOff (s : BitVec 512) (co : List Int) (n : Nat) : Option Int :=
  if shInside s (boxElem s co n) then some (shOff s (boxElem s co n)) else none

/-- Does the whole box lie inside the extents? -/
def boxInside (s : BitVec 512) (co : List Int) : Bool :=
  (List.range (shRank s)).all fun k => decide (0 ≤ co.getD k 0 ∧ co.getD k 0 + shBox s k ≤ shExt s k)

/-- The first inside element of a box whose bytes pass LIMIT or lie before BASE. -/
def boxBeyond (s : BitVec 512) (co : List Int) (limit : Nat) : Option Int :=
  (List.range (shCount s)).findSome? fun n => match boxOff s co n with
    | some o => if o < 0 ∨ (limit : Int) < o + shSize s then some o else none
    | none => none

/-! ### Issue -/

/-- A load by the wave at a VA, beside any handle (R253): its bytes, and the context that has made the read. -/
def Ctx.loadVa (x : Ctx) (va : DWord) (n : Nat) : Except Out (List Byte × Ctx) := do
  let p ← x.plan (BitVec.ofNat 256 va.toNat) ⟨.read, true, false, false, false, kindWave⟩ n [(32, 0)]
  match p.go with
  | g :: _ => .ok (x.s.load g.hit n, { x with s := ((p.records x.s).readHit none g.hit n g.va).touch g.hit })
  | [] => .error (p.out false (p.deny x.s))

/-- Registers that an instruction reads beyond its encoded fields: an interlock or a late read on them (R147, R148). -/
def Ctx.more (x : Ctx) (first : Opnd) (n : Nat) : Except Out Unit :=
  let use : Opnd × Pos := (first, ⟨fun _ => true, n, true, false, none⟩)
  let w := x.s.wave
  if isS first ∧ 128 < first.num + n then .error (.trap (.plain .illfmt) x.s)
  else if outOfRange x.s.group use then .error (.trap (.plain .regrange) x.s)
  else if w.pend.any fun e => pendBlocks e use then .error (.stall x.s)
  else match (if w.sbchk then (useSpan use).find? (w.isLate (isS first)) else none) with
    | some r => .error (.trap { TrapInfo.plain .stallshort with info := BitVec.ofNat 16 r } x.s)
    | none => .ok ()

/-- The shape record of the word, read and checked (R253, R36). -/
def Ctx.shape (x : Ctx) : Except Out (BitVec 512 × Ctx) := do
  let va := x.uni64 x.f.a
  if va.toNat % 64 ≠ 0 then .error (.trap (.at_ .align va 0) x.s)
  let (b, x) ← x.loadVa va 64
  let sh : BitVec 512 := BitVec.ofNat 512 (Mem.number b)
  if shapeBad sh then .error (.trap (.plain .illfmt) x.s)
  .ok (sh, x)

/-- The counter that ext names: its VA (R253). -/
def Ctx.counter (x : Ctx) : Except Out (Option DWord) :=
  if !ctrOn x.f then .ok none
  else if let .error o := x.sound (hOf x.f) then .error o
  else
    let e := x.s.entry (hOf x.f)
    let o : Int := (x.f.ext.extractLsb' 7 25).toInt * 8
    if needBad { spaces := [1], at_ := true } e then .error (.trap (.at_ .hinval (BitVec.ofInt 64 o) 0) x.s)
    else if o < 0 ∨ (hLimit e : Int) < o + 8 then .error (.trap (.at_ .hbounds (BitVec.ofInt 64 o) 0) x.s)
    else .ok (some (vaOf e o))

/-- SCOPE of an engine command that names a counter: that of the release that its completion makes (R252). -/
def engScope (f : Fields) : Option Scope := if ctrOn f then scopeOf (mbits f 4 2) else none

/-- The handles of a command in TRs: its shape's, when some lane is active to use it, and its counter's (R229). -/
def Ctx.used (x : Ctx) (sh : BitVec 512) : State :=
  let s := if x.m = 0 then x.s else x.s.useHandle (shHandle sh) (x.s.entry (shHandle sh))
  if ctrOn x.f then s.useHandle (hOf x.f) (s.entry (hOf x.f)) else s

/-- The signed coordinates of the uniform commands. -/
def Ctx.coords (x : Ctx) (n : Nat) : List Int :=
  (List.range n).map fun k => (x.uni (Opnd.step x.f.b k)).toInt

/-- Check the tensor of a shape against its handle: HINVAL, then HBOUNDS for a box outside the extents or
beyond LIMIT (R254). -/
def Ctx.tensor (x : Ctx) (sh : BitVec 512) (write : Bool) (co : List Int) : Except Out Unit :=
  let e := x.s.entry (shHandle sh)
  if let .error o := x.sound (shHandle sh) then .error o
  else if needBad { spaces := [1], rd := !write, wr := write } e then .error (.trap (.at_ .hinval 0 0) x.s)
  else if !shZero sh && !boxInside sh co then .error (.trap (.at_ .hbounds 0 0) x.s)
  else match boxBeyond sh co (hLimit e) with
    | some o => .error (.trap (.at_ .hbounds (BitVec.ofInt 64 o) 0) x.s)
    | none => .ok ()

/-- Does a new range of local bytes wait (R251)? -/
def Group.boardFull (g : Group) (lo hi : Nat) : Bool :=
  decide (8 ≤ g.board.length) || g.board.any fun r => decide (r.lo < hi ∧ lo < r.hi)

/-- Put a command of an instruction on its way, with the address of its shape record: the class counter must have room
(R250, R371). -/
def State.startCmd (s : State) (i : Instr) (shapeAt : DWord) (c : EngClass) (op : EngOp) (tok : Option Nat) (ctr : Option DWord)
    (sc : Option Scope) : Out :=
  if 63 ≤ s.wave.count c then .stall s
  else
    let k : EngCmd := ⟨s.seq, c, op, 0, tok, ctr, sc, false, [], s.wave.pairStart, (encode i).getD 0, shapeAt⟩
    let s := s.fed
    .done { s with wave := { s.wave with cmds := s.wave.cmds ++ [k] }, seq := s.seq + 1 }

/-- R254 -/
def execCpy (f : Fields) (s : State) : Res :=
  .next (issue (.cpy f) f (fun x =>
    if x.m = 0 then .done x.s
    else ends do
      let (sh, x) ← x.shape
      x.more f.b (shRank sh)
      let toLocal := !f.mod.getLsbD 0
      let co := x.coords (shRank sh)
      let ctr ← x.counter
      x.tensor sh (!toLocal) co
      let lo := (x.uni f.d).toNat
      let hi := lo + shCount sh * shSize sh
      if x.s.group.localSize < hi then .error (.trap (.at_ .localoob (BitVec.ofNat 64 lo) 0) x.s)
      if x.s.group.boardFull lo hi ∨ 63 ≤ x.s.wave.count .cp then .error (.stall x.s)
      let s := x.used sh
      let g := { s.group with board := s.group.board ++ [⟨lo, hi, toLocal, s.wave.idx, false⟩] }
      .ok ({ s with group := g }.startCmd (.cpy f) (x.uni64 f.a) .cp (.cpy toLocal lo sh co) none ctr (engScope f))) s)

/-! ### The B-store (R197, R198) -/

/-- The register that owns page p (Table 8.2). -/
def csrBsown (p : Nat) : Nat := 0x310 + p
/-- Is a page owned by a job? -/
def Tower.pageOwned (t : Tower) (job p : Nat) : Bool :=
  let r := Table.get 0 t.csr (csrBsown p)
  r.getLsbD 15 && decide (bits r 11 0 = job)
/-- Are all pages of [lo, hi) owned by a job? -/
def Tower.bOwned (t : Tower) (job lo hi : Nat) : Bool :=
  (List.range 16).all fun p => decide (hi ≤ 65536 * p ∨ 65536 * p + 65536 ≤ lo) || t.pageOwned job p
/-- The slot check of R198 for n bytes at an offset: the first byte in the slice. -/
def State.bSlot (s : State) (slot off n : Nat) : Option Nat :=
  let (base, len) := Table.get (0, 0) s.group.slots slot
  if len = 0 ∨ len < off + n ∨ !(s.tower s.group.tower).bOwned s.group.job (base + off) (base + off + n) then none
  else some (base + off)
/-- The key of a byte of a core's slice in its tower's B-store. -/
def bKey (core off : Nat) : Nat := core * 2 ^ 20 + off

/-- The poison key of the 32-byte sector that holds a byte of a core's slice (R375). -/
def bPoison (t : TowerId) (core off : Nat) : Nat := 2 ^ 51 + t.val * 2 ^ 24 + bKey core off / 32

/-- R255 -/
def execCpyb (f : Fields) (s : State) : Res :=
  .next (issue (.cpyb f) f (fun x =>
    if x.m = 0 then .done x.s
    else ends do
      let (sh, x) ← x.shape
      x.more f.b (shRank sh)
      let co := x.coords (shRank sh)
      let ctr ← x.counter
      x.tensor sh false co
      let sel := x.uni f.d
      match x.s.bSlot (bits sel 25 20) (bits sel 19 0) (shCount sh * shSize sh) with
      | none => .error (.trap (.at_ .bspace (BitVec.ofNat 64 (bits sel 19 0)) 0) x.s)
      | some b =>
        let s := x.used sh
        .ok (s.startCmd (.cpyb f) (x.uni64 f.a) .mx (.cpyb b sh co) none ctr (engScope f))) s)

/-! ### Gather and scatter (R256) -/

/-- The tensor element of lane i. -/
def laneElem (co : List Lanes) (i k : Nat) : Int := (laneAt (co.getD k (splat 0)) i).toInt
/-- Its byte offset; none outside the extents. -/
def laneOff (sh : BitVec 512) (co : List Lanes) (i : Nat) : Option Int :=
  if shInside sh (laneElem co i) then some (shOff sh (laneElem co i)) else none

/-- The checks that GTHR and SCTR share: their shape, coordinates and counter (R253, R256). GTHR writes no reserved
tag (R56, log 88), and SCTR takes data tagged FTAG or RAW alone (R256, log 104). -/
def Ctx.lanesCmd (x : Ctx) (write : Bool) : Except Out (BitVec 512 × List Lanes × Option DWord × Ctx) := do
  let (sh, x) ← x.shape
  if 4 < shSize sh then .error (.trap (.plain .illfmt) x.s)
  if !write ∧ 14 ≤ (shTag sh).toNat then .error (.trap (.plain .illfmt) x.s)
  x.more x.f.b (shRank sh)
  let regs := (List.range (shRank sh)).map fun k => x.src (Opnd.step x.f.b k)
  if regs.any fun r => decide (2 < r.tag.toNat) then .error (.trap (.plain .fmttag) x.s)
  let co := regs.map VReg.lanes
  if write ∧ !((x.src x.f.d).tag = 0 || (x.src x.f.d).tag = shTag sh) then .error (.trap (.plain .fmttag) x.s)
  let ctr ← x.counter
  let e := x.s.entry (shHandle sh)
  let ls := lanesOf x.m
  let fail (c : Cause) (bad : List Nat) : Except Out Unit :=
    match bad with
    | [] => .ok ()
    | i :: _ => .error (.trap (.at_ c (BitVec.ofInt 64 ((laneOff sh co i).getD 0)) (maskOfList bad)) x.s)
  if !ls.isEmpty then x.sound (shHandle sh)
  fail .hinval (if needBad { spaces := [1], rd := !write, wr := write } e then ls else [])
  fail .hbounds (ls.filter fun i => match laneOff sh co i with
    | none => !shZero sh
    | some o => decide (o < 0 ∨ (hLimit e : Int) < o + shSize sh))
  .ok (sh, co, ctr, x)

/-- R256: the token clears when vD is written. With no active lane the command is counted, and gives vD its tag alone
(R59, R253, log 36). -/
def execGthr (f : Fields) (s : State) : Res :=
  .next (issue (.gthr f) f (fun x => ends do
    let (sh, co, ctr, x) ← x.lanesCmd false
    let s := x.used sh
    .ok (s.startCmd (.gthr f) (x.uni64 f.a) .gt (.gthr f.d.num x.m sh co) (some f.hint.tok.toNat) ctr (engScope f))) s)

/-- R256; with no active lane the command stores nothing (log 36). -/
def execSctr (f : Fields) (s : State) : Res :=
  .next (issue (.sctr f) f (fun x => ends do
    let (sh, co, ctr, x) ← x.lanesCmd true
    let s := x.used sh
    .ok (s.startCmd (.sctr f) (x.uni64 f.a) .gt (.sctr (x.lanes f.d) x.m sh co) none ctr (engScope f))) s)

/-! ### BCAST (R273) -/

/-- The towers that a TWR code names: .HERE, .T0, .T1, .BOTH. -/
def towersOf (here : TowerId) (twr : Nat) : Bool × Bool :=
  match twr with
  | 0 => (here = 0, here = 1)
  | 1 => (true, false)
  | 2 => (false, true)
  | _ => (true, true)
/-- The towers named, in order. -/
def towerList (b : Bool × Bool) : List TowerId := (if b.1 then [0] else []) ++ (if b.2 then [1] else [])

/-- A tower beyond a link that is down cannot be reached (R284). -/
def Ctx.reach (x : Ctx) (ts : List TowerId) : Except Out Unit :=
  let far := ts.any fun t => decide (t ≠ x.s.group.tower)
  if far && x.s.link.down then .error (.trap (.plain .linkfail) x.s)
  else if far && x.s.link.retraining then .error (.stall x.s)
  else .ok ()

/-- R273 -/
def execBcast (f : Fields) (s : State) : Res :=
  .next (issue (.bcast f) f (fun x =>
    if x.m = 0 then .done x.s
    else ends do
      let (sh, x) ← x.shape
      x.more f.b (shRank sh)
      let co := x.coords (shRank sh)
      let ctr ← x.counter
      let d := x.uni f.d
      let e := x.s.entry (bits d 5 0)
      let off := bits d 31 8
      let n := shCount sh * shSize sh
      let fail (c : Cause) : Except Out Unit := .error (.trap (.at_ c (BitVec.ofNat 64 off) 0) x.s)
      if bits d 7 6 = 0 then x.sound (bits d 5 0)
      if bits d 7 6 ≠ 0 ∨ needBad { spaces := [3], wr := true } e then fail .hinval
      x.tensor sh false co
      if hLimit e < off + n then fail .hbounds
      if off % shSize sh ≠ 0 then fail .align
      let tw := towersOf x.s.group.tower (mbits f 1 0)
      x.reach (towerList tw)
      if (towerList tw).any fun t => (x.s.tower t).slotsOf x.s.group.job = 0 then fail .noslot
      let s := (x.used sh).useHandle (bits d 5 0) e
      .ok (s.startCmd (.bcast f) (x.uni64 f.a) .bc (.bcast tw.1 tw.2 (hBase e + off) sh co false 0) none ctr (engScope f))) s)

/-! ### Waiting (R258, R259) -/

/-- The class of a code of Table 9.9. -/
def classOf : Nat → EngClass | 0 => .cp | 1 => .gt | 2 => .mx | 3 => .bc | _ => .ry

/-- Take the first error that completed commands of a class left, at the CNTWAIT (R257, R307); the CNTWAIT issued
again takes the next. -/
def Wave.engError (w : Wave) (c : EngClass) : Option (TrapInfo × Wave) :=
  match w.engErr.find? fun e => e.1 = c with
  | some e => some (e.2, { w with engErr := w.engErr.eraseP fun e => e.1 = c })
  | none => none

/-- R258 -/
def execCntwait (f : Fields) (s : State) : Res :=
  .next (issue (.cntwait f) f (fun x =>
    let c := classOf (mbits f 2 0)
    match x.s.wave.engError c with
    | some (t, w) => .trap t { x.s with wave := w }
    | none =>
      if x.s.wave.count c ≤ mbits f 6 3 then .done x.s
      else .done { x.s with wave := { x.s.wave with wait := .cntwait c (mbits f 6 3) } }) s)

/-- R259 -/
def execCntrd (f : Fields) (s : State) : Res :=
  .next (issue (.cntrd f) f (fun x =>
    let n (c : EngClass) : Nat := x.s.wave.count c
    .done (x.s.writeS f.d .now (BitVec.ofNat 32 (packBits
      [(0, 6, n .cp), (6, 6, n .gt), (12, 6, n .mx), (18, 6, n .bc), (24, 6, n .ry)])))) s)

end Sys2Proof.Machine
end

