-- ==== Sys2Proof/Machine/Nq4.lean ====
section
/-! DEFINITION. NQ4: the codebook, a superblock's scales and codes, encoding and decoding (R50-R55). -/

namespace Sys2Proof.Machine

/-- 256 × the level of a code (Table 2.4). -/
def nqLevel (c : Nat) : Int :=
  [-256, -178, -134, -102, -74, -48, -24, 0, 20, 42, 65, 90, 119, 154, 200, 256].getD c 0

/-- The nibble position of element i of a block (R55). -/
def nqPos (i : Nat) : Nat := 8 * (i % 8) + i / 8

/-- A scale byte's value is (8 + m) × 2^(e − 34) for e from 1 to 31 (R52). -/
def scaleE (b : Nat) : Nat := b / 8 % 32
def scaleM (b : Nat) : Nat := b % 8

/-- The magnitude of an F32 pattern in units of 2^−149. -/
def f32Mag (x : Word) : Nat :=
  match Fmt.f32.decode x.toNat with
  | .fin _ m e => m * 2 ^ (e + 149).toNat
  | _ => 0

/-- The value of an F32 pattern in units of 2^−149. -/
def f32Units (x : Word) : Int := if x.getLsbD 31 then -(f32Mag x : Int) else f32Mag x

/-- The least scale byte whose value is not below b / s, from byte value k upwards (R53). -/
def leastScale (b s : Nat) : Nat → Nat → Nat
  | 0, k => k
  | fuel + 1, k =>
    if b * 2 ^ 34 ≤ s * (8 + scaleM k) * 2 ^ scaleE k then k else leastScale b s fuel (k + 1)

/-- The code nearest to x / (σ × S), the smaller magnitude winning a tie (R53). -/
def nearestCode (x : Int) (k s : Nat) : Nat :=
  let d (c : Nat) : Nat :=
    (256 * 2 ^ 34 * x - nqLevel c * ((8 + scaleM k) * 2 ^ scaleE k * s : Nat)).natAbs
  (List.range 16).foldl (fun b c =>
    if d c < d b ∨ (d c = d b ∧ (nqLevel c).natAbs < (nqLevel b).natAbs) then c else b) 7

/-- An encoded block: its scale byte, its 64 codes, and whether a non-zero block was flushed. -/
structure NqBlock where
  scale : Nat
  codes : List Nat
  qz : Bool

/-- Encode one block of 64 values in units of 2^−149 against S (R53, steps 4 and 5). -/
def encBlock (xs : List Int) (s : Nat) : NqBlock :=
  let b := (xs.map Int.natAbs).foldl max 0
  if b = 0 then ⟨0, xs.map fun _ => 7, false⟩
  else if b * 2 ^ 30 < s then ⟨0, xs.map fun _ => 7, true⟩
  else let k := leastScale b s 248 8; ⟨k, xs.map fun x => nearestCode x k s, false⟩

/-- Encode a superblock of 256 F32 patterns: S's bits, the four blocks and the flags (R53). -/
def nqEncode (xs : List Word) : Word × List NqBlock × Flags :=
  let isBad (x : Word) : Bool := match Fmt.f32.decode x.toNat with | .fin _ _ _ => false | _ => true
  if xs.any isBad then
    (0x7FC00000, List.replicate 4 ⟨0xF8, List.replicate 64 7, false⟩, Flags.iv)
  else
    let sw := (xs.map fun x => x &&& 0x7FFFFFFF).foldl (fun a b => if a.ult b then b else a) 0
    let s := f32Mag sw
    let bl := (List.range 4).map fun k =>
      if s = 0 then ⟨0, List.replicate 64 7, false⟩
      else encBlock (((xs.drop (64 * k)).take 64).map f32Units) s
    (sw, bl, if bl.any NqBlock.qz then Flags.qz else 0)

/-- The 32 code bytes of a block as one number, nibble p at bit 4p (R55). -/
def codesNat (cs : List Nat) : Nat :=
  ((List.range 64).map fun i => cs.getD i 0 * 16 ^ nqPos i).sum

/-- One element decoded to a format: level × σ × S rounded once (R54), with the special cases of R183 in the order of
R183's listing, which tests S before a flushed block (log 96). -/
def nqDecode (f : Fmt) (rnd : Rnd) (sat : Bool) (code byte : Nat) (s : Word) : FRes :=
  match Fmt.f32.decode s.toNat with
  | .nan => f.nanRes 0
  | .inf _ => f.nanRes Flags.iv
  | .fin n m e =>
    let l := nqLevel code
    if scaleE byte = 0 then f.zeroRes false else
    f.roundDyadic rnd sat (decide (l < 0) != n) (l.natAbs * (8 + scaleM byte) * m) (e - 8 + scaleE byte - 34)

end Sys2Proof.Machine
end

