-- ==== Sys2Proof/Machine/Matrix.lean ====
section
/-! DEFINITION. Group 0xC but SCAN: quarter matrix operations, region slots and tile movement (R193-R212). -/

namespace Sys2Proof.Machine

/-! ### Tiles (R194) -/

/-- Element (m, n) of quarter q. -/
def Tile.at_ (t : Tile) (q m n : Nat) : Word := Table.get 0 t.elems (64 * q + 8 * m + n)
/-- Write some elements by their index; the tile is clean no more, even where there are none (log 111). -/
def Tile.put (t : Tile) (tag : BitVec 4) (l : List (Nat × Word)) : Tile :=
  ⟨tag, false, l.foldl (fun e p => Table.set 0 e p.1 p.2) t.elems⟩

/-- Indexes of the elements of row m of quarter q. -/
def tileRow (q m : Nat) : List Nat := (List.range 8).map fun n => 64 * q + 8 * m + n

/-- The tag of a TYPE: F32 or S32. -/
def tileTag (ty : Nat) : BitVec 4 := if ty = 0 then 3 else 1

/-- FMTTAG of a tile read at a type, unless XFMT lifts the check (R58, R83). -/
def Ctx.tileBad (x : Ctx) (o : Opnd) (tag : BitVec 4) : Bool :=
  x.s.wave.pfx.xfmt.isNone && decide ((x.s.wave.tile o.num).tag ≠ tag)

/-- R207 -/
def execMzero (f : Fields) (s : State) : Res :=
  .next (issue (.mzero f) f (fun x =>
    .done { x.s with wave := x.s.wave.setZ f.d.num ⟨tileTag (mbits f 0 0), true, []⟩ }) s)

/-! ### MMQ (R203, R204) -/

/-- Elements of K, the element width in bits of A, and the bytes of a B tile (Table 8.1). -/
def mmqK (c : Nat) : Nat := if c < 2 then 16 else if c < 7 then 32 else 64
def mmqAw (c : Nat) : Nat := if c < 2 ∨ 7 ≤ c then 16 else 8
def mmqTileBytes (c : Nat) : Nat := if c < 7 then 256 else 320
/-- The formats of A and B; COMBO 6 is an integer, and NQ4 has no format of its own. -/
def mmqA (c : Nat) : Fmt :=
  match c with
  | 0 => .f16 | 1 => .bf16 | 2 => .e4m3 | 3 => .e5m2 | 4 => .e4m3 | 5 => .e5m2 | 7 => .f16 | _ => .bf16
def mmqB (c : Nat) : Fmt :=
  match c with | 0 => .f16 | 1 => .bf16 | 2 => .e4m3 | 3 => .e5m2 | 4 => .e5m2 | _ => .e4m3

/-- Element k of row m of quarter q of A. -/
def Ctx.aElem (x : Ctx) (c q m k : Nat) : Nat :=
  let e := 32 / mmqAw c
  elem (mmqAw c) (k % e) (laneAt (x.lanes (Opnd.step x.f.a (k / e))) (8 * q + m))

/-- The products of an NQ4 column with row values: level × σ × S of each code, a flushed block as zeros, and the flag of
an infinite S (R52, R204, R427). Under a NaN S they are one NaN term, which has raised IV where the sum of A with the
levels does so by itself (R203, log 39); the sign of S stands in each product (log 116). -/
def nqTerms (col : List Byte) (a : Nat → FVal) (kc : Nat) : List Term :=
  let sc := (col.getD 32 0).toNat
  let level (k : Nat) : Int := nqLevel (Mem.number (col.take 32) / 16 ^ nqPos k % 16)
  let ts (w : Int → FVal) : List Term := (List.range kc).map fun k => (a k).mul (w (level k))
  if scaleE sc = 0 then ts fun _ => .fin false 0 0
  else match Fmt.f32.decode (Mem.number (col.drop 36)) with
    | .nan =>
      let own := Fmt.f32.sum .rne false (ts fun l => .fin (decide (l < 0)) l.natAbs (-8))
      [if own.fl &&& Flags.iv = 0 then .nan else .bad]
    | .inf _ => [.bad]
    | .fin n m e =>
      ts fun l => .fin (decide (l < 0) != n) (l.natAbs * (8 + scaleM sc) * m) (e - 8 + scaleE sc - 34)

/-- The new value of one element: the old one (none with ZA) plus the exact sum over k < kc. -/
def mmqElem (c : Nat) (a : Nat → Nat) (col : List Byte) (kc : Nat) (old : Option Word) : FRes :=
  if c = 6 then
    let sum : Int := ((List.range kc).map fun k => sgn 8 (a k) * sgn 8 (col.getD k 0).toNat).sum
    ⟨((((old.getD 0).toInt + sum) % (2 ^ 32 : Int)).toNat), 0⟩
  else
    let av (k : Nat) : FVal := (mmqA c).decode (a k)
    let ts : List Term :=
      if 7 ≤ c then nqTerms col av kc
      else (List.range kc).map fun k =>
        let b := if mmqAw c = 16 then Mem.number ((col.drop (2 * k)).take 2) else (col.getD k 0).toNat
        (av k).mul ((mmqB c).decode b)
    Fmt.f32.sum .rne false (ts ++ (match old with | some z => [(Fmt.f32.decode z.toNat).term] | none => []))

/-- R203 -/
def execMmq (f : Fields) (s : State) : Res :=
  .next (issue (.mmq f) f (fun x =>
    let c := mbits f 3 0
    let za := f.mod.getLsbD 4
    let em := x.s.wave.em
    let pr (lo : Nat) : Mask := if f.ext.getLsbD (lo + 4) then x.w.pred (ebits f (lo + 3) lo) else 0xFFFFFFFF
    let rows (q : Nat) : List Nat := (List.range 8).filter fun m => laneOn (em &&& pr 0) (8 * q + m)
    let cols (q : Nat) : List Nat := (List.range 8).filter fun n => laneOn (pr 5) (8 * q + n)
    let live := (List.range 4).filter fun q => !(rows q).isEmpty && !(cols q).isEmpty
    let bop (q : Nat) : Word := laneAt (x.lanes f.b) (8 * q)
    let at_ (q : Nat) : Option Nat :=
      let o := bits (bop q) 19 0
      if o % 64 ≠ 0 then none else x.s.bSlot (ebits f 15 10) o (mmqTileBytes c)
    let old := x.s.wave.tile f.d.num
    if x.tileBad f.d (if c = 6 then 1 else 3) then .trap (.plain .fmttag) x.s
    else match live.filter fun q => (at_ q).isNone with
      | q :: qs =>
        .trap (.at_ .bspace (BitVec.ofNat 64 (bits (bop q) 19 0)) (maskOfList ((q :: qs).flatMap fun q =>
          (rows q).map (8 * q + ·)))) x.s
      | [] =>
        let bad (q : Nat) : Bool :=
          let cw := if c < 7 then 32 else 40
          (cols q).any fun n => [0, cw - 1].any fun k =>
            (Table.find x.s.poison (bPoison x.s.group.tower x.s.group.coreIdx ((at_ q).getD 0 + cw * n + k))).isSome
        match live.find? bad with
        | some q => .trap (eccTrap 5 (BitVec.ofNat 64 ((at_ q).getD 0)) (maskOfList ((live.filter bad).flatMap fun q =>
            (rows q).map (8 * q + ·)))) x.s
        | none =>
        let st := (x.s.tower x.s.group.tower).bstore
        let res : List (Nat × FRes) := live.flatMap fun q =>
          let kn := bits (bop q) 26 20
          let kc := if kn = 0 then mmqK c else min kn (mmqK c)
          let cw := if c < 7 then 32 else 40
          let base := bKey x.s.group.coreIdx ((at_ q).getD 0)
          (cols q).flatMap fun n =>
            let col := Mem.readBytes st (base + cw * n) cw
            (rows q).map fun m =>
              (64 * q + 8 * m + n,
                mmqElem c (x.aElem c q m) col kc (if za then none else some (old.at_ q m n)))
        if res.isEmpty then .done x.s
        else
          let t := old.put old.tag (res.map fun r => (r.1, r.2.word))
          .done ({ x.s with wave := x.s.wave.setZ f.d.num t }.raise (res.foldl (fun fl (r : Nat × FRes) => fl ||| r.2.fl) 0))) s)

/-! ### Region slots (R206) -/

/-- R206 -/
def execMbsel (f : Fields) (s : State) : Res :=
  .next (issue (.mbsel f) f (fun x =>
    let a := (x.uni f.a).toNat
    let b := (x.uni f.b).toNat
    let g := x.s.group
    if a % 64 ≠ 0 ∨ b % 64 ≠ 0 ∨ 0x100000 < a + b ∨
        (b ≠ 0 ∧ !(x.s.tower g.tower).bOwned g.job a (a + b)) then
      .trap (.at_ .bspace (BitVec.ofNat 64 a) 0) x.s
    else .done { x.s with group := { g with slots := Table.set (0, 0) g.slots (mbits f 5 0) (a, b) } }) s)

/-! ### Tiles and memory (R208-R211) -/

/-- The stride, the origins of the quarters, and the offsets of the rows to transfer, by lane. -/
def Ctx.tileRows (x : Ctx) : Nat × List Int × List (Nat × Int) :=
  let st : Nat := if isNil x.f.a then 32 else (x.uni x.f.a).toNat
  let org (q : Nat) : Int := if isV x.f.b then x.off (8 * q) else x.off 0 + 8 * st * q
  (st, (List.range 4).map org, (lanesOf x.m).map fun i => (i, org (i / 8) + (i % 8) * st))

/-- The checks of R208: the entry, then HINVAL, ALIGN, HBOUNDS and LOCALOOB. A stride fails in no lane: its ALIGN
reports the stride itself and no lane, and that of a misaligned quarter's origin the origin and no lane (log 26). -/
def Ctx.tileCheck (x : Ctx) (need : Need) : Except Out (BitVec 256 × List (Nat × Int) × Ctx) :=
  let e := x.s.entry (hOf x.f)
  let (st, orgs, ls) := x.tileRows
  if let .error o := x.sound (hOf x.f) then .error o
  else if needBad need e then .error (.trap (.at_ .hinval (BitVec.ofInt 64 (orgs.headD 0)) x.m) x.s)
  else if st % 4 ≠ 0 ∨ 2 ^ 20 < st then .error (.trap (.at_ .align (BitVec.ofNat 64 st) 0) x.s)
  else match orgs.find? fun o => o % 4 ≠ 0 with
    | some o => .error (.trap (.at_ .align (BitVec.ofInt 64 o) 0) x.s)
    | none => match checkLanes x.s.group need e 32 1 ls with
      | some t => .error (.trap t x.s)
      | none => .ok (e, ls, { x with s := x.s.useHandle (hOf x.f) e })

/-- The scope of an ordered tile access. -/
def tileScope (f : Fields) : Option Scope := if ordOf f = 0 then none else scopeOf (ordScope f)

/-- The elements of rows: lane and offset. -/
def rowElems (ls : List (Nat × Int)) : List (Nat × Int) :=
  ls.flatMap fun (i, o) => (List.range 8).map fun (n : Nat) => (i, o + 4 * n)

/-- Is it a tile store (R210, R219)? -/
def EngOp.stores : EngOp → Bool
  | .mzst _ _ _ _ _ _ => true
  | _ => false

/-- R209 -/
def execMzld (f : Fields) (s : State) : Res :=
  .next (issue (.mzld f) f (fun x => ends do
    let (e, ls, x) ← x.tileCheck { spaces := [1, 2], rd := true }
    let old := x.s.wave.tile f.d.num
    let tag := tileTag (mbits f 6 6)
    let row (get : Int → Word) (i : Nat) (o : Int) : List (Nat × Word) :=
      (List.range 8).map fun (n : Nat) => (64 * (i / 8) + 8 * (i % 8) + n, get (o + 4 * n))
    if hSpace e = 2 then
      if ls.any fun (_, o) => x.s.group.boardBlocks false (localOff e o) 32 then .error (.stall x.s)
      let u := x.s.group.unit
      let s := ls.foldl (fun s (_, o) => s.readRel (tileScope f) (locLocal u (localOff e o)) 32 (BitVec.ofInt 64 o)) x.s
      let get (o : Int) : Word := BitVec.ofNat 32 (Mem.readNat (x.s.localMem u) (localOff e o) 4)
      .ok (.done { s with wave := s.wave.setZ f.d.num (old.put tag (ls.flatMap fun (i, o) => row get i o)) })
    else
      let es := rowElems ls
      if x.s.wave.drains (es.map fun p => (vaOf e p.2).toNat) 4 then .error (.stall x.s)
      let p ← x.plan e ⟨.read, true, false, false, true, kindWave⟩ 4 es
      let (s, _) := loadLanes 4 (tileScope f) (p.deny x.s) p.go
      let get (o : Int) : Word := match p.go.find? fun g => g.va = vaOf e o with
        | some g => BitVec.ofNat 32 (Mem.number (x.s.load g.hit 4))
        | none => 0
      let out := p.missing.map (fun q => q.1) ++ p.denied.map Prod.fst
      let go := ls.filter fun r => !out.contains r.1
      .ok (p.out false { s with wave := s.wave.setZ f.d.num (old.put tag (go.flatMap fun (i, o) => row get i o)) })) s)

/-- R210: the tile is read at issue; the memory write is a command of class MX. -/
def execMzst (f : Fields) (s : State) : Res :=
  .next (issue (.mzst f) f (fun x => ends do
    let ty := mbits f 6 6
    let add := f.mod.getLsbD 5
    if x.tileBad f.d (tileTag ty) then .error (.trap (.plain .fmttag) x.s)
    let (e, ls, x) ← x.tileCheck { spaces := [1, 2], rd := add, wr := true }
    let t := x.s.wave.tile f.d.num
    if ls.isEmpty then .ok (.done x.s)
    else
      let cells := (List.range 4).map fun q => (ls.filter fun r => r.1 / 8 = q).flatMap fun (i, o) =>
        (List.range 8).map fun (n : Nat) => ((o + 4 * n).toNat, t.at_ q (i % 8) n)
      let offs := ls.map fun r => localOff e r.2
      let lo := offs.foldl min (offs.headD 0)
      let hi := offs.foldl max 0 + 32
      if hSpace e = 2 ∧ x.s.group.boardFull lo hi ∨ 63 ≤ x.s.wave.count .mx then .error (.stall x.s)
      let s := x.s
      let s := if hSpace e = 2 then
          { s with group := { s.group with board := s.group.board ++ [⟨lo, hi, true, s.wave.idx, false⟩] } } else s
      .ok (s.startCmd (.mzst f) 0 .mx (.mzst e cells add (ty = 0) (tileScope f) (s.relBy (tileScope f))) none none none)) s)

/-- R212 -/
def execMzmv (f : Fields) (s : State) : Res :=
  .next (issue (.mzmv f) f (fun x =>
    let tag := tileTag (mbits f 1 1)
    let em := x.s.wave.em
    if f.mod.getLsbD 0 then
      let rows := (lanesOf em).flatMap fun i => (List.range 8).map fun n =>
        (8 * i + n, laneAt (x.lanes (Opnd.step f.a n)) i)
      .done { x.s with wave := x.s.wave.setZ f.d.num ((x.s.wave.tile f.d.num).put tag rows) }
    else if x.tileBad f.a tag then .trap (.plain .fmttag) x.s
    else
      let t := x.s.wave.tile f.a.num
      .done ((List.range 8).foldl (fun s n =>
        s.write (Opnd.step f.d n) em .now t.tag (lanesFn fun i => t.at_ (i / 8) (i % 8) n)) x.s)) s)

end Sys2Proof.Machine
end

