-- ==== Sys2Proof/Machine/Scan.lean ====
section
/-! DEFINITION. SCAN and SCANST (R213-R221, R430). A SCAN runs at issue, group after group of 8 channels;
one that a translation fault stops keeps its progress, and TOKEN_CLEAR continues it. -/

namespace Sys2Proof.Machine

/-! ### The control block (Table 8.5) -/

/-- Bits [hi:lo] of byte b of an SCB. -/
def scb (c : BitVec 1024) (b hi lo : Nat) : Nat := bits c (8 * b + hi) (8 * b + lo)
def scL (c : BitVec 1024) : Nat := scb c 0 31 0
def scThr (c : BitVec 1024) : Nat := scb c 4 31 0
def scD (c : BitVec 1024) : Nat := scb c 8 7 0
/-- The chunk length of a QC code. -/
def chunkLen (qc : Nat) : Nat := 8 * 2 ^ qc
def scQ (c : BitVec 1024) : Nat := chunkLen (scb c 9 1 0)
def scFmt (c : BitVec 1024) : Fmt := match scb c 10 1 0 with | 0 => .f32 | 1 => .f16 | _ => .bf16
/-- es of Table 8.5. -/
def scEs (c : BitVec 1024) : Nat := if scb c 10 1 0 = 0 then 4 else 2
def scH0v (c : BitVec 1024) : Bool := scb c 11 0 0 = 1
def scHnw (c : BitVec 1024) : Bool := scb c 11 1 1 = 1
def scP (c : BitVec 1024) : Nat := scb c 12 15 0
def scDh (c : BitVec 1024) : Nat := scb c 14 5 0
/-- The offset fields by number: A, B, C, X, Y, H0, HN. -/
def scOff (c : BitVec 1024) (k : Nat) : Nat := scb c (16 + 8 * k) 63 0

/-- The chunks run in chunked form for a length, threshold and chunk length (R215). -/
def chunksOf (l thr q : Nat) : Nat := if thr ≤ l then l / q else 0
/-- The word that SCAN writes to sD (R219). -/
def ssWord (l thr q : Nat) : Word :=
  let n := chunksOf l thr q
  BitVec.ofNat 32 (packBits [(0, 1, if thr ≤ l then 1 else 0), (1, 1, if n * q < l then 1 else 0), (8, 24, n)])

/-- The ranges that an SCB names: offset, element size, elements, and whether written (R213). -/
def scRanges (c : BitVec 1024) : List (Nat × Nat × Nat × Bool) :=
  let r (k es n : Nat) (w : Bool) := (scOff c k, es, n, w)
  let es := scEs c
  [r 0 es (scL c * scP c) false, r 1 es (scL c * scD c) false, r 2 es (scL c * scD c) false,
    r 3 es (scL c * scP c) false, r 4 es (scL c * scP c) true] ++
  (if scH0v c then [r 5 4 (scP c * scD c) false] else []) ++
  (if scHnw c then [r 6 4 (scP c * scD c) true] else [])

/-- A field out of its range, or a reserved field that is not zero (R214, item 1). -/
def scbBad (c : BitVec 1024) : Bool :=
  decide (scL c = 0 ∨ 2 ^ 24 < scL c ∨ scD c = 0 ∨ 16 < scD c ∨ scb c 9 7 0 ≥ 3 ∨ scb c 10 7 0 ≥ 3 ∨
    scb c 11 7 2 ≠ 0 ∨ scP c = 0 ∨ 256 < scP c ∨ scb c 14 15 6 ≠ 0 ∨ scb c 72 447 0 ≠ 0)

/-- Two ranges overlap; Y at the offset of X is allowed (R214, item 5). -/
def scOverlap (c : BitVec 1024) : Bool :=
  let rs := (scRanges c).zipIdx
  rs.any fun (x, i) => x.2.2.2 && rs.any fun (y, j) =>
    decide (i ≠ j ∧ x.1 < y.1 + y.2.1 * y.2.2.1 ∧ y.1 < x.1 + x.2.1 * x.2.2.1) &&
      !(decide (i = 4 ∧ j = 3) && decide (scOff c 3 = scOff c 4))

/-- The checks of R214 in their order. -/
def Ctx.scanBad (x : Ctx) (c : BitVec 1024) : Option TrapInfo :=
  let e := x.s.entry (scDh c)
  let rs := scRanges c
  let first (k : Cause) (p : Nat × Nat × Nat × Bool → Bool) : Option TrapInfo :=
    (rs.find? p).map fun r => .at_ k (BitVec.ofNat 64 r.1) 0
  if scbBad c then some (.plain .illfmt)
  else if needBad { spaces := [1, 2], rd := true, wr := true } e then some (.at_ .hinval 0 0)
  else (first .align fun r => decide (r.1 % r.2.1 ≠ 0)).or
    ((first .hbounds fun r => decide (hLimit e < r.1 + r.2.1 * r.2.2.1)).or
      ((if hSpace e = 2 then first .localoob fun r =>
          decide (x.s.group.localSize < hBase e + r.1 + r.2.1 * r.2.2.1) else none).or
        (if scOverlap c then some (.plain .illfmt) else none)))

/-! ### The two forms (R216, R217) -/

/-- One rounding of a product to F32, with the flags so far. -/
def scMul (fl : Flags) (x y : Nat) : Nat × Flags :=
  let r := Fmt.f32.mul .rne false x y
  (r.val, fl ||| r.fl)
/-- Map with the flags threaded through. -/
def mapFl {α β : Type} (fl : Flags) (f : Flags → α → β × Flags) : List α → List β × Flags
  | [] => ([], fl)
  | a :: as =>
    let (b, fl) := f fl a
    let (bs, fl) := mapFl fl f as
    (b :: bs, fl)

/-- The inputs of one channel over some steps: per step a_t, x_t, B_t and C_t, as F32 patterns. -/
structure ScanIn where
  a : Nat
  x : Nat
  b : List Nat
  c : List Nat

/-- round_out of a rounded F32 value (R214). -/
def scOut (f : Fmt) (s : Nat) : FRes := if f = .f32 then ⟨s, 0⟩ else Fmt.f32.convert f .rne false s

/-- One recurrent step: the state and y_t (R216). -/
def ssStep (f : Fmt) (fl : Flags) (i : ScanIn) (h : List Nat) : List Nat × Nat × Flags :=
  let (h, fl) := mapFl fl (fun fl (p : Nat × Nat) =>
    let (u, fl) := scMul fl p.1 i.x
    let r := Fmt.f32.fma .rne false i.a p.2 u
    (r.val, fl ||| r.fl)) (i.b.zip h)
  let (s, fl) := (i.c.zip h).foldl (fun (s, fl) p =>
    let r := Fmt.f32.fma .rne false p.1 p.2 s
    (r.val, fl ||| r.fl)) (0, fl)
  let y := scOut f s
  (h, y.val, fl ||| y.fl)

/-- The pattern of 1.0 in F32. -/
def f32One : Nat := 0x3F800000
/-- The exact product of two F32 patterns as a term. -/
def scTerm (x y : Nat) : Term := (Fmt.f32.decode x).mul (Fmt.f32.decode y)

/-- The rows g[t] of a chunk: row t holds g[t][s] for s from t0 − 1 to t (R217). -/
def decayRows : Flags → List Nat → List ScanIn → List (List Nat) × Flags
  | fl, _, [] => ([], fl)
  | fl, row, i :: is =>
    let (r, fl) := mapFl fl (fun fl g => scMul fl g i.a) row
    let (rs, fl) := decayRows fl (r ++ [f32One]) is
    ((r ++ [f32One]) :: rs, fl)

/-- y_t of the step with index k of a chunk (R217). -/
def chunkY (f : Fmt) (ins : List ScanIn) (h : List Nat) (fl : Flags) (k : Nat) (i : ScanIn) (g : List Nat) : Nat × Flags :=
  let (m, fl) := mapFl fl (fun fl (j : Nat) =>
    let s := ins.getD j i
    let cb := Fmt.f32.sum .rne false ((i.c.zip s.b).map fun p => scTerm p.1 p.2)
    let (m, fl) := scMul (fl ||| cb.fl) cb.val (g.getD (j + 1) 0)
    (scTerm m s.x, fl)) (List.range (k + 1))
  let (cg, fl) := mapFl fl (fun fl (p : Nat × Nat) =>
    let (v, fl) := scMul fl p.1 (g.getD 0 0)
    (scTerm v p.2, fl)) (i.c.zip h)
  let y := f.sum .rne false (m ++ cg)
  (y.val, fl ||| y.fl)

/-- One chunk of a channel: the handover state and the outputs (R217). -/
def ssChunk (f : Fmt) (fl : Flags) (ins : List ScanIn) (h : List Nat) : List Nat × List Nat × Flags :=
  let (gs, fl) := decayRows fl [f32One] ins
  let (ys, fl) := mapFl fl (fun fl (p : (ScanIn × List Nat) × Nat) => chunkY f ins h fl p.2 p.1.1 p.1.2)
    ((ins.zip gs).zipIdx)
  let last := gs.getLastD [f32One]
  let (h', fl) := mapFl fl (fun fl (p : Nat × Nat) =>
    let (d, hd) := p
    let (ts, fl) := mapFl fl (fun fl (q : ScanIn × Nat) =>
      let (bw, fl) := scMul fl (q.1.b.getD d 0) (last.getD (q.2 + 1) 0)
      (scTerm bw q.1.x, fl)) ins.zipIdx
    let r := Fmt.f32.sum .rne false (scTerm (last.getD 0 0) hd :: ts)
    (r.val, fl ||| r.fl)) ((List.range h.length).zip h)
  (h', ys, fl)

/-! ### Data (R219, R430) -/

/-- A data access of a SCAN: its offset, its bytes, and whether it writes. -/
abbrev ScanAcc := Nat × Nat × Bool

/-- What keeps a SCAN from going on: a data access that finds no page, with the miss, the address and whether it
writes; a trap that an access meets (log 90); or a link that retrains (R284). -/
inductive ScanStop where
  | miss (m : Miss) (va : DWord) (write : Bool)
  | trap (t : TrapInfo)
  | hold

/-- What one access of mapped memory meets: a race, a soft error or a denial (R307, R375, R286). -/
def State.scanTrap (s : State) (h : Hit) (va : DWord) (n : Nat) (w : Bool) : Option TrapInfo :=
  if h.disc && !w then none
  else match (if s.checked then s.raceByte h.dpa n else none) with
    | some (b, op) => some ⟨.mmrace, false, BitVec.ofNat 16 op, va + BitVec.ofNat 64 b, 0, 0⟩
    | none => match (if w then none else s.poisoned h.dpa n) with
      | some code => some (eccTrap code va 0)
      | none =>
        if s.globalOk s.group.tower h.mtype s.group.job kindWave (!w) w false h.dpa (h.dpa + n) then none
        else some (.at_ .acctbl va 0)

/-- The first of some accesses that cannot be performed. -/
def State.scanStop (s : State) (e : BitVec 256) (l : List ScanAcc) : Option ScanStop :=
  if hSpace e = 2 then none
  else if s.link.retraining && l.any (fun a => s.walkFar s.group.job s.group.tower (vaOf e a.1)) then some .hold
  else (l.findSome? fun (o, _, w) =>
      match s.translate s.group.job s.group.tower (if w then .write else .read) (vaOf e o) with
      | .error .link => some (.trap (.at_ .linkfail (vaOf e o) 0))
      | .error m => some (.miss m (vaOf e o) w)
      | .ok h => if s.link.retraining ∧ dpaTower h.dpa ≠ s.group.tower then some .hold else none).or
    (l.findSome? fun (o, n, w) =>
      match s.translate s.group.job s.group.tower (if w then .write else .read) (vaOf e o) with
      | .error _ => none
      | .ok h => (s.scanTrap h (vaOf e o) n w).map .trap)

/-- The reads of some accesses as reads of the wave: the releases read are remembered (R219, R297), and the accesses
to the other tower's pages counted (R282). -/
def State.scanSee (s : State) (e : BitVec 256) (l : List ScanAcc) : State :=
  (l.filter fun a => !a.2.2).foldl (fun s (o, n, _) =>
    if hSpace e = 2 then s.readRel none (locLocal s.group.unit (localOff e o)) n (BitVec.ofNat 64 o)
    else match s.translate s.group.job s.group.tower .read (vaOf e o) with
      | .ok h => ((s.walkEcc s.group.job s.group.tower (vaOf e o)).readHit none h n (vaOf e o)).touch h
      | .error _ => s) s

/-- Read an element as an F32 pattern. -/
def State.scanRead (s : State) (e : BitVec 256) (f : Fmt) (o n : Nat) : Nat :=
  let v := if hSpace e = 2 then Mem.readNat (s.localMem s.group.unit) (localOff e o) n
    else match s.translate s.group.job s.group.tower .read (vaOf e o) with
      | .ok h => Mem.number (s.load h n)
      | .error _ => 0
  if f = .f32 then v else (f.convert .f32 .rne false v).val

/-- Write an element. -/
def State.scanWrite (s : State) (e : BitVec 256) (o n v : Nat) : State :=
  if hSpace e = 2 then s.localStore (localOff e o) (Mem.bytes v n) (s.relBy none)
  else match s.translate s.group.job s.group.tower .write (vaOf e o) with
    | .error _ => s
    | .ok h =>
      let s := ((s.walkEcc s.group.job s.group.tower (vaOf e o)).revive h).touch h
      let s := s.store h.dpa (Mem.bytes v n) s.group.depth false (s.relBy none)
      if s.checked then s.openBytes h.dpa n else s

/-- The channels of a group of 8. -/
def scChans (c : BitVec 1024) (g : Nat) : List Nat := ((List.range 8).map (8 * g + ·)).filter (· < scP c)

/-- The accesses of a stage: `len` steps from t0 of channel group g, or the write of hN for length 0. -/
def scAccesses (c : BitVec 1024) (g t0 len : Nat) : List ScanAcc :=
  let es := scEs c
  let ps := scChans c g
  let ds := List.range (scD c)
  let ts := (List.range len).map (t0 + ·)
  let hs (k : Nat) (w : Bool) := ps.flatMap fun p => ds.map fun d => (scOff c k + (p * scD c + d) * 4, 4, w)
  if len = 0 then hs 6 true
  else (if t0 = 0 ∧ scH0v c then hs 5 false else []) ++
    (ts.flatMap fun t =>
      (ps.map fun p => (scOff c 0 + (t * scP c + p) * es, es, false)) ++
      (ds.map fun d => (scOff c 1 + (t * scD c + d) * es, es, false)) ++
      (ds.map fun d => (scOff c 2 + (t * scD c + d) * es, es, false)) ++
      (ps.map fun p => (scOff c 3 + (t * scP c + p) * es, es, false))) ++
    (ts.flatMap fun t => ps.map fun p => (scOff c 4 + (t * scP c + p) * es, es, true))

/-- The inputs of channel p at step t. -/
def State.scanIn (s : State) (e : BitVec 256) (c : BitVec 1024) (p t : Nat) : ScanIn :=
  let es := scEs c
  let f := scFmt c
  let row (k : Nat) := (List.range (scD c)).map fun d => s.scanRead e f (scOff c k + (t * scD c + d) * es) es
  ⟨s.scanRead e f (scOff c 0 + (t * scP c + p) * es) es, s.scanRead e f (scOff c 3 + (t * scP c + p) * es) es, row 1, row 2⟩

/-- The state of channel p before a stage. -/
def State.scanState (s : State) (e : BitVec 256) (q : ScanProg) (p t0 : Nat) : List Nat :=
  let c := q.scb
  (List.range (scD c)).map fun d =>
    if t0 = 0 then (if scH0v c then s.scanRead e .f32 (scOff c 5 + (p * scD c + d) * 4) 4 else 0)
    else (Table.get 0 q.state (p * scD c + d)).toNat

/-- Store the state of channel p. -/
def ScanProg.put (q : ScanProg) (p : Nat) (h : List Nat) : ScanProg :=
  { q with state := h.zipIdx.foldl (fun t (v, d) => Table.set 0 t (p * scD q.scb + d) (BitVec.ofNat 32 v)) q.state }

/-- Run one stage of a channel group whose accesses all have pages; the inputs are read before anything is
written. -/
def State.scanStage (s : State) (e : BitVec 256) (q : ScanProg) (g t0 len : Nat) : State × ScanProg :=
  let c := q.scb
  if len = 0 then
    let s := (scChans c g).foldl (fun s p => (List.range (scD c)).foldl (fun s d =>
      s.scanWrite e (scOff c 6 + (p * scD c + d) * 4) 4 (Table.get 0 q.state (p * scD c + d)).toNat) s) s
    (s, { q with done := Table.set 0 q.done g (t0 + 1) })
  else
    let chan (p : Nat) : Nat × List Nat × List Nat × Flags :=
      let ins := (List.range len).map fun k => s.scanIn e c p (t0 + k)
      let h := s.scanState e q p t0
      if len = 1 then
        let (h, y, fl) := ssStep (scFmt c) 0 (ins.getD 0 ⟨0, 0, [], []⟩) h
        (p, h, [y], fl)
      else (p, ssChunk (scFmt c) 0 ins h)
    let outs := (scChans c g).map chan
    let s := outs.foldl (fun s (p, _, ys, _) => ys.zipIdx.foldl (fun s (y, k) =>
      s.scanWrite e (scOff c 4 + ((t0 + k) * scP c + p) * scEs c) (scEs c) y) s) s
    let q := outs.foldl (fun q (p, h, _, fl) => { q.put p h with fl := (q.put p h).fl ||| fl }) q
    (s, { q with done := Table.set 0 q.done g (t0 + len) })

/-- The stages of an SCB, group after group: (group, first step, steps) (R215). -/
def scStages (c : BitVec 1024) : List (Nat × Nat × Nat) :=
  let q := scQ c
  let n := chunksOf (scL c) (scThr c) q
  let one := ((List.range n).map fun i => (i * q, q)) ++
    ((List.range (scL c - n * q)).map fun i => (n * q + i, 1)) ++
    (if scHnw c then [(scL c, 0)] else [])
  (List.range ((scP c + 7) / 8)).flatMap fun g => one.map fun r => (g, r)

/-- Run stages until one has an access that cannot be performed. -/
def scanGo (e : BitVec 256) : List (Nat × Nat × Nat) → State → ScanProg → State × ScanProg × Option ScanStop
  | [], s, q => (s, q, none)
  | (g, t0, len) :: ls, s, q =>
    if t0 < Table.get 0 q.done g then scanGo e ls s q
    else match s.scanStop e (scAccesses q.scb g t0 len) with
      | some m => (s, q, some m)
      | none =>
        let (s, q) := (s.scanSee e (scAccesses q.scb g t0 len)).scanStage e q g t0 len
        scanGo e ls s q

/-- Run or continue a SCAN: its results, or its parked state with one record of KIND 1 (R219, R430, log 89). A trap
that a stage meets ends the SCAN there (log 90). -/
def State.scanRun (s : State) (q : ScanProg) : State :=
  let (s, q, r) := scanGo (s.entry (scDh q.scb)) (scStages q.scb) s q
  match r with
  | none =>
    let s := { s with wave := { s.wave with scan := none } }
    (match q.d with
      | .s n => { s with wave := s.wave.setS n (ssWord (scL q.scb) (scThr q.scb) (scQ q.scb)) }
      | _ => s).raise q.fl
  | some (.trap t) => ({ s with wave := { s.wave with scan := none } } : State).post (some t)
  | some .hold => { s with wave := { s.wave with scan := some q } }
  | some (.miss m va wr) =>
    let (c, d) : Cause × Nat := match m with | .bad _ d => (.xlate, d) | m => (m.cause, 0)
    let s := s.report s.group.tower { s.waveRec c 1 q.pc with
      addr := va, info := (if wr then 1 else 0) + 2 + 4 * 5, detail := BitVec.ofNat 64 d }
    { s with wave := { s.wave with scan := some { q with stop := some (c, va) } } }

/-! ### The instructions -/

/-- The tests that precede a SCAN's data accesses where its pages are mapped: races, soft errors, and the
access tables (R239, R307, R375, R286). -/
def Ctx.scanAccess (x : Ctx) (c : BitVec 1024) : Except Out Plan := do
  let e := x.s.entry (scDh c)
  if hSpace e = 2 then .ok ⟨[], [], [], []⟩
  else
    let one (r : Nat × Nat × Nat × Bool) : Except Out Plan :=
      let ls := ((List.range r.2.2.1).map fun (k : Nat) => (32, (r.1 + k * r.2.1 : Int))).filter fun p =>
        match x.s.translate x.s.group.job x.s.group.tower (if r.2.2.2 then .write else .read) (vaOf e p.2) with
        | .ok _ => true | .error _ => false
      x.plan e ⟨if r.2.2.2 then .write else .read, !r.2.2.2, r.2.2.2, false, true, kindWave⟩ r.2.1 ls
    let ps ← (scRanges c).mapM one
    .ok ⟨[], [], ps.flatMap Plan.denied, []⟩

/-- R219: the SCB is read and checked, then the recurrence runs. It waits for the wave's earlier tile
stores, which it sees. -/
def execScan (f : Fields) (s : State) : Res :=
  .next (issue (.scan f) f (fun x => ends do
    let h := x.s.entry (hOf f)
    let need : Need := { spaces := [1], rd := true }
    if x.s.wave.cmds.any fun c => c.op.stores then .error (.stall x.s)
    x.sound (hOf f)
    if !needBad need h && decide ((vaOf h (x.off 0)).toNat % 128 ≠ 0) then
      .error (.trap (.at_ .align (BitVec.ofInt 64 (x.off 0)) 0) x.s)
    let (e, x) ← x.access need 128 1 x.uniOff
    let p0 ← x.plan e ⟨.read, true, false, false, true, kindWave⟩ 128 x.uniOff
    match p0.go with
    | [] => .ok (p0.out false (p0.deny x.s))
    | g :: _ =>
      let c : BitVec 1024 := BitVec.ofNat 1024 (Mem.number (x.s.load g.hit 128))
      x.sound (scDh c)
      match x.scanBad c with
      | some t => .error (.trap t x.s)
      | none =>
        let p ← x.scanAccess c
        let s := ((p0.records x.s).readHit none g.hit 128 g.va).touch g.hit
        let s := s.useHandle (scDh c) (s.entry (scDh c))
        if !p.denied.isEmpty then .ok (.done (p.deny s))
        else .ok (.done (s.fed.scanRun ⟨c, f.d, f.hint.tok.toNat, [], [], 0, none, s.wave.pairStart⟩))) s)

/-- R221 -/
def execScanst (f : Fields) (s : State) : Res :=
  .next (issue (.scanst f) f (fun x =>
    let l := (x.uni f.a).toNat
    let w := if l = 0 then 0 else ssWord l (x.uni f.b).toNat (chunkLen (mbits f 1 0))
    .done (x.s.writeS f.d .int w)) s)

end Sys2Proof.Machine
end

