-- ==== Sys2Proof/Machine/Levels.lean ====
section
/-! DEFINITION. Levels of work (R16-R22, R33, R34): the submission of records (R39, R40, R92, R423), the
decrements at a retirement and the retirement of levels, links to predecessors (R96), cancellation (R99), and
CTRADD (R326). -/

namespace Sys2Proof.Machine

/-! ### The hardware's own accesses (R308, R423) -/

/-- What the hardware finds at an address of a record. -/
inductive HwAt where
  | at_ (h : Hit)
  | miss (m : Miss)
  /-- an access table denies it (R286) -/
  | denied (cls : Nat)
  /-- it lies over the link, which retrains (R284) -/
  | wait

/-- Translate a record's address in the job's tables for n bytes. -/
def State.hwAt (s : State) (job : Nat) (t : TowerId) (write : Bool) (n : Nat) (va : DWord) : HwAt :=
  if s.link.retraining && s.walkFar job t va then .wait
  else match s.translate job t (if write then .write else .read) va with
  | .error m => .miss m
  | .ok h =>
    if s.link.retraining ∧ dpaTower h.dpa ≠ t ∧ (write ∨ !h.disc) then .wait
    else match s.denyClass t h.mtype job kindHw true write false h.dpa (h.dpa + n) with
    | none => .at_ h
    | some c => .denied c

/-- The hardware of a tower reaches a page by an address: poisoned entries of the walk have their records (R375), and the
access is counted (R282). -/
def State.hwReach (s : State) (job : Nat) (t : TowerId) (va : DWord) (h : Hit) : State :=
  (s.walkEcc job t va).touchFrom t h
/-- It reads n bytes there: a poisoned one has its record (R375). -/
def State.hwSee (s : State) (job : Nat) (t : TowerId) (va : DWord) (h : Hit) (n : Nat) : State :=
  (s.hwReach job t va h).hwEcc job t va h.dpa n

/-- The record of a denied hardware access: the address, the master and the target class (R286, R358). -/
def State.deniedRec (s : State) (job : Nat) (t : TowerId) (va : DWord) (cls : Nat) : State :=
  s.report t { cause := .acctbl, kind := 0, job := job, addr := va, info := 2 ^ kindHw, detail := BitVec.ofNat 64 cls }

/-- The record of a hardware use whose translation fails (R423, R358); a link that is down gives none. -/
def State.missRec (s : State) (job : Nat) (t : TowerId) (va rec : DWord) (m : Miss) (write : Bool) : State :=
  let r (c : Cause) : RecArgs :=
    { cause := c, kind := 0, job := job, addr := va, recAt := rec, info := if write then 1 else 0 }
  match m with
  | .np => s.report t (r .pagenp)
  | .prot => s.report t (r .pageprot)
  | .bad l d => s.report t { r .xlate with info := l, detail := BitVec.ofNat 64 d }
  | .link => s

/-- The class that denies the hardware of a tower an access to n bytes of a record at a DPA; MTYPE 0 is what the tables see
of a record (R285, R286). -/
def State.hwDeny (s : State) (job : Nat) (t : TowerId) (write : Bool) (dpa n : Nat) : Option Nat :=
  s.denyClass t 0 job kindHw true write false dpa (dpa + n)

/-- The hardware of a tower reads n bytes of a record at a DPA: the access is counted (R282), and a poisoned or denied one
has its record (R375, R286). -/
def State.hwRead (s : State) (job : Nat) (t : TowerId) (va : DWord) (dpa n : Nat) : State :=
  let s := (s.touchDpa t dpa).hwEcc job t va dpa n
  match s.hwDeny job t false dpa n with
  | some c => s.deniedRec job t va c
  | none => s

/-- The hardware of a tower writes bytes of a record at a DPA. Beyond a link that is down the write is not performed (R284),
and a denied one writes a record (R286). -/
def State.hwPut (s : State) (job : Nat) (t : TowerId) (va : DWord) (dpa : Nat) (bs : List Byte) (depth : Nat) : State :=
  if s.link.down ∧ dpaTower dpa ≠ t then s
  else match s.hwDeny job t true dpa bs.length with
    | some c => s.deniedRec job t va c
    | none => (s.touchDpa t dpa).hwStore dpa bs depth

/-- A write of the hardware's own state into a record: while the link keeps it waiting it is held as a step (R284). -/
def State.hwOwn (s : State) (job : Nat) (t : TowerId) (va : DWord) (dpa : Nat) (x : DWord) (depth : Nat) (step : HwStep) : State :=
  if s.link.retraining ∧ dpaTower dpa ≠ t then { s with held := s.held ++ [⟨job, t, depth, [step], (s.tower t).now + 2500⟩] }
  else s.hwPut job t va dpa (Mem.bytes x.toNat 8) depth

/-- A 64-bit word of memory. -/
def State.read64 (s : State) (dpa : Nat) : DWord := Mem.read64 s.mem dpa
/-- A hardware write of a 64-bit word. -/
def State.hw64 (s : State) (dpa : Nat) (x : DWord) (depth : Nat) : State := s.hwStore dpa (Mem.bytes x.toNat 8) depth

/-- Store a number as the 64-bit word of a counter. -/
def counterWord (x : Int) : DWord := BitVec.ofInt 64 x

/-! ### Launch images (Table 1.6) -/

def lnEntry (l : BitVec 1024) (k : Nat) : Nat := launchBits l (if k = 0 then 0 else 24 + 8 * k) 63 0
def lnGx (l : BitVec 1024) : Nat := launchBits l 16 15 0
def lnGy (l : BitVec 1024) : Nat := launchBits l 18 15 0
def lnGz (l : BitVec 1024) : Nat := launchBits l 20 15 0
/-- The tile count (R30). -/
def lnTiles (l : BitVec 1024) : Nat := lnGx l * lnGy l * lnGz l
def lnClass (l : BitVec 1024) : Nat := launchBits l 26 2 0
def lnPrio (l : BitVec 1024) : Nat := launchBits l 26 5 3
/-- A flag of byte 27. -/
def lnFlag (l : BitVec 1024) (k : Nat) : Bool := launchBits l 27 k k = 1
def lnEarly (l : BitVec 1024) : Bool := lnFlag l 0
def lnGang (l : BitVec 1024) : Bool := lnFlag l 4
def lnCmask (l : BitVec 1024) : Bool := lnFlag l 5
/-- The role words of loader, computer and storer, k = 0, 1, 2 (Table 1.7). -/
def lnRole (l : BitVec 1024) (k : Nat) : Nat := launchBits l (56 + 4 * k) 31 0
def lnGroups (l : BitVec 1024) (k : Nat) : Nat := lnRole l k / 2 ^ 16 % 16
/-- Weight of tower t, and of layer n of tower t (R29). -/
def lnWt (l : BitVec 1024) (t : TowerId) : Nat := launchBits l 68 (4 * t.val + 3) (4 * t.val)
def lnWl (l : BitVec 1024) (t : TowerId) (n : Nat) : Nat := launchBits l (69 + 4 * t.val) (4 * n + 3) (4 * n)
def lnDonectr (l : BitVec 1024) : DWord := l.extractLsb' 640 64
def lnSucc (l : BitVec 1024) : DWord := l.extractLsb' 704 64
def lnPred (l : BitVec 1024) : DWord := l.extractLsb' 768 64
def lnGraph (l : BitVec 1024) : DWord := l.extractLsb' 832 64

/-- VBUDGET, WAVESM1 and LOCAL of a PARAMS word that Table 1.12 refuses. -/
def paramsBad (p : Nat) : Bool := decide (p % 64 = 0 ∨ 40 < p % 64 ∨ 48 < p / 2 ^ 10 % 64)

/-- A partition vector that R29 does not allow. -/
def partitionBad (l : BitVec 1024) : Bool :=
  let towers : List TowerId := [0, 1]
  let layers (t : TowerId) := (List.range 8).any fun n => decide (lnWl l t n ≠ 0)
  let zero := towers.all fun t => decide (lnWt l t = 0) && !layers t
  !zero && !(towers.any (fun t => decide (lnWt l t ≠ 0)) && towers.all fun t => decide (lnWt l t = 0) || layers t)

/-- The role table of a gang launch outside R28. -/
def rolesBad (l : BitVec 1024) : Bool :=
  let n := lnGroups l 0 + lnGroups l 1 + lnGroups l 2
  decide (n < 2 ∨ 8 < n ∨ lnGroups l 1 = 0) ||
    ([0, 1, 2].any fun k => decide (lnRole l k / 2 ^ 20 ≠ 0) ||
      (if lnGroups l k = 0 then decide (lnRole l k ≠ 0 ∨ lnEntry l (k + 1) ≠ 0) else paramsBad (lnRole l k)))

/-- The checks of Table 1.12 on the bytes of a launch record alone. -/
def launchBad (l : BitVec 1024) (job : Nat) (priv : Bool) : Bool :=
  ([0, 1, 2, 3].any fun k => decide (lnEntry l k % 4 ≠ 0)) ||
  decide (lnTiles l = 0 ∨ 2 ^ 28 ≤ lnTiles l ∨ launchBits l 22 15 0 ≠ 0 ∨ 5 ≤ lnClass l ∨
    launchBits l 26 7 6 ≠ 0 ∨ launchBits l 27 7 6 ≠ 0 ∨ launchBits l 30 15 0 ≠ 0 ∨ launchBits l 77 23 0 ≠ 0) ||
  (lnCmask l && !priv) || decide (launchBits l 28 11 0 ≠ 0 ∧ launchBits l 28 11 0 ≠ job) ||
  decide (lnDonectr l = 0 ∨ (lnDonectr l).toNat % 8 ≠ 0 ∨ (lnSucc l).toNat % 16 ≠ 0 ∨
    (lnPred l).toNat % 128 ≠ 0 ∨ launchBits l 112 7 2 ≠ 0 ∨ launchBits l 114 47 0 ≠ 0 ∨ launchBits l 120 63 0 ≠ 0) ||
  partitionBad l ||
  (if lnGang l then decide (lnEntry l 0 ≠ 0 ∨ launchBits l 24 15 0 ≠ 0) || rolesBad l
   else decide (launchBits l 32 287 0 ≠ 0) || lnFlag l 2 || paramsBad (launchBits l 24 15 0))

/-! ### Level records (Table 1.9) -/

def State.recKind (s : State) (dpa : Nat) : Nat := (Mem.read s.mem (dpa + 32)).toNat % 4
def State.recRetired (s : State) (dpa : Nat) : Bool := (Mem.read s.mem (dpa + 32)).getLsbD 2

/-- A record of a KIND that is not retired, with its parents (R34): one on a discarded page reads as zeros, which have no
KIND (R235). -/
def State.levelOk (s : State) (job : Nat) : Nat → DWord → Bool
  | 0, _ => false
  | n + 1, va =>
    match walk s.mem (s.rootOf job) va with
    | .error _ => false
    | .ok h =>
      decide (va.toNat % 64 = 0) && !h.disc && decide (s.recKind h.dpa = 3 - n) && !s.recRetired h.dpa &&
        (n = 0 || State.levelOk s job n (s.read64 (h.dpa + 16)))

/-- The records that a submission with a GRAPH meets on its way up, by address and DPA; the job's own without one
(R18, R34). -/
def State.levelChain (s : State) (job : Nat) : Nat → DWord → List (DWord × Nat)
  | 0, _ => []
  | n + 1, va =>
    match walk s.mem (s.rootOf job) va with
    | .error _ => []
    | .ok h => (va, h.dpa) :: (if n = 0 ∨ h.disc then [] else State.levelChain s job n (s.read64 (h.dpa + 16)))
def State.parents (s : State) (job : Nat) (graph : DWord) : List (DWord × Nat) :=
  if graph = 0 then ((s.findJob job).map fun j => (j.recVa, j.recAt)).toList else s.levelChain job 3 graph

/-- The hardware reads some records of 64 bytes, by address and DPA. -/
def State.seeRecords (s : State) (job : Nat) (t : TowerId) (l : List (DWord × Nat)) : State :=
  l.foldl (fun s r => (s.walkEcc job t r.1).hwRead job t r.1 r.2 64) s

/-- The job's own record is not retired (R34). -/
def State.jobOk (s : State) (job : Nat) : Bool :=
  match s.findJob job with
  | none => false
  | some j => !j.retired && !s.recRetired j.recAt

/-- An address that R423 refuses at acceptance: its leaf is absent, malformed, of MTYPE 1, or not writable. -/
def State.addrBad (s : State) (job : Nat) (write : Bool) (va : DWord) : Bool :=
  decide (va ≠ 0) && match walk s.mem (s.rootOf job) va with
    | .error _ => true
    | .ok h => decide (h.mtype = 1) || (write && !h.w)

/-- An address of the other tower's memory, or one whose walk reads an entry there. -/
def State.across (s : State) (job : Nat) (t : TowerId) (va : DWord) : Bool :=
  decide (va ≠ 0) && (s.walkFar job t va || match walk s.mem (s.rootOf job) va with
    | .error _ => false
    | .ok h => decide (dpaTower h.dpa ≠ t))

/-- While the link is down or retrains: the first of the addresses that an acceptance accesses, the records above it
among them, that lies in the other tower's memory (R284). -/
def State.beyond (s : State) (job : Nat) (t : TowerId) (graph : DWord) (l : List DWord) : Option DWord :=
  if s.link.down || s.link.retraining then
    (l.filter (s.across job t) ++ ((s.parents job graph).filter fun r =>
      decide (dpaTower r.2 ≠ t) || (decide (graph ≠ 0) && s.walkFar job t r.1)).map Prod.fst).head?
  else none

/-! ### Jobs as the towers hold them (R33, R351) -/

/-- The job's own record, which every acceptance and retirement of it reaches, lies over a link that is not up (R284). -/
def State.jobFar (s : State) (job : Nat) (t : TowerId) : Bool :=
  (s.link.down || s.link.retraining) && ((s.findJob job).map fun j => decide (dpaTower j.recAt ≠ t)).getD false

/-- The bits of a control word that are no reserved ones (Table 14.1). -/
def jctlMask : DWord := 0x03FFFFFFFFFF0FFF

/-- A tower holds a job: it has accepted work of it. -/
def Job.liveIn (j : Job) (t : TowerId) : Bool := if t = 0 then j.live0 else j.live1

/-- A tower accepts work of a job: at its first, it loads the control word from the job's record, and the tables'
addresses too unless the other tower holds them (R33, R351). -/
def State.openJob (s : State) (job : Nat) (t : TowerId) : State :=
  match s.findJob job with
  | none => s
  | some j =>
    if j.liveIn t then s
    else
      let w := s.read64 (j.recAt + 56) &&& jctlMask
      let j' : Job := if j.live0 || j.live1 then j else { j with
        htab := s.read64 (j.recAt + 40), ptroot := s.read64 (j.recAt + 48) }
      let j' : Job := if t = 0 then { j' with live0 := true, jctl0 := w } else { j' with live1 := true, jctl1 := w }
      (s.hwRead job t j.recVa j.recAt 64).mapJob job fun _ => j'

/-! ### Cancellation as a state of levels (R21, R22, R99) -/

def State.jobReq (s : State) (job : Nat) : Bool := match s.findJob job with | some j => j.req | none => false
/-- REASON of a job's request. -/
def State.jobReason (s : State) (job : Nat) : Option (BitVec 8) :=
  (s.findJob job).bind fun j => if j.req then some j.reason else none

/-- The known graph or phase record at a DPA. -/
def State.findLevel (s : State) (job dpa : Nat) : Option LiveLevel := s.levels.find? fun q => q.job = job && q.at_ = dpa
/-- Enter a record, or renew its entry. -/
def State.putLevel (s : State) (q : LiveLevel) : State :=
  { s with levels := if (s.findLevel q.job q.at_).isSome
      then s.levels.map fun r => if r.job = q.job ∧ r.at_ = q.at_ then q else r
      else s.levels ++ [q] }

/-- REASON of the request that stands at a record, or above it: its own first, then that of the record at `up`, then
the job's (R99). -/
def State.reasonAt (s : State) (job dpa up : Nat) : Option (BitVec 8) :=
  let one (d : Nat) : Option (BitVec 8) := (s.findLevel job d).bind fun q => if q.req then some q.reason else none
  ((one dpa).or (one up)).or (s.jobReason job)

/-- Is a live launch cancelled, itself or by a level above? -/
def State.launchReq (s : State) (l : Launch) : Bool :=
  l.req || s.jobReq l.job || ((s.findLevel l.job l.graphAt).map LiveLevel.req).getD false

/-- The live launch at an address of a job (R96). -/
def State.liveAt (s : State) (job : Nat) (va : DWord) : Option Launch :=
  s.launches.find? fun l => l.job = job && l.addr = va

/-- The live launch whose record stands at a DPA. -/
def State.liveDpa (s : State) (dpa : Nat) : Option Launch := s.launches.find? fun l => l.dpa = dpa

/-- A cancel word that the hardware writes (Table 1.3). -/
def cancelWord (done : Bool) (reason : BitVec 8) : DWord :=
  BitVec.ofNat 64 (1 + (if done then 2 else 0) + reason.toNat * 256)

/-- A live launch is requested, with a REASON. -/
def State.markLaunch (s : State) (n : Nat) (reason : BitVec 8) : State :=
  s.mapLaunch n fun l => { l with req := true, reason := reason }
/-- A graph or phase record is requested, with a REASON. -/
def State.markLevel (s : State) (q : LiveLevel) (reason : BitVec 8) : State :=
  s.putLevel { q with req := true, reason := reason }

/-- The hardware sets REQ and copies REASON into the cancel word of a live launch below a cancelled level, by a write of a
DEPTH (R99, R113). -/
def State.reqLaunch (s : State) (n : Nat) (reason : BitVec 8) (depth : Nat) : State :=
  match s.findLaunch n with
  | none => s
  | some l => (s.markLaunch n reason).hwOwn l.job l.tower (l.addr + 112) (l.dpa + 112) (cancelWord false reason) depth
      (.request false l.dpa)

/-- The same in a graph or phase record, by the hardware of a tower. -/
def State.reqLevel (s : State) (t : TowerId) (q : LiveLevel) (reason : BitVec 8) (depth : Nat) : State :=
  (s.markLevel q reason).hwOwn q.job t (q.va + 8) (q.at_ + 8) (cancelWord false reason) depth (.request true q.at_)

/-- A word of a record that the hardware looks at: zero on a discarded page (R235), and where the access is denied, whose
record `lookEcc` or `linkEcc` writes (R286, log 117). -/
def State.lookWord (s : State) (job : Nat) (t : TowerId) (h : Hit) (o : Nat) : DWord :=
  if h.disc || (s.hwDeny job t false (h.dpa + o) 8).isSome then 0 else s.read64 (h.dpa + o)

/-- Translate a word that the hardware looks at; one over a link that retrains is waited for as one over a link that is
down (R284). -/
def State.lookAt (s : State) (job : Nat) (t : TowerId) (va : DWord) : Except Miss Hit :=
  if s.link.retraining && s.walkFar job t va then .error .link
  else match s.translate job t .read va with
  | .error m => .error m
  | .ok h => if s.link.retraining ∧ dpaTower h.dpa ≠ t ∧ !h.disc then .error .link else .ok h

/-- Do the cancel words of a level by address, and above it, hold a request (R100)? Of a record that is live the
hardware's own state says so, of a retired one its word in memory. A translation may fail (R423). -/
def State.wordReq (s : State) (job : Nat) (t : TowerId) : Nat → DWord → Except (Miss × DWord) Bool
  | 0, _ => .ok (s.jobReq job)
  | n + 1, va =>
    if va = 0 then .ok (s.jobReq job)
    else match s.lookAt job t va with
      | .error m => .error (m, va)
      | .ok h =>
        if (match s.findLevel job h.dpa with
            | some q => q.req
            | none => !h.disc && s.recRetired h.dpa && (s.lookWord job t h 8).getLsbD 0) then .ok true
        else State.wordReq s job t n (s.lookWord job t h 16)

/-- Is a task that names a launch cancelled through it (R100)? The words stand in memory when it is not live. -/
def State.taskLook (s : State) (job : Nat) (t : TowerId) (va : DWord) : Except (Miss × DWord) Bool :=
  match s.liveAt job va with
  | some l => .ok (s.launchReq l)
  | none => match s.lookAt job t va with
    | .error m => .error (m, va)
    | .ok h => if (s.lookWord job t h 112).getLsbD 0 then .ok true else s.wordReq job t 2 (s.lookWord job t h 104)

/-- The launch that a task's unit names; 0 for none. -/
def WorkUnit.named (u : WorkUnit) : DWord :=
  if u.launch.isNone && u.trigger.isNone then (u.tasks.headD 0).extractLsb' 320 64 else 0

/-- What a unit's own launch word says, for a task that names a launch. -/
def State.unitLook (s : State) (u : WorkUnit) : Except (Miss × DWord) Bool :=
  if u.named ≠ 0 then s.taskLook u.job u.tower u.named else .ok false

/-- The words that a look at a unit reads in memory: poisoned ones have their records (R375). -/
def State.lookEcc (s : State) (u : WorkUnit) : State :=
  if u.named = 0 ∨ (s.liveAt u.job u.named).isSome then s
  else match walk s.mem (s.rootOf u.job) u.named with
    | .error _ => s
    | .ok h =>
      if h.disc then s.walkEcc u.job u.tower u.named
      else ((s.walkEcc u.job u.tower u.named).hwRead u.job u.tower u.named h.dpa 128).seeRecords u.job u.tower
        (s.levelChain u.job 2 (s.lookWord u.job u.tower h 104))

/-- Is a unit cancelled (R99, R100)? -/
def State.unitReq (s : State) (u : WorkUnit) : Bool :=
  u.cancelled || s.jobReq u.job || match u.launch.bind s.findLaunch with
    | some l => s.launchReq l
    | none => match s.unitLook u with | .ok b => b | .error _ => false

/-- A unit whose words cannot be read is held (R423): the use to be held, unless it is held already. -/
def State.lookMiss (s : State) (u : WorkUnit) : Option (Miss × DWord) :=
  match s.unitLook u with
  | .ok _ => none
  | .error m => if u.cancelled || s.jobReq u.job then none else some m

/-! ### Links (R96) -/

/-- The link of a record with PRED at its acceptance (R96). -/
def State.linkOf (s : State) (job : Nat) (t : TowerId) (pred : DWord) : Link :=
  if pred = 0 then .none
  else match s.liveAt job pred with
    | some l => .pending l.id
    | none => match s.translate job t .read pred with
      | .error _ => .satisfied
      | .ok h => if bits (s.lookWord job t h 120) 59 56 = 5 then .cancelled else .satisfied

/-- The status word that decides a link, when it is poisoned, has its record (R375). -/
def State.linkEcc (s : State) (job : Nat) (t : TowerId) (pred : DWord) : State :=
  if pred = 0 ∨ (s.liveAt job pred).isSome then s
  else match s.translate job t .read pred with
    | .error _ => s
    | .ok h => if h.disc then s.walkEcc job t pred else (s.walkEcc job t pred).hwRead job t pred (h.dpa + 120) 8

/-- A retired predecessor settles the links that are pending on it. -/
def State.settleLinks (s : State) (n : Nat) (cancelled : Bool) : State :=
  let f (k : Link) : Link := if k = .pending n then (if cancelled then .cancelled else .satisfied) else k
  { s with launches := s.launches.map fun l => { l with link := f l.link },
           units := s.units.map fun u => { u with link := f u.link } }

/-! ### Acceptance (R92) -/

/-- The status word of a launch (Table 1.8). -/
def Launch.status (l : Launch) : DWord :=
  BitVec.ofNat 64 (packBits [(0, 28, l.issued), (28, 28, l.retired), (56, 4, l.state.toNat)])

/-- Write a launch back to its record, by its dispatcher (R32). -/
def State.putStatus (s : State) (l : Launch) : State :=
  (s.mapLaunch l.id fun _ => l).hwOwn l.job l.tower (l.addr + 120) (l.dpa + 120) l.status l.depth (.status l.id)

/-- The live launches that a tower's dispatcher keeps (R377). -/
def State.launchesOf (s : State) (t : TowerId) : Nat := (s.launches.filter fun l => l.tower = t).length

/-- Count a child into the job (R18). -/
def State.jobAdd (s : State) (job : Nat) (t : TowerId) (n : Int) (depth : Nat) : State :=
  match s.findJob job with
  | none => s
  | some j => match s.hwDeny job t true j.recAt 8 with
    | some c => s.deniedRec job t j.recVa c
    | none => ((s.touchDpa t j.recAt).hwEcc job t j.recVa j.recAt 8).hwCount j.recAt (counterWord (s.counterAt j.recAt + n)) depth

/-- Add to a counter named by an address, at an acceptance. A counter that cannot be written there, on a page without W
or over a link that is down, is left as it stands, without a record (log 105). -/
def State.addAt (s : State) (job : Nat) (t : TowerId) (va : DWord) (n : Int) (depth : Nat) : State :=
  match s.hwAt job t true 8 va with
  | .at_ h =>
    let s := (s.revive h).hwSee job t va h 8
    s.hwCount h.dpa (counterWord (s.counterAt h.dpa + n)) depth
  | .denied c => s.deniedRec job t va c
  | .miss _ => s
  | .wait => s

/-- The DPA of a record by its address; 0 where it has none. -/
def State.dpaOf (s : State) (job : Nat) (va : DWord) : Nat :=
  match walk s.mem (s.rootOf job) va with | .ok h => h.dpa | .error _ => 0

/-- Count a child into the record at an address, a graph with 2 levels to go and a phase with 1, or into the job. The
first child of a record accepts the record itself, which is then counted into its parent (R18, log 41) and takes a
request that stands above it (R99). -/
def State.countChild (job : Nat) (t : TowerId) (depth : Nat) : Nat → DWord → State → State
  | 0, _, s => s.jobAdd job t 1 depth
  | n + 1, va, s =>
    let s := s.addAt job t va 1 depth
    let d := s.dpaOf job va
    let parent := s.read64 (d + 16)
    let q := (s.findLevel job d).getD ⟨job, d, 2 - n, if n = 0 then 0 else s.dpaOf job parent, false, false, 0, va⟩
    if q.counted then s
    else
      let s := State.countChild job t depth n parent (s.putLevel { q with counted := true })
      match s.reasonAt job 0 q.up with
      | some r => s.reqLevel t { q with counted := true } r depth
      | none => s

/-- What a submission answers. -/
inductive Sub where
  | ok (s : State)
  /-- refused under Table 1.12 -/
  | bad
  /-- the tower's table of live launches is full (R377) -/
  | full
  /-- an address that its acceptance accesses stands beyond a link that is down (R284, log 101) -/
  | link (va : DWord)
  /-- an address that its acceptance accesses lies over a link that retrains: the acceptance waits (R284) -/
  | wait

/-- A record that asks the host for a function: CAUSE 0 and KIND 3 (R414). -/
def hostRec (fn job : Nat) : RecArgs := { cause := .illop, kind := 3, job := job, fn := fn }

/-- Submit a launch record at a VA and DPA for a job, with the source that R358 codes, by the dispatcher of a tower
(R39, R92, R96). `holder` is the group, and its unit, whose queue the launch enters. -/
def State.submitLaunch (s : State) (job : Nat) (t : TowerId) (va : DWord) (dpa depth : Nat) (holder : Option (Nat × Nat)) (src : Nat) : Sub :=
  let s := s.openJob job t
  let l : BitVec 1024 := BitVec.ofNat 1024 (Mem.readNat s.mem dpa 128)
  let priv := (s.jctlOf job t).getLsbD 0
  if launchBad l job priv || (s.liveAt job va).isSome || (s.liveDpa dpa).isSome ||
      (if lnGraph l = 0 then !s.jobOk job else !s.levelOk job 3 (lnGraph l)) ||
      s.addrBad job true (lnDonectr l) || s.addrBad job true (lnSucc l) ||
      s.addrBad job true (lnGraph l) || s.addrBad job false (lnPred l) then .bad
  else match s.beyond job t (lnGraph l) [lnDonectr l, lnGraph l, lnPred l] with
  | some a => if s.link.down then .link a else .wait
  | none =>
  if 4096 ≤ s.launchesOf t then .full
  else
    let s := (s.seeRecords job t (s.parents job (lnGraph l))).linkEcc job t (lnPred l)
    let img : BitVec 1024 := BitVec.ofNat 1024 (l.toNat - launchBits l 28 15 0 * 2 ^ 224 + (job + depth * 2 ^ 12) * 2 ^ 224)
    let req := launchBits l 112 0 0 = 1
    let n : Launch :=
      { id := s.seq, addr := va, dpa := dpa, graphAt := if lnGraph l = 0 then 0 else s.dpaOf job (lnGraph l), job := job,
        tower := t, image := img, issued := 0, retired := 0,
        state := 1, req := req, reason := BitVec.ofNat 8 (launchBits l 113 7 0), link := s.linkOf job t (lnPred l),
        hinted := [], next := 0, k0 := 0, k1 := 0, taken := [], depth := depth, seq := s.seq, since := (s.tower t).now, gangfail := false, src := src,
        hostExp := (s.tower t).hostFn 2 }
    let s := { s with launches := s.launches ++ [n], seq := s.seq + 1 }
    let s := s.putStatus n
    let s := s.addAt job t (lnDonectr l) (lnTiles l) depth
    let s := State.countChild job t depth (if lnGraph l = 0 then 0 else 2) (lnGraph l) s
    let s := match s.reasonAt job n.graphAt 0 with | some r => s.reqLaunch n.id r depth | none => s
    let s := if n.hostExp then s.report t { hostRec 3 job with recAt := va } else s
    .ok (match holder with
      | some g => { s with plq := s.plq ++ [⟨job, g.1, g.2, some n.id, none⟩] }
      | none => s)

/-! ### Task records (Table 1.12) -/

/-- The checks of Table 1.12 on the bytes of a task record alone. -/
def taskBad (x : BitVec 512) (job : Nat) (priv : Bool) : Bool :=
  decide (taskBits x 0 63 0 % 4 ≠ 0 ∨ 5 ≤ taskBits x 34 2 0 ∨ taskBits x 34 7 6 ≠ 0 ∨ taskBits x 35 7 3 ≠ 0 ∨
    taskBits x 36 15 12 ≠ 0 ∨ taskBits x 38 15 0 ≠ 0 ∨ taskBits x 48 15 0 ≠ 0 ∨ taskBits x 50 47 0 ≠ 0 ∨
    taskBits x 24 63 0 % 16 ≠ 0 ∨ taskBits x 40 63 0 % 128 ≠ 0 ∨ taskBits x 56 63 0 % 128 ≠ 0 ∨
    (taskBits x 36 11 0 ≠ 0 ∧ taskBits x 36 11 0 ≠ job)) ||
  paramsBad (taskBits x 32 15 0) || (taskBits x 35 2 2 = 1 && !priv)

/-- The addresses of a task that R423 tests: SUCC, LAUNCH and PRED. -/
def State.taskAddrBad (s : State) (job : Nat) (x : BitVec 512) : Bool :=
  s.addrBad job true (x.extractLsb' 192 64) || s.addrBad job false (x.extractLsb' 320 64) ||
    s.addrBad job false (x.extractLsb' 448 64)

/-- Accept a task as a unit (R92): JOB and DEPTH are written into the accepted record (R25). -/
def State.acceptTask (s : State) (job : Nat) (t : TowerId) (x : BitVec 512) (rec : DWord) (depth src : Nat)
    (trigger : Option Nat) (pos : List (BitVec 16 × BitVec 16 × Word)) : State × Nat :=
  let x := setField x 288 16 (job + depth * 2 ^ 12)
  let u : WorkUnit :=
    { id := s.seq, job := job, tower := t, recVa := rec, tasks := [x], launch := none, lin := 0, st := .held,
      layer := 0, cluster := 0, seq := s.seq, link := s.linkOf job t (x.extractLsb' 448 64), started := false,
      cancelled := false, trigger := trigger, since := (s.tower t).now, posblk := pos,
      src := src, readyAt := 0, placed := 0 }
  ((({ s with units := s.units ++ [u], seq := s.seq + 1 }.openJob job t).linkEcc job t (x.extractLsb' 448 64)).jobAdd job t 1 depth,
    s.seq)

/-- Submit a task record at a DPA (R39, R92). -/
def State.submitTask (s : State) (job : Nat) (t : TowerId) (va : DWord) (dpa depth : Nat) (holder : Option (Nat × Nat)) (src : Nat) : Sub :=
  let s := s.openJob job t
  let x : BitVec 512 := BitVec.ofNat 512 (Mem.readNat s.mem dpa 64)
  if taskBad x job ((s.jctlOf job t).getLsbD 0) || !s.jobOk job || s.taskAddrBad job x then .bad
  else match s.beyond job t 0 [x.extractLsb' 448 64] with
  | some a => if s.link.down then .link a else .wait
  | none =>
    let (s, n) := s.acceptTask job t x va depth src none []
    .ok (match holder with
      | some g => { s with plq := s.plq ++ [⟨job, g.1, g.2, none, some n⟩] }
      | none => s)

/-! ### Retirement (R17-R20, R379) -/

/-- A decrement of a counter at a DPA by the hardware: the counter's new value; none below zero (R17). -/
def State.decAt (s : State) (dpa depth : Nat) : Option (State × Int) :=
  let c := s.counterAt dpa
  if c ≤ 0 then none else some (s.hwCount dpa (counterWord (c - 1)) depth, c - 1)

/-- The record of a decrement that would pass below zero; its source is not stated (log 19). -/
def State.underRec (s : State) (job : Nat) (t : TowerId) (va : DWord) : State :=
  { s.report t { cause := .ctrunder, kind := 0, job := job, recAt := va, info := (Config.freeWord s.free).toNat } with
    free := s.free + 1 }

/-- The record of a cancelled level's retirement (R99, R358). -/
def State.cancelRec (s : State) (job : Nat) (t : TowerId) (word : DWord) (reason : BitVec 8) : State :=
  s.report t { cause := .cancelled, kind := 0, job := job, recAt := word, info := reason.toNat }

/-- A pending-launch queue entry is freed (Table 4.2). -/
def State.freePlq (s : State) (p : PlqEntry → Bool) : State := { s with plq := s.plq.filter fun e => !p e }

/-- Retire a launch whose tiles have all retired (R379 step 3). -/
def State.retireLaunch (s : State) (l : Launch) : State × List HwStep :=
  let req := s.launchReq l
  let s := s.putStatus { l with state := if req then 5 else 4 }
  let s := if req then
      let s := s.hwPut l.job l.tower (l.addr + 112) (l.dpa + 112) (Mem.bytes (cancelWord true l.reason).toNat 8) l.depth
      if l.gangfail then s else s.cancelRec l.job l.tower (l.addr + 112) l.reason
    else s
  let s := (s.settleLinks l.id req).freePlq fun e => e.launch = some l.id
  ({ s with launches := s.launches.filter fun x => x.id ≠ l.id },
    (if lnGraph l.image = 0 then [.job] else [.level (lnGraph l.image) l.addr 1]) ++
    (if lnSucc l.image = 0 then [] else [.block (lnSucc l.image) l.addr]))

/-- Retire a graph or phase record at a DPA (R17). -/
def State.retireLevel (s : State) (job : Nat) (t : TowerId) (va : DWord) (dpa kind depth : Nat) : State × List HwStep :=
  let parent := s.read64 (dpa + 16)
  let s := s.hwPut job t (va + 32) (dpa + 32) [Mem.read s.mem (dpa + 32) ||| 4] depth
  let s := match s.reasonAt job dpa (if kind = 1 then s.dpaOf job parent else 0) with
    | some r => (s.hwPut job t (va + 8) (dpa + 8) (Mem.bytes (cancelWord true r).toNat 8) depth).cancelRec job t (va + 8) r
    | none => s
  let s := { s with levels := s.levels.filter fun q => !(q.job = job ∧ q.at_ = dpa) }
  (s, .level parent va (kind + 1) ::
    (if s.read64 (dpa + 24) = 0 then [] else [.block (s.read64 (dpa + 24)) va]))

/-- What leaves the machine with a job: its watch entries and frames (R109), and its pins (R236). -/
def Tower.dropJob (t : Tower) (job : Nat) : Tower :=
  { t with watches := t.watches.filter fun e => e.1 / 64 ≠ job, frames := t.frames.filter fun e => e.2 ≠ job,
           pins := t.pins.filter fun p => p.2.2 ≠ job, changes := t.changes.filter fun c => c.job ≠ job }

/-- Retire a job (R17). -/
def State.retireJob (s : State) (j : Job) (t : TowerId) (depth : Nat) : State × List HwStep :=
  let s := s.hwPut j.id t (j.recVa + 32) (j.recAt + 32) [Mem.read s.mem (j.recAt + 32) ||| 4] depth
  let s := if j.req then
      (s.hwPut j.id t (j.recVa + 8) (j.recAt + 8) (Mem.bytes (cancelWord true j.reason).toNat 8) depth).cancelRec j.id t (j.recVa + 8) j.reason
    else s
  let s := (s.mapTower 0 fun x => x.dropJob j.id).mapTower 1 fun x => x.dropJob j.id
  let succ := s.read64 (j.recAt + 24)
  (s.mapJob j.id fun x => { x with retired := true, live0 := false, live1 := false },
    if succ = 0 then [] else [.block succ j.recVa])

/-- How a step of the hardware ends: performed, with the steps that follow from it, or held. -/
inductive HwOut where
  | go (s : State) (more : List HwStep)
  | hold (m : Miss) (va rec : DWord) (write : Bool)

/-- One step of a retirement (R17, R19, R20). -/
def State.hwStep (s : State) (job : Nat) (t : TowerId) (depth : Nat) : HwStep → HwOut
  | .block va rec =>
    match s.hwAt job t true 16 va with
    | .miss m => .hold m va rec true
    | .wait => .hold .link va rec true
    | .denied c => .go (s.deniedRec job t va c) []
    | .at_ h => match ((s.revive h).hwSee job t va h 16).decAt h.dpa depth with
      | none => .go (s.underRec job t va) []
      | some (s, c) =>
        let a := s.read64 (h.dpa + 8)
        .go s (if c = 0 ∧ a ≠ 0 then [.submit a va (dpaTower h.dpa)] else [])
  | .submit va rec d =>
    match s.hwAt job d true 128 va with
    | .miss m => .hold m va rec true
    | .wait => .hold .link va rec true
    | .denied c => .go (s.deniedRec job d va c) []
    | .at_ h =>
      let no (c : Cause) : HwOut := .go (s.report d { cause := c, kind := 0, job := job, recAt := va, info := 2 }) []
      if va.toNat % 128 ≠ 0 then no .lnchbad
      else match ((s.revive h).hwSee job d va h 128).submitLaunch job d va h.dpa depth none 2 with
        | .ok s => .go s []
        | .link a => .hold .link a va true
        | .wait => .hold .link va rec true
        | .bad => no .lnchbad
        | .full => no .lnchfull
  | .done va rec =>
    match s.hwAt job t true 8 va with
    | .miss m => .hold m va rec true
    | .wait => .hold .link va rec true
    | .denied c => .go (s.deniedRec job t va c) []
    | .at_ h => match ((s.revive h).hwSee job t va h 8).decAt h.dpa depth with
      | none => .go (s.underRec job t va) []
      | some (s, _) => .go s []
  | .tile n =>
    match s.findLaunch n with
    | none => .go s []
    | some l =>
      if s.link.retraining ∧ dpaTower l.dpa ≠ l.tower then .hold .link l.addr l.addr true
      else
      let l := { l with retired := l.retired + 1 }
      if l.retired = lnTiles l.image then
        let (s, more) := s.retireLaunch l
        .go s more
      else .go (s.putStatus l) []
  | .level va rec kind =>
    match s.hwAt job t (kind ≠ 3) 64 va with
    | .miss m => .hold m va rec true
    | .wait => .hold .link va rec true
    | .denied c => .go (s.deniedRec job t va c) []
    | .at_ h => match ((s.revive h).hwSee job t va h 64).decAt h.dpa depth with
      | none => .go (s.underRec job t va) []
      | some (s, c) =>
        if c ≠ 0 then .go s []
        else if kind = 3 then
          match s.findJob job with
          | some j => let (s, more) := s.retireJob j t depth; .go s more
          | none => .go s []
        else
          let (s, more) := s.retireLevel job t va h.dpa kind depth
          .go s more
  | .job =>
    match s.findJob job with
    | none => .go s []
    | some j =>
      if s.jobFar job t then .hold .link j.recVa j.recVa true
      else match s.hwDeny job t true j.recAt 8 with
      | some c => .go (s.deniedRec job t j.recVa c) []
      | none => match ((s.touchDpa t j.recAt).hwEcc job t j.recVa j.recAt 64).decAt j.recAt depth with
        | none => .go (s.underRec job t j.recVa) []
        | some (s, c) =>
          if c ≠ 0 then .go s [] else let (s, more) := s.retireJob j t depth; .go s more
  | .status n =>
    match s.findLaunch n with
    | none => .go s []
    | some l =>
      if s.link.retraining ∧ dpaTower l.dpa ≠ t then .hold .link l.addr l.addr true
      else .go (s.hwPut job t (l.addr + 120) (l.dpa + 120) (Mem.bytes l.status.toNat 8) depth) []
  | .request lvl d =>
    match (if lvl then (s.findLevel job d).map fun q => (q.va + 8, d + 8, q.req, q.reason)
      else (s.liveDpa d).map fun l => (l.addr + 112, d + 112, l.req, l.reason)) with
    | some (va, a, true, r) =>
      if s.link.retraining ∧ dpaTower d ≠ t then .hold .link va va true
      else .go (s.hwPut job t va a (Mem.bytes (cancelWord false r).toNat 8) depth) []
    | _ => .go s []
  | .look n =>
    match (s.findUnit n).bind fun u => (s.lookMiss u).map fun m => (u, m) with
    | some (u, m, va) => .hold m va u.recVa false
    | none => .go s []

/-- Perform steps in their order; one whose translation fails is held with all that follow it, and tried again 10 µs
later (R423); one that the link keeps waiting has no record (R284). `quiet` says that the first one has had its record. -/
def State.hwGo (job : Nat) (t : TowerId) (depth : Nat) : Nat → Bool → List HwStep → State → State
  | 0, _, _, s => s
  | _, _, [], s => s
  | n + 1, quiet, x :: xs, s =>
    match s.hwStep job t depth x with
    | .go s more => State.hwGo job t depth n false (more ++ xs) s
    | .hold m va rec wr =>
      let s := if quiet then s else s.missRec job t va rec m wr
      { s with held := s.held ++ [⟨job, t, depth, x :: xs, (s.tower t).now + 2500⟩] }

/-- The steps of a retirement: no chain of levels and blocks is longer. -/
def State.hwSteps (s : State) (job : Nat) (t : TowerId) (depth : Nat) (l : List HwStep) : State :=
  s.hwGo job t depth 64 false l

/-- Is a unit free of a held look at its cancel words? One whose words cannot be read now is held, with a record (R423). -/
def State.looked (s : State) (u : WorkUnit) : Bool :=
  (s.lookMiss u).isNone && !s.held.any fun h => h.todo.head? = some (.look u.id)
/-- Hold a unit whose cancel words cannot be read, once. -/
def State.holdLook (s : State) (u : WorkUnit) : State :=
  if s.held.any fun h => h.todo.head? = some (.look u.id) then s else s.hwSteps u.job u.tower 0 [.look u.id]

/-! ### CTRADD (R326) -/

/-- What KIND says of the word: its alignment and the bytes that the instruction reads. -/
def ctrSize (k : Nat) : Nat := match k with | 0 => 8 | 1 => 16 | _ => 64

/-- R326 -/
def execCtradd (f : Fields) (s : State) : Res :=
  .next (issue (.ctradd f) f (fun x => ends do
    let k := mbits f 5 3
    let (g, x) ← x.place needAt (ctrSize k) (ctrSize k) accAt
    let d := g.hit.dpa
    let s := (x.s.revive g.hit).fed
    let job := s.group.job
    let t := s.group.tower
    let n : Int := (x.uni64 f.a).toInt
    let recJob := Mem.readNat s.mem (d + 34) 2 % 2 ^ 12
    if 2 ≤ k ∧ (recJob ≠ job ∨ s.recKind d ≠ k - 1 ∨ s.recRetired d) then .error (.trap (.at_ .lnchbad g.va 0) x.s)
    let s := s.release (scopeLow f)
    let c := s.counterAt d
    if c + n < 0 then .error (.trap (.at_ .ctrunder g.va 0) s)
    else
      let s := s.update d (Mem.bytes (counterWord (c + n)).toNat 8) s.group.depth false
        (s.relBy (scopeLow f))
      if c + n ≠ 0 ∨ n = 0 then .ok (.done s)
      else
        let depth := s.group.depth
        match k with
        | 0 => .ok (.done s)
        | 1 =>
          let a := s.read64 (d + 8)
          .ok (.done (if a = 0 then s else s.hwSteps job t depth [.submit a g.va (dpaTower d)]))
        | 4 => match s.findJob job with
          | none => .ok (.done s)
          | some j => let (s, more) := s.retireJob j t depth; .ok (.done (s.hwSteps job t depth more))
        | _ => let (s, more) := s.retireLevel job t g.va d (k - 1) depth; .ok (.done (s.hwSteps job t depth more))) s)

end Sys2Proof.Machine
end

