-- ==== Sys2Proof/Machine/Launch.lean ====
section
/-! DEFINITION. Group 0xD: submission from a wave, hints, waits for a predecessor, cancellation, counters,
watch entries and FETCHW (R102-R112, R136, R137, R426, R429). -/

namespace Sys2Proof.Machine

/-- The checks of R426 on the address of a record: the handle, ALIGN of the address, HBOUNDS. -/
def Ctx.recordAt (x : Ctx) (need : Need) (size align : Nat) : Except Out (BitVec 256 × Ctx) :=
  let e := x.s.entry (hOf x.f)
  if let .error o := x.sound (hOf x.f) then .error o
  else if !needBad need e && decide ((vaOf e (x.off 0)).toNat % align ≠ 0) then
    .error (.trap (.at_ .align (BitVec.ofInt 64 (x.off 0)) 0) x.s)
  else x.access need size 1 x.uniOff

/-- Translate the record of an instruction of group 0xD, and count the access (R282); a missing page parks the wave. -/
def Ctx.recordHit (x : Ctx) (e : BitVec 256) (k : AccKind) (size : Nat) : Except Out (GLane × Ctx) := do
  let p ← x.plan e k size x.uniOff
  match p.go with
  | g :: _ => .ok (g, { x with s := (p.records x.s).touch g.hit })
  | [] => .error (p.out (k.use = .write) (p.deny x.s))

def needRw : Need := { spaces := [1], rd := true, wr := true }
def accRw : AccKind := ⟨.write, true, true, false, false, kindWave⟩
def accRd : AccKind := ⟨.read, true, false, false, false, kindWave⟩
def accWr : AccKind := ⟨.write, false, true, false, false, kindWave⟩

/-! ### LNCH and TASKQ (R103) -/

/-- LNCH and TASKQ: both reach their record as a write, with R and W of the leaf and of the access tables, as they need RD
and WR of the handle (log 119). `submit` offers the record at a VA and DPA. A wave that finds no entry makes its claim and parks;
entries fall to the claims in their order (R95). -/
def Ctx.submit (x : Ctx) (size : Nat) (bad : Cause) (submit : State → DWord → Nat → Sub) : Out := ends do
  let (e, x) ← x.recordAt needRw size size
  let nb := x.f.mod.getLsbD 0
  let busy (s : State) : Out :=
    if nb then .done (s.writePred x.f.d 0xFFFFFFFF .now 0)
    else .leave { s with
      wave := { s.wave with wait := .retry false, claim := s.wave.claim.or (some s.seq) }, seq := s.seq + 1 }
  if !x.s.entryFor x.s.group x.s.wave then .ok (busy x.s)
  else
    let (g, x) ← x.recordHit e accRw size
    match submit ((x.s.revive g.hit).release (some .dv)) g.va g.hit.dpa with
    | .ok s =>
      let s := { s with wave := { s.wave with claim := none } }.fed
      .ok (.done (if nb then s.writePred x.f.d 0xFFFFFFFF .now 0xFFFFFFFF else s))
    | .bad => .error (.trap (.at_ bad g.va 0) x.s)
    | .link a => .error (.trap (.at_ .linkfail a 0) x.s)
    | .full => .ok (busy x.s)
    | .wait => .error (.stall x.s)

/-- R103 -/
def execLnch (f : Fields) (s : State) : Res :=
  .next (issue (.lnch f) f (fun x => x.submit 128 .lnchbad fun s va dpa =>
    s.submitLaunch s.group.job s.group.tower va dpa s.group.depth (some (s.group.gid, s.group.unit)) 0) s)
/-- R103 -/
def execTaskq (f : Fields) (s : State) : Res :=
  .next (issue (.taskq f) f (fun x => x.submit 64 .taskbad fun s va dpa =>
    s.submitTask s.group.job s.group.tower va dpa s.group.depth (some (s.group.gid, s.group.unit)) 0) s)

/-! ### Hints and waits (R104, R105) -/

/-- Has the launch a successor linked to it? -/
def State.hasSuccessor (s : State) (n : Nat) : Bool :=
  (s.launches.any fun l => l.link = .pending n) || s.units.any fun u => u.link = .pending n

/-- R104 -/
def execSucchint (f : Fields) (s : State) : Res :=
  .next (issue (.succhint f) f (fun x =>
    match x.s.findUnit x.s.group.unit with
    | none => .done x.s
    | some u => match u.launch with
      | none => .done x.s
      | some n => .done (if x.s.hasSuccessor n then
          x.s.mapLaunch n fun l => { l with hinted := if l.hinted.contains u.lin then l.hinted else u.lin :: l.hinted }
        else x.s)) s)

/-- R105: the trap WAITPREDX reports no address (log 26). -/
def execWaitpred (f : Fields) (s : State) : Res :=
  .next (issue (.waitpred f) f (fun x =>
    match x.s.groupLink x.s.group with
    | .pending _ => .done { x.s with wave := { x.s.wave with wait := .waitpred x.s.wave.pc } }
    | .cancelled => .trap (.plain .waitpredx) x.s
    | _ => .done x.s) s)

/-! ### CANCEL (R99, R106) -/

/-- Cancel the started groups of units that a test picks: those of a cancel-masked task run on (R22). -/
def State.killUnits (s : State) (p : WorkUnit → Bool) : State :=
  s.allGroups.foldl (fun s g =>
    match s.findUnit g.unit with
    | some u => if p u && taskBits g.task 35 2 2 = 0 then s.killGroup g.key true else s
    | none => s) s

/-- Request the cancellation of every known graph, phase and launch of a job that a test picks, and end the started
groups that it cancels (R99). The launches are those whose graph's record, by DPA, passes the test; 0 stands for none. -/
def State.reqBelow (s : State) (job : Nat) (t : TowerId) (level : LiveLevel → Bool) (graph : Nat → Bool) (reason : BitVec 8)
    (depth : Nat) : State :=
  let s := (s.levels.filter fun q => q.job = job && level q).foldl (fun s q => s.reqLevel t q reason depth) s
  let s := (s.launches.filter fun l => l.job = job && graph l.graphAt).foldl (fun s l => s.reqLaunch l.id reason depth) s
  s.killUnits (fun u => u.job = job && s.unitReq u)

/-- A launch is cancelled: its started groups end (R22). -/
def State.endLaunch (s : State) (l : Launch) : State := s.killUnits (fun u => u.job = l.job && s.unitReq u)

/-- The hardware cancels a launch as CANCEL does (R122). -/
def State.cancelLaunch (s : State) (l : Launch) (reason : BitVec 8) (depth : Nat) : State :=
  (s.reqLaunch l.id reason depth).endLaunch l

/-- CANCEL's atomic OR into the cancel word at a DPA, by the wave as a release at .DV (R99). -/
def State.orCancel (s : State) (dpa : Nat) (reason : BitVec 8) : State :=
  s.update dpa (Mem.bytes (cancelWord false reason).toNat 8) s.group.depth false (s.relBy (some .dv))

/-- REASON of a level after a CANCEL with a REASON: that of the first request stands (log 43). -/
def keptReason (req : Bool) (old new : BitVec 8) : BitVec 8 := if req then old else new

/-- CANCEL of a live launch. -/
def State.cancelOwn (s : State) (l : Launch) (reason : BitVec 8) : State :=
  let r := keptReason l.req l.reason reason
  ((s.markLaunch l.id r).orCancel (l.dpa + 112) r).endLaunch l

/-- CANCEL of the graph or phase record at an address and a DPA, with all that lies below it. -/
def State.cancelLevel (s : State) (job : Nat) (va : DWord) (dpa kind : Nat) (reason : BitVec 8) : State :=
  let q := (s.findLevel job dpa).getD
    ⟨job, dpa, kind, if kind = 1 then s.dpaOf job (s.read64 (dpa + 16)) else 0, false, false, 0, va⟩
  let r := keptReason q.req q.reason reason
  let s := (s.markLevel q r).orCancel (dpa + 8) r
  let below (r : LiveLevel) : Bool := decide (kind = 2 ∧ r.kind = 1 ∧ r.up = dpa)
  s.reqBelow job s.group.tower below (fun d => decide (d = dpa) || ((s.findLevel job d).map below).getD false) r s.group.depth

/-- CANCEL.JB of a job. -/
def State.cancelJob (s : State) (j : Job) (reason : BitVec 8) : State :=
  if j.retired then s
  else
    let r := keptReason j.req j.reason reason
    ((s.mapJob j.id fun j => { j with req := true, reason := r }).orCancel (j.recAt + 8) r).reqBelow
      j.id s.group.tower (fun _ => true) (fun _ => true) r s.group.depth

/-- Cancel the unit of the issuing group, gang and all: the issuing group ends also when it is cancel-masked, since it
asked for it, and the other masked groups of its gang run on (R22, R106). -/
def State.cancelUnit (s : State) : State :=
  let n := s.group.unit
  ((s.mapUnit n fun u => { u with cancelled := true }).killUnits fun u => u.id = n).killGroup s.group.key true

/-- R106: a record on a discarded page reads as zeros (R235), and HBOUNDS covers the cancel word alone, though the record that holds it is read too (log 118). -/
def execCancel (f : Fields) (s : State) : Res :=
  .next (issue (.cancel f) f (fun x => ends do
    let reason : BitVec 8 := (x.uni f.a).setWidth 8
    let lv := mbits f 2 0
    if lv = 0 then .ok (.done (x.s.release (some .dv)).cancelUnit)
    else
      let (e, x) ← x.recordAt needRw 8 8
      let (g, x) ← x.recordHit e accRw 8
      let s := x.s
      let job := s.group.job
      let bad : Except Out Out := .error (.trap (.at_ .lnchbad (if lv = 1 then g.va - 112 else g.va - 8) 0) x.s)
      if lv = 1 then
        let d := g.hit.dpa - 112
        let st := if g.hit.disc then 0 else bits (s.read64 (d + 120)) 63 56
        let own := if g.hit.disc then 0 else Mem.readNat s.mem (d + 28) 2 % 2 ^ 12
        let va := g.va - 112
        if va.toNat % 128 ≠ 0 then bad
        else match s.liveDpa d with
          | some l =>
            if l.job ≠ job then bad else .ok (.done (((s.revive g.hit).release (some .dv)).cancelOwn l reason))
          | none => if 5 < st ∨ (own ≠ 0 ∧ own ≠ job) then bad else .ok (.done (s.release (some .dv)))
      else
        let d := g.hit.dpa - 8
        let own := Mem.readNat s.mem (d + 34) 2 % 2 ^ 12
        if (g.va - 8).toNat % 64 ≠ 0 ∨ g.hit.disc ∨ s.recKind d ≠ lv - 1 then bad
        else if own ≠ job ∧ lv = 4 ∧ !s.wave.jctl.getLsbD 0 then .error (.trap (.plain .priv) x.s)
        else if own ≠ job ∧ lv ≠ 4 then bad
        else
          let s := s.release (some .dv)
          if lv = 4 then
            match s.jobs.find? fun j => j.id = own && j.recAt = d with
            | some j => .ok (.done (s.cancelJob j reason))
            | none => .ok (.done s)
          else if s.recRetired d then .ok (.done s)
          else .ok (.done (s.cancelLevel job (g.va - 8) d (lv - 1) reason))) s)

/-! ### CTRGET (R107) -/

/-- R107 -/
def execCtrget (f : Fields) (s : State) : Res :=
  .next (issue (.ctrget f) f (fun x => ends do
    let (e, x) ← x.recordAt { spaces := [1], rd := true } 8 8
    let (g, x) ← x.recordHit e accRd 8
    let v := Mem.number (x.s.load g.hit 8)
    let s := x.s.readHit (ordAcq f) g.hit 8 g.va
    .ok (.done (s.writeS64 f.d .now (BitVec.ofNat 64 v)))) s)

/-! ### Watch entries (R108-R112, R429) -/

/-- A watch image with a defect that R110 names. -/
def watchBad (x : BitVec 512) (priv : Bool) : Bool :=
  let b (n hi lo : Nat) := taskBits x n hi lo
  decide (b 0 63 0 % 64 ≠ 0 ∨ b 16 63 0 % 4 ≠ 0 ∨ 5 ≤ b 14 2 0 ∨ b 32 63 0 % 16 ≠ 0 ∨
    b 8 31 0 = 0 ∨ 2 ^ 24 < b 8 31 0 ∨ b 40 15 0 = 0 ∨ b 42 15 0 = 0 ∨ b 44 3 0 = 0 ∨
    b 14 7 6 ≠ 0 ∨ b 15 7 0 ≠ 0 ∨ b 44 7 4 ≠ 0 ∨ b 45 7 1 ≠ 0 ∨ b 46 15 0 ≠ 0 ∨ b 48 127 0 ≠ 0) ||
  paramsBad (b 12 15 0) || (decide (b 14 2 0 = 4) && !priv)

/-- An entry number above 63 traps HINVAL with the number as its address, as NOSLOT does: there is no lane whose offset it
could be (log 26). -/
def Ctx.entryNo (x : Ctx) : Except Out Nat :=
  let n := (x.uni x.f.a).toNat
  if 63 < n then .error (.trap (.at_ .hinval (BitVec.ofNat 64 n) 0) x.s) else .ok n

/-- The addresses at which a watched range enters its 64 KiB pages. -/
def watchPages (base gran : Nat) : List DWord :=
  let first := base / 2 ^ 16
  (List.range ((base + 64 * gran - 1) / 2 ^ 16 + 1 - first)).map fun k =>
    BitVec.ofNat 64 (if k = 0 then base else (first + k) * 2 ^ 16)

/-- Pages of a range, as the DPAs of their 64 KiB frames; the first that misses. -/
def Ctx.watchFrames (x : Ctx) (base gran : Nat) : Except Out (List Nat) :=
  (watchPages base gran).mapM fun va =>
    if x.s.link.retraining && x.s.walkFar x.s.group.job x.s.group.tower va then .error (.stall x.s)
    else match x.s.translate x.s.group.job x.s.group.tower .read va with
    | .ok h => .ok (h.dpa / 2 ^ 16 * 2 ^ 16)
    | .error .np => .error (.leave (x.s.park .np va false false 0))
    | .error .prot => .error (.leave (x.s.park .prot va false false 0))
    | .error m => .error (.trap (m.trap va 0) x.s)

/-- The table frame of a job in a tower (R109). -/
def Tower.frameOf (t : Tower) (job : Nat) : Option Nat := (t.frames.find? fun e => e.2 = job).map Prod.fst
/-- Allot the lowest free frame to a job that has none. -/
def Tower.allot (t : Tower) (job : Nat) : Tower :=
  if (t.frameOf job).isSome then t
  else match (List.range 768).find? fun k => (Table.find t.frames k).isNone with
    | some k => { t with frames := Table.put t.frames k job }
    | none => t
/-- The 32-byte unit of the broadcast area in which entry n of a job's table begins (R267). -/
def Tower.watchUnit (t : Tower) (job n : Nat) : Nat := (0x400000 + 4096 * (t.frameOf job).getD 0 + 64 * n) / 32

/-- Send one watch sector to each named tower, as a command of class BC; a WATCH takes a frame there first (R109-R111). -/
def State.watchSend (s : State) (i : Instr) (ts : List TowerId) (n : Nat) (e : Option WatchEntry) : Out :=
  if 63 ≤ s.wave.count .bc ∨ ts.any (fun t => 64 ≤ (s.tower t).queued s.group.job) then .stall s
  else
    let job := s.group.job
    let send (y : Tower) : Tower :=
      let y := if e.isSome then y.allot job else y
      { y with sectors := y.sectors ++ [⟨job, y.watchUnit job n, [], false, s.wave.key, s.seq, s.group.depth, [], some (n, e)⟩] }
    let s := ts.foldl (fun s t => s.mapTower t send) s
    s.fed.startCmd i 0 .bc (.sectors ts.length) none none none

/-- R110; HINVAL of a broadcast range reports its BASE, and NOSLOT the entry number (log 26). -/
def execWatch (f : Fields) (s : State) : Res :=
  .next (issue (.watch f) f (fun x => ends do
    let n ← x.entryNo
    let (e, x) ← x.recordAt { spaces := [1], rd := true } 64 64
    let (g, x) ← x.recordHit e accRd 64
    let img : BitVec 512 := BitVec.ofNat 512 (Mem.number (x.s.load g.hit 64))
    let job := x.s.group.job
    let ts := towerList (towersOf x.s.group.tower (mbits f 1 0))
    if watchBad img (x.s.wave.jctl.getLsbD 0) then .error (.trap (.at_ .taskbad g.va 0) x.s)
    let base := taskBits img 0 63 0
    let gran := taskBits img 8 31 0
    let bc := taskBits img 45 0 0 = 1
    if bc ∧ 0x400000 < base + 64 * gran then .error (.trap (.at_ .hinval (BitVec.ofNat 64 base) 0) x.s)
    let fr ← if bc then .ok [] else x.watchFrames base gran
    let x := if bc then x else { x with s := x.s.seeWalks (watchPages base gran) }
    x.reach ts
    if ts.any fun t => (x.s.tower t).slotsOf job = 0 then .error (.trap (.at_ .noslot (BitVec.ofNat 64 n) 0) x.s)
    if ts.any fun t => ((x.s.tower t).frameOf job).isNone && decide (768 ≤ (x.s.tower t).frames.length) then
      .error (.trap (.at_ .watchovf (BitVec.ofNat 64 n) 0) x.s)
    let s := x.s.readHit none g.hit 64 g.va
    .ok (s.watchSend (.watch f) ts n (some ⟨setField img 120 1 1, fr⟩))) s)

/-- R111 -/
def execUnwatch (f : Fields) (s : State) : Res :=
  .next (issue (.unwatch f) f (fun x => ends do
    let n ← x.entryNo
    let ts := towerList (towersOf x.s.group.tower (mbits f 1 0))
    x.reach ts
    if ts.any fun t => (x.s.tower t).slotsOf x.s.group.job = 0 then .error (.trap (.at_ .noslot (BitVec.ofNat 64 n) 0) x.s)
    .ok (x.s.watchSend (.unwatch f) ts n none)) s)

/-- R112 -/
def execWatchq (f : Fields) (s : State) : Res :=
  .next (issue (.watchq f) f (fun x => ends do
    let n ← x.entryNo
    let (e, x) ← x.recordAt { spaces := [1], wr := true } 64 64
    let (g, x) ← x.recordHit e accWr 64
    let ts := towerList (towersOf x.s.group.tower (mbits f 1 0))
    x.reach ts
    let job := x.s.group.job
    let tw := x.s.tower (ts.headD 0)
    let img : BitVec 512 := if (tw.frameOf job).isSome then
        ((Table.find tw.watches (64 * job + n)).map WatchEntry.image).getD 0 else 0
    let pend := (tw.triggers.filter fun r => r.job = job ∧ r.entry = n).length
    let d : Nat := taskBits img 15 1 0 + 256 * min pend 255
    let s := x.s.revive g.hit
    let s := (s.store g.hit.dpa (Mem.bytes img.toNat 64) s.group.depth false (s.relBy none)).fed
    .ok (.done (s.writeS f.d .now (BitVec.ofNat 32 (if (tw.frameOf job).isSome then d else 0))))) s)

/-! ### FETCHW (R136, R137) -/

/-- Retire the tile that a group has fetched (R137), a release at .DV (R300, R306): it is hinted from then on (R97). -/
def State.retireFetched (s : State) (g : Group) : State :=
  match g.fetch with
  | none => s
  | some q => match q.tile, s.liveAt g.job q.launch with
    | some n, some l =>
      let s := (s.closeOpens g.key).mapGroup g.key fun x => { x with fetch := some { q with tile := none } }
      let s := s.mapLaunch l.id fun l => { l with hinted := if l.hinted.contains n then l.hinted else n :: l.hinted }
      s.hwSteps g.job l.tower l.depth [.done (lnDonectr l.image) l.addr, .tile l.id]
    | _, _ => s

/-- R136 -/
def execFetchw (f : Fields) (s : State) : Res :=
  .next (issue (.fetchw f) f (fun x => ends do
    let mb := (x.uni f.a).toNat
    let fail (c : Cause) (a : DWord) : Except Out Unit := .error (.trap (.at_ c a 0) x.s)
    let off : DWord := BitVec.ofNat 64 mb
    if taskBits x.s.group.task 35 1 1 = 0 then fail .fetchbad off
    if mb % 32 ≠ 0 then fail .align off
    if x.s.group.localSize < mb + 32 then fail .localoob off
    let (e, x) ← x.recordAt { spaces := [1], rd := true } 128 128
    let wait (s : State) : Except Out Out := .ok (.leave { s with wave := { s.wave with wait := .retry true } })
    if (x.s.group.fetch.map Fetch.pending).getD false then wait x.s
    else
      let (g, x) ← x.recordHit e accRd 128
      let job := x.s.group.job
      let d := g.hit.dpa
      let live := x.s.liveDpa d
      let own := Mem.readNat x.s.mem (d + 28) 2 % 2 ^ 12
      let gang := match live with | some l => lnGang l.image | none => (Mem.read x.s.mem (d + 27)).getLsbD 4
      let free := live.isNone && (g.hit.disc || decide (bits (x.s.read64 (d + 120)) 59 56 = 0))
      if free || gang || (match live with | some l => decide (l.job ≠ job) | none => decide (own ≠ 0 ∧ own ≠ job)) then
        .error (.trap (.at_ .fetchbad g.va 0) x.s)
      else
        let s := x.s.retireFetched x.s.group
        if s.group.boardFull mb (mb + 32) then wait s
        else
          let s := (s.localStore mb (Mem.bytes 0 8) []).fed
          .ok (.done { s with group := { s.group with
            board := s.group.board ++ [⟨mb, mb + 32, true, s.wave.idx, true⟩]
            fetch := some ⟨(live.map Launch.addr).getD g.va, mb, true, none⟩ } })) s)

end Sys2Proof.Machine
end

