-- ==== Sys2Proof/Machine/EngineRun.lean ====
section
/-! DEFINITION. What the commands of the classes CP, GT, MX and BC transfer, element after element, and their
completion (R250, R254-R258, R210, R211, R273). -/

namespace Sys2Proof.Machine

/-! ### One element -/

/-- What one element of a command meets. -/
inductive ElemRes where
  | ok (s : State)
  /-- it is left out, and the error waits for the CNTWAIT of the class (R257, R307) -/
  | skip (t : TrapInfo)
  /-- a target class denies it (R286) -/
  | denied (va : DWord) (cls : Nat)
  /-- a translation fault stops the command at it (R257) -/
  | stop (m : Miss) (va : DWord) (write : Bool)

/-- The global bytes of an element: the page, or why the element is not transferred. A read of a discarded page faults
nowhere (R235). -/
def State.engAt (s : State) (c : EngClass) (write : Bool) (va : DWord) (n : Nat) : Except ElemRes Hit :=
  match s.translate s.group.job s.group.tower (if write then .write else .read) va with
  | .error .link => .error (.skip (.at_ .linkfail va 0))
  | .error m => .error (.stop m va write)
  | .ok h =>
    if !write && h.disc then .ok h
    else match (if s.checked then s.raceByte h.dpa n else none) with
    | some (b, op) => .error (.skip ⟨.mmrace, false, BitVec.ofNat 16 op, va + BitVec.ofNat 64 b, 0, 0⟩)
    | none =>
      match (if write then none else s.poisoned h.dpa n) with
      | some code => .error (.skip (eccTrap code va 0))
      | none => match s.denyClass s.group.tower h.mtype s.group.job (kindEng c) (!write) write false h.dpa (h.dpa + n) with
        | some k => .error (.denied va k)
        | none => .ok h

/-- An element's page is reached: its walk and the access itself are noted (R282, R375). -/
def State.engTouch (s : State) (va : DWord) (h : Hit) : State :=
  (s.walkEcc s.group.job s.group.tower va).touch h

/-- Read an element and go on with its bytes. -/
def State.engRead (s : State) (c : EngClass) (va : DWord) (n : Nat) (k : State → List Byte → State) : ElemRes :=
  match s.engAt c false va n with
  | .error r => r
  | .ok h => .ok (k (s.engTouch va h) (s.load h n))

/-- Write an element: revived, compared, and opened for races unless it is ordered (R306). -/
def State.engWrite (s : State) (c : EngClass) (va : DWord) (bs : List Byte) (own : Option Scope) (r : List RelInfo) : ElemRes :=
  match s.engAt c true va bs.length with
  | .error r => r
  | .ok h =>
    let s := ((s.engTouch va h).revive h).store h.dpa bs s.group.depth false r
    .ok (if s.checked ∧ (own = none ∨ own = some .wv) then s.openBytes h.dpa bs.length else s)

/-- The VA of a tensor element at a byte offset within the shape's handle. -/
def State.shVa (s : State) (sh : BitVec 512) (o : Int) : DWord := vaOf (s.entry (shHandle sh)) o

/-- Element n of a box read for a local destination: zero bytes outside the extents (R254). -/
def State.boxRead (s : State) (c : EngClass) (sh : BitVec 512) (co : List Int) (n : Nat) (k : State → List Byte → State) : ElemRes :=
  match boxOff sh co n with
  | none => .ok (k s (List.replicate (shSize sh) 0))
  | some o => s.engRead c (s.shVa sh o) (shSize sh) k

/-! ### Commands as lists of elements -/

/-- The value of an element for MZST.ADD (R210). -/
def mzAdd (f32 : Bool) (e z : Word) : Word :=
  if f32 then (Fmt.f32.add .rne false e.toNat z.toNat).word else e + z

/-- Store the cells of an MZST, one wholly after the other; all of them have pages. -/
def State.mzCells (s : State) (e : BitVec 256) (add f32 : Bool) (own : Option Scope) (rel : List RelInfo) :
    List (Nat × Word) → ElemRes
  | [] => .ok s
  | (o, z) :: cs =>
    if hSpace e = 2 then
      let a := localOff e o
      let w : Word := if add then mzAdd f32 (BitVec.ofNat 32 (Mem.readNat (s.localMem s.group.unit) a 4)) z else z
      State.mzCells (s.localStore a (Mem.bytes w.toNat 4) rel) e add f32 own rel cs
    else
      let va := vaOf e o
      let old : Word := match s.translate s.group.job s.group.tower .write va with
        | .ok h => BitVec.ofNat 32 (Mem.number (s.load h 4))
        | .error _ => 0
      match s.engWrite .mx va (Mem.bytes (if add then mzAdd f32 old z else z).toNat 4) own rel with
      | .ok s => State.mzCells s e add f32 own rel cs
      | r => r

/-- The first cell of an indivisible update that cannot be performed (R211). -/
def State.mzStop (s : State) (e : BitVec 256) (add : Bool) (cs : List (Nat × Word)) : Option ElemRes :=
  if hSpace e = 2 then none
  else cs.findSome? fun (o, _) => match s.engAt .mx true (vaOf e o) 4 with
    | .error r => some r
    | .ok h => match (if add ∧ !h.disc then s.poisoned h.dpa 4 else none) with
      | some code => some (.skip (eccTrap code (vaOf e o) 0))
      | none => none

/-- Releases of a wave as its group makes them where it stands when it performs the write (R288). -/
def relsFrom (p : Place) (rel : List RelInfo) : List RelInfo := rel.map fun r => { r with place := p }

/-- The units of an MZST: its quarters with .ADD, else its single elements. -/
def mzUnits (add : Bool) (cells : List (List (Nat × Word))) : List (List (Nat × Word)) :=
  if add then cells else cells.flatten.map fun c => [c]

/-- The number of elements of a command, and what its n-th element does. -/
def EngOp.count : EngOp → Nat
  | .cpy _ _ sh _ => shCount sh
  | .cpyb _ sh _ => shCount sh
  | .gthr _ _ _ _ => 32
  | .sctr _ _ _ _ => 32
  | .mzst _ cells add _ _ _ => (mzUnits add cells).length
  | _ => 0

/-- vD takes the tag of a gather's shape (R57, R59, R256). -/
def Wave.gatherTag (w : Wave) (d : Nat) (sh : BitVec 512) : Wave := w.setV d ⟨shTag sh, (w.vreg d).lanes⟩

/-- Write an element into lane i of vD, zero-extended (R256). -/
def Wave.gather (w : Wave) (d i : Nat) (sh : BitVec 512) (bs : List Byte) : Wave :=
  w.setV d ⟨shTag sh, mergeLanes (1#32 <<< i) (splat (BitVec.ofNat 32 (Mem.number bs))) (w.vreg d).lanes⟩

/-- A B-store sector that a copy from byte lo on has just filled up to byte hi is poisoned no more (R375). -/
def State.healB (s : State) (lo hi : Nat) : State :=
  if hi % 32 = 0 ∧ lo + 32 ≤ hi then
    { s with poison := Table.erase s.poison (bPoison s.group.tower s.group.coreIdx (hi - 32)) }
  else s

/-- The first later element of the same 64-byte unit of the B-store that stops a CPYB: the unit is written wholly or
not at all (R200). -/
def State.cpybStop (s : State) (off : Nat) (sh : BitVec 512) (co : List Int) (n : Nat) : List Nat → Option ElemRes
  | [] => none
  | k :: ks =>
    if (off + n * shSize sh) % 64 = 0 then none
    else match (boxOff sh co k).map fun o => s.engAt .mx false (s.shVa sh o) (shSize sh) with
      | some (.error (.stop m va w)) => some (.stop m va w)
      | _ => State.cpybStop s off sh co (n + 1) ks

/-- Transfer element n of a command (R254-R256, R210). -/
def State.engElem (s : State) (op : EngOp) (n : Nat) : ElemRes :=
  match op with
  | .cpy true lo sh co => s.boxRead .cp sh co n fun s bs => s.localStore (lo + n * shSize sh) bs []
  | .cpy false lo sh co => match boxOff sh co n with
    | none => .ok s
    | some o => s.engWrite .cp (s.shVa sh o) (Mem.readBytes (s.localMem s.group.unit) (lo + n * shSize sh) (shSize sh)) none []
  | .cpyb off sh co => match s.cpybStop off sh co (n + 1) ((List.range (shCount sh - n - 1)).map (n + 1 + ·)) with
    | some r => r
    | none => s.boxRead .mx sh co n fun s bs =>
      (s.healB off (off + n * shSize sh + shSize sh)).mapTower s.group.tower fun t =>
        { t with bstore := Mem.writeBytes t.bstore (bKey s.group.coreIdx (off + n * shSize sh)) bs }
  | .gthr d m sh co =>
    if !laneOn m n then .ok { s with wave := s.wave.gatherTag d sh }
    else
      let put (s : State) (bs : List Byte) : State := { s with wave := s.wave.gather d n sh bs }
      match laneOff sh co n with
      | none => .ok (put s [])
      | some o => s.engRead .gt (s.shVa sh o) (shSize sh) put
  | .sctr data m sh co => match (if laneOn m n then laneOff sh co n else none) with
    | none => .ok s
    | some o => s.engWrite .gt (s.shVa sh o) (Mem.bytes (laneAt data n).toNat (shSize sh)) none []
  | .mzst e cells add f32 own rel =>
    let cs := (mzUnits add cells).getD n []
    match s.mzStop e add cs with
    | some r => r
    | none => s.mzCells e add f32 own (relsFrom s.group.place rel) cs
  | _ => .ok s

/-! ### Running a command -/

/-- Change the command with a number. -/
def Wave.mapCmd (w : Wave) (num : Nat) (f : EngCmd → EngCmd) : Wave :=
  { w with cmds := w.cmds.map fun c => if c.num = num then f c else c }

/-- The record of a command that a translation fault stops (R257, R358). -/
def State.cmdFault (s : State) (c : EngCmd) (m : Miss) (va : DWord) (write : Bool) : State :=
  let k : Nat := match c.cls with | .cp => 0 | .gt => 1 | .mx => 2 | .bc => 3 | .ry => 4
  let r (x : Cause) : RecArgs := { s.waveRec x 1 c.pc with addr := va, info := (if write then 1 else 0) + 2 + 4 * k }
  let s := match m with
    | .bad l d => s.report s.group.tower { r .xlate with info := l, detail := BitVec.ofNat 64 d }
    | .prot => s.report s.group.tower (r .pageprot)
    | _ => s.report s.group.tower (r .pagenp)
  { s with wave := s.wave.mapCmd c.num fun c => { c with parked := true } }

/-- The record of a denied command (R286): one for each denied element. -/
def State.cmdDenied (s : State) (c : EngCmd) (va : DWord) (cls : Nat) : State :=
  s.report s.group.tower { s.waveRec .acctbl 0 c.pc with addr := va, info := 2 ^ kindEng c.cls, detail := BitVec.ofNat 64 cls }

/-- Transfer elements in dense order until one stops the command; the flag says that all are done. -/
def State.engRun (c : EngCmd) : List Nat → State → State × Bool
  | [], s => (s, true)
  | n :: ns, s =>
    let step (s : State) : State × Bool :=
      State.engRun c ns { s with wave := s.wave.mapCmd c.num fun c => { c with next := n + 1 } }
    match s.engElem c.op n with
    | .ok s => step s
    | .skip t => step { s with wave := s.wave.mapCmd c.num fun c => { c with err := c.err ++ [t] } }
    | .denied va k => step (s.cmdDenied c va k)
    | .stop m va w => (s.cmdFault c m va w, false)

/-- Remove the scoreboard entry of a command of the focus wave (R251). -/
def Group.boardDrop (g : Group) (lo hi idx : Nat) (mailbox : Bool) : Group :=
  { g with board := g.board.eraseP fun r => r.lo = lo && r.hi = hi && r.wave = idx && r.mailbox = mailbox }

/-- The local range that a command entered in the scoreboard. -/
def EngOp.range : EngOp → Option (Nat × Nat)
  | .cpy _ lo sh _ => some (lo, lo + shCount sh * shSize sh)
  | .mzst e cells _ _ _ _ =>
    if hSpace e ≠ 2 then none
    else
      let offs := cells.flatten.map fun (c : Nat × Word) => localOff e (c.1 : Int)
      some (offs.foldl min (offs.headD 0), offs.foldl max 0 + 4)
  | _ => none

/-- The release that a command's completion makes at its scope (R252, R300). -/
def State.cmdRel (s : State) (c : EngCmd) : List RelInfo :=
  match c.scope with
  | some sc => [⟨sc, .wave, s.wave.key, s.group.place, s.group.unit⟩]
  | none => []

/-- What becomes of the decrement of a command's counter. -/
inductive CtrOut where
  /-- it is over, with the errors that it leaves for the CNTWAIT of the class (R257) -/
  | done (s : State) (err : List TrapInfo)
  /-- a translation fault stops the command at it (R257) -/
  | stop (m : Miss) (va : DWord)
  /-- it waits for the link, which retrains (R284) -/
  | wait

/-- The decrement of a command's counter as a release at its scope (R17, R250, R306). -/
def State.cmdCounter (s : State) (c : EngCmd) : CtrOut :=
  match c.ctr with
  | none => .done s []
  | some va =>
    let t := s.group.tower
    if s.link.retraining && s.walkFar s.group.job t va then .wait
    else match s.translate s.group.job t .write va with
    | .error .link => .done s [.at_ .linkfail va 0]
    | .error m => .stop m va
    | .ok h =>
      if s.link.retraining ∧ dpaTower h.dpa ≠ t then .wait
      else match s.denyClass t h.mtype s.group.job (kindEng c.cls) true true true h.dpa (h.dpa + 8) with
      | some k => .done (s.cmdDenied c va k) []
      | none => match (if h.disc then none else s.poisoned h.dpa 8) with
        | some code => .done (s.engTouch va h) [eccTrap code va 0]
        | none =>
          let s := (s.engTouch va h).revive h
          let n := s.counterAt h.dpa
          if n ≤ 0 then .done (s.underRec s.group.job t va) []
          else .done ((s.release c.scope).update h.dpa (Mem.bytes (counterWord (n - 1)).toNat 8) s.group.depth false (s.cmdRel c)) []

/-- A wave that waits in CNTWAIT goes on once its count is low enough, or takes the error that a command of
the class left (R257, R258). -/
def State.cntWake (s : State) : State :=
  match s.wave.wait with
  | .cntwait c n =>
    if n < s.wave.count c then s
    else match s.wave.engError c with
      | some (t, w) =>
        let pc := w.pc - 12
        { s with wave := w.unwait }.takeTrap t pc pc w.await
      | none => { s with wave := s.wave.unwait }
  | _ => s

/-- Retire a command of the focus wave (R250). -/
def State.cmdRetire (s : State) (num : Nat) : State :=
  match s.wave.cmds.find? fun c => c.num = num with
  | none => s
  | some c =>
    match s.cmdCounter c with
    | .stop m va => s.cmdFault c m va true
    | .wait => s
    | .done s err =>
      let s := if c.op.stores then s.release (some .gp) else s
      let w := s.wave
      let w : Wave := { w with
        cmds := w.cmds.filter fun x => x.num ≠ num
        engErr := w.engErr ++ (c.err ++ err).map fun t => (c.cls, t) }
      let w := match c.tok with | some k => w.clearTok k | none => w
      let g := match c.op.range with | some (lo, hi) => s.group.boardDrop lo hi w.idx false | none => s.group
      { s with wave := w, group := g }.cntWake

/-! ### BCAST (R273) and sectors (R268) -/

/-- Read elements of the box of a BCAST: their bytes by offset in the dense box and the elements that are left out,
or the element that stops it. -/
def State.bcastRead (sh : BitVec 512) (co : List Int) : List Nat → State → Table Byte → List ElemRes →
    Except (Miss × DWord) (State × Table Byte × List ElemRes)
  | [], s, got, bad => .ok (s, got, bad)
  | n :: ns, s, got, bad =>
    let put (bs : List Byte) : Table Byte := got ++ bs.zipIdx.map fun p => (n * shSize sh + p.2, p.1)
    match boxOff sh co n with
    | none => State.bcastRead sh co ns s (put (List.replicate (shSize sh) 0)) bad
    | some o =>
      match s.engAt .bc false (s.shVa sh o) (shSize sh) with
      | .ok h => State.bcastRead sh co ns (s.engTouch (s.shVa sh o) h) (put (s.load h (shSize sh))) bad
      | .error (.stop m va _) => .error (m, va)
      | .error r => State.bcastRead sh co ns s got (bad ++ [r])

/-- The towers of a BCAST that its sectors reach: none beyond a link that is down (R284, log 87). -/
def State.bcastTo (s : State) (t0 t1 : Bool) : List TowerId :=
  (towerList (t0, t1)).filter fun t => t = s.group.tower || !s.link.down

/-- Read the part of a BCAST's source that fills its next 32-byte units, as many as the queues of the named towers
have room for, and queue their sectors; a queue holds 64 of a job. Its left out elements and its bytes that a
broadcast home denies keep their values (R257, R286, R307). -/
def State.bcastQueue (s : State) (c : EngCmd) (t0 t1 : Bool) (off : Nat) (sh : BitVec 512) (co : List Int) (left : Nat) : State :=
  let z := shSize sh
  let ts := s.bcastTo t0 t1
  let first := off / 32 + c.next
  let total := (off + shCount sh * z + 31) / 32 - off / 32
  let room := (ts.map fun t => 64 - (s.tower t).queued s.group.job).foldl min 64
  let units := (List.range (min room (total - c.next))).map (first + ·)
  let mine (n : Nat) : Bool := units.contains ((off + n * z) / 32)
  match State.bcastRead sh co ((List.range (shCount sh)).filter mine) s [] [] with
  | .error (m, va) => s.cmdFault c m va false
  | .ok (s, got, bad) =>
    let bytes : Table Byte := got.map fun p => (off + p.1, p.2)
    let ok (t : TowerId) (lo : Nat) : Bool :=
      (s.tower t).grants 5 s.group.job (kindEng .bc) false true false lo (lo + 1)
    let err (s : State) (e : TrapInfo) : State :=
      { s with wave := s.wave.mapCmd c.num fun c => { c with err := if c.err.contains e then c.err else c.err ++ [e] } }
    let s := bad.foldl (fun s r => match r with
      | .skip e => err s e
      | .denied va k => s.cmdDenied c va k
      | _ => s) s
    let s := if ts = towerList (t0, t1) then s else err s (.plain .linkfail)
    let s := ts.foldl (fun s t => match bytes.find? fun b => !ok t b.1 with
      | some b => s.cmdDenied c (BitVec.ofNat 64 b.1) 5
      | none => s) s
    let secs (t : TowerId) : List Sector :=
      sectorsFrom s.group.job s.wave.key c.num s.group.depth (s.cmdRel c) false (bytes.filter fun b => ok t b.1)
    let sent := (ts.map fun t => (secs t).length).sum
    let s := ts.foldl (fun s t => s.mapTower t fun y => { y with sectors := y.sectors ++ secs t }) s
    { s with wave := s.wave.mapCmd c.num fun c => { c with
        next := c.next + units.length
        op := .bcast t0 t1 off sh co (c.next + units.length = total) (left + sent) } }

/-- A sector of a command has been transmitted. -/
def EngCmd.sent (c : EngCmd) : EngCmd :=
  { c with op := match c.op with
      | .sectors n => .sectors (n - 1)
      | .bcast a b off sh co q n => .bcast a b off sh co q (n - 1)
      | o => o }

/-- Run a command of the classes CP, GT, MX or BC, and retire it when it is done. -/
def State.cmdRun (s : State) (c : EngCmd) : State :=
  match c.op with
  | .sectors 0 => s.cmdRetire c.num
  | .sectors _ => s
  | .bcast t0 t1 off sh co q n =>
    if !q then (if s.link.retraining then s else s.bcastQueue c t0 t1 off sh co n) else if n = 0 then s.cmdRetire c.num else s
  | _ =>
    if s.link.retraining then s
    else
      let s := match c.op with | .mzst _ _ _ _ own _ => if c.next = 0 then s.release own else s | _ => s
      let (s, ok) := s.engRun c ((List.range (c.op.count - c.next)).map (c.next + ·))
      if ok then s.cmdRetire c.num else s

end Sys2Proof.Machine
end

