-- ==== Sys2Proof/Machine/Render.lean ====
section
/-! DEFINITION. Positions, priority cells and raster probes (R339, R340, R347-R350). -/

namespace Sys2Proof.Machine

/-! ### SMPGET (R339) -/

/-- Bits [hi:lo] of byte b of the group's task record. -/
def State.task (s : State) (b hi lo : Nat) : Nat := taskBits s.group.task b hi lo

/-- R339 -/
def execSmpget (f : Fields) (s : State) : Res :=
  .next (issue (.smpget f) f (fun x =>
    if x.s.task 35 4 4 = 0 then .trap (.plain .smpbad) x.s
    else
      let n := x.s.task 20 15 0
      let has (i : Nat) : Bool := decide (i < n)
      let at_ (i : Nat) := x.s.group.posblk.getD i (0, 0, 0)
      let s := x.s.write f.d x.m .now 11 (lanesFn fun i => if has i then (at_ i).2.1 ++ (at_ i).1 else 0)
      let s := s.write (Opnd.step f.d 1) x.m .now 2 (lanesFn fun i => if has i then (at_ i).2.2 else 0)
      .done (s.writePred f.a x.m .now (maskOf has))) s)

/-! ### PMAPWR (R329, R340) -/

/-- MAPBASE of a tower's Lanterns. -/
def Tower.mapBase (t : Tower) : Nat := bits (t.reg csrLntmap) 21 6 * 64

/-- Combine a cell's value with one already there: the higher lane with .SET, the greater with .MAX. -/
def cellPut (mx : Bool) (t : Table Byte) (a v : Nat) : Table Byte :=
  let v := match Table.find t a, Table.find t (a + 1) with
    | some lo, some hi => if mx then Fmt.f16.minmax true (lo.toNat + 256 * hi.toNat) v else v
    | _, _ => v
  Table.put (Table.put t a (BitVec.ofNat 8 v)) (a + 1) (BitVec.ofNat 8 (v / 256))

/-- R340 -/
def execPmapwr (f : Fields) (s : State) : Res :=
  .next (issue (.pmapwr f) f (fun x => ends do
    let s := x.s
    let tw := s.tower s.group.tower
    let mx := mbits f 3 2 = 1
    let map := mbits f 1 0
    let cx (i : Nat) : Nat := bits (laneAt (x.lanes f.a) i) 15 0
    let cy (i : Nat) : Nat := bits (laneAt (x.lanes f.a) i) 31 16
    let off (i : Nat) : Nat := tw.mapBase + 115200 * map + 2 * (240 * cy i + cx i)
    let ls := lanesOf x.m
    if bits (tw.reg csrLntctl) 19 8 ≠ s.group.job then .error (.trap (.plain .priv) s)
    match ls.filter fun i => decide (240 ≤ cx i ∨ 240 ≤ cy i) with
    | i :: is => .error (.trap (.at_ .hbounds (BitVec.ofNat 64 (off i)) (maskOfList (i :: is))) s)
    | [] =>
      if tw.slotsOf s.group.job = 0 then .error (.trap (.at_ .noslot (BitVec.ofNat 64 ((ls.head?.map off).getD 0)) x.m) s)
      if ls.isEmpty then .ok (.done s)
      else
        if 64 ≤ tw.queued s.group.job ∨ 63 ≤ s.wave.count .bc then .error (.stall s)
        let ok (i : Nat) : Bool := tw.grants 5 s.group.job kindWave false true false (off i) (off i + 2)
        let no := ls.filter fun i => !ok i
        let s := match no with
          | [] => s
          | i :: _ => s.post (some { TrapInfo.late .acctbl (BitVec.ofNat 64 (off i)) with mask := maskOfList no })
        let s := (if (ls.filter ok).isEmpty then s else s.release (scopeArg f)).fed
        let bytes := (ls.filter ok).foldl (fun t i => cellPut mx t (off i) (bits (laneAt (x.lanes f.b) i) 15 0)) []
        let secs := sectorsFrom s.group.job s.wave.key s.seq s.group.depth (s.relBy (scopeArg f)) mx bytes
        let cmd : EngCmd := ⟨s.seq, .bc, .sectors secs.length, 0, none, none, none, false, [], s.wave.pairStart,
          (encode (.pmapwr f)).getD 0, 0⟩
        let s := s.mapTower s.group.tower fun y => { y with sectors := y.sectors ++ secs }
        .ok (.done { s with wave := { s.wave with cmds := s.wave.cmds ++ [cmd] }, seq := s.seq + 1 })) s)

/-! ### Snapped triangles (R348) -/

/-- The snapped coordinate of an F32 value; none when it is unsnappable. -/
def snap (x : Word) : Option Int :=
  match Fmt.f32.decode x.toNat with
  | .fin n m e =>
    if m * 2 ^ e.toNat < 8192 * 2 ^ (-e).toNat then
      let k := (roundInt .rne n m (e + 8)).1
      some (if n then -(k : Int) else k)
    else none
  | _ => none

/-- A point of the integer plane. -/
structure Pt where
  x : Int
  y : Int
  deriving DecidableEq, Repr

/-- E_ab(p). -/
def edgeFn (a b p : Pt) : Int := (b.x - a.x) * (p.y - a.y) - (b.y - a.y) * (p.x - a.x)
/-- The tie rule of R344 on integer coordinates. -/
def ptOwned (a b : Pt) : Bool := decide (a.y < b.y ∨ (b.y = a.y ∧ b.x < a.x))
/-- The edge a→b admits p. -/
def edgeIn (a b p : Pt) : Bool := decide (0 < edgeFn a b p) || (decide (edgeFn a b p = 0) && ptOwned a b)

/-- The double area of R348, signed. -/
def area2 (a b c : Pt) : Int := edgeFn a b c

/-- The snapped point of lane i from the registers k and k + 1 of a block. -/
def Ctx.snapPt (x : Ctx) (k i : Nat) : Option Pt :=
  match snap (laneAt (x.lanes (Opnd.step x.f.a k)) i), snap (laneAt (x.lanes (Opnd.step x.f.a (k + 1))) i) with
  | some a, some b => some ⟨a, b⟩
  | _, _ => none

/-- |A2| / 2^17 exceeds THR (R349). -/
def areaLarge (a2 : Int) (thr : Word) : Bool :=
  match Fmt.f32.decode thr.toNat with
  | .nan => decide (a2 ≠ 0)
  | .inf n => n && decide (a2 ≠ 0)
  | .fin n m e => if n && decide (m ≠ 0) then decide (a2 ≠ 0)
      else decide (m * 2 ^ e.toNat * 2 ^ 17 < a2.natAbs * 2 ^ (-e).toNat)

/-- R349 -/
def execTricls (f : Fields) (s : State) : Res :=
  .next (issue (.tricls f) f (fun x =>
    let thr := (x.s.tower x.s.group.tower).reg csrProbethr
    let large (i : Nat) : Bool := match x.snapPt 0 i, x.snapPt 2 i, x.snapPt 4 i with
      | some a, some b, some c => areaLarge (area2 a b c) thr
      | _, _, _ => false
    .done (x.s.writePred f.d x.m .now (maskOf large))) s)

/-! ### TRIRAS (R347, R350) -/

/-- The depth of a probe that a triangle covers, as an F32 pattern that is finite and not negative. -/
def probeDepth (e0 e1 e2 a2 : Int) (z0 z1 z2 : Word) : Option Word :=
  let t (e : Int) (z : Word) : Term := (FVal.fin (decide (e < 0)) e.natAbs 0).mul (Fmt.f32.decode z.toNat)
  let ts := [t e0 z0, t e1 z1, t e2 z2]
  if ts.any fun t => t.isNan || t.isInf true || t.isInf false then none
  else
    let (m, e) := sumDyadic ts
    let r := Fmt.f32.round .rne false (decide (m < 0)) (m.natAbs * 2 ^ e.toNat) (a2.natAbs * 2 ^ (-e).toNat)
    if r.val % 2 ^ 31 = 0 then some 0
    else if 2 ^ 31 ≤ r.val ∨ Fmt.f32.inf ≤ r.val then none
    else some (BitVec.ofNat 32 r.val)

/-- The depth at a probe, if it is covered (R348). -/
def probeHit (a b c p : Pt) (z0 z1 z2 : Word) : Option Word :=
  let a2 := area2 a b c
  if a2 = 0 then none
  else if a2 < 0 then
    if edgeIn a c p && edgeIn c b p && edgeIn b a p then
      probeDepth (edgeFn c b p) (edgeFn b a p) (edgeFn a c p) (-a2) z0 z2 z1
    else none
  else if edgeIn a b p && edgeIn b c p && edgeIn c a p then
    probeDepth (edgeFn b c p) (edgeFn c a p) (edgeFn a b p) a2 z0 z1 z2
  else none

/-- Raise a visibility word (R347, R350). -/
def State.raiseWord (s : State) (g : GLane) (z id : Word) : State :=
  let d := g.hit.dpa + 8
  let s := s.revive g.hit
  let o := Mem.readNat s.mem d 8
  let v := (~~~z).toNat * 2 ^ 32 + id.toNat
  s.update d (Mem.bytes (max o v) 8) s.group.depth false (s.relBy none)

/-- One lane's triangle over the probes: the state and the number covered. -/
def Ctx.rasterLane (x : Ctx) (gs : List GLane) (i : Nat) (s : State) : State × Word :=
  let w (k : Nat) : Word := laneAt (x.lanes (Opnd.step x.f.a k)) i
  let pt (k : Nat) : Option Pt := match snap (w k), snap (w (k + 1)) with | some a, some b => some ⟨a, b⟩ | _, _ => none
  match pt 0, pt 3, pt 6 with
  | some a, some b, some c => gs.foldl (fun (s, n) g =>
      let q := Mem.number (s.load g.hit 4)
      let p : Pt := ⟨(16 * (q % 2 ^ 16) : Nat), (16 * (q / 2 ^ 16) : Nat)⟩
      match probeHit a b c p (w 2) (w 5) (w 8) with
      | some z => (s.raiseWord g z (w 9), n + 1)
      | none => (s, n)) (s, 0)
  | _, _, _ => (s, 0xFFFFFFFF)

/-- R350: the probes are read as .RLX accesses of the wave, whatever the lanes cover. -/
def execTriras (f : Fields) (s : State) : Res :=
  .next (issue (.triras f) f (fun x => ends do
    let n := (x.uni f.b).toNat
    if n = 0 ∨ 1024 < n then .error (.trap (.plain .smpbad) x.s)
    let e := x.s.entry (hOf f)
    let o := dispOf f
    let fail (c : Cause) : Except Out Unit := .error (.trap (.at_ c (BitVec.ofInt 64 o) 0) x.s)
    x.sound (hOf f)
    if needBad needAt e then fail .hinval
    if (vaOf e o).toNat % 16 ≠ 0 then fail .align
    if o < 0 ∨ (hLimit e : Int) < o + 16 * n then fail .hbounds
    let x := { x with s := x.s.useHandle (hOf f) e }
    if x.m = 0 then .ok (.done (x.s.write f.d 0 .now 2 (splat 0)))
    else
      let p ← x.plan e accAt 16 ((List.range n).map fun (k : Nat) => (32, o + 16 * k))
      match p.missing, p.denied with
      | (_, va, m) :: _, _ => .ok (.leave (x.s.park m va true false x.m))
      | [], _ :: _ => .ok (.done (p.deny x.s))
      | [], [] =>
        let (s, out) := (lanesOf x.m).foldl (fun (s, out) i =>
          let (s, v) := x.rasterLane p.go i s
          (s, out ++ [(i, v.toNat)]))
          ((p.go.foldl (fun s g => (s.readHit none g.hit 16 g.va).touch g.hit) (p.records x.s)).fed, [])
        .ok (.done (s.write f.d x.m .now 2 (lanesFn fun i => BitVec.ofNat 32 (laneVal out i))))) s)

end Sys2Proof.Machine
end

