-- ==== Sys2Proof/Machine/Ray.lean ====
section
/-! DEFINITION. Rays: the bounding volume hierarchy (R341), rays and their queries (R342, R343), the triangle
test (R344), RAYQ and RAYRD (R345, R346). -/

namespace Sys2Proof.Machine

/-! ### F32 operations, .RNE (R344) -/

def rAdd (x y : Word) : Word := BitVec.ofNat 32 (Fmt.f32.add .rne false x.toNat y.toNat).val
def rSub (x y : Word) : Word := BitVec.ofNat 32 (Fmt.f32.sub .rne false x.toNat y.toNat).val
def rMul (x y : Word) : Word := BitVec.ofNat 32 (Fmt.f32.mul .rne false x.toNat y.toNat).val
def rDiv (x y : Word) : Word := BitVec.ofNat 32 (Fmt.f32.div .rne false x.toNat y.toNat).val
/-- x * y + z with one rounding. -/
def rFma (x y z : Word) : Word := BitVec.ofNat 32 (Fmt.f32.fma .rne false x.toNat y.toNat z.toNat).val
def rDec (x : Word) : FVal := Fmt.f32.decode x.toNat
/-- x ≤ y; false with a NaN. -/
def FVal.le (x y : FVal) : Bool := match x.cmp y with | some c => decide (c ≤ 0) | none => false
def FVal.lt (x y : FVal) : Bool := match x.cmp y with | some c => decide (c < 0) | none => false
def FVal.eq (x y : FVal) : Bool := match x.cmp y with | some c => decide (c = 0) | none => false
def FVal.zero : FVal := .fin false 0 0
def FVal.isFin : FVal → Bool | .fin _ _ _ => true | _ => false
def FVal.isNeg : FVal → Bool | .fin n m _ => n && decide (m ≠ 0) | .inf n => n | .nan => false

/-! ### Slabs (R343) -/

/-- The distance (b − o)/d, exact and rounded once, for d not zero; none for a NaN. -/
def slabDist (rnd : Rnd) (b o d : FVal) : Option FVal :=
  match b, o, d with
  | .inf n, .fin _ _ _, .fin dn _ _ => some (.inf (n != dn))
  | .fin bn bm be, .fin on om oe, .fin dn dm de =>
    let (x, g) := addDyadic (if bn then -(bm : Int) else bm) be (if on then (om : Int) else -(om : Int)) oe
    let r := Fmt.f32.round rnd false (decide (x < 0) != dn)
      (x.natAbs * 2 ^ (g - de).toNat) (dm * 2 ^ (de - g).toNat)
    some (Fmt.f32.decode r.val)
  | _, _, _ => none

/-- The greater and the lesser of two values without NaN. -/
def FVal.max (x y : FVal) : FVal := if x.lt y then y else x
def FVal.min (x y : FVal) : FVal := if y.lt x then y else x

/-- The distances at which an axis is entered and left; none when it admits no t. -/
def slabAxis (lo hi o d : FVal) : Option (FVal × FVal) :=
  match d with
  | .fin dn m _ =>
    if m = 0 then (if lo.le o && o.le hi then some (.inf true, .inf false) else none)
    else
      let (near, far) := if dn then (hi, lo) else (lo, hi)
      match slabDist .rd near o d, slabDist .ru far o d with
      | some a, some b => some (a, b)
      | _, _ => none
  | _ => none

/-- A ray: its eight registers in one lane (R342). -/
abbrev RayReg := Nat → Word

/-- Does the ray meet a box, given by its six words, no further than `tmax` (R343)? -/
def boxHit (r : RayReg) (box : Nat → Word) (tmax : FVal) : Bool :=
  let ax (k : Nat) := slabAxis (rDec (box k)) (rDec (box (3 + k))) (rDec (r k)) (rDec (r (3 + k)))
  match ax 0, ax 1, ax 2 with
  | some (a0, b0), some (a1, b1), some (a2, b2) =>
    let a := (a0.max a1).max a2
    let b := (b0.min b1).min b2
    a.le b && (rDec (r 6)).le b && a.le tmax
  | _, _, _ => false

/-- A ray with a NaN, an infinite origin or direction component, or no direction (R342). -/
def rayBad (r : RayReg) : Bool :=
  (List.range 8).any (fun k => decide (rDec (r k) = .nan)) ||
    (List.range 6).any (fun k => !(rDec (r k)).isFin) ||
    [3, 4, 5].all fun k => (rDec (r k)).eq .zero

/-! ### Triangles (R344) -/

/-- A hit: t, u, v, the triangle's id and its index. -/
structure RayHit where
  t : Word
  u : Word
  v : Word
  id : Word
  idx : Nat
  deriving DecidableEq, Repr

/-- A vertex in the sheared plane, with its scaled depth. -/
structure RayPt where
  x : Word
  y : Word
  z : Word

/-- owned(a→b) -/
def RayPt.owned (a b : RayPt) : Bool :=
  (rDec a.y).lt (rDec b.y) || ((rDec b.y).eq (rDec a.y) && (rDec b.x).lt (rDec a.x))

/-- An edge value: of F32 operations, and again from exact products, rounded once to F64, where that is ±0. -/
def rayEdge (p q : RayPt) : Word × FVal :=
  let e := rSub (rMul p.x q.y) (rMul p.y q.x)
  if (rDec e).eq .zero then
    let a := (rDec p.x).mul (rDec q.y)
    let b := match (rDec p.y).mul (rDec q.x) with
      | .fin n m e => Term.fin (!n) m e | .inf n => .inf (!n) | t => t
    (e, Fmt.f64.decode (Fmt.f64.sum .rne false [a, b]).val)
  else (e, rDec e)

/-- The test of a triangle of nine words with `id` and index by a ray. -/
def triHit (r : RayReg) (cullb : Bool) (tri : Nat → Word) (id : Word) (idx : Nat) : Option RayHit :=
  if (List.range 9).any fun k => !(rDec (tri k)).isFin then none
  else
    let o (k : Nat) : Word := r k
    let d (k : Nat) : Word := r (3 + k)
    let mag (k : Nat) : Nat := (d k).toNat % 2 ^ 31
    let kz := if mag 0 < mag 1 then (if mag 1 < mag 2 then 2 else 1) else (if mag 0 < mag 2 then 2 else 0)
    let kx := (kz + 1) % 3
    let ky := (kx + 1) % 3
    let (kx, ky) := if (rDec (d kz)).isNeg then (ky, kx) else (kx, ky)
    let sx := rDiv (d kx) (d kz)
    let sy := rDiv (d ky) (d kz)
    let sz := rDiv 0x3F800000 (d kz)
    let pt (j : Nat) : RayPt :=
      let q (k : Nat) : Word := rSub (tri (3 * j + k)) (o k)
      ⟨rSub (q kx) (rMul sx (q kz)), rSub (q ky) (rMul sy (q kz)), rMul sz (q kz)⟩
    let a := pt 0
    let b := pt 1
    let c := pt 2
    let (u, uv) := rayEdge c b
    let (v, vv) := rayEdge a c
    let (w, wv) := rayEdge b a
    let pos (e : FVal) (p q : RayPt) : Bool := FVal.zero.lt e || (e.eq .zero && p.owned q)
    let neg (e : FVal) (p q : RayPt) : Bool := e.lt .zero || (e.eq .zero && q.owned p)
    let front := pos uv b c && pos vv c a && pos wv a b
    let back := neg uv b c && neg vv c a && neg wv a b
    if uv.eq .zero && vv.eq .zero && wv.eq .zero then none
    else if !front && (!back || cullb) then none
    else
      let det := rAdd (rAdd u v) w
      if (rDec det).eq .zero then none
      else
        let tt := rFma w c.z (rFma v b.z (rMul u a.z))
        let t := rDiv tt det
        if (rDec (r 6)).le (rDec t) && (rDec t).le (rDec (r 7)) then
          some ⟨t, rDiv v det, rDiv w det, id, idx⟩
        else none

/-- The result of two hits without ANY (R343). -/
def RayHit.better (x y : RayHit) : RayHit :=
  if (rDec x.t).lt (rDec y.t) then x
  else if (rDec y.t).lt (rDec x.t) then y
  else if y.id.toNat < x.id.toNat ∨ (y.id = x.id ∧ y.idx < x.idx) then x else y

/-! ### The query (R341, R343) -/

/-- How a query ends before its last node. -/
inductive RayEnd where
  /-- ANY has its hit -/
  | found (h : RayHit)
  /-- a malformed BVH -/
  | bad
  /-- a path of more than 64 nodes -/
  | deep
  /-- a translation fault stops the command -/
  | stop (m : Miss) (va : DWord)
  /-- an error that waits for the CNTWAIT of the class -/
  | err (t : TrapInfo)
  | denied (va : DWord) (cls : Nat)

/-- What a query does: it reads memory, which changes the machine only by noting its accesses (R282, R375). -/
abbrev RayM := EStateM RayEnd State

/-- Read 16n bytes of the BVH at an offset as a number. -/
def bvhRead (e : BitVec 256) (off : Nat) : Nat → RayM Nat
  | 0 => pure 0
  | n + 1 => do
    if hLimit e < off + 16 then throw (.err (.at_ .hbounds (BitVec.ofNat 64 off) 0))
    let va := vaOf e off
    let s ← get
    match s.engAt .ry false va 16 with
    | .error (.stop m va _) => throw (.stop m va)
    | .error (.skip t) => throw (.err t)
    | .error (.denied va k) => throw (.denied va k)
    | .error (.ok _) => throw .bad
    | .ok h =>
      set (s.engTouch va h)
      let hi ← bvhRead e (off + 16) n
      pure (Mem.number (s.load h 16) + 2 ^ 128 * hi)

/-- Word k of a number. -/
def wordOf (x k : Nat) : Word := BitVec.ofNat 32 (x / 2 ^ (32 * k))

/-- What a query works with: the ray, its flags, and the header's fields. -/
structure RayJob where
  r : RayReg
  cullb : Bool
  any_ : Bool
  e : BitVec 256
  triOff : Nat
  nodes : Nat
  tris : Nat

/-- Test the triangles of a leaf in ascending index. -/
def rayLeaf (q : RayJob) : List Nat → Option RayHit → RayM (Option RayHit)
  | [], best => pure best
  | i :: is, best => do
    let t ← bvhRead q.e (q.triOff + 48 * i) 3
    match triHit q.r q.cullb (wordOf t) (wordOf t 9) i with
    | none => rayLeaf q is best
    | some h =>
      if q.any_ then throw (.found h)
      else rayLeaf q is (some (match best with | some b => h.better b | none => h))

/-- A malformed child reference. -/
def refBad (q : RayJob) (c : Nat) : Bool :=
  let x := c % 2 ^ 24
  let n := c / 2 ^ 24 % 64
  match c / 2 ^ 30 with
  | 0 => false
  | 1 => decide (n ≠ 0 ∨ q.nodes ≤ x)
  | 2 => decide (q.tris < x + n + 1)
  | _ => true

/-- Visit a node and what lies below it; `fuel` bounds the nodes of the path. -/
def rayNode (q : RayJob) : Nat → Nat → Option RayHit → RayM (Option RayHit)
  | 0, _, _ => throw .deep
  | fuel + 1, n, best => do
    let x ← bvhRead q.e (128 + 128 * n) 8
    let ref (k : Nat) : Nat := (wordOf x (24 + k)).toNat
    if x / 2 ^ 896 ≠ 0 ∨ (List.range 4).any (fun k => refBad q (ref k)) then throw .bad
    let tmax : FVal := match best with | some b => rDec b.t | none => rDec (q.r 7)
    let hits := (List.range 4).filter fun k => decide (ref k / 2 ^ 30 ≠ 0) && boxHit q.r (fun j => wordOf x (6 * k + j)) tmax
    hits.foldlM (fun best k =>
      let c := ref k % 2 ^ 24
      if ref k / 2 ^ 30 = 1 then rayNode q fuel c best
      else rayLeaf q ((List.range (ref k / 2 ^ 24 % 64 + 1)).map (c + ·)) best) best

/-- The header's fields: TRIOFF, NODES and TRIS; none when it is malformed. -/
def bvhHeader (x : Nat) : Option (Nat × Nat × Nat) :=
  let triOff := x % 2 ^ 64
  let nodes := x / 2 ^ 64 % 2 ^ 32
  let tris := x / 2 ^ 96 % 2 ^ 32
  if x / 2 ^ 128 ≠ 0 ∨ nodes = 0 ∨ triOff % 16 ≠ 0 then none else some (triOff, nodes, tris)

/-- The query of one lane. -/
def rayQuery (slot : RaySlot) (i : Nat) : RayM (Option RayHit) := do
  let r : RayReg := fun k => laneAt (slot.rays.getD k (splat 0)) i
  if rayBad r then throw .bad
  let e := (← get).entry slot.handle
  let x ← bvhRead e 0 8
  match bvhHeader x with
  | none => throw .bad
  | some (triOff, nodes, tris) =>
    if (rDec (r 7)).lt (rDec (r 6)) then pure none
    else rayNode ⟨r, slot.cullb, slot.any_, e, triOff, nodes, tris⟩ 64 0 none

/-- Status codes of Table 14.7. -/
def rayNone : Nat := 0
def rayPending : Nat := 1
def rayHit : Nat := 2
def rayMiss : Nat := 3
def rayIsBad : Nat := 4
def rayDeep : Nat := 5

/-- A slot that no query has used. -/
def RaySlot.empty : RaySlot :=
  { rays := [], m := 0, cullb := false, any_ := false, handle := 0, pend := false,
    status := List.replicate 32 0, res := List.replicate 4 (splat 0) }

def Wave.raySlot (w : Wave) (k : Nat) : RaySlot := Table.get RaySlot.empty w.rays k

/-- Hold a lane's result. -/
def RaySlot.hold (q : RaySlot) (i code : Nat) (h : Option RayHit) : RaySlot :=
  let q := { q with status := q.status.set i code }
  match h with
  | none => q
  | some h => { q with res := (q.res.zip [h.t, h.u, h.v, h.id]).map fun p => mergeLanes (1#32 <<< i) (splat p.2) p.1 }

/-- Serve the lanes of a query in ascending order; a translation fault stops it at its lane (R345, R257). -/
def State.rayLanes (c : EngCmd) (slot : Nat) : List Nat → State → State × Bool
  | [], s => (s, true)
  | i :: is, s =>
    let hold (s : State) (code : Nat) (h : Option RayHit) : State :=
      { s with wave := { s.wave with rays := Table.put s.wave.rays slot ((s.wave.raySlot slot).hold i code h) } }
    match rayQuery (s.wave.raySlot slot) i s with
    | .error (.stop m va) s => (s.cmdFault c m va false, false)
    | .ok none s => State.rayLanes c slot is (hold s rayMiss none)
    | .ok (some h) s => State.rayLanes c slot is (hold s rayHit (some h))
    | .error (.found h) s => State.rayLanes c slot is (hold s rayHit (some h))
    | .error .bad s => State.rayLanes c slot is (hold s rayIsBad none)
    | .error .deep s => State.rayLanes c slot is (hold s rayDeep none)
    | .error (.err t) s => State.rayLanes c slot is
        { hold s rayNone none with wave := (hold s rayNone none).wave.mapCmd c.num fun c => { c with err := c.err ++ [t] } }
    | .error (.denied va k) s => State.rayLanes c slot is ((hold s rayNone none).cmdDenied c va k)

/-- Run a query; when every lane's result is held, RY falls by 1 (R345). -/
def State.rayRun (s : State) (c : EngCmd) (slot : Nat) : State :=
  if s.link.retraining then s
  else
    let q := s.wave.raySlot slot
    let (s, ok) := s.rayLanes c slot ((lanesOf q.m).filter fun i => q.status.getD i 0 = rayPending)
    if ok then
      let q := s.wave.raySlot slot
      { s with wave := { s.wave with rays := Table.put s.wave.rays slot { q with pend := false } } }.cmdRetire c.num
    else s

/-! ### RAYQ and RAYRD (R345, R346) -/

/-- The slot that ext names. -/
def raySlotOf (f : Fields) : Nat := ebits f 7 6

/-- A read of global bytes by the wave as one uniform access. -/
def accBvh : AccKind := ⟨.read, true, false, false, true, kindWave⟩

/-- The checks of the handle and the header, and the state after the read (R345). -/
def Ctx.rayHead (x : Ctx) : Except Out State := do
  let e := x.s.entry (hOf x.f)
  let fail (c : Cause) : Except Out Unit := .error (.trap (.at_ c 0 0) x.s)
  x.sound (hOf x.f)
  if needBad { spaces := [1], rd := true } e then fail .hinval
  if hLimit e < 128 then fail .hbounds
  let x := { x with s := x.s.useHandle (hOf x.f) e }
  let p ← x.plan e accBvh 16 ((List.range 8).map fun (k : Nat) => (32, 16 * (k : Int)))
  match p.missing, p.denied with
  | (_, va, m) :: _, _ => .error (.leave ((p.records x.s).park m va false false 0))
  | [], _ :: _ => .error (.done (p.deny x.s))
  | [], [] =>
    let (s, out) := loadLanes 16 none (p.records x.s) p.go
    let n : Nat := (out.zipIdx.map fun q => q.1.2 * 2 ^ (128 * q.2)).sum
    if n % 16 ≠ 0 then .error (.trap (.at_ .align 0 0) s)
    if (bvhHeader n).isNone then .error (.trap (.plain .raybad) s)
    .ok s

/-- R345 -/
def execRayq (f : Fields) (s : State) : Res :=
  .next (issue (.rayq f) f (fun x => ends do
    let s ← x.rayHead
    let k := raySlotOf f
    if (s.wave.raySlot k).pend ∨ 63 ≤ s.wave.count .ry then .error (.stall s)
    let q : RaySlot := { RaySlot.empty with
      rays := (List.range 8).map fun j => x.lanes (Opnd.step f.a j)
      m := x.m, cullb := mbits f 0 0 = 1, any_ := mbits f 1 1 = 1, handle := hOf f, pend := true
      status := (List.range 32).map fun i => if laneOn x.m i then rayPending else rayNone }
    .ok ({ s with wave := { s.wave with rays := Table.put s.wave.rays k q } }.startCmd (.rayq f) 0 .ry (.ray k) none none none)) s)

/-- R346; where lanes hold both, RAYBAD goes before BVHDEPTH (log 122). -/
def execRayrd (f : Fields) (s : State) : Res :=
  .next (issue (.rayrd f) f (fun x =>
    let q := x.s.wave.raySlot (raySlotOf f)
    let code (i : Nat) : Nat := q.status.getD i 0
    let hit (i : Nat) : Bool := decide (code i = rayHit)
    let on (c : Nat) : List Nat := (lanesOf x.m).filter fun i => code i = c
    if q.pend then .stall x.s
    else match on rayIsBad, on rayDeep with
      | i :: is, _ => .trap { TrapInfo.plain .raybad with mask := maskOfList (i :: is) } x.s
      | [], i :: is => .trap { TrapInfo.plain .bvhdepth with mask := maskOfList (i :: is) } x.s
      | [], [] =>
        let col (k : Nat) (no : Word) : Lanes := lanesFn fun i => if hit i then laneAt (q.res.getD k (splat 0)) i else no
        let s := x.s.write f.d x.m .now 3 (col 0 0x7F800000)
        let s := s.write (Opnd.step f.d 1) x.m .now 3 (col 1 0)
        let s := s.write (Opnd.step f.d 2) x.m .now 3 (col 2 0)
        let s := s.write (Opnd.step f.d 3) x.m .now 2 (col 3 0xFFFFFFFF)
        .done (s.writePred f.a x.m .now (maskOf hit))) s)

end Sys2Proof.Machine
end

