-- ==== Sys2Proof/Machine/Damask.lean ====
section
/-! DEFINITION. The sample buffer Damask: records, insertion and ranking (R380-R385), SMPPUT, SMPRD and EYEBOR
(R386-R389). -/

namespace Sys2Proof.Machine

/-! ### Records (Table 15.1) -/

abbrev Sample := BitVec 256

def smTs (r : Sample) : Word := r.extractLsb' 0 32
def smX (r : Sample) : Nat := bits r 47 32
def smY (r : Sample) : Nat := bits r 63 48
def smDepth (r : Sample) : Word := r.extractLsb' 64 32
def smEclass (r : Sample) : Nat := bits r 231 228
/-- Bytes 8 to 27 as an unsigned integer. -/
def smBody (r : Sample) : Nat := bits r 223 64
def smBand (r : Sample) : Nat := smY r / 16 / 64
/-- The record with byte 28's EYE, BORROWED and VALID written. -/
def smFlags (r : Sample) (eye borrowed : Nat) : Sample :=
  BitVec.ofNat 256 (r.toNat - bits r 226 224 * 2 ^ 224 + (eye + 2 * borrowed + 4) * 2 ^ 224)
/-- The record with BORROWED set and X written; EYE and the rest stand. -/
def smBorrow (r : Sample) (x : Nat) : Sample :=
  BitVec.ofNat 256 (r.toNat - smX r * 2 ^ 32 + x * 2 ^ 32 - bits r 225 225 * 2 ^ 225 + 2 ^ 225)
/-- A record that SMPPUT refuses (R387). -/
def smBad (r : Sample) : Bool :=
  decide (bits r 227 227 ≠ 0 ∨ bits r 255 232 ≠ 0 ∨ 61440 ≤ smX r ∨ 61440 ≤ smY r)
/-- The age of a record against a reference tick (R381). -/
def smAge (rho : Word) (r : Sample) : Int := (rho - smTs r).toInt

/-! ### Bands (R382-R384) -/

/-- Key of a record: its band and its slot index. -/
def dmkKey (b slot : Nat) : Nat := 131072 * b + slot
/-- Where the poison of a record's slot is kept, beside the sectors of global memory (R375). -/
def dmkPoison (t : TowerId) (b slot : Nat) : Nat := 2 ^ 50 + t.val * 2 ^ 24 + dmkKey b slot

/-- Damask is in use, and the band's home holds records. -/
def Tower.bandOn (t : Tower) (b : Nat) : Bool :=
  (t.reg csrDmkctl).getLsbD 0 && decide (((t.layers[b % 8]?).map Layer.st).getD .off ≠ .off)
/-- The records of a band with their slots, ascending; none is found in a band that holds nothing. -/
def Tower.band (t : Tower) (b : Nat) : List (Nat × Sample) :=
  if t.bandOn b then (t.damask.filter fun e => e.1 / 131072 = b).map fun e => (e.1 % 131072, e.2) else []

/-- The lowest slot at or above n that a rising list leaves free. -/
def freeSlot : Nat → List (Nat × Sample) → Nat
  | n, [] => n
  | n, (k, _) :: r => if k = n then freeSlot (n + 1) r else n

/-- Does record a at a slot go before record b when a victim is chosen (R384)? -/
def evictsFirst (rho : Word) (a b : Nat × Sample) : Bool :=
  let (i, x) := a
  let (j, y) := b
  if smEclass x ≠ smEclass y then decide (smEclass x < smEclass y)
  else if smAge rho x ≠ smAge rho y then decide (smAge rho y < smAge rho x)
  else decide (i < j)

/-- Insert a record into its band at its home: the tower after it, the slot taken, and whether it was inserted (R384). -/
def Tower.insert (t : Tower) (r : Sample) : Tower × Option Nat :=
  let b := smBand r
  if !t.bandOn b then (t.count csrDmkcnt 16 1, none)
  else
    let rs := t.band b
    if rs.length < 131072 then
      let k := freeSlot 0 rs
      ({ t with damask := Table.put t.damask (dmkKey b k) r }, some k)
    else
      let v := rs.foldl (fun v x => if evictsFirst (smTs r) x v then x else v) (131072, r)
      if v.1 = 131072 then (t.count csrDmkcnt 16 1, none)
      else ({ t with damask := Table.put t.damask (dmkKey b v.1) r }.count csrDmkcnt 0 1, some v.1)

/-! ### Windows and ranks (R386, R388) -/

def winX0 (w : DWord) : Nat := bits w 15 0
def winX1 (w : DWord) : Nat := bits w 31 16
def winY0 (w : DWord) : Nat := bits w 47 32
def winY1 (w : DWord) : Nat := bits w 63 48
def winBad (w : DWord) : Bool :=
  decide (winX1 w ≤ winX0 w ∨ winY1 w ≤ winY0 w ∨ 3840 < winX1 w ∨ 3840 < winY1 w ∨ winY0 w / 64 ≠ (winY1 w - 1) / 64)
def winBand (w : DWord) : Nat := winY0 w / 64
def inWindow (w : DWord) (r : Sample) : Bool :=
  decide (winX0 w ≤ smX r / 16 ∧ smX r / 16 < winX1 w ∧ winY0 w ≤ smY r / 16 ∧ smY r / 16 < winY1 w)

/-- The keys of R388 as one number: age, Y, X, bytes 8 to 27. -/
def rankKey (rho : Word) (r : Sample) : Int :=
  smAge rho r * 2 ^ 192 + ((smY r * 2 ^ 176 + smX r * 2 ^ 160 + smBody r : Nat) : Int)
/-- Insert into a list that rises by rank key. -/
def rankInsert (rho : Word) (r : Sample) : List Sample → List Sample
  | [] => [r]
  | x :: xs => if rankKey rho r < rankKey rho x then r :: x :: xs else x :: rankInsert rho r xs
/-- The records of a window, ranked. -/
def Tower.ranked (t : Tower) (w : DWord) (rho : Word) : List Sample :=
  ((t.band (winBand w)).map Prod.snd).foldl (fun l r => if inWindow w r then rankInsert rho r l else l) []

/-- What lane i receives: rank r0 + i, if it exists. -/
def rankLane (l : List Sample) (r0 : Word) (i : Nat) : Option Sample := l[(r0 + BitVec.ofNat 32 i).toNat]?

/-- Tags of the eight registers of a record (R388). -/
def sampleTag (k : Nat) : BitVec 4 :=
  match k with | 0 => 2 | 1 => 11 | 2 => 3 | 3 => 4 | 4 => 4 | 5 => 4 | 6 => 2 | _ => 11

/-- Word k of a record, or 0. -/
def sampleWord (r : Option Sample) (k : Nat) : Word := match r with | some x => x.extractLsb' (32 * k) 32 | none => 0

/-! ### Instructions -/

/-- PRIV for a job that does not own Damask in a tower (R383). -/
def Tower.ownsDamask (t : Tower) (job : Nat) : Bool := decide (bits (t.reg csrDmkctl) 19 8 = job)

/-- The record that lane i of SMPPUT supplies. -/
def Ctx.sample (x : Ctx) (i : Nat) : Sample :=
  BitVec.ofNat 256 (((List.range 8).map fun k => (laneAt (x.lanes (Opnd.step x.f.a k)) i).toNat * 2 ^ (32 * k)).sum)

/-- R387 -/
def execSmpput (f : Fields) (s : State) : Res :=
  .next (issue (.smpput f) f (fun x => ends do
    let ls := lanesOf x.m
    let e := x.s.entry (ebits f 5 0)
    let tw := x.s.group.tower
    let off (i : Nat) : Nat := smBand (x.sample i) * 2 ^ 22
    let fail (c : Cause) (bad : List Nat) : Except Out Unit :=
      match bad with
      | [] => .ok ()
      | i :: _ => .error (.trap (.at_ c (if c = .hbounds then BitVec.ofNat 64 (off i) else 0) (if c = .priv then 0 else maskOfList bad)) x.s)
    if !ls.isEmpty then x.sound (ebits f 5 0)
    fail .hinval (if needBad { spaces := [4], wr := true } e then ls else [])
    fail .priv (if (x.s.tower tw).ownsDamask x.s.group.job then [] else ls)
    fail .smpbad (ls.filter fun i => smBad (x.sample i))
    fail .hbounds (ls.filter fun i => decide (hLimit e ≤ off i))
    let s := if ls.isEmpty then x.s else x.s.useHandle (ebits f 5 0) e
    let (t, p, won) := ls.foldl (fun (a : Tower × List Nat × List Nat) i =>
      let r := smFlags (x.sample i) tw.val 0
      match a.1.insert r with
      | (t, some k) => (t, i :: a.2.1, dmkPoison tw (smBand r) k :: a.2.2)
      | (t, none) => (t, a.2.1, a.2.2)) (s.tower tw, [], [])
    let s := { s.setTower tw t with poison := won.foldl Table.erase s.poison }
    .ok (.done (s.writePred f.d x.m .now (maskOfList p)))) s)

/-- The checks of a read of a window in a tower's Damask (R386). -/
def Ctx.windowRead (x : Ctx) (others : List TowerId) : Except Out State := do
  let e := x.s.entry (ebits x.f 5 0)
  let w := x.uni64 x.f.a
  let fail (c : Cause) (a : Nat) : Except Out Unit := .error (.trap (.at_ c (BitVec.ofNat 64 a) 0) x.s)
  x.sound (ebits x.f 5 0)
  if needBad { spaces := [4], rd := true } e then fail .hinval 0
  if others.any fun t => !(x.s.tower t).ownsDamask x.s.group.job then fail .priv 0
  if winBad w then fail .smpbad 0
  if hLimit e ≤ winBand w * 2 ^ 22 then fail .hbounds (winBand w * 2 ^ 22)
  .ok (x.s.useHandle (ebits x.f 5 0) e)

/-- A poisoned record of a band, if it holds one (R375). -/
def State.bandPoison (s : State) (t : TowerId) (b : Nat) : Bool :=
  ((s.tower t).band b).any fun r => (Table.find s.poison (dmkPoison t b r.1)).isSome

/-- The tags of R388 with no lane written: an empty mask leaves the lanes and sets the tags (R59, R152). -/
def State.sampleTags (s : State) (d : Opnd) : State :=
  (List.range 8).foldl (fun s k => s.write (Opnd.step d k) 0 .now (sampleTag k) (splat 0)) s

/-- R388 -/
def execSmprd (f : Fields) (s : State) : Res :=
  .next (issue (.smprd f) f (fun x =>
    if x.m = 0 then .done (x.s.sampleTags f.d)
    else ends do
      let tw := x.s.group.tower
      let s ← x.windowRead [tw]
      let w := x.uni64 f.a
      if s.bandPoison tw (winBand w) then .error (.trap (eccTrap 6 0 x.m) s)
      let rs := (s.tower tw).ranked w (x.uni f.b)
      let r0 := x.uni (Opnd.step f.b 1)
      let s := (List.range 8).foldl (fun s k =>
        s.write (Opnd.step f.d k) x.m .now (sampleTag k) (lanesFn fun i => sampleWord (rankLane rs r0 i) k)) s
      let pk : Opnd := .p ⟨ebits f 9 6 % 16, Nat.mod_lt _ (by decide)⟩
      .ok (.done (s.writePred pk x.m .now (maskOf fun i => (rankLane rs r0 i).isSome)))) s)

/-- R389: the command; its results come at its completion or at its deadline. -/
def execEyebor (f : Fields) (s : State) : Res :=
  .next (issue (.eyebor f) f (fun x =>
    if x.m = 0 then .done (x.s.sampleTags f.d)
    else ends do
      let s ← x.windowRead [0, 1]
      if s.link.down then .error (.trap (.at_ .linkfail 0 x.m) s)
      .ok (s.startCmd (.eyebor f) 0 .gt (.eyebor f.d.num (ebits f 9 6) (ebits f 13 10) x.m (x.uni64 f.a) (x.uni f.b)
        (x.uni (Opnd.step f.b 1))) (some f.hint.tok.toNat) none none)) s)

/-! ### The borrow (R389) -/

/-- The integer nearest to X − 16δ, ties to even. -/
def borrowX (x : Nat) (d : Word) : Option Int :=
  match Fmt.f32.decode d.toNat with
  | .fin n m e =>
    let (y, g) := addDyadic x 0 (if n then (m : Int) else -(m : Int)) (e + 4)
    let k := (roundInt .rne (decide (y < 0)) y.natAbs g).1
    some (if y < 0 then -(k : Int) else k)
  | _ => none

/-- Reproject a record with a tower's focal length and baseline; none when it is not usable. -/
def reproject (f b : Word) (r : Sample) : Option Sample :=
  let d := rDiv (rMul f b) (smDepth r)
  match rDec (smDepth r), borrowX (smX r) d with
  | .fin n m _, some x => if n || m = 0 || decide (x < 0 ∨ 61440 ≤ x) then none else some (smBorrow r x.toNat)
  | _, _ => none

/-- D − MARGIN has passed (R389). -/
def Tower.borrowLate (t : Tower) (dl : Word) : Bool :=
  let lim : Word := dl - BitVec.ofNat 32 (bits (t.reg csrBmargin) 19 0)
  decide (0 < (BitVec.ofNat 32 t.now - lim).toInt)

/-- Write the results of a borrow into the wave's registers; pl says that they are late. -/
def Wave.putBorrow (w : Wave) (d pk pl : Nat) (m : Mask) (rs : Nat → Option Sample) (late : Bool) : Wave :=
  let w := (List.range 8).foldl (fun (w : Wave) k =>
    w.setV (d + k) ⟨sampleTag k, mergeLanes m (lanesFn fun i => sampleWord (rs i) k) (w.vreg (d + k)).lanes⟩) w
  let got : Mask := maskOf fun i => (rs i).isSome
  let w := w.setP pk ((w.pred pk &&& ~~~m) ||| (got &&& m))
  w.setP pl (if late then w.pred pl ||| m else w.pred pl &&& ~~~m)

/-- Complete an EYEBOR of the focus wave: its results, or zeros when it is late; `due` when its deadline
passes before its results. -/
def State.borrowRun (s : State) (c : EngCmd) (due : Bool) : State :=
  match c.op with
  | .eyebor d pk pl m win dl r0 =>
    let t := s.tower s.group.tower
    let replay := s.wave.jctl.getLsbD 7
    let far : TowerId := if s.group.tower = 0 then 1 else 0
    let fail := s.link.down
    let bad := s.bandPoison far (winBand win)
    let late := !replay && (due || fail || t.borrowLate dl)
    if !late && s.link.retraining then s
    else if replay && due then s
    else
      let rs := ((s.tower far).ranked win dl).map (reproject (t.reg csrBfocal) (t.reg csrBbase))
      let lane (i : Nat) : Option Sample :=
        if late || fail || bad then none else (rs[(r0 + BitVec.ofNat 32 i).toNat]?).join
      let err : Option TrapInfo :=
        if late then none else if fail then some (.at_ .linkfail 0 0) else if bad then some (eccTrap 6 0 0) else none
      let w := s.wave.putBorrow d pk pl m lane late
      { s with wave := w.mapCmd c.num fun c => { c with err := c.err ++ err.toList } }.cmdRetire c.num
  | _ => s

end Sys2Proof.Machine
end

