-- ==== Sys2Proof/Machine/Display.lean ====
section
/-! DEFINITION. Display lines and the row port: lines and ticks (R390), the port buffer (R392), ROWWAIT and
ROWPUT (R393, R394). -/

namespace Sys2Proof.Machine

/-! ### Lines (R390) -/

def Tower.dspOn (t : Tower) : Bool := (t.reg csrDspctl).getLsbD 0
def Tower.dspRp (t : Tower) : Nat := bits (t.reg csrDsprp) 15 0
def Tower.dspT0 (t : Tower) : Nat := (t.reg2 csrDspt0).toNat
/-- DSPLINE: the largest L with T(L) at most now. -/
def Tower.dspLine (t : Tower) : Int := ((t.now : Int) - t.dspT0) / (t.dspRp : Int)
/-- T(L) -/
def Tower.lineTick (t : Tower) (l : Int) : Int := t.dspT0 + l * t.dspRp
/-- The line that an instruction names by its low 32 bits. -/
def Tower.lineNamed (t : Tower) (v : Word) : Int := t.dspLine + (v - BitVec.ofInt 32 t.dspLine).toInt

/-! ### ROWWAIT (R393) -/

/-- The tick at which a wave that waits for a line goes on has come, or EN is clear. -/
def Tower.rowReady (t : Tower) (line : Int) (lead : Nat) : Bool :=
  !t.dspOn || decide (t.lineTick line - lead ≤ t.now)
/-- What ROWWAIT gives: the low 32 bits of DSPLINE, or 0 while EN is clear. -/
def Tower.rowValue (t : Tower) : Word := if t.dspOn then BitVec.ofInt 32 t.dspLine else 0

/-- R393 -/
def execRowwait (f : Fields) (s : State) : Res :=
  .next (issue (.rowwait f) f (fun x =>
    let t := x.s.tower x.s.group.tower
    let lead : Nat := if isNil f.b then 0 else (x.uni f.b).toNat
    .done { x.s with wave := { x.s.wave with wait := .row (t.lineNamed (x.uni f.a)) lead f.d } }) s)

/-! ### ROWPUT (R394) -/

/-- One component of an F16 pixel as 10 bits. -/
def pixelPart (c : Nat) : Nat :=
  match Fmt.f16.decode c with
  | .nan => 0
  | .inf n => if n then 0 else 1023
  | .fin n m e =>
    if n then 0
    else if 2 ^ (-e).toNat ≤ m * 2 ^ e.toNat then 1023
    else (roundInt .rne false (m * 1023) e).1

/-- The 30-bit code of lane i. -/
def Ctx.pixel (x : Ctx) (i : Nat) : Word :=
  let a := laneAt (x.lanes x.f.a) i
  if mbits x.f 0 0 = 1 then a &&& 0x3FFFFFFF
  else
    let b := laneAt (x.lanes (Opnd.step x.f.a 1)) i
    BitVec.ofNat 32 (packBits [(0, 10, pixelPart (bits a 15 0)), (10, 10, pixelPart (bits a 31 16)), (20, 10, pixelPart (bits b 15 0))])

/-- R394: the segment travels to the port, which performs the wave's segments in program order (TOKEN_CLEAR). -/
def execRowput (f : Fields) (s : State) : Res :=
  .next (issue (.rowput f) f (fun x =>
    let s := x.s
    let t := s.tower s.group.tower
    let x0 := (x.uni (Opnd.step f.b 1)).toNat
    let ls := lanesOf x.m
    if bits (t.reg csrDspctl) 19 8 ≠ s.group.job then .trap (.plain .priv) s
    else match ls.filter fun i => decide (3840 ≤ x0 + i) with
      | i :: is => .trap (.at_ .hbounds (BitVec.ofNat 64 (x0 + i)) (maskOfList (i :: is))) s
      | [] =>
        if !t.grants 3 s.group.job kindWave false true false 0 0 then
          .done (s.post (some { TrapInfo.late .acctbl (BitVec.ofNat 64 x0) with mask := x.m }))
        else
          let seg : RowSeg := ⟨f.hint.tok.toNat, t.lineNamed (x.uni f.b), f.d, ls.map fun i => (x0 + i, x.pixel i)⟩
          .done { s with wave := { s.wave with segs := s.wave.segs ++ [seg] } }) s)

/-- A segment still waits for its line's entry of the port buffer, whether EN is set or not (R394). -/
def Tower.segWaits (t : Tower) (g : RowSeg) : Bool := decide (t.dspLine + 128 < g.line)

/-- Key of a pixel of the port buffer, whose 128 entries are taken by the lines in turn. -/
def pixelKey (line : Int) (x : Nat) : Nat := (line % 128).toNat * 3840 + x

/-- The port performs a segment: the tower after it, and the status (R394). A written pixel has bit 30 set. -/
def Tower.putRow (t : Tower) (g : RowSeg) : Tower × Word :=
  if !t.dspOn then (t, 0)
  else if g.line ≤ t.dspLine then (t.count csrDspcnt 0 1, 0)
  else ({ t with pixels := g.px.foldl (fun p q => Table.put p (pixelKey g.line q.1) (q.2 ||| 0x40000000)) t.pixels }, 1)

/-! ### Display lines as they fall due (R392) -/

/-- Light one line: pixels that were written take their values, the others are held, and the entry is
cleared for the line that takes it. -/
def Tower.lightOne (t : Tower) : Tower :=
  let k := (t.dspNext % 128).toNat * 3840
  let own := t.pixels.filter fun e => k ≤ e.1 && e.1 < k + 3840
  let t := if own.length < 3840 then t.count csrDspcnt 16 1 else t
  { t with
    pixels := t.pixels.filter fun e => !(k ≤ e.1 && e.1 < k + 3840)
    lit := own.foldl (fun l e => Table.set 0 l (e.1 - k) (e.2 &&& 0x3FFFFFFF)) t.lit
    dspNext := t.dspNext + 1 }

/-- Light n lines. -/
def Tower.lightMany : Nat → Tower → Tower
  | 0, t => t
  | n + 1, t => Tower.lightMany n t.lightOne

/-- Light every line that is due. -/
def Tower.lightDue (t : Tower) : Tower :=
  if t.dspOn then Tower.lightMany (t.dspLine + 1 - t.dspNext).toNat t else t

/-- The port performs the focus wave's first segment, unless it waits: lines that are due are lit first, the status goes
to the register and the token clears. -/
def State.portStep (s : State) : State :=
  match s.wave.segs with
  | [] => s
  | g :: gs =>
    let t := s.tower s.group.tower
    if t.segWaits g then s
    else
      let (t, d) := t.lightDue.putRow g
      let w := { s.wave with segs := gs }.give g.d 0 0 (splat d)
      (({ s with wave := w.clearTok g.tok }).setTower s.group.tower t)

end Sys2Proof.Machine
end

