-- ==== Sys2Proof/Machine/Image.lean ====
section
/-! DEFINITION. The context image of a saved group (R371, R372) as bytes, and the test that a restore makes of it
(R373). An image is a list of its bytes that are not zero, by their offsets, rising. -/

namespace Sys2Proof.Machine

/-- TCAUSE -/
def Wave.tcause (w : Wave) : Word := BitVec.ofNat 32 (tcauseWord w.cause.toNat w.after w.inh w.info.toNat)

/-- A wave register (Table 14.2); 0 for a number that names none. -/
def Wave.csr (w : Wave) (n : Nat) : Word :=
  match n with
  | 0 => if w.sbchk then 1 else 0
  | 1 => w.wflags.setWidth 32
  | 2 => w.tvec.extractLsb' 0 32
  | 3 => w.tvec.extractLsb' 32 32
  | 4 => w.tepc.extractLsb' 0 32
  | 5 => w.tepc.extractLsb' 32 32
  | 6 => w.tcause
  | 7 => w.taddr.extractLsb' 0 32
  | 8 => w.taddr.extractLsb' 32 32
  | 9 => w.tmask
  | 10 => w.tem
  | _ => 0

/-- A field of an image: its offset, its bytes, and its value. -/
structure ImgField where
  at_ : Nat
  len : Nat
  val : Nat

def ImgField.shift (n : Nat) (f : ImgField) : ImgField := { f with at_ := n + f.at_ }
/-- The bytes of a field that are not zero. -/
def ImgField.cells (f : ImgField) : List Host.Cell :=
  ((Mem.bytes f.val f.len).zipIdx.filter fun b => b.1 ≠ 0).map fun b => (f.at_ + b.2, b.1)
def ImgField.holds (f : ImgField) (a : Nat) : Bool := decide (f.at_ ≤ a ∧ a < f.at_ + f.len)

/-- Equal fields one behind the other. -/
def imgRow (at_ len : Nat) (vs : List Nat) : List ImgField := vs.zipIdx.map fun v => ⟨at_ + len * v.2, len, v.1⟩

/-- Tags, two to a byte, the even one low. -/
def imgTags (at_ n : Nat) (tag : Nat → BitVec 4) : List ImgField :=
  imgRow at_ 1 ((List.range (n / 2)).map fun k => (tag (2 * k)).toNat + 16 * (tag (2 * k + 1)).toNat)

/-! ### Waves (R372) -/

/-- The wait code and the wait address; a wait without a code of its own is that of a parked instruction (log 62). -/
def Wait.image : Wait → Nat × Nat
  | .none => (0, 0)
  | .waitpred _ => (1, 0)
  | .barrier off _ => (2, off)
  | .lock _ va _ => (3, va.toNat)
  | .queue _ va _ _ _ _ _ _ => (4, va.toNat)
  | .counter _ va _ _ _ => (5, va.toNat)
  | .sleep t => (6, (t.getD 0).toNat)
  | .cntwait _ _ => (7, 0)
  | .parked _ va => (8, va.toNat)
  | .retry _ => (8, 0)
  | .row _ _ _ => (8, 0)
  | .shootdown => (8, 0)
  | .layers _ _ => (8, 0)
  | .slots _ _ _ => (8, 0)

/-- State, offset and result of an arrival record. -/
def Arrival.image : Arrival → List Nat
  | .none => [0, 0, 0]
  | .pending o => [1, o, 0]
  | .complete o r => [2, o, r.toNat]

/-- Lane i of a ray slot: the ray, the result, status, flags and handle. -/
def RaySlot.image (q : RaySlot) (i : Nat) : List ImgField :=
  imgRow 0 4 ((q.rays ++ q.res).map fun l => (laneAt l i).toNat) ++
    imgRow 48 1 [q.status.getD i 0, (if q.cullb then 1 else 0) + (if q.any_ then 2 else 0), q.handle]

/-- Tiles that are not clean. -/
def Wave.dirtyTiles (w : Wave) : List Nat := (List.range 16).filter fun k => !(w.tile k).clean
/-- The tile at an image: element (m, n) of quarter q. -/
def Tile.image (z : Tile) : List Nat := (List.range 256).map fun k => (Table.get 0 z.elems k).toNat

/-- SCB copy, steps by group of 8 channels, and the state. -/
def ScanProg.image (q : ScanProg) : List ImgField :=
  ⟨0, 128, q.scb.toNat⟩ :: imgRow 128 4 ((List.range 32).map fun k => Table.get 0 q.done k) ++
    imgRow 256 4 ((List.range (scP q.scb * scD q.scb)).map fun k => (Table.get 0 q.state k).toNat)

/-- CNTRD's word. -/
def Wave.counts (w : Wave) : Nat :=
  packBits [(0, 6, w.count .cp), (6, 6, w.count .gt), (12, 6, w.count .mx), (18, 6, w.count .bc), (24, 6, w.count .ry)]

/-- The memory-model status word of a wave of a group. -/
def State.imageMm (s : State) (g : Group) (w : Wave) : Nat := ({ s with wave := w, group := g }.mmWord).toNat

/-- Where the tiles of a wave image start, and its SCAN section. -/
def tilesAt (g : Group) : Nat := 0x2400 + 1024 * taskBits g.task 32 5 0
def scanAt (g : Group) (w : Wave) : Nat := tilesAt g + 1024 * w.dirtyTiles.length

/-- The tokens that a wave image shows: those that are set, and that of the parked instruction (R372). -/
def Wave.imageToks (w : Wave) : BitVec 6 :=
  w.tokens ||| match w.parkTok with | some k => 1#6 <<< k | none => 0

/-- The fields of a wave image (Table 14.7). -/
def State.waveFields (s : State) (g : Group) (w : Wave) : List ImgField :=
  [⟨0x000, 8, w.pc.toNat⟩, ⟨0x008, 4, w.live.toNat⟩, ⟨0x00C, 4, w.em.toNat⟩] ++
  imgRow 0x010 4 ((List.range 8).map fun k => (w.stack.reverse.getD k 0).toNat) ++
  imgRow 0x030 1 [w.stack.length, w.await.toNat, w.imageToks.toNat, w.wflags.toNat] ++
  imgRow 0x034 4 ([0, 2, 3, 4, 5, 6, 7, 8, 9, 10].map fun n => (w.csr n).toNat) ++
  [⟨0x05C, 4, s.imageMm g w⟩] ++ imgRow 0x060 4 w.arrival.image ++
  [⟨0x070, 4, w.wait.image.1⟩, ⟨0x074, 4, w.link.toNat⟩, ⟨0x078, 8, w.wait.image.2⟩, ⟨0x080, 4, w.parkedMask.toNat⟩,
   ⟨0x084, 1, (if w.wakePend then 1 else 0) + (if w.scan.isSome then 2 else 0)⟩, ⟨0x088, 4, w.counts⟩,
   ⟨0x08C, 4, w.dogCount⟩, ⟨0x090, 2, (w.dirtyTiles.map fun k => 2 ^ k).sum⟩] ++
  imgRow 0x100 4 ((List.range 128).map fun n => (w.sreg n).toNat) ++
  imgRow 0x300 4 ((List.range 16).map fun n => (w.pred n).toNat) ++
  imgTags 0x340 320 (fun n => (w.vreg n).tag) ++ imgTags 0x3E0 16 (fun k => (w.tile k).tag) ++
  ((List.range 4).flatMap fun k => (List.range 32).flatMap fun i =>
    ((w.raySlot k).image i).map (ImgField.shift (0x400 + 0x800 * k + 64 * i))) ++
  ((List.range (8 * taskBits g.task 32 5 0)).flatMap fun n =>
    imgRow (0x2400 + 128 * n) 4 ((List.range 32).map fun i => (laneAt (w.vreg n).lanes i).toNat)) ++
  (w.dirtyTiles.zipIdx.flatMap fun k => imgRow (tilesAt g + 1024 * k.2) 4 (w.tile k.1).image) ++
  match w.scan with
  | none => []
  | some q => q.image.map (ImgField.shift (scanAt g w))

def up256 (n : Nat) : Nat := (n + 255) / 256 * 256
/-- The bytes of a wave image. -/
def waveSize (g : Group) (w : Wave) : Nat :=
  up256 (scanAt g w + match w.scan with | none => 0 | some q => 256 + 4 * (scP q.scb * scD q.scb))

/-! ### Groups (R371) -/

/-- The class code of an engine record. -/
def engImage : EngClass → Nat | .cp => 0 | .gt => 1 | .mx => 2 | .bc => 3 | .ry => 4

/-- Coordinates and d of a command, where it has them. -/
def EngOp.image : EngOp → List Int × Nat
  | .cpy _ _ _ co => (co, 0)
  | .cpyb _ _ co => (co, 0)
  | .bcast _ _ _ _ co _ _ => (co, 0)
  | .gthr d _ _ _ => ([], d)
  | .eyebor d _ _ _ _ _ _ => ([], d)
  | .sctr _ _ _ _ => ([], 0)
  | .sectors _ => ([], 0)
  | .mzst _ _ _ _ _ _ => ([], 0)
  | .ray _ => ([], 0)

/-- An engine record (Table 14.6). -/
def engineFields (w : Wave) (c : EngCmd) : List ImgField :=
  [⟨0, 12, c.word.toNat⟩, ⟨12, 1, w.idx⟩, ⟨13, 1, engImage c.cls⟩, ⟨16, 8, c.shapeAt.toNat⟩] ++
  imgRow 24 4 ((List.range 5).map fun k => (BitVec.ofInt 32 (c.op.image.1.getD k 0)).toNat) ++
  [⟨44, 4, c.next⟩, ⟨48, 8, (c.ctr.getD 0).toNat⟩, ⟨56, 4, c.op.image.2⟩, ⟨60, 1, if c.parked then 1 else 0⟩]

def TransReg.image (r : TransReg) : List ImgField :=
  [⟨0, 1, r.handle + 128⟩, ⟨8, 32, r.entry.toNat⟩, ⟨40, 8, r.base⟩, ⟨48, 8, r.ext⟩, ⟨56, 1, r.rank⟩]

/-- The waves of a group in rising index, and the engine records with their waves. -/
def State.imageWaves (s : State) (g : Group) : List Wave :=
  (List.range 16).filterMap fun i => s.allWaves.find? fun w => w.inGroup g.key && w.idx = i
def State.imageCmds (s : State) (g : Group) : List (Wave × EngCmd) :=
  (s.imageWaves g).flatMap fun w => w.cmds.map fun c => (w, c)

def groupLoc (g : Group) : Nat := 4096 * taskBits g.task 32 15 10
/-- LOCOFF, and where the wave images start, each with its wave, from an offset on. -/
def State.locOff (s : State) (g : Group) : Nat := up256 (0xB00 + 64 * (s.imageCmds g).length)
def waveOffs (g : Group) : Nat → List Wave → List (Nat × Wave)
  | _, [] => []
  | o, w :: ws => (o, w) :: waveOffs g (o + waveSize g w) ws
def State.imageOffs (s : State) (g : Group) : List (Nat × Wave) :=
  waveOffs g (up256 (s.locOff g + groupLoc g)) (s.imageWaves g)
/-- SIZE -/
def State.imageSize (s : State) (g : Group) : Nat :=
  match (s.imageOffs g).getLast? with
  | some (o, w) => o + waveSize g w
  | none => up256 (s.locOff g + groupLoc g)

/-- Where the group's part of its unit's local space starts: the parts of a gang stand in placement order (R123, R227). -/
def State.partAt (s : State) (g : Group) : Nat :=
  match s.findUnit g.unit with
  | none => 0
  | some u => ((u.tasks.takeWhile (· ≠ g.task)).map fun x => 4096 * taskBits x 32 15 10).sum

/-- The fields of a group image before its local part (Table 14.6). -/
def State.groupFields (s : State) (g : Group) : List ImgField :=
  [⟨0x000, 64, g.task.toNat⟩, ⟨0x040, 1, g.waves⟩,
   ⟨0x041, 1, (if g.swapWant then 1 else 0) + (if (g.fetch.map Fetch.pending).getD false then 2 else 0) +
     (if g.posblk.isEmpty then 0 else 4)⟩,
   ⟨0x042, 2, ((s.imageWaves g).map fun w => if w.alive then 2 ^ w.idx else 0).sum⟩, ⟨0x044, 4, s.imageSize g⟩,
   ⟨0x048, 4, s.locOff g⟩, ⟨0x04C, 4, groupLoc g⟩, ⟨0x050, 4, (s.imageCmds g).length⟩, ⟨0x054, 4, g.gid % 2 ^ 27⟩] ++
  imgRow 0x060 4 ((List.range 16).map fun i => (((s.imageOffs g).find? fun o => o.2.idx = i).map Prod.fst).getD 0) ++
  ((List.range 8).flatMap fun k => match Table.find g.trs k with
    | some r => r.image.map (ImgField.shift (0x100 + 64 * k))
    | none => []) ++
  ((List.range 64).flatMap fun k => match Table.find g.slots k with
    | some r => imgRow (0x300 + 8 * k) 4 [r.1, r.2]
    | none => imgRow (0x300 + 8 * k) 4 [0, 0]) ++
  (g.opens.zipIdx.flatMap fun o =>
    let mask := match Table.find s.opens o.1 with | some (_, _, m) => m.toNat | none => 0
    [⟨0x500 + 16 * o.2, 8, 32 * o.1⟩, ⟨0x508 + 16 * o.2, 4, mask⟩, ⟨0x50C + 16 * o.2, 1, o.2⟩, ⟨0x50D + 16 * o.2, 1, 1⟩]) ++
  (match g.fetch with
    | none => []
    | some f => [⟨0x900, 8, f.launch.toNat⟩, ⟨0x908, 4, f.mailbox⟩, ⟨0x910, 8, match f.tile with | some n => n + 1 | none => 0⟩]) ++
  (g.posblk.zipIdx.flatMap fun p =>
    [⟨0x940 + 8 * p.2, 2, p.1.1.toNat⟩, ⟨0x942 + 8 * p.2, 2, p.1.2.1.toNat⟩, ⟨0x944 + 8 * p.2, 4, p.1.2.2.toNat⟩]) ++
  ((s.imageCmds g).zipIdx.flatMap fun c => (engineFields c.1.1 c.1.2).map (ImgField.shift (0xB00 + 64 * c.2)))

/-- Every field of a group's image, but for its local part. -/
def State.imageFields (s : State) (g : Group) : List ImgField :=
  s.groupFields g ++ (s.imageOffs g).flatMap fun o => (s.waveFields g o.2).map (ImgField.shift o.1)

/-- The image of a group (R371, R372). -/
def State.image (s : State) (g : Group) : List Host.Cell :=
  let a := s.partAt g
  ((s.localMem g.unit).filter fun c => a ≤ c.1 && c.1 < a + groupLoc g).foldl
    (fun m c => Mem.write m (s.locOff g + (c.1 - a)) c.2)
    ((s.imageFields g).foldl (fun m f => f.cells.foldl (fun m c => Mem.write m c.1 c.2) m) [])

/-! ### The test of a restore (R373) -/

/-- A number in an image. -/
def imgNat (im : List Host.Cell) (a n : Nat) : Nat := Mem.readNat im a n

/-- The bytes that Table 14.7 gives fields in a wave image at an offset, as spans of offset and length. -/
def waveSpans (im : List Host.Cell) (o : Nat) : List (Nat × Nat) :=
  let tiles := ((List.range 16).filter fun k => (imgNat im (o + 0x90) 2).testBit k).length
  let budget := 1024 * (imgNat im 0x20 2 % 64)
  let scan := o + 0x2400 + budget + 1024 * tiles
  let scb : BitVec 1024 := BitVec.ofNat 1024 (imgNat im scan 128)
  [(0x000, 0x6C), (0x070, 0x15), (0x088, 10), (0x100, 0x200), (0x300, 0x40), (0x340, 0xA8),
    (0x2400, budget + 1024 * tiles)].map (fun f => (o + f.1, f.2)) ++
  ((List.range 128).map fun i => (o + 0x400 + 64 * i, 51)) ++
  (if (imgNat im (o + 0x84) 1).testBit 1 then [(scan, 256 + 4 * (scP scb * scD scb))] else [])

/-- The wave images of an image, by WOFF. -/
def imageWaveOffs (im : List Host.Cell) : List Nat :=
  ((List.range 16).map fun i => imgNat im (0x60 + 4 * i) 4).filter fun o => o ≠ 0

/-- The bytes that Tables 14.6 and 14.7 give fields in an image, as the image itself says (R371, R372). -/
def imageSpans (im : List Host.Cell) : List (Nat × Nat) :=
  [(0x000, 0x58), (0x060, 0x40), (0x300, 0x200), (0x900, 12), (0x910, 8), (0x940, 0x100)] ++
  ((List.range 8).flatMap fun k => [(0x100 + 64 * k, 1), (0x108 + 64 * k, 49)]) ++
  ((List.range 64).map fun k => (0x500 + 16 * k, 14)) ++
  ((List.range (imgNat im 0x50 4)).flatMap fun n => [(0xB00 + 64 * n, 14), (0xB10 + 64 * n, 45)]) ++
  (imgNat im 0x48 4, imgNat im 0x4C 4) :: (imageWaveOffs im).flatMap (waveSpans im)

/-- A restore refuses it: a reserved byte that is not zero, or a tag of 0xE or 0xF (R373). -/
def imageBad (im : List Host.Cell) : Bool :=
  let fs := imageSpans im
  let offs := imageWaveOffs im
  let tag (a : Nat) : Bool := offs.any fun o => decide (o + 0x340 ≤ a ∧ a < o + 0x3E8)
  im.any fun c => (!fs.any fun f => decide (f.1 ≤ c.1 ∧ c.1 < f.1 + f.2)) ||
    (tag c.1 && decide (14 ≤ c.2.toNat % 16 ∨ 14 ≤ c.2.toNat / 16))

end Sys2Proof.Machine
end

