-- ==== Sys2Proof/Machine/Placement.lean ====
section
/-! DEFINITION. Placing work: the tasks of tiles (R25), fitting (R119-R124), selection (R125, R126), dealing
(R128, R129), stealing and donation (R130, R131), the start, the save and the restore of groups (R93, R370,
R373), and the retirement of units (R378, R379). -/

namespace Sys2Proof.Machine

/-! ### Tasks made from a launch (R25) -/

/-- The task of a tile for a role (0 for a plain launch) and the group's index within it. -/
def tileTask (l : Launch) (lin role w : Nat) : BitVec 512 :=
  let i := l.image
  let b (n hi lo : Nat) := launchBits i n hi lo
  BitVec.ofNat 512 (packBits
    [(0, 64, lnEntry i role), (64, 64, b 8 63 0), (128, 16, lin % lnGx i), (144, 16, lin / lnGx i % lnGy i),
     (160, 16, lin / (lnGx i * lnGy i)), (176, 16, w),
     (256, 16, if role = 0 then b 24 15 0 else lnRole i (role - 1)), (272, 6, b 26 5 0), (278, 2, role),
     (280, 1, b 27 0 0), (281, 1, b 27 1 1), (282, 1, b 27 5 5), (288, 16, b 28 15 0), (320, 64, l.addr.toNat),
     (448, 64, b 96 63 0)])

/-- The tasks of a tile, in the placement order of R123. -/
def tileTasks (l : Launch) (lin : Nat) : List (BitVec 512) :=
  if lnGang l.image then
    [1, 2, 3].flatMap fun r => (List.range (lnGroups l.image (r - 1))).map (tileTask l lin r)
  else [tileTask l lin 0 0]

/-- The unit of a tile, dealt to a tower. -/
def State.tileUnit (s : State) (l : Launch) (lin : Nat) (t : TowerId) (st : UState) (layer : Nat) : WorkUnit :=
  { id := s.seq, job := l.job, tower := t, recVa := l.addr, tasks := tileTasks l lin, launch := some l.id, lin := lin,
    st := st, layer := layer, cluster := 0, seq := l.seq, link := .none, started := false, cancelled := false,
    trigger := none, since := l.since, posblk := [], src := l.src, readyAt := 0, placed := 0 }

/-! ### Retirement (R378, R379) -/

def WorkUnit.task (u : WorkUnit) : BitVec 512 := u.tasks.headD 0
def WorkUnit.cls (u : WorkUnit) : Nat := taskBits u.task 34 2 0
def WorkUnit.prio (u : WorkUnit) : Nat := taskBits u.task 34 5 3
def WorkUnit.depth (u : WorkUnit) : Nat := taskBits u.task 36 15 12

/-- The groups of a unit, in the order of its tasks. -/
def State.groupsOf (s : State) (u : WorkUnit) : List Group :=
  u.tasks.filterMap fun x => s.allGroups.find? fun g => g.unit = u.id && g.task = x
/-- The waves of a unit. -/
def State.wavesOf (s : State) (u : WorkUnit) : List Wave :=
  s.allWaves.filter fun w => (s.groupsOf u).any fun g => w.inGroup g.key

/-- No port remembers a run of the waves of groups that are gone: a later group may have their number (R143, R320). -/
def Tower.forget (t : Tower) (gs : List GroupKey) : Tower :=
  let mine (k : WaveKey) : Bool := gs.any fun g => decide (g.job = k.job ∧ g.gid = k.gid)
  { t with ports := t.ports.map fun e => (e.1, e.2.filter fun k => !mine k) }

/-- Take a unit, its groups and its waves out of the machine; its local memory part is freed. -/
def State.dropUnit (s : State) (u : WorkUnit) : State :=
  let mine (w : Wave) : Bool := (s.groupsOf u).any fun g => w.inGroup g.key
  { s with
    wave := if mine s.wave then Wave.empty else s.wave
    waves := s.waves.filter fun w => !mine w
    group := if s.group.unit = u.id ∧ s.group ≠ Group.empty then Group.empty else s.group
    groups := s.groups.filter fun g => g.unit ≠ u.id
    units := s.units.filter fun x => x.id ≠ u.id
    locals := Table.erase s.locals u.id
    tower0 := s.tower0.forget ((s.groupsOf u).map Group.key), tower1 := s.tower1.forget ((s.groupsOf u).map Group.key) }

/-- The entry of the pending-trigger table that made a unit is freed, if it still stands (R114). -/
def Tower.freeTrigger (t : Tower) (n : Option Nat) : Tower :=
  match n with
  | none => t
  | some n => { t with triggers := t.triggers.filter fun r => r.num ≠ n }

/-- Retire a unit: the steps of R379 in their order. -/
def State.finishUnit (s : State) (u : WorkUnit) : State :=
  let gs := s.groupsOf u
  let s := gs.foldl (fun s g => s.retireFetched ((s.findGroup g.key).getD g)) s
  let s := gs.foldl (fun s g => s.closeOpens g.key) s
  let s := (s.dropUnit u).mapTower u.tower fun t => t.freeTrigger u.trigger
  let s := s.freePlq fun e => e.unit = some u.id
  let succ : DWord := u.task.extractLsb' 192 64
  let first : List HwStep := if succ = 0 then [] else [.block succ u.recVa]
  match u.launch.bind s.findLaunch with
  | some l =>
    let s := s.mapLaunch l.id fun l => { l with hinted := if l.hinted.contains u.lin then l.hinted else u.lin :: l.hinted }
    s.hwSteps u.job u.tower u.depth (first ++ [.done (lnDonectr l.image) l.addr, .tile l.id])
  | none => s.hwSteps u.job u.tower u.depth (first ++ [.job])

/-- An ended wave's operations have completed (R378); a cancelled wave's parked ones were abandoned (R374). -/
def Wave.drained (w : Wave) : Bool := !w.alive && decide (w.tokens = 0) && w.segs.isEmpty && w.cmds.isEmpty
/-- A group has ended, and nothing of its waves is left to complete: no save or restore is for it (R355, R378). -/
def State.over (s : State) (g : Group) : Bool := g.ended && (s.allWaves.filter fun w => w.inGroup g.key).all Wave.drained

/-- May a unit retire (R378)? One that was cancelled before it started may as well (R22). -/
def State.unitDone (s : State) (u : WorkUnit) : Bool :=
  let gs := s.groupsOf u
  if u.st = .held ∨ gs.isEmpty then s.unitReq u
  else gs.all (fun g => g.ended) && (s.wavesOf u).all Wave.drained

/-- R379 -/
def execUnitRetire (n : Nat) (s : State) : Res :=
  .next (match s.findUnit n with
    | none => s
    | some u => if s.unitDone u then s.finishUnit u else s)

/-! ### Fitting (R119-R124) -/

/-- What a core has free, or a group needs: wave slots, group slots, vector registers, 4 KiB of local memory. -/
structure Room where
  waves : Nat
  slots : Nat
  regs : Nat
  loc : Nat
  deriving DecidableEq, Repr

def taskWaves (x : BitVec 512) : Nat := taskBits x 32 9 6 + 1
def taskRoom (x : BitVec 512) : Room :=
  ⟨taskWaves x, 1, taskWaves x * taskBits x 32 5 0 * 8, taskBits x 32 15 10⟩
def Room.covers (r n : Room) : Bool := decide (n.waves ≤ r.waves ∧ n.slots ≤ r.slots ∧ n.regs ≤ r.regs ∧ n.loc ≤ r.loc)
def Room.minus (r n : Room) : Room := ⟨r.waves - n.waves, r.slots - n.slots, r.regs - n.regs, r.loc - n.loc⟩
/-- An empty core. -/
def Room.full : Room := ⟨32, 32, 4096, 48⟩

/-- A unit holds resources of cores while it is placed or running. -/
def UState.holds (x : UState) : Bool := match x with | .placed => true | .running => true | _ => false
/-- A unit holds a reservation of the save pool from its placement to its retirement (R121). -/
def UState.reserved (x : UState) : Bool := match x with | .placed => true | .running => true | .saved => true | .swapped => true | _ => false

/-- The groups that hold resources of a core. -/
def State.onCore (s : State) (p : Place) : List Group :=
  s.allGroups.filter fun g => g.place = p && match s.findUnit g.unit with | some u => u.st.holds | none => false
/-- What a core has free. -/
def State.coreRoom (s : State) (p : Place) : Room :=
  (s.onCore p).foldl (fun r g => r.minus (taskRoom g.task)) Room.full

/-- The cores of a cluster, ascending. -/
def clusterCores (c : Nat) : List CoreId := (List.finRange 16).filter fun k => clusterOf k.val = c

/-- Place tasks one after the other on cores with room, each on the core with the most free vector registers,
with at most `cap` of them on one core (R123, R127): this seating alone decides whether they fit (log 120). -/
def placeTasks (cap : Nat) : List (BitVec 512) → List (CoreId × Room × Nat) → Option (List CoreId)
  | [], _ => some []
  | x :: xs, cs =>
    let fit := cs.filter fun c => c.2.1.covers (taskRoom x) && decide (c.2.2 < cap)
    match fit with
    | [] => none
    | c :: rest =>
      let b := rest.foldl (fun b c => if b.2.1.regs < c.2.1.regs then c else b) c
      (placeTasks cap xs (cs.map fun c => if c.1 = b.1 then (c.1, c.2.1.minus (taskRoom x), c.2.2 + 1) else c)).map (b.1 :: ·)

/-- At most two groups of a gang stand on a core. -/
def WorkUnit.cap (u : WorkUnit) : Nat := if u.tasks.length = 1 then 1 else 2

/-- Can some empty core, or for a gang some empty cluster, hold the unit (R122, R124)? -/
def WorkUnit.placeable (u : WorkUnit) : Bool :=
  (placeTasks u.cap u.tasks ([0, 1, 2, 3].map fun k => (k, Room.full, 0))).isSome &&
    (u.tasks.length = 1 || decide ((u.tasks.map fun x => taskBits x 32 15 10).sum ≤ 128))

def State.fused (s : State) (u : WorkUnit) : Bool :=
  match u.launch.bind s.findLaunch with | some l => lnFlag l.image 2 | none => false

/-- Another fused-L1 gang stands on the cluster (R124). -/
def State.clusterFused (s : State) (t : TowerId) (l : LayerId) (c : Nat) : Bool :=
  s.units.any fun u => u.st.holds && s.fused u && (s.groupsOf u).any fun g => g.tower = t && g.layer = l && clusterOf g.core.val = c

def r256 (n : Nat) : Nat := (n + 255) / 256 * 256
/-- The reservation of a group (R121): the image of R371 and R372 at its largest. -/
def taskImage (x : BitVec 512) : Nat :=
  r256 (0xB00 + 64 * taskWaves x * 5 * 63) + taskBits x 32 15 10 * 4096 +
    taskWaves x * r256 (0x2400 + 1024 * taskBits x 32 5 0 + 1024 * 16 + 128 + 128 + 256 * 16 * 4)
def WorkUnit.reservation (u : WorkUnit) : Nat := (u.tasks.map taskImage).sum

/-- A layer of the awake set (R276). -/
def Tower.awake (t : Tower) (l : Nat) : Bool := (t.layer l).st = .awake && (t.layer l).goal.isNone
/-- A member whose save area placement may count on: it is not on its way to off (R121). -/
def Tower.saves (t : Tower) (l : Nat) : Bool := (t.layer l).st ≠ .off && (t.layer l).goal ≠ some .off
/-- Bytes of the save pool that are reserved, and all of them. -/
def State.poolUsed (s : State) (t : TowerId) : Nat :=
  ((s.units.filter fun u => u.tower = t && u.st.reserved).map WorkUnit.reservation).sum
def Tower.pool (t : Tower) : Nat := ((List.range 8).filter t.saves).length * 2 ^ 24

/-- The cores that a unit would take in a cluster; none when it does not fit. -/
def State.fit (s : State) (u : WorkUnit) (t : TowerId) (l : LayerId) (c : Nat) : Option (List CoreId) :=
  if !u.st.reserved && decide ((s.tower t).pool < s.poolUsed t + u.reservation) then none
  else if s.fused u && s.clusterFused t l c then none
  else placeTasks u.cap u.tasks ((clusterCores c).map fun k => (k, s.coreRoom ⟨t, l, k⟩, 0))

/-! ### Selection (R125, R126) -/

/-- The order of R125 as a number, lowest first. -/
def rankOf (cls prio : Nat) (ran : Bool) (seq lin : Nat) : Nat :=
  ((((7 - cls) * 8 + (7 - prio)) * 2 + (if ran then 0 else 1)) * 2 ^ 64 + seq) * 2 ^ 28 + lin
def UState.isQueued (x : UState) : Bool := match x with | .queued _ _ => true | _ => false
/-- A unit that has been placed before. -/
def WorkUnit.ran (u : WorkUnit) : Bool := u.st = .saved || u.st = .swapped
def WorkUnit.rank (u : WorkUnit) : Nat := rankOf u.cls u.prio u.ran u.seq u.lin

/-- Insert by rank, later ones of one rank behind. -/
def insertRank {α : Type} (k : α → Nat) (x : α) : List α → List α
  | [] => [x]
  | y :: ys => if k x < k y then x :: y :: ys else y :: insertRank k x ys
/-- The elements in rising order of a key. -/
def sortRank {α : Type} (k : α → Nat) (l : List α) : List α := l.foldl (fun a x => insertRank k x a) []

/-- The predecessor that a unit's launch, or the task itself, waits for (R96). -/
def State.predOf (s : State) (u : WorkUnit) : Option Nat :=
  match ((u.launch.bind s.findLaunch).map Launch.link).getD u.link with
  | .pending p => some p
  | _ => none

/-- A unit that waits behind a saved unit: one never placed behind those of its launch (R126), and any behind those of
its predecessor (R98). -/
def State.behind (s : State) (u : WorkUnit) : Bool :=
  s.units.any fun v => v.st = .saved && v.launch.isSome &&
    ((!u.ran && decide (v.launch = u.launch)) || decide (v.launch = s.predOf u))

/-! ### Dealing (R94, R98, R122, R128, R129) -/

/-- A predecessor is hinted: every one of its tiles, at STATE 3 (R97). -/
def State.hintedAll (s : State) (n : Nat) : Bool :=
  match s.findLaunch n with
  | none => true
  | some l => decide (3 ≤ l.state.toNat ∧ lnTiles l.image ≤ l.hinted.length)
/-- A launch's link holds its tiles (R98). -/
def State.linkHolds (s : State) (l : Launch) : Bool :=
  match l.link with
  | .pending n => !(lnEarly l.image && s.hintedAll n)
  | _ => false

/-- The lowest tile from n up that has not been taken. -/
def freeTile (taken : List Nat) : Nat → Nat → Nat
  | 0, n => n
  | k + 1, n => if taken.contains n then freeTile taken k (n + 1) else n
/-- The next tile of a launch, if one is undealt. -/
def Launch.nextTile (l : Launch) : Option Nat :=
  let n := freeTile l.taken l.taken.length l.next
  if n < lnTiles l.image then some n else none

/-- The partition vector of all zeros: weight 1 everywhere (R29). -/
def Launch.flat (l : Launch) : Bool :=
  ([0, 1] : List TowerId).all fun t => decide (lnWt l.image t = 0) && (List.range 8).all fun n => decide (lnWl l.image t n = 0)
/-- The tower of a tile (R128). -/
def Launch.tileTower (l : Launch) (i : Nat) : TowerId :=
  let w (t : TowerId) : Nat := if l.flat then 1 else lnWt l.image t
  if i % (w 0 + w 1) < w 0 then 0 else 1
/-- Effective weights of the layers of a tower (R129). -/
def Launch.weights (l : Launch) (t : TowerId) (x : Tower) : List Nat :=
  let w := (List.range 8).map fun n => if !x.awake n then 0 else if l.flat then 1 else lnWl l.image t n
  if w.all (· = 0) then (List.range 8).map fun n => if x.awake n then 1 else 0 else w
/-- The layer at a position of a list of weights. -/
def layerAt : List Nat → Nat → Nat → Option Nat
  | [], _, _ => none
  | w :: ws, n, p => if p < w then some n else layerAt ws (n + 1) (p - w)
/-- The count of tiles dealt to a tower under the pattern in force. -/
def Launch.kOf (l : Launch) (t : TowerId) : Nat := if t = 0 then l.k0 else l.k1
def Launch.bumpK (l : Launch) (t : TowerId) : Launch := if t = 0 then { l with k0 := l.k0 + 1 } else { l with k1 := l.k1 + 1 }
/-- The layer to which a launch's next tile in a tower goes; none while no layer is awake. -/
def Launch.dealLayer (l : Launch) (t : TowerId) (x : Tower) : Option Nat :=
  let w := l.weights t x
  if w.sum = 0 then none else layerAt w 0 (l.kOf t % w.sum)

/-- Units in a layer's queue, and those queued on the layer with its clusters. -/
def State.layerQueue (s : State) (t : TowerId) (n : Nat) : List WorkUnit :=
  s.units.filter fun u => u.tower = t && u.st = .queued n none
def State.queuedOn (s : State) (t : TowerId) (n : Nat) : List WorkUnit :=
  s.units.filter fun u => u.tower = t && match u.st with | .queued m _ => m = n | _ => false
def State.clusterQueue (s : State) (t : TowerId) (n c : Nat) : List WorkUnit :=
  s.units.filter fun u => u.tower = t && u.st = .queued n (some c)

/-- The awake layer with the fewest queued units (R128). -/
def State.leastQueued (s : State) (t : TowerId) : Option Nat :=
  (sortRank (fun n => (s.queuedOn t n).length * 8 + n) ((List.range 8).filter (s.tower t).awake)).head?

/-- What a dispatcher may hand down next. -/
inductive Deal where
  | tile (l : Launch) (lin : Nat)
  | unit (u : WorkUnit)

/-- Its rank, its tower and its layer. -/
def Deal.rank : Deal → Nat
  | .tile l lin => rankOf (lnClass l.image) (lnPrio l.image) false l.seq lin
  | .unit u => u.rank
def Deal.tower : Deal → TowerId
  | .tile l lin => l.tileTower lin
  | .unit u => u.tower
def State.dealLayer (s : State) : Deal → Option Nat
  | .tile l lin => l.dealLayer (l.tileTower lin) (s.tower (l.tileTower lin))
  | .unit u => match u.launch.bind s.findLaunch with
    | some l => l.dealLayer u.tower (s.tower u.tower)
    | none => s.leastQueued u.tower
/-- Its job. -/
def Deal.job : Deal → Nat
  | .tile l _ => l.job
  | .unit u => u.job
/-- Is it cancelled (R99)? -/
def State.dealReq (s : State) : Deal → Bool
  | .tile l _ => s.launchReq l
  | .unit u => s.unitReq u

/-- A held unit of a launch, of lower linear index, stands before it. -/
def State.heldBefore (s : State) (n : Option Nat) (lin : Nat) : Bool :=
  n.isSome && s.units.any fun v => v.st = .held && v.launch = n && decide (v.lin < lin)

/-- What a tower's dispatcher may hand down: for each launch its first tile, and the held tasks. -/
def State.deals (s : State) (t : TowerId) : List Deal :=
  (s.launches.filterMap fun l =>
    if l.tower ≠ t ∨ (s.units.any fun v => v.st = .held && v.launch = some l.id) then none
    else if (s.linkHolds l || l.hostExp) && !s.launchReq l then none
    else l.nextTile.map (Deal.tile l)) ++
  (s.units.filter fun u => u.st = .held && u.tower = t && !s.heldBefore u.launch u.lin &&
    (s.unitReq u || !((u.launch.bind s.findLaunch).map s.linkHolds).getD false)).map .unit

/-- A launch whose tile has been issued: STATUS and the pending-launch queue (R94, R95). -/
def State.issued (s : State) (l : Launch) : State :=
  let l := { l with issued := l.issued + 1 }
  let l := { l with state := if l.issued = lnTiles l.image then 3 else 2 }
  let s := s.putStatus l
  if l.state = 3 then s.freePlq fun e => e.launch = some l.id else s

/-- The record of an unplaceable unit (R122). -/
def State.gangRec (s : State) (t : TowerId) (job : Nat) (rec : DWord) (src : Nat) : State :=
  s.report t { cause := .gangfail, job := job, recAt := rec, info := src }

/-- The live launch that a task names in its LAUNCH field (R23). -/
def State.namedLaunch (s : State) (u : WorkUnit) : Option Launch :=
  let va : DWord := u.task.extractLsb' 320 64
  if va = 0 || u.trigger.isSome then none else s.liveAt u.job va

/-- Hand a tile or a held unit to the queue of a layer, or retire it unrun. One that no core holds has its launch
cancelled, or itself when it has none (R122). The first of a job that a tower receives opens the job there (R351). -/
def State.hand (s : State) (n : Nat) (d : Deal) : State :=
  let t := d.tower
  match d with
  | .tile l lin =>
    let u := s.tileUnit l lin t (.queued n none) n
    let l := { l with next := lin + 1 }
    if s.launchReq l then
      (({ s with seq := s.seq + 1 }).mapLaunch l.id fun _ => l).finishUnit u
    else if !u.placeable then
      let s := s.gangRec l.tower l.job l.addr l.src
      let l := { l with gangfail := true, next := lin }
      (s.mapLaunch l.id fun _ => l).cancelLaunch l 0 l.depth
    else ({ s with units := s.units ++ [u], seq := s.seq + 1 }.issued (l.bumpK t)).openJob l.job t
  | .unit u =>
    if s.unitReq u then s.finishUnit u
    else if (s.lookMiss u).isSome then s.holdLook u
    else
    let s := s.lookEcc u
    if u.launch.isNone && !u.placeable then
      match s.namedLaunch u with
      | some l =>
        ((s.gangRec l.tower l.job l.addr l.src).mapLaunch l.id fun l => { l with gangfail := true }).cancelLaunch l 0 l.depth
      | none => (s.gangRec t u.job u.recVa u.src).finishUnit u
    else
      let s := s.freePlq fun e => e.unit = some u.id
      let s := match u.launch with | some l => s.mapLaunch l fun l => l.bumpK t | none => s
      (s.mapUnit u.id fun u => { u with st := .queued n none, layer := n }).openJob u.job t

/-- A unit whose look at its cancel words is held (R423). -/
def State.lookHeld (s : State) : Deal → Bool
  | .tile _ _ => false
  | .unit u => s.held.any fun h => h.todo.head? = some (.look u.id)

/-- The tower holds the job, or can load its control word from the job's record now (R284, R351). -/
def State.canOpen (s : State) (d : Deal) : Bool :=
  ((s.findJob d.job).map fun j => j.liveIn d.tower).getD true || !s.jobFar d.job d.tower

/-- The layer queue has room for it, and the link carries it to the other tower. -/
def State.dealOk (s : State) (t : TowerId) (d : Deal) : Bool :=
  !s.lookHeld d && (s.dealReq d || match s.dealLayer d with
    | none => false
    | some n => decide ((s.layerQueue d.tower n).length < 16) && (d.tower = t || !(s.link.down || s.link.retraining)) && s.canOpen d)

/-- The owner of the pending-launch queue that a deal stands in, and its place among all entries (R95). -/
def State.plqPlace (s : State) (d : Deal) : Option ((Nat × Nat × Nat) × Nat) :=
  let own (e : PlqEntry) : Bool := match d with
    | .tile l _ => e.launch = some l.id
    | .unit u => e.unit = some u.id
  (s.plq.zipIdx.find? fun e => own e.1).map fun e => ((e.1.job, e.1.gid, e.1.owner), e.2)

/-- Of deals that may go, those before which no other of the same pending-launch queue stands: a group's entries are
served in their order (R95, log 95). -/
def State.served (s : State) (ds : List Deal) : List Deal :=
  ds.filter fun d => match s.plqPlace d with
    | none => true
    | some (o, n) => !ds.any fun x => match s.plqPlace x with
      | some (o', n') => decide (o' = o ∧ n' < n)
      | none => false

/-- R128 -/
def execDealTile (t : TowerId) (s : State) : Res :=
  .next (match (sortRank Deal.rank (s.served ((s.deals t).filter (s.dealOk t)))).head? with
    | none => s
    | some d => s.hand ((s.dealLayer d).getD 0) d)

/-! ### Clusters (R117, R127, R130, R131) -/

/-- Free wave slots of a cluster. -/
def State.clusterWaves (s : State) (t : TowerId) (l : LayerId) (c : Nat) : Nat :=
  ((clusterCores c).map fun k => (s.coreRoom ⟨t, l, k⟩).waves).sum

/-- The clusters that a unit fits and whose queues have room, the one with the most free wave slots first. -/
def State.clustersFor (s : State) (t : TowerId) (l : LayerId) (u : WorkUnit) : List Nat :=
  sortRank (fun c => (1024 - s.clusterWaves t l c) * 4 + c)
    ((List.range 4).filter fun c => (s.fit u t l c).isSome && decide ((s.clusterQueue t l.val c).length < 4))

/-- R117, R127 -/
def execClusterEnqueue (t : TowerId) (l : LayerId) (s : State) : Res :=
  .next (match (sortRank WorkUnit.rank (s.layerQueue t l.val)).findSome? fun u => ((s.clustersFor t l u).head?).map fun c => (u, c) with
    | none => s
    | some (u, c) => s.mapUnit u.id fun u => { u with st := .queued l.val (some c), cluster := c })

/-- R130: the requester is a cluster whose queue is empty; only fitting units move, of equals the first (log 99). -/
def execStealRequest (t : TowerId) (l : LayerId) (c : ClusterId) (s : State) : Res :=
  .next (
    if !(s.clusterQueue t l.val c.val).isEmpty then s
    else
      let from_ (k : Nat) : List WorkUnit := (s.clusterQueue t l.val ((c.val + k) % 4)).filter fun u => (s.fit u t l c.val).isSome
      match ([1, 2, 3].map from_).find? fun us => !us.isEmpty with
      | none => s
      | some us =>
        let key (u : WorkUnit) : Nat := (u.cls * 8 + u.prio) * 2 ^ 28 + (2 ^ 28 - 1 - u.lin)
        match (sortRank key us).head? with
        | none => s
        | some u => s.mapUnit u.id fun u => { u with st := .queued l.val (some c.val), cluster := c.val })

/-- The core of a layer with the most free vector registers, and its cluster with the most free wave slots. -/
def State.bestCore (s : State) (t : TowerId) (l : LayerId) : CoreId :=
  ((sortRank (fun (k : CoreId) => (4096 - (s.coreRoom ⟨t, l, k⟩).regs) * 16 + k.val) (List.finRange 16)).head?).getD 0
def State.bestCluster (s : State) (t : TowerId) (l : LayerId) : Nat :=
  ((sortRank (fun c => (1024 - s.clusterWaves t l c) * 4 + c) (List.range 4)).head?).getD 0

/-- R131: the layer asks with what it has free; the layer with the most fitting units ships up to half of them. -/
def execDonationRequest (t : TowerId) (l : LayerId) (s : State) : Res :=
  .next (
    let x := s.tower t
    if !x.awake l.val || !(s.layerQueue t l.val).isEmpty then s
    else
      let core := s.bestCore t l
      let room := s.coreRoom ⟨t, l, core⟩
      let ok (u : WorkUnit) : Bool :=
        if u.src = 4 then false
        else if u.tasks.length = 1 then
          room.covers (taskRoom u.task) && decide (s.poolUsed t + u.reservation ≤ x.pool)
        else (s.fit u t l (s.bestCluster t l)).isSome
      let offers := ((List.range 8).filter (· ≠ l.val)).map fun n => (n, (s.queuedOn t n).filter ok)
      let most := (offers.map fun o => o.2.length).foldl Nat.max 0
      match (sortRank (fun (o : Nat × List WorkUnit) => (most - o.2.length) * 8 + o.1) (offers.filter fun o => !o.2.isEmpty)).head? with
      | none => s
      | some (_, us) =>
        let key (u : WorkUnit) : Nat := ((7 - u.cls) * 8 + (7 - u.prio)) * 2 ^ 28 + (2 ^ 28 - 1 - u.lin)
        let ship := ((sortRank key us).take (min 8 ((us.length + 1) / 2))).map WorkUnit.id
        { s with units := s.units.map fun u => if ship.contains u.id then { u with st := .queued l.val none, layer := l.val } else u })

/-! ### Placing (R118, R119, R123) -/

/-- The lowest number from n up that a list does not hold. -/
def lowestFree (used : List Nat) : Nat → Nat → Nat
  | 0, n => n
  | k + 1, n => if used.contains n then lowestFree used k (n + 1) else n

/-- A group number that no live group of the job has (R320). -/
def State.freeGid (s : State) (job : Nat) : Nat :=
  let used := (s.allGroups.filter fun g => g.job = job).map Group.gid
  let base := Config.groupBase s.free % (2 ^ 27 - used.length)
  lowestFree used used.length base

/-- A wave at its group's start (R26, R60, R152). -/
def startWave (job gid idx slot : Nat) (task : BitVec 512) (jctl : DWord) : Wave :=
  { Wave.empty with
    job := job, gid := gid, idx := idx, alive := true, pc := task.extractLsb' 0 64, slot := slot, jctl := jctl
    sregs := (List.range 16).foldl (fun t k => Table.set 0 t k (task.extractLsb' (32 * k) 32)) [] }

/-- Put a new group of a unit on a core. -/
def State.newGroup (s : State) (u : WorkUnit) (p : Place) (task : BitVec 512) (space : Nat) : State :=
  let gid := s.freeGid u.job
  let here := s.onCore p
  let taken := (s.allWaves.filter fun w => here.any fun g => w.inGroup g.key).map Wave.slot
  let n := taskWaves task
  let slots := ((List.range 32).filter fun k => !taken.contains k).take n
  let gs := here.map Group.slot
  let g : Group := { Group.empty with
    job := u.job, gid := gid, unit := u.id, task := task, waves := n, gang := decide (1 < u.tasks.length)
    space := space, tower := p.tower, layer := p.layer, core := p.core
    slot := lowestFree gs gs.length 0, resident := true, ended := false, posblk := u.posblk }
  let ws := slots.zipIdx.map fun k => startWave u.job gid k.2 k.1 task (s.jctlOf u.job p.tower)
  { s with groups := s.groups ++ [g], waves := s.waves ++ ws, free := s.free + 1 }

/-- Place a saved group on a core: it takes the lowest free slots there, beside the groups of its unit that have moved
before it. -/
def State.moveGroup (s : State) (moved : List GroupKey) (g : Group) (p : Place) : State :=
  let here := (s.onCore p).filter fun h => h.unit ≠ g.unit || moved.contains h.key
  let taken := (s.allWaves.filter fun w => here.any fun h => w.inGroup h.key).map Wave.slot
  let slots := (List.range 32).filter fun k => !taken.contains k
  let gs := here.map Group.slot
  let s := s.mapGroup g.key fun x => { x with
    tower := p.tower, layer := p.layer, core := p.core, slot := lowestFree gs gs.length 0 }
  s.mapGroupWaves g.key fun w => { w with slot := slots.getD w.idx w.slot }

/-- Place a unit on cores of a layer. -/
def State.place (s : State) (u : WorkUnit) (t : TowerId) (l : LayerId) (cores : List CoreId) : State :=
  let space := (u.tasks.map fun x => taskBits x 32 15 10 * 4096).sum
  let s' :=
    if u.ran then
      (((s.groupsOf u).zip cores).foldl (fun (a : State × List GroupKey) p =>
        (a.1.moveGroup a.2 p.1 ⟨t, l, p.2⟩, p.1.key :: a.2))
        (s.mapUnit u.id fun u => { u with st := .placed, layer := l.val, placed := s.seq }, [])).1
    else
      (u.tasks.zip cores).foldl (fun s p => s.newGroup u ⟨t, l, p.2⟩ p.1 space)
        (s.mapUnit u.id fun u => { u with st := .placed, layer := l.val, placed := s.seq })
  { s' with seq := s'.seq + 1 }

/-- A swapped unit is ready once none of its waves waits for its counter (R327). -/
def State.swapReady (s : State) (u : WorkUnit) : Bool :=
  (s.wavesOf u).all fun w => match w.wait with | .counter _ _ _ _ _ => !w.alive | _ => true

/-- May a saved or swapped unit be placed on a layer: its own, or any other once that is not awake or 20 µs
have passed (R131)? -/
def State.offered (s : State) (u : WorkUnit) (l : LayerId) : Bool :=
  u.ran && !((s.groupsOf u).all s.over) && (u.st = .saved || s.swapReady u) &&
    (u.layer = l.val || !(s.tower u.tower).awake u.layer || decide (u.readyAt + 5000 ≤ (s.tower u.tower).now))

/-- R123, R125, R126: the first unit in order that fits, or that is found cancelled and retires unrun. -/
def execPlaceUnit (t : TowerId) (l : LayerId) (c : ClusterId) (s : State) : Res :=
  .next (
    if !(s.tower t).awake l.val then s
    else
      let us := s.clusterQueue t l.val c.val ++ s.units.filter fun u => u.tower = t && s.offered u l
      let us := sortRank WorkUnit.rank (us.filter fun u => !s.behind u)
      match us.findSome? fun u =>
        if !u.ran && s.unitReq u then some (u, none) else (s.fit u t l c.val).map fun k => (u, some k) with
      | none => s
      | some (u, none) => s.finishUnit u
      | some (u, some k) => s.place u t l k)

/-! ### Starting, saving and restoring (R93, R114, R370, R373) -/

/-- Rewrite the task of a unit whose groups have not started, in its record, its groups and word k of their waves'
scalar registers (R26). -/
def State.retask (s : State) (n : Nat) (k : Nat) (f : BitVec 512 → BitVec 512) : State :=
  let g (g : Group) : Group := if g.unit = n ∧ !g.started then { g with task := f g.task } else g
  let w (w : Wave) : Wave :=
    let g := s.groupOf w
    if g.unit = n ∧ !g.started ∧ g ≠ Group.empty then w.setS k ((f g.task).extractLsb' (32 * k) 32) else w
  { s.mapUnit n (fun u => { u with tasks := u.tasks.map f }) with
    group := g s.group, groups := s.groups.map g, wave := w s.wave, waves := s.waves.map w }

/-- DIRTY is frozen into the task record of a triggered unit, and its table entry is freed (R114). -/
def State.freezeDirty (s : State) (u : WorkUnit) : State :=
  match u.trigger with
  | none => s
  | some n => match (s.tower u.tower).triggers.find? fun r => r.num = n with
    | none => s
    | some r =>
      (s.mapTower u.tower fun t => t.freeTrigger (some n)).retask u.id 12 fun x => setField x 384 16 r.dirty.toNat

/-- R93, R99: a placed group whose unit is found cancelled before any of its groups started retires unrun. -/
def execGroupStart (k : GroupKey) (s : State) : Res :=
  .next (match s.findGroup k with
    | none => s
    | some g => match s.findUnit g.unit with
      | none => s
      | some u =>
        if g.started || !g.resident || g.stopping || !u.st.holds then s
        else if !u.started && s.unitReq u then s.finishUnit u
        else if !u.started && (s.lookMiss u).isSome then s.holdLook u
        else
          let s := (s.lookEcc u).freezeDirty u
          let s := s.mapUnit u.id fun u => { u with started := true, st := .running }
          s.mapGroup k fun g => { g with started := true })

/-- Tokens that a save may leave pending: those of a SCAN, of a parked command, and of a wait (R370, R372). -/
def Wave.savedTokens (w : Wave) : BitVec 6 :=
  let bit (k : Option Nat) : BitVec 6 := match k with | some n => 1#6 <<< n | none => 0
  bit (w.scan.map ScanProg.tok) ||| (w.cmds.foldl (fun m c => if c.parked then m ||| bit c.tok else m) 0) |||
    (List.range 6).foldl (fun m k => if w.waitHolds k then m ||| bit (some k) else m) 0

/-- A wave is at a boundary and its operations allow a save (R370). -/
def Wave.saveReady (w : Wave) : Bool :=
  !w.inRun && w.segs.isEmpty && decide (w.tokens &&& ~~~w.savedTokens = 0) &&
    w.cmds.all fun c => c.parked || decide (c.cls ≠ .gt)

/-- A unit may be saved: one of its groups is to be, and every wave is ready (R370, R123). -/
def State.saveReady (s : State) (u : WorkUnit) : Bool :=
  u.st.holds && (s.groupsOf u).any Group.stopping && (s.groupsOf u).all (fun g => g.resident) &&
    (s.wavesOf u).all Wave.saveReady && !(s.groupsOf u).all s.over

/-- Write the image of a group into the save pool, and free its core (R370, R371). -/
def State.saveGroup (s : State) (k : GroupKey) : State :=
  match s.findGroup k with
  | none => s
  | some g => s.mapGroup k fun x => { x with
      image := some (s.image g), stop := false, swapWant := false, stopAt := none, resident := false,
      ranAt := if g.started then some g.place else g.ranAt }

/-- R370: a gang is saved as a whole. -/
def execGroupSave (k : GroupKey) (s : State) : Res :=
  .next (match s.findGroup k with
    | none => s
    | some g => match s.findUnit g.unit with
      | none => s
      | some u =>
        if !s.saveReady u then s
        else
          let swap := (s.groupsOf u).any fun g => g.swapWant
          let s := ((s.groupsOf u).map Group.key).foldl State.saveGroup s
          s.mapUnit u.id fun u => { u with st := if swap then .swapped else .saved, readyAt := (s.tower u.tower).now })

/-- The bytes of a group's regions on a core (R201), at their offsets in the slice. -/
def State.regionBytes (s : State) (g : Group) (p : Place) : List Host.Cell :=
  let k := p.layer.val * 16 + p.core.val
  (s.tower p.tower).bstore.filterMap fun c =>
    if c.1 / 2 ^ 20 = k ∧ g.slots.any fun r => decide (r.2.1 ≤ c.1 % 2 ^ 20 ∧ c.1 % 2 ^ 20 < r.2.1 + r.2.2) then some (c.1 % 2 ^ 20, c.2) else none

/-- Give the group's regions on its core the bytes of a copy (R201). -/
def State.putRegions (s : State) (g : Group) (bytes : List Host.Cell) : State :=
  let k := g.coreIdx
  s.mapTower g.tower fun t =>
    let b := g.slots.foldl (fun b r => Mem.blankRange b (bKey k r.2.1) r.2.2) t.bstore
    { t with bstore := bytes.foldl (fun b c => Mem.write b (bKey k c.1) c.2) b }

/-- R373: a bad image ends the group under R355, and nothing of it is restored; the group's regions follow it to another core (R201). -/
def execGroupRestore (k : GroupKey) (s : State) : Res :=
  .next (match s.findGroup k with
    | none => s
    | some g => match s.findUnit g.unit with
      | none => s
      | some u =>
        if g.resident || !u.st.holds then s
        else
          let bad : Option (Cause × DWord) := g.imgBad.or (if imageBad (g.image.getD []) then some (.resbits, 0) else none)
          let s := match g.ranAt, g.regions with
            | _, some b => s.putRegions g b
            | some p, none => if p = g.place then s else s.putRegions g (s.regionBytes g p)
            | none, none => s
          let back (g : Group) : Group :=
            { g with resident := true, ranAt := none, regions := none, image := none, imgBad := none }
          let s := s.mapGroup k back
          let s := match bad with
            | none => s
            | some (c, a) =>
              let r : RecArgs := {
                cause := c, kind := 2, job := g.job, addr := a,
                loc := some (g.layer.val, g.core.val), info := tcauseWord (causeCode c) false false (match c with | .eccsram => 7 | _ => 0) }
              (s.report g.tower r).killGroup k false
          if (s.groupsOf u).all fun g => g.resident then
            s.mapUnit u.id fun u => { u with st := if u.started then .running else .placed }
          else s)

/-! ### Changes of the awake set (R129) -/

/-- The pattern of every launch restarts. -/
def State.restartDeal (s : State) : State :=
  { s with launches := s.launches.map fun l => { l with k0 := 0, k1 := 0 } }

/-- A sample unit that waits in a layer's queue, or in one of its clusters' (R337). -/
def WorkUnit.sampleOn (u : WorkUnit) (t : TowerId) (n : Nat) : Bool :=
  u.tower = t && u.src = 4 && (match u.st with | .queued m _ => m == n | _ => false)

/-- A layer leaves the awake set: its queued sample units retire unrun and count as dropped (R337), its other
queued units return to the held state, and its groups are pre-empted: a unit placed there whose images are not yet
restored is saved as before. -/
def State.leaveAwake (s : State) (t : TowerId) (n : Nat) : State :=
  let s := s.restartDeal
  let s := (s.units.filter fun u => u.sampleOn t n).foldl (fun s u =>
    (s.finishUnit u).mapTower t fun x => x.count csrLntcnt 16 1) s
  let h (u : WorkUnit) : WorkUnit :=
    if u.tower = t && (match u.st with | .queued m _ => m == n | _ => false) then { u with st := .held } else u
  let s := { s with units := s.units.map h }
  let out (u : WorkUnit) : Bool :=
    u.tower = t && u.layer = n && u.st = .placed && u.tasks.length ≠ 0 && (s.groupsOf u).all fun g => !g.resident
  let gone := (s.units.filter out).map WorkUnit.id
  let back (u : WorkUnit) : WorkUnit :=
    if gone.contains u.id then { u with st := .saved, readyAt := (s.tower t).now } else u
  let s := { s with units := s.units.map back }
  let f (g : Group) : Group :=
    let placed : Bool := match s.findUnit g.unit with | some u => u.st.holds | none => false
    if g.tower = t && decide (g.layer.val = n) && !s.over g && placed then { g with stop := true } else g
  { s with group := f s.group, groups := s.groups.map f }

end Sys2Proof.Machine
end

