-- ==== Sys2Proof/Machine/Power.lean ====
section
/-! DEFINITION. Layer states and their transitions (R275-R279), the power modes (R420, R421) and clock steps. -/

namespace Sys2Proof.Machine

/-! ### Layers (R276-R278) -/

def Tower.setLayer (t : Tower) (l : Nat) (x : Layer) : Tower := { t with layers := t.layers.set l x }

/-- The next state on the way from one to another (Table 10.7). -/
def nextSt (a b : LayerSt) : LayerSt :=
  match a, b with
  | .awake, .off => .doze
  | .off, .awake => .doze
  | _, x => x

/-- A layer starts its transition to a state, or starts it at the end of the one in progress. -/
def State.layerTo (s : State) (t : TowerId) (l : Nat) (x : LayerSt) : State :=
  let y := (s.tower t).layer l
  if y.goal.isSome then s.mapTower t fun w => w.setLayer l { y with after := some x }
  else if y.st = x then s
  else
    let g := nextSt y.st x
    let s := if y.st = .awake then s.leaveAwake t l else s
    s.mapTower t fun w =>
      let w := w.setLayer l ⟨y.st, some g, if g = x then none else some x⟩
      if y.st = .off then { w with rejoin := w.rejoin ++ [⟨l, 0, 0, [], 0⟩] } else w

/-- The B-store regions of the groups saved on a layer that goes off travel with their images (R201, R278). -/
def State.copyOut (s : State) (t : TowerId) (l : Nat) : State :=
  let f (g : Group) : Group := match g.ranAt with
    | some p =>
      if p.tower = t ∧ p.layer.val = l ∧ g.regions.isNone ∧ !g.resident then { g with regions := some (s.regionBytes g p) } else g
    | none => g
  { s with group := f s.group, groups := s.groups.map f }

/-- The contents that a layer loses when it goes off: its B-store, pins and Damask part, with their poison. -/
def State.blankLayer (s : State) (t : TowerId) (l : Nat) : State :=
  let gone (k : Nat) : Bool := (List.range 8).any fun j =>
    decide (dmkPoison t (8 * j + l) 0 ≤ k ∧ k < dmkPoison t (8 * j + l) 131072 ∨
      bPoison t (16 * l) 0 ≤ k ∧ k < bPoison t (16 * l + 16) 0)
  let s := s.mapTower t fun w => { w with
    bstore := w.bstore.filter fun c => c.1 / 2 ^ 20 / 16 ≠ l
    damask := w.damask.filter fun e => e.1 / 131072 % 8 ≠ l
    pins := w.pins.filter fun p => p.1 ≠ l }
  { s with poison := s.poison.filter fun e => !gone e.1 }

/-- May the transition in progress end? One from off ends by REJOIN_DONE. -/
def State.transReady (s : State) (t : TowerId) (l : Nat) : Bool :=
  let y := (s.tower t).layer l
  match y.st, y.goal with
  | .awake, some .doze => !s.units.any fun u => u.tower = t && u.st.holds && u.layer = l
  | .doze, some .awake => true
  | .doze, some .off => decide (s.poolUsed t ≤ (s.tower t).pool)
  | _, _ => false

/-- The transition in progress ends: the layer takes its state, and starts a transition that waits. -/
def State.transEnd (s : State) (t : TowerId) (l : Nat) : State :=
  let y := (s.tower t).layer l
  match y.goal with
  | none => s
  | some g =>
    let s := if g = .off then (s.copyOut t l).blankLayer t l else s
    let s := s.mapTower t fun w => w.setLayer l ⟨g, none, none⟩
    let s := if g = .awake then s.restartDeal else s
    match y.after with
    | some x => s.layerTo t l x
    | none => s

/-! ### Power modes (R420, R421) -/

/-- The layers that a mode keeps awake. -/
def modeLayers (m : BitVec 2) : Nat := if m = 0 then 1 else if m = 1 then 3 else 8
/-- The clock target of a mode, in units of 10 MHz. -/
def modeClk (m : BitVec 2) : Nat := if m = 0 then 160 else 210
/-- CLK -/
def State.clkNow (s : State) : Nat := bits (s.tower0.reg csrPwrctl) 26 16
def State.setClk (s : State) (c : Nat) : State := s.mapTower 0 fun t => t.setBits csrPwrctl 26 16 c
/-- Is a layer of either tower in a transition? -/
def State.anyBusy (s : State) : Bool := (s.tower0.layers ++ s.tower1.layers).any fun y => y.goal.isSome

/-- The transitions of a mode start. -/
def State.modeStart (s : State) (m : BitVec 2) (off : Bool) : State :=
  let go (s : State) (t : TowerId) : State := (List.range 8).foldl (fun s l =>
    s.layerTo t l (if l < modeLayers m then .awake else if off then .off else .doze)) s
  go (go s 0) 1

/-- The clock that a change ends at: the mode's, but no rise once the thermal limit has lowered it since the GO. -/
def State.clkTarget (s : State) (m : BitVec 2) : Nat := if s.hot then min (modeClk m) s.clkNow else modeClk m
/-- A clock step starts: no core issues until it ends. -/
def State.clkStepTo (s : State) (c : Nat) : State := { s with clockStop := true, clkGoal := c }

/-- Apply GOs in turn, until one takes time: transitions first, then the clock. -/
def State.powerRun : List (BitVec 2 × Bool) → State → State
  | [], s => { s with powerNow := none, powerNext := [] }
  | (m, off) :: r, s =>
    let s := { s with hot := false }.modeStart m off
    let on : State := { s with powerNow := some m, powerNext := r }
    if s.anyBusy || s.clockStop then on
    else if s.clkNow ≠ s.clkTarget m then on.clkStepTo (s.clkTarget m)
    else State.powerRun r s

/-- A GO waits while BUSY is set. -/
def State.powerGo (s : State) (m : BitVec 2) (off : Bool) : State :=
  if s.powerNow.isSome then { s with powerNext := s.powerNext ++ [(m, off)] } else s.powerRun [(m, off)]

/-- Once every transition has ended, the clock steps, or the change ends. -/
def State.powerCheck (s : State) : State :=
  match s.powerNow with
  | none => s
  | some m =>
    if s.anyBusy || s.clockStop then s
    else if s.clkNow ≠ s.clkTarget m then s.clkStepTo (s.clkTarget m)
    else s.powerRun s.powerNext

/-- R278 -/
def execLayerTransitionDone (t : TowerId) (l : LayerId) (s : State) : Res :=
  .next (if s.transReady t l.val then (s.transEnd t l.val).powerCheck else s)

/-- R279: the last unit has landed. -/
def execRejoinDone (t : TowerId) (l : LayerId) (s : State) : Res :=
  .next (if (s.tower t).rejoin.any fun r => r.layer = l.val then
      ((s.mapTower t fun w => { w with rejoin := w.rejoin.filter fun r => r.layer ≠ l.val }).transEnd t l.val).powerCheck
    else s)

/-- R421: the new clock is in force, and BUSY clears unless more is to be done or a GO waits. -/
def execClockStepEnd (s : State) : Res :=
  .next (if s.clockStop then ({ s with clockStop := false }.setClk s.clkGoal).powerCheck else s)

/-- Every live job. -/
def State.liveJobs (s : State) : List Nat := (s.jobs.filter fun j => !j.retired).map Job.id

/-- R421: a clock step down by 100 MHz starts, not below 0.8 GHz; a record goes to every live job (R377). -/
def execThermal (s : State) : Res :=
  .next (let c := if s.clockStop then min s.clkNow s.clkGoal else s.clkNow
    let s : State := { s.clkStepTo (if c < 90 then 80 else c - 10) with hot := true }
    s.liveJobs.foldl (fun s j => (s.report 0 { cause := .thermal, job := j }).report 1 { cause := .thermal, job := j }) s)

/-- The jobs with work on a layer (R377). -/
def State.jobsOn (s : State) (t : TowerId) (l : Nat) : List Nat :=
  (s.units.filterMap fun u =>
    if u.tower = t && (u.st.reserved && u.layer = l || (match u.st with | .queued m _ => m == l | _ => false)) then some u.job
    else none).eraseDups

/-- R377: the layer passes through its transitions to off, and its units are placed again. -/
def execLayeroff (t : TowerId) (l : LayerId) (s : State) : Res :=
  .next (let js := s.jobsOn t l.val
    let s := js.foldl (fun s j => s.report t { cause := .layeroff, job := j }) s
    s.layerTo t l.val .off)

/-! ### LAYERPS (R275) -/

def layerStOf (n : Nat) : LayerSt := match n with | 0 => .awake | 1 => .doze | _ => .off

/-- The layers of a tower whose state a change names and alters, as a mask. -/
def Tower.alters (t : Tower) (m : Nat) (x : LayerSt) : Nat :=
  ((maskLayers m).filter fun l => (t.layer l).st ≠ x).foldl (fun n l => n + 2 ^ l) 0

/-- R275: the change starts once no power change and no transition of a named layer is in progress. -/
def execLayerps (f : Fields) (s : State) : Res :=
  .next (issue (.layerps f) f (fun x =>
    let s := x.s
    let st := layerStOf (mbits f 1 0)
    let tw := towersOf s.group.tower (mbits f 3 2)
    let ts := towerList tw
    let m := bits (x.uni f.a) 7 0
    let m0 := if tw.1 then m else 0
    let m1 := if tw.2 then m else 0
    let wait : Out := .leave { s with wave := { s.wave with wait := .layers m0 m1 } }
    let left (t : TowerId) (l : Nat) : Bool := if m.testBit l then decide (st = .awake) else (s.tower t).awake l
    if s.powerNow.isSome then wait
    else if ts.any fun t => !(List.range 8).any (left t) then .trap (.plain .reconfig) s
    else if ts.any fun t => (maskLayers m).any (s.tower t).busy then wait
    else
      let d := (if tw.1 then s.tower0.alters m st else 0) + 256 * (if tw.2 then s.tower1.alters m st else 0)
      let s := ts.foldl (fun s t => (maskLayers m).foldl (fun s l => s.layerTo t l st) s) s
      .done (s.writeS f.d .now (BitVec.ofNat 32 d))) s)

end Sys2Proof.Machine
end

