-- ==== Sys2Proof/Machine/Csr.lean ====
section
/-! DEFINITION. The control registers as software reads and writes them: wave registers (R352), tower registers
with the effects of their writes (R133, R263, R283, R286, R330, R383, R390, R396, R414, R420), CSRR and CSRW
(R366), and SLOTREQ and SLOTREL (R274). -/

namespace Sys2Proof.Machine

/-! ### Wave registers (Table 14.2) -/

/-- The value with its low or high half replaced. -/
def setHalf (x : DWord) (hi : Bool) (v : Word) : DWord :=
  if hi then v ++ x.extractLsb' 0 32 else x.extractLsb' 32 32 ++ v

/-- Write a wave register: WFLAGS clears where a one is written, TVEC[1:0] stay 0, and read-only ones stand. -/
def Wave.setCsr (w : Wave) (n : Nat) (x : Word) : Wave :=
  match n with
  | 0 => { w with sbchk := x.getLsbD 0 }
  | 1 => { w with wflags := w.wflags &&& ~~~(x.setWidth 6) }
  | 2 => { w with tvec := setHalf w.tvec false (x &&& 0xFFFFFFFC) }
  | 3 => { w with tvec := setHalf w.tvec true x }
  | 4 => { w with tepc := setHalf w.tepc false x }
  | 5 => { w with tepc := setHalf w.tepc true x }
  | 10 => { w with tem := x }
  | _ => w

/-! ### Tower registers -/

/-- Bits that a write of a register without an effect of its own may change. -/
def csrMask (n : Nat) : Word :=
  match n with
  | 0x100 => 0xFFF
  | 0x301 => 0xFFFFF
  | 0x302 => 0xFFF
  | 0x332 => 0xFFFF
  | 0x333 => 0xFFFFFFFF
  | 0x334 => 0xFFFFFFFF
  | 0x340 => 0x1FFF
  | 0x362 => 0xFFFFFFFF
  | 0x363 => 0xFFFFFFFF
  | 0x364 => 0xFFFFF
  | 0x378 => 0xFFFFFFFF
  | 0x380 => 0xFF
  | 0x385 => 0x3F
  | n => if 0x310 ≤ n ∧ n < 0x320 then 0x8FFF else 0

/-- Bits of a Lantern register that a write changes (Table 13.1). -/
def lntMask (n : Nat) : Word :=
  match n with
  | 0x355 => 0xFFFF
  | 0x356 => 0x3FFFC0
  | 0x358 => 0xFFFF
  | 0x35B => 0
  | _ => 0xFFFFFFFF

/-- A Lantern register as software reads it: the value last written (R330). -/
def Tower.lnt (t : Tower) (n : Nat) : Word := (Table.find t.lntNext n).getD (t.reg n)

/-- Index of the access table entry that ATSEL selects: 32 entries a class. -/
def Tower.atIndex (t : Tower) : Nat := bits (t.reg 0x380) 2 0 * 32 + bits (t.reg 0x380) 7 3
def Tower.atEntry (t : Tower) : BitVec 128 := Table.get 0 t.access t.atIndex
/-- Bits of word k of an access table entry that a write changes (Table 10.9). -/
def atMask (k : Nat) : Word := match k with | 0 => 0x87FF0FFF | 1 => 0 | _ => 0xFFFFFFFF

/-- The job whose control word JCTLLO and JCTLHI reach, if it is live in the tower. -/
def State.selJob (s : State) (t : TowerId) : Option Job :=
  (s.findJob (s.tower t |>.reg csrJobsel).toNat).filter fun j => !j.retired && (if t = 0 then j.live0 else j.live1)

/-- Layers of a tower with a property, as a mask. -/
def layerMask (p : Nat → Bool) : Nat := ((List.range 8).filter p).foldl (fun n l => n + 2 ^ l) 0

/-- LAYERST (Table 10.6) -/
def Tower.layerst (t : Tower) : Word :=
  BitVec.ofNat 32 (packBits [(0, 8, layerMask t.awake), (8, 8, layerMask fun l => (t.layer l).st = .doze),
    (16, 8, layerMask t.busy), (24, 4, bits (t.reg csrLayerst) 27 24)])

/-- The entry that ALMSEL selects: array and slot. -/
def Tower.almSel (t : Tower) : Nat × Nat := (bits (t.reg csrAlmsel) 12 10, bits (t.reg csrAlmsel) 9 0)

/-- DSPLINE as 64 bits. -/
def Tower.dspLine64 (t : Tower) : DWord := BitVec.ofInt 64 t.dspLine

/-- A tower register as software reads it. A W1S bit that was set (COMMIT of ALMCTL, ARM of MEMCLK, GO of PWRCTL) reads 0
at once; the status bits beside it show what it started (log 106). -/
def State.csrRead (s : State) (t : TowerId) (n : Nat) : Word :=
  let x := s.tower t
  match n with
  | 0x101 => ((s.selJob t).map fun j => (j.jctl t).extractLsb' 0 32).getD 0
  | 0x102 => ((s.selJob t).map fun j => (j.jctl t).extractLsb' 32 32).getD 0
  | 0x330 => x.layerst
  | 0x341 => almGet x.shadow x.almSel.1 x.almSel.2
  | 0x342 => (x.reg csrAlmctl &&& 4) ||| (if x.almNext.isSome then 2 else 0)
  | 0x374 => x.dspLine64.extractLsb' 0 32
  | 0x375 => x.dspLine64.extractLsb' 32 32
  | 0x376 => x.lightDue.reg csrDspcnt
  | 0x377 => (x.reg csrMemclk &&& 3) ||| (if x.armLine.isSome || x.memStall then 8 else 0)
  | 0x381 => x.atEntry.extractLsb' 0 32
  | 0x382 => x.atEntry.extractLsb' 32 32
  | 0x383 => x.atEntry.extractLsb' 64 32
  | 0x384 => x.atEntry.extractLsb' 96 32
  | 0x385 => x.reg 0x385 ||| (if x.now < x.atDone then 0x100 else 0)
  | 0x3A0 => s.tower0.reg csrPwrctl ||| (if s.powerNow.isSome then 0x10 else 0)
  | n => x.lnt n

/-! ### Writes with effects -/

/-- CLSWAY (R133) -/
def Tower.setClsway (t : Tower) (x : Word) : Tower :=
  if 24 < bits x 4 0 + bits x 9 5 + bits x 14 10 + bits x 19 15 + bits x 24 20 then t.setBits csrClsway 31 31 1
  else t.setReg csrClsway (x &&& 0x01FFFFFF)

/-- JCTLLO and JCTLHI (R351): the live word, in both towers. -/
def State.setJctl (s : State) (t : TowerId) (hi : Bool) (x : Word) : State :=
  match s.selJob t with
  | none => s
  | some j =>
    let put (w : DWord) : DWord := setHalf w hi (x &&& if hi then 0x03FFFFFF else 0xFFFF0FFF)
    s.mapJob j.id fun j => { j with jctl0 := put j.jctl0, jctl1 := put j.jctl1 }

/-- The four conditions of R262 on an image. -/
def almOk (im : Table Word) : Bool :=
  let all := (List.range 8).flatMap fun a => (List.range 1024).map (almGet im a)
  (all.all fun e =>
    let tx := bits e 3 0
    match bits e 6 4 with
    | 0 => tx = 8
    | 2 => tx = 8
    | 5 => tx = 9
    | 7 => true
    | _ => decide (tx < 8)) &&
  [1, 3, 4, 6].all fun c => (List.range 8).all fun l => all.any fun e => decide (bits e 6 4 = c ∧ bits e 3 0 = l)

/-- COMMIT (R263). One while an earlier image still waits for its period replaces that image (log 124). -/
def Tower.commit (t : Tower) : Tower :=
  if almOk t.shadow then { t.setBits csrAlmctl 2 2 0 with almNext := some t.shadow } else t.setBits csrAlmctl 2 2 1

/-- The conditions that refuse a write that sets EN of LNTCTL (R330). -/
def Tower.lntBad (t : Tower) : Bool :=
  let par := bits (t.lnt csrLntpar) 15 0
  decide (bits (t.lnt csrLntent) 1 0 ≠ 0) || paramsBad par || decide (par / 2 ^ 6 % 16 ≠ 0) ||
    decide (0x400000 < bits (t.lnt csrLntmap) 21 6 * 64 + 345600) ||
    decide (bits (t.lnt csrLntswp) 9 0 = 0 ∨ 1000 < bits (t.lnt csrLntswp) 9 0)

/-- LNTCTL (R330); sweep 0 is the next one once EN becomes set (R331). -/
def Tower.setLntctl (t : Tower) (x : Word) : Tower :=
  let on := (t.reg csrLntctl).getLsbD 0
  if x.getLsbD 0 && !on && t.lntBad then t.setBits csrLntctl 1 1 1
  else
    let t := t.setReg csrLntctl (x &&& 0x007FFF01)
    if x.getLsbD 0 = on then t else { t with sweep := 0, sweeping := false, sweepAt := t.now, lntSnaps := [] }

/-- Any other Lantern register: at once while EN is clear, else at the next sweep start (R330). -/
def Tower.setLnt (t : Tower) (n : Nat) (x : Word) : Tower :=
  if lntMask n = 0 then t
  else if (t.reg csrLntctl).getLsbD 0 then { t with lntNext := Table.put t.lntNext n (x &&& lntMask n) }
  else { t.setReg n (x &&& lntMask n) with lntNext := Table.erase t.lntNext n }

/-- DMKCTL (R383) -/
def Tower.setDmkctl (t : Tower) (x : Word) : Tower :=
  let t := t.setReg csrDmkctl (x &&& 0x000FFF01)
  if x.getLsbD 0 then t else { t with damask := [] }

/-- The display registers 0x370 to 0x373 (R390). -/
def Tower.setDsp (t : Tower) (n : Nat) (x : Word) : Tower :=
  let t := t.lightDue
  let refuse := t.setBits csrDspctl 1 1 1
  if n = csrDspctl then
    if x.getLsbD 0 && decide (t.dspRp < 500) then refuse
    else
      let on := t.dspOn
      let t := t.setReg csrDspctl (x &&& 0x000FFF01)
      if x.getLsbD 0 && !on then { t with pixels := [], lit := [], dspNext := t.dspLine + 1, dspBand := t.dspLine / 64 + 1 } else t
  else if t.dspOn then refuse
  else (t.setReg n (if n = csrDsprp then x &&& 0xFFFF else x)).setBits csrDspctl 1 1 0

/-- MEMCLK (R396): ARM schedules RATE for the line that MEMLINE names, or for the next line. -/
def Tower.setMemclk (t : Tower) (x : Word) : Tower :=
  let t := t.setReg csrMemclk (x &&& 3)
  if x.getLsbD 2 then
    let m := t.lineNamed (t.reg csrMemline)
    { t with armLine := some (if !t.dspOn || decide (m ≤ t.dspLine) then t.dspLine + 1 else m), armRate := x.setWidth 2 }
  else t

/-- HRECQ of the host register window (Table 20.1). -/
def Tower.hrecq (t : Tower) : DWord := Table.get 0 t.hostWin 0x4024 ++ Table.get 0 t.hostWin 0x4020

/-- FNMODE (R414) -/
def Tower.setFnmode (t : Tower) (x : Word) : Tower :=
  if x &&& 0x7F ≠ 0 ∧ t.hrecq = 0 then t.setBits csrFnmode 31 31 1 else t.setReg csrFnmode (x &&& 0x7F)

/-- PWRCTL (R420, R421): one register for both towers. -/
def State.setPwrctl (s : State) (x : Word) : State :=
  if x &&& 3 = 3 then s.mapTower 0 fun t => t.setBits csrPwrctl 5 5 1
  else
    let s := s.mapTower 0 fun t => (t.setBits csrPwrctl 2 0 (x &&& 7).toNat).setBits csrPwrctl 5 5 0
    if x.getLsbD 3 then s.powerGo (x.setWidth 2) (x.getLsbD 2) else s

/-- Write word k of the access table entry that ATSEL selects (R286). -/
def Tower.setAt (t : Tower) (k : Nat) (x : Word) : Tower :=
  let m : BitVec 128 := (atMask k).setWidth 128 <<< (32 * k)
  { t with access := Table.set 0 t.access t.atIndex ((t.atEntry &&& ~~~m) ||| ((x.setWidth 128 <<< (32 * k)) &&& m)) }

/-- A write of a register of R286 is on its way to the targets: PEND is set until it has reached the last one (log 94). -/
def State.atSent (s : State) (t : TowerId) : State :=
  { s.mapTower t (fun w => { w with atDone := w.now + Config.atLag s.free % 501 }) with free := s.free + 1 }

/-- Write a tower register. -/
def State.csrWrite (s : State) (t : TowerId) (n : Nat) (x : Word) : State :=
  let s := if 0x380 ≤ n ∧ n ≤ 0x385 then s.atSent t else s
  match n with
  | 0x101 => s.setJctl t false x
  | 0x102 => s.setJctl t true x
  | 0x300 => s.mapTower t fun w => w.setClsway x
  | 0x341 => s.mapTower t fun w => { w with shadow := almSet w.shadow w.almSel.1 w.almSel.2 (x &&& 0x000FFF7F) }
  | 0x342 => if x.getLsbD 0 then s.mapTower t Tower.commit else s
  | 0x350 => s.mapTower t fun w => w.setLntctl x
  | 0x360 => s.mapTower t fun w => w.setDmkctl x
  | 0x370 => s.mapTower t fun w => w.setDsp 0x370 x
  | 0x371 => s.mapTower t fun w => w.setDsp 0x371 x
  | 0x372 => s.mapTower t fun w => w.setDsp 0x372 x
  | 0x373 => s.mapTower t fun w => w.setDsp 0x373 x
  | 0x377 => s.mapTower t fun w => w.setMemclk x
  | 0x381 => s.mapTower t fun w => w.setAt 0 x
  | 0x382 => s.mapTower t fun w => w.setAt 1 x
  | 0x383 => s.mapTower t fun w => w.setAt 2 x
  | 0x384 => s.mapTower t fun w => w.setAt 3 x
  | 0x390 => s.mapTower t fun w => w.setFnmode x
  | 0x3A0 => s.setPwrctl x
  | n =>
    if 0x351 ≤ n ∧ n ≤ 0x35E then s.mapTower t fun w => w.setLnt n x
    else if csrMask n = 0 then s
    else s.mapTower t fun w => w.setReg n ((w.reg n &&& ~~~csrMask n) ||| (x &&& csrMask n))

/-! ### CSRR and CSRW (R366) -/

/-- The other tower. -/
def otherTower (t : TowerId) : TowerId := if t = 0 then 1 else 0

/-- The tower whose register the word names: the own one, or with .OTH the other. -/
def Ctx.csrTower (x : Ctx) : TowerId :=
  if mbits x.f 0 0 = 1 then otherTower x.s.group.tower else x.s.group.tower

/-- The register that the word names, and its latency as an s result. -/
def Ctx.csrOld (x : Ctx) : Word × Lat :=
  let n := selOf x.f
  if n < 0x100 then (x.s.wave.csr n, .int) else (x.s.csrRead x.csrTower n, .now)

/-- R366 -/
def execCsrr (f : Fields) (s : State) : Res :=
  .next (issue (.csrr f) f (fun x => let (v, l) := x.csrOld; .done (x.s.writeS f.d l v)) s)

/-- What CSRW writes: .W, .SET or .CLR of the old value with a or IMM. -/
def Ctx.csrNew (x : Ctx) (old : Word) : Word :=
  let v : Word := if mbits x.f 3 3 = 1 then BitVec.ofNat 32 (immOf x.f) else if isNil x.f.a then 0 else x.uni x.f.a
  match mbits x.f 2 1 with
  | 0 => v
  | 1 => old ||| v
  | _ => old &&& ~~~v

/-- R366 -/
def execCsrw (f : Fields) (s : State) : Res :=
  .next (issue (.csrw f) f (fun x =>
    let (old, l) := x.csrOld
    let v := x.csrNew old
    let n := selOf f
    let s : State := if n < 0x100 then { x.s with wave := x.s.wave.setCsr n v } else x.s.csrWrite x.csrTower n v
    .done (s.writeS f.d l old)) s)

/-! ### Broadcast slots (R274) -/

/-- The 10 bits of a number in reverse. -/
def rev10 (k : Nat) : Nat := (List.range 10).foldl (fun r i => r + (if k.testBit i then 2 ^ (9 - i) else 0)) 0

/-- Slots of an array and a number, in the order of R274. -/
def slotOrder : List (Nat × Nat) :=
  (List.range 1024).flatMap fun i => (List.range 8).map fun a => (a, rev10 i)

/-- The entry of a broadcast slot of a job; that of a free slot. -/
def slotEntry (job : Nat) : Word := BitVec.ofNat 32 (packBits [(0, 4, 8), (4, 3, 2), (8, 12, job)])
def freeEntry : Word := 0x78

/-- Free slots of a tower, in order. -/
def Tower.freeSlots (t : Tower) : List (Nat × Nat) :=
  slotOrder.filter fun p => bits (almGet t.almanac p.1 p.2) 6 4 = 7
/-- Slots of a job, in order. -/
def Tower.jobSlots (t : Tower) (job : Nat) : List (Nat × Nat) :=
  slotOrder.filter fun p => almOwns (almGet t.almanac p.1 p.2) job

/-- Write one entry into each of a list of slots. -/
def Tower.setSlots (t : Tower) (e : Word) (l : List (Nat × Nat)) : Tower :=
  { t with almanac := l.foldl (fun m p => almSet m p.1 p.2 e) t.almanac }

/-- A request for the host under FNMODE.SLOTS (R414): d is 0 and nothing changes. -/
def Ctx.slotHost (x : Ctx) (job n : Nat) (rel : Bool) : Out :=
  let r : RecArgs := { hostRec 6 job with info := job, detail := BitVec.ofNat 64 (n + if rel then 2 ^ 63 else 0) }
  .done ((x.s.report x.s.group.tower r).writeS x.f.d .now 0)

/-- R274 -/
def execSlotreq (f : Fields) (s : State) : Res :=
  .next (issue (.slotreq f) f (fun x =>
    let s := x.s
    let job := bits (x.uni f.a) 11 0
    let n := (x.uni f.b).toNat
    let ts := towerList (towersOf s.group.tower (mbits f 1 0))
    if (s.tower s.group.tower).hostFn 5 then x.slotHost job n false
    else if n = 0 ∨ 8192 < n ∨ ts.any (fun t => decide ((s.tower t).freeSlots.length < n)) then .done (s.writeS f.d .now 0)
    else
      let s := ts.foldl (fun s t => s.mapTower t fun w => w.setSlots (slotEntry job) (w.freeSlots.take n)) s
      .done (s.writeS f.d .now (BitVec.ofNat 32 n))) s)

/-- How many slots of a job a release of n takes from a tower; 0 asks for all. -/
def Tower.relCount (t : Tower) (job n : Nat) : Nat := if n = 0 then t.slotsOf job else Nat.min n (t.slotsOf job)

/-- A release would leave the job without a slot while sectors of it are queued. -/
def Tower.relWaits (t : Tower) (job n : Nat) : Bool :=
  decide (t.relCount job n ≠ 0 ∧ t.relCount job n = t.slotsOf job ∧ t.queued job ≠ 0)

/-- R274 -/
def execSlotrel (f : Fields) (s : State) : Res :=
  .next (issue (.slotrel f) f (fun x =>
    let s := x.s
    let job := bits (x.uni f.a) 11 0
    let n := if isNil f.b then 0 else (x.uni f.b).toNat
    let tw := towersOf s.group.tower (mbits f 1 0)
    let ts := towerList tw
    if (s.tower s.group.tower).hostFn 5 then x.slotHost job n true
    else if ts.any fun t => (s.tower t).relWaits job n then
      .leave { s with wave := { s.wave with wait := .slots job tw.1 tw.2 } }
    else
      let d := (ts.map fun t => (s.tower t).relCount job n).sum
      let s := ts.foldl (fun s t => s.mapTower t fun w =>
        w.setSlots freeEntry ((w.jobSlots job).reverse.take (w.relCount job n))) s
      .done (s.writeS f.d .now (BitVec.ofNat 32 d))) s)

end Sys2Proof.Machine
end

