-- ==== Sys2Proof/Machine/Issue.lean ====
section
/-! DEFINITION. The steps of the issue ports and of pending operations: run starts (R142-R145), the clearing of
tokens (R69), the completion of engine commands (R250), and the ends of waits outside a run (R157, R327,
R368, R376, R389, R393). -/

namespace Sys2Proof.Machine

/-! ### Time that passes until a moment (R6, R428) -/

/-- Let n ticks pass in both towers, and clocks beside them. -/
def State.ticks (s : State) (n : Nat) : State := if n = 0 then s else s.lapse 0 n
/-- Let ticks pass until a tower's time base reaches a tick. -/
def State.until (s : State) (t : TowerId) (tick : Int) : State := s.ticks (tick - ((s.tower t).now : Int)).toNat
/-- The counter of a group's core counts: its layer is powered and no clock step stops it (R428). -/
def State.clkRuns (s : State) (g : Group) : Bool :=
  !s.clockStop && decide (((s.tower g.tower).layer g.layer.val).st = .awake)
/-- Let clocks pass on the focus group's core until its counter, if it counts, reaches a value; ticks pass beside them
(R428, log 5). -/
def State.untilClk (s : State) (c : DWord) : State :=
  if s.clkRuns s.group && decide ((s.clock s.group).toNat < c.toNat) then
    (s.lapse 0 (Config.tickStep s.free)).mapTower s.group.tower fun x =>
      { x with clk := Table.set 0 x.clk s.group.coreIdx c }
  else s

/-! ### Readiness (R143) -/

/-- The unit of a group. -/
def State.unitOf (s : State) (g : Group) : Option WorkUnit := s.findUnit g.unit
/-- Class and priority of a group's unit. -/
def Group.cls (g : Group) : Nat := taskBits g.task 34 2 0
def Group.prio (g : Group) : Nat := taskBits g.task 34 5 3

/-- The ready waves of a core, with their groups. -/
def State.readyOn (s : State) (p : Place) : List (Wave × Group) :=
  (s.onCore p).flatMap fun g => (s.allWaves.filter fun w => w.inGroup g.key && s.ready g w).map fun w => (w, g)

/-! ### The choice of a port (R143, R144) -/

/-- A wave that 32 run starts have passed over. -/
def Wave.aged (w : Wave) : Bool := decide (32 ≤ w.passes)

/-- The best of a list by a key, the first of equals. -/
def bestBy {α : Type} (k : α → Nat) : List α → Option α
  | [] => none
  | x :: xs => match bestBy k xs with
    | none => some x
    | some y => if k y < k x then some y else some x

/-- The wave that round robin takes: the first after the one of the set that last started a run at the port. -/
def roundRobin (last : List WaveKey) (ws : List (Wave × Group)) : Option (Wave × Group) :=
  match last.find? fun k => ws.any fun p => p.1.key = k with
  | none => bestBy (fun p => p.1.slot) ws
  | some k =>
    let n := ((ws.find? fun p => p.1.key = k).map fun p => p.1.slot).getD 0
    bestBy (fun p => (p.1.slot + 31 - n) % 32) ws

/-- The port's choice among the ready waves. -/
def chooseWave (last : List WaveKey) (ws : List (Wave × Group)) : Option (Wave × Group) :=
  let most := (ws.map fun p => p.1.passes).foldl Nat.max 0
  match bestBy (fun p => (most - p.1.passes) * 32 + p.1.slot % 32) (ws.filter fun p => p.1.aged) with
  | some p => some p
  | none =>
    let free := ws.filter fun p => !p.1.yielded
    let ws := if free.isEmpty then ws else free
    let top := (ws.map fun p => p.2.cls * 8 + p.2.prio).foldl Nat.max 0
    roundRobin last (ws.filter fun p => p.2.cls * 8 + p.2.prio = top)

/-- The number of a port of a core in the tower's table. -/
def portIdx (p : Place) (port : Nat) : Nat := port * 128 + p.layer.val * 16 + p.core.val

/-- Does a wave hold a port of a core? -/
def State.portBusy (s : State) (p : Place) (port : Nat) : Bool :=
  (s.onCore p).any fun g => s.allWaves.any fun w => w.inGroup g.key && w.inRun && decide (w.port = port)

/-- The focus wave starts its run: a cancelled predecessor (R105), whose trap reports no address (log 26), or a full
watchdog count (R376) traps instead. -/
def State.begin (s : State) (port : Nat) : State :=
  let w := s.wave
  let cancelled : Bool := match w.wait with | .waitpred _ => s.groupLink s.group = .cancelled | _ => false
  let at_ : DWord := match w.wait with | .waitpred a => a | _ => w.pc
  let w : Wave := { (if w.wait = .none then w else if w.waited then w.unwait else { w with wait := .none }) with
    inRun := true, port := port, jctl := s.jctlOf w.job s.group.tower, runLen := 0, time := 0, late := [], temps := [],
    yielded := false, passes := 0, pfx := .none, parkTok := none }
  let s := { s with wave := w, stalled := false }
  if cancelled then s.takeTrap (.plain .waitpredx) at_ at_ 0
  else if 2 ^ 24 ≤ w.dogCount then { s with wave := { w with dogCount := 0 } }.takeTrap (.plain .watchdog) w.pc w.pc 0
  else s

/-- R142-R144, R417: a free port of a core starts a run of the wave it chooses; the others are passed over. -/
def execRunStart (p : Place) (port : Fin 2) (s : State) : Res :=
  .next (if s.clockStop || !(s.tower p.tower).booted || s.portBusy p port.val then s
    else
      let k := portIdx p port.val
      let ws := s.readyOn p
      let last := Table.get [] (s.tower p.tower).ports k
      match chooseWave last ws with
      | none => s
      | some (w, _) =>
        let s := (ws.filter fun q => q.1.key ≠ w.key).foldl (fun s q =>
          s.mapWave q.1.key fun w => { w with passes := w.passes + 1 }) s
        let s := s.mapTower p.tower fun t => { t with ports := Table.put t.ports k (w.key :: last.filter (· ≠ w.key)) }
        (s.focusOn w.key).begin port.val)

/-! ### Tokens (R69, R148) -/

/-- A token stays set for an engine command, a segment, a SCAN or a wait that still holds it. -/
def Wave.tokHeld (w : Wave) (tok : Nat) : Bool :=
  (w.cmds.any fun c => c.tok = some tok) || (w.segs.any fun g => g.tok = tok) || (w.scan.any fun q => q.tok = tok) ||
    w.waitHolds tok

/-- The focus wave, outside a run, ends if its boundary finds it so (R157); one of a cancelled group abandons what it
cannot finish (R374). -/
def State.boundaryNow (s : State) : State :=
  let w := s.wave.boundary s.group.kill s.group.drop
  if !s.wave.alive then { s with wave := if s.group.kill then w else s.wave }
  else if w.alive then s
  else
    let s := s.unlink s.wave
    ({ s with wave := w }).groupEnd s.group.key

/-- A trap that the operation of the instruction at an address left is taken at that address, between two
instructions or at the boundary; the wave goes on where it stands, behind a prefix at the prefix (R84, R196). -/
def State.takePending (s : State) (pc : DWord) : State :=
  match s.wave.pendTrap with
  | some t => s.takeTrap t pc s.wave.pairStart (if s.wave.inRun then 0 else s.wave.await)
  | none => s

/-- R69: the operation of a token completes. A SCAN goes on here after a park, and the row port performs the
wave's first segment. -/
def execTokenClear (k : WaveKey) (tok : Fin 6) (s : State) : Res :=
  .next (match s.findWave k with
    | none => s
    | some w =>
      if !w.tokens.getLsbD tok.val then s
      else s.as k fun s =>
        let w := s.wave
        let s : State := match w.scan, w.segs with
          | some q, _ => if q.tok = tok.val ∧ q.stop.isNone ∧ s.group.resident then s.scanRun q else s
          | none, g :: _ => if g.tok = tok.val then s.portStep else s
          | none, [] => s
        let s := if s.wave.tokHeld tok.val then s else { s with wave := s.wave.clearTok tok.val }
        (if s.wave.tokHeld tok.val then s else s.takePending ((w.scan.map ScanProg.pc).getD w.pc)).boundaryNow)

/-! ### Engine commands (R250) -/

/-- R250: the oldest command of a class advances, and completes when its work is done. -/
def execEngineComplete (k : WaveKey) (c : EngClass) (s : State) : Res :=
  .next (match (s.findWave k).bind fun w => w.cmds.find? fun x => x.cls = c with
    | none => s
    | some e =>
      if e.parked then s
      else s.as k fun s =>
        if !s.group.resident && !e.op.inFlight then s
        else
          let s := match e.op with
            | .ray slot => s.rayRun e slot
            | .eyebor _ _ _ _ _ _ _ => s.borrowRun e false
            | _ => s.cmdRun e
          s.boundaryNow)

/-- R389: a borrow whose results are missing at D − MARGIN is late. -/
def execBorrowLate (k : WaveKey) (s : State) : Res :=
  .next (match (s.findWave k).bind fun w => w.cmds.find? fun x => x.cls = .gt with
    | none => s
    | some e => match e.op with
      | .eyebor _ _ _ _ _ dl _ => if e.parked then s else s.as k fun s =>
          let t := s.tower s.group.tower
          let lim : Word := dl - BitVec.ofNat 32 (bits (t.reg csrBmargin) 19 0)
          let left := (lim - BitVec.ofNat 32 t.now).toInt
          if s.wave.jctl.getLsbD 7 then s
          else ((s.ticks (if 0 ≤ left then left.toNat + 1 else 0)).borrowRun e true).boundaryNow
      | _ => s)

/-! ### The ends of waits -/

/-- R157: the sleep ends at its deadline, a value of the counter of the core where the group stands (log 76). -/
def execSleepTimeout (k : WaveKey) (s : State) : Res :=
  .next (match (s.findWave k).map Wave.wait with
    | some (.sleep (some c)) => s.as k fun s =>
        let s := s.untilClk c
        if (s.clock s.group).toNat < c.toNat then s else { s with wave := s.wave.unwait }
    | _ => s)

/-- R376: the count reaches its limit; only a wave that runs, or is ready, is counted. -/
def execWatchdog (k : WaveKey) (s : State) : Res :=
  .next (match s.findWave k with
    | some w =>
      if s.watched w then s.mapWave k fun w => { w with dogCount := Nat.max w.dogCount (2 ^ 24) }
      else s
    | none => s)

/-- R327: a write has satisfied the condition, or the counter does; the wave reads it as its acquire. -/
def execCtrwaitSatisfied (k : WaveKey) (s : State) : Res :=
  .next (match (s.findWave k).map Wave.wait with
    | some (.counter d va thr sc _) =>
      if s.ctrHits.contains k || decide (s.counterAt d ≤ thr) then
        let s := { s with ctrHits := s.ctrHits.filter (· ≠ k) }
        let s := s.as k fun s =>
          (({ s with wave := s.wave.unwait } : State).readRel sc (locGlobal d) 8 va).settle
        match s.findWave k with
        | none => s
        | some w => s.mapUnit (s.groupOf w).unit fun u =>
            if u.st = .swapped then { u with readyAt := (s.tower u.tower).now } else u
      else s
    | _ => s)

/-- R393: the tick T(L) − lead comes, or EN is clear: the wave reads DSPLINE and is ready. -/
def execRowwaitWake (k : WaveKey) (s : State) : Res :=
  .next (match (s.findWave k).map Wave.wait with
    | some (.row line lead d) => s.as k fun s =>
        let t := s.tower s.group.tower
        let s := if t.rowReady line lead then s else s.until s.group.tower (t.lineTick line - lead)
        { s with wave := s.wave.unwait.give d 0 0 (splat (s.tower s.group.tower).rowValue) }
    | _ => s)

/-- R368: no access uses an invalidated entry any more. A link that retrains holds the shoot-down (R284). -/
def execTlbShootdownDone (k : WaveKey) (s : State) : Res :=
  .next (match (s.findWave k).map Wave.wait with
    | some .shootdown => if s.link.retraining then s else s.mapWave k Wave.unwait
    | _ => s)

end Sys2Proof.Machine
end

