-- ==== Sys2Proof/Machine/Advent.lean ====
section
/-! DEFINITION. Advent and the dispatcher's own steps: changes and triggers (R113-R115), submission slots (R116),
held uses (R423), mailboxes (R136), and display deadlines (R139-R141, R391). -/

namespace Sys2Proof.Machine

/-! ### Triggers (R114) -/

def wEntry (e : WatchEntry) : Nat := wBits e 16 63 0
def wCoal (e : WatchEntry) : Nat := wBits e 40 15 0
def wRate (e : WatchEntry) : Nat := wBits e 42 15 0
def wDmax (e : WatchEntry) : Nat := wBits e 44 3 0

/-- The key of a job's watch entry in a tower's table. -/
def watchKey (job n : Nat) : Nat := 64 * job + n
def Tower.watch (t : Tower) (job n : Nat) : Option WatchEntry := Table.find t.watches (watchKey job n)
def Tower.setWatch (t : Tower) (job n : Nat) (e : WatchEntry) : Tower :=
  { t with watches := Table.put t.watches (watchKey job n) e }

/-- The address of a line of a range, as the entry names it. -/
def wLine (e : WatchEntry) (line : Nat) : DWord := BitVec.ofNat 64 (wBase e + 64 * line)

/-- A change is lost: its entry is disabled, with a record that names the entry and the line. -/
def State.disable (s : State) (t : TowerId) (c : Change) (e : WatchEntry) (cause : Cause) : State :=
  (s.mapTower t fun w => w.setWatch c.job c.entry { e with image := setField e.image 121 1 1 }).report t
    { cause := cause, job := c.job, addr := wLine e c.line, info := c.entry, detail := BitVec.ofNat 64 c.depth }

/-- The task of a trigger, from the template (R25). -/
def triggerTask (e : WatchEntry) (c : Change) : BitVec 512 :=
  BitVec.ofNat 512 (packBits [(0, 64, wEntry e), (64, 64, wBits e 24 63 0), (128, 16, c.line), (144, 16, c.line / 2 ^ 16),
    (176, 16, c.entry), (192, 64, wBits e 32 63 0), (256, 16, wBits e 12 15 0), (272, 6, wBits e 14 5 0), (283, 1, 1)])

/-- Count a trigger against the rate of its window; windows begin at multiples of 10 µs. -/
def Tower.window (t : Tower) : Tower :=
  if t.now / 2500 = t.rateWin then t else { t with rateCnt := [], rateWin := t.now / 2500 }
def Tower.rated (t : Tower) (job n : Nat) : Nat := Table.get 0 t.rateCnt (watchKey job n)

/-- Where a line of a submission range lies: in the window, or at a DPA. -/
def slotOf (e : WatchEntry) (line : Nat) : Bool × Nat × DWord :=
  let a := wBase e + 64 * line
  (wBcast e, if wBcast e then a else e.frames.getD (a / 2 ^ 16 - wBase e / 2 ^ 16) 0 + a % 2 ^ 16, BitVec.ofNat 64 a)

/-- A new pending trigger: its task, its request for the host, or its slot. -/
def State.openTrigger (s : State) (t : TowerId) (c : Change) (e : WatchEntry) : State :=
  let sub := decide (wEntry e = 0)
  let x := triggerTask e c
  if !sub && (!s.jobOk c.job || s.taskAddrBad c.job x) then s.report t { cause := .taskbad, job := c.job, info := 3 }
  else
    let n := (s.tower t).trigSeq
    let s := s.mapTower t fun w =>
      let w := w.setWatch c.job c.entry (e.bump 48)
      { w with trigSeq := n + 1, rateCnt := Table.put w.rateCnt (watchKey c.job c.entry) (w.rated c.job c.entry + 1) }
    if !sub && (s.tower t).hostFn 1 then
      s.report t { hostRec 2 c.job with addr := wLine e c.line, info := c.entry, detail := c.mask.setWidth 64 }
    else
      let r : Trigger := ⟨n, c.job, c.entry, c.line, c.mask, c.depth, 1, decide (1 < wCoal e), c.host,
        if sub then some (slotOf e c.line) else none⟩
      if !sub && s.jobFar c.job t then s.report t { cause := .linkfail, job := c.job, addr := wLine e c.line, info := 3 }
      else
      let s := s.mapTower t fun w => { w with triggers := w.triggers ++ [r] }
      if sub then s else (s.acceptTask c.job t x 0 c.depth 3 (some n) []).1

/-- An open trigger absorbs a change; its task takes the larger depth, wherever it stands before its start. -/
def State.absorb (s : State) (t : TowerId) (c : Change) (e : WatchEntry) (r : Trigger) : State :=
  let d := Nat.max r.depth c.depth
  let q : Trigger := { r with dirty := r.dirty ||| c.mask, depth := d, changes := r.changes + 1, isOpen := decide (r.changes + 1 < wCoal e) }
  let s := s.mapTower t fun w =>
    { w.setWatch c.job c.entry (e.bump 56) with triggers := w.triggers.map fun x => if x.num = r.num then q else x }
  (s.units.filter fun u => u.tower = t && u.trigger = some r.num && !u.started).foldl (fun s u =>
    s.retask u.id 9 fun x => setField x 300 4 d) s

/-- A task trigger whose acceptance needs the link while it retrains: the change waits for it (R284). -/
def State.changeWaits (s : State) (t : TowerId) (c : Change) : Bool :=
  s.link.retraining && s.jobFar c.job t && !(((s.tower t).watch c.job c.entry).map fun e => decide (wEntry e = 0)).getD true

/-- R114: the oldest change reaches the pending-trigger table, and is judged by the entry that stands there then (log 92). -/
def execTriggerChange (t : TowerId) (s : State) : Res :=
  .next (match (s.tower t).changes with
    | [] => s
    | c :: cs =>
      if s.changeWaits t c then s else
      let s := s.mapTower t fun w => { w.window with changes := cs }
      let w := s.tower t
      match w.watch c.job c.entry with
      | none => s
      | some e =>
        if !wLive e then s
        else if wDmax e < c.depth then s.disable t c e .watchdepth
        else match w.triggers.find? fun r => r.isOpen && r.job = c.job && r.entry = c.entry && r.line = c.line with
          | some r => s.absorb t c e r
          | none =>
            if wRate e ≤ w.rated c.job c.entry then s.disable t c e .watchrun
            else if 512 ≤ w.triggers.length then s.disable t c e .watchovf
            else s.openTrigger t c e)

/-- R114: the time base comes to a multiple of 10 µs. -/
def execRateWindow (t : TowerId) (s : State) : Res :=
  .next (let n := (s.tower t).now
    (s.until t ((n / 2500 + 1) * 2500 : Nat)).mapTower t Tower.window)

/-! ### Submission slots (R116) -/

/-- Read and write the bytes of a slot, which the dispatcher reaches at the slot's own place. -/
def State.slotRead (s : State) (t : TowerId) (q : Bool × Nat × DWord) (o n : Nat) : Nat :=
  Mem.readNat (if q.1 then (s.tower t).bcast else s.mem) (q.2.1 + o) n
/-- KIND := 0, uncompared, for a job; a denied write in memory leaves its record instead (R286). -/
def State.slotDone (s : State) (t : TowerId) (job : Nat) (q : Bool × Nat × DWord) : State :=
  if q.1 then s.mapTower t fun w => { w with bcast := Mem.write w.bcast (q.2.1 + 8) 0 }
  else match s.hwDeny job t true (q.2.1 + 8) 1 with
    | some c => s.deniedRec job t (q.2.2 + 8) c
    | none => ({ s.touchDpa t q.2.1 with mem := Mem.write s.mem (q.2.1 + 8) 0 }).setRel (locGlobal (q.2.1 + 8)) 1 relHw

/-- Submit the record of a slot, a task's as a read and a launch's as a write (log 119); a refusal is a record that names
it. A task on a discarded page is one of zeros, without a VBUDGET (R39, R235). None: the record or its acceptance is reached over
the link, which retrains (R284). -/
def State.slotSubmit (s : State) (t : TowerId) (job depth src kind : Nat) (va : DWord) : Option State :=
  let bad : Cause := if kind = 1 then .taskbad else .lnchbad
  let no (s : State) (c : Cause) : State := s.report t { cause := c, job := job, recAt := va, info := src }
  let size := if kind = 1 then 64 else 128
  if va.toNat % size ≠ 0 then some (no s bad)
  else match s.hwAt job t (kind = 2) size va with
    | .miss _ => some (no s bad)
    | .wait => none
    | .denied c => some (s.deniedRec job t va c)
    | .at_ h =>
      if kind = 1 ∧ h.disc then some (no s bad) else
      let s := s.hwSee job t va h size
      let r := if kind = 1 then s.submitTask job t va h.dpa depth none src else (s.revive h).submitLaunch job t va h.dpa depth none src
      match r with
      | .link a => some (s.report t { cause := .linkfail, job := job, addr := a, recAt := va })
      | .wait => none
      | .ok s => some s
      | .bad => some (no s bad)
      | .full => some (no s .lnchfull)

/-- What the slot at a place asks for, by its KIND; none while it must wait. A slot in memory that the hardware may not
read reads as zeros, without a KIND (R286, log 117). -/
def State.slotServe (s : State) (t : TowerId) (r : Trigger) (q : Bool × Nat × DWord) : Option State :=
  let src := if r.host then 1 else 3
  let denied := !q.1 && (s.hwDeny r.job t false q.2.1 16).isSome
  let s := if q.1 then s else (s.walkEcc r.job t q.2.2).hwRead r.job t q.2.2 q.2.1 16
  if denied then some s else
  let va : DWord := BitVec.ofNat 64 (s.slotRead t q 0 8)
  match s.slotRead t q 8 1 with
  | 0 => some s
  | 1 => (s.slotSubmit t r.job (r.depth - 1) src 1 va).map fun s => s.slotDone t r.job q
  | 2 => (s.slotSubmit t r.job (r.depth - 1) src 2 va).map fun s => s.slotDone t r.job q
  | _ => some ((s.report t { cause := .taskbad, job := r.job, recAt := q.2.2, info := src }).slotDone t r.job q)

/-- A slot in memory lies over a link that retrains (R284). -/
def State.slotFar (s : State) (t : TowerId) (q : Bool × Nat × DWord) : Bool :=
  s.link.retraining && !q.1 && decide (dpaTower q.2.1 ≠ t)

/-- R116: the dispatcher serves the slot of the oldest trigger on a submission range. -/
def execSubmissionSlotServe (t : TowerId) (s : State) : Res :=
  .next (match (s.tower t).triggers.find? fun r => r.slot.isSome with
    | none => s
    | some r => match r.slot with
      | none => s
      | some q =>
        if s.slotFar t q then s
        else ((s.mapTower t fun w => w.freeTrigger (some r.num)).slotServe t r q).getD s)

/-! ### Held uses (R423) and mailboxes (R136) -/

/-- R423: the tick of a held use comes, and it is tried again; a retry that fails leaves it held for another 10 µs,
without another record. -/
def execHeldUseRetry (n : Nat) (s : State) : Res :=
  .next (match s.held[n]? with
    | none => s
    | some h => State.hwGo h.job h.tower h.depth 64 true h.todo { s.until h.tower h.due with held := s.held.eraseIdx n })

/-- Write the mailbox of a group, and release its scoreboard entry. -/
def State.mailbox (s : State) (g : Group) (mb flag : Nat) (rest : List Byte) (tile : Option Nat) : State :=
  let m := Mem.writeBytes (Mem.writeBytes (s.localMem g.unit) (mb + 8) rest) mb (Mem.bytes flag 8)
  let s := (s.setLocal g.unit m).setRel (locLocal g.unit mb) 32 relHw
  s.mapGroup g.key fun g => { g with
    board := g.board.filter fun r => !r.mailbox
    fetch := g.fetch.map fun q => { q with pending := false, tile := tile } }

/-- R136: the dispatcher answers a group's FETCHW; it waits while a link holds the launch's tiles (R98). -/
def execFetchwMailboxWrite (k : GroupKey) (s : State) : Res :=
  .next (match s.findGroup k with
    | none => s
    | some g => match g.fetch with
      | none => s
      | some q =>
        let noMore : State := s.mailbox g q.mailbox 2 (List.replicate 24 0) none
        if !q.pending || g.ended then s
        else match s.liveAt g.job q.launch with
          | none => noMore
          | some l =>
            if s.launchReq l then noMore
            else match l.nextTile with
              | none => noMore
              | some lin =>
                if s.linkHolds l then s
                else
                  let i := l.image
                  let at_ := packBits [(0, 16, lin % lnGx i), (16, 16, lin / lnGx i % lnGy i), (32, 16, lin / (lnGx i * lnGy i))]
                  let rest := Mem.bytes at_ 8 ++ Mem.bytes (launchBits i 8 63 0) 8 ++ Mem.bytes (lnSucc i).toNat 8
                  (s.issued { l with next := lin + 1 }).mailbox g q.mailbox 1 rest (some lin))

/-! ### Display deadlines (R139-R141, R391) -/

/-- T(64B) -/
def Tower.bandTick (t : Tower) (b : Int) : Int := t.lineTick (64 * b)
/-- The number of a band in a record. -/
def bandNo (b : Int) : Nat := (b % 60).toNat
/-- The band that a unit accepted at a tick serves: the first whose deadline falls after it (R391). -/
def Tower.bandAfter (t : Tower) (since : Nat) : Int := (((since : Int) - t.dspT0) / (t.dspRp : Int)) / 64 + 1

/-- A DSP unit that is queued or saved. -/
def WorkUnit.waitsDsp (u : WorkUnit) (t : TowerId) : Bool :=
  u.tower = t && decide (u.cls = 3) && (u.st.isQueued || u.st = .saved)

/-- The first place in a tower where a unit fits. -/
def State.somewhere (s : State) (t : TowerId) (u : WorkUnit) : Option (LayerId × List CoreId) :=
  (List.finRange 8).findSome? fun l =>
    if !(s.tower t).awake l.val then none
    else [0, 1, 2, 3].findSome? fun c => (s.fit u t l c).map fun k => (l, k)

/-- Do units all fit, each placed in turn? -/
def State.allFit (t : TowerId) : List WorkUnit → State → Bool
  | [], _ => true
  | u :: us, s => match s.somewhere t u with
    | none => false
    | some (l, k) => State.allFit t us (s.place u t l k)

/-- A unit as if it had been saved. -/
def State.asSaved (s : State) (u : WorkUnit) : State :=
  let off (g : Group) : Group := if g.unit = u.id then { g with resident := false } else g
  { (s.mapUnit u.id fun u => { u with st := .saved }) with group := off s.group, groups := s.groups.map off }

/-- The victims in their order: lowest class, lowest priority, most recently placed. -/
def State.victims (s : State) (t : TowerId) : List WorkUnit :=
  sortRank (fun u => (u.cls * 8 + u.prio) * 2 ^ 64 + (2 ^ 64 - 1 - u.placed))
    (s.units.filter fun u => u.tower = t && u.st = .running && decide (u.cls < 3))

/-- The victims that pre-emption takes until the waiting units fit (R139, log 100). -/
def State.chosen (t : TowerId) (ws : List WorkUnit) : List WorkUnit → State → List WorkUnit
  | [], _ => []
  | v :: vs, s => if State.allFit t ws s then [] else v :: State.chosen t ws vs (s.asSaved v)

/-- Pre-empt a unit, a gang as a whole; DLPRE counts it. -/
def State.preempt (s : State) (u : WorkUnit) : State :=
  let now := (s.tower u.tower).now
  let f (g : Group) : Group := if g.unit = u.id ∧ !g.ended then { g with stop := true, stopAt := some now } else g
  ({ s with group := f s.group, groups := s.groups.map f }).mapTower u.tower fun t => t.count csrPlacecnt 16 1

/-- R139, or its host mode (R414): GUARD µs before the next deadline. -/
def execDeadlineGuard (t : TowerId) (s : State) : Res :=
  .next (
    let w := s.tower t
    let guard := bits (w.reg csrDspguard) 11 0
    if !w.dspOn || guard = 0 then s
    else
      let s := s.until t (w.bandTick w.dspBand - 250 * guard)
      let ws := sortRank WorkUnit.rank (s.units.filter fun u => u.waitsDsp t)
      let stuck := ws.filter fun u => (s.somewhere t u).isNone
      if w.hostFn 4 then
        stuck.foldl (fun s u => s.report t { hostRec 5 u.job with info := bandNo w.dspBand, recAt := u.recVa }) s
      else if stuck.isEmpty then s
      else (State.chosen t ws (s.victims t) s).foldl State.preempt s)

/-- A miss: DLMISS and a record. -/
def State.miss (s : State) (t : TowerId) (job : Nat) (rec : DWord) (b : Int) (tick : Int) : State :=
  (s.mapTower t fun w => w.count csrPlacecnt 0 1).report t
    { cause := .deadline, job := job, recAt := rec, info := bandNo b, detail := BitVec.ofInt 64 tick }

/-- R141: the next deadline passes; the DSP units of its band that are held, queued or saved miss it. -/
def execDeadline (t : TowerId) (s : State) : Res :=
  .next (
    let w := s.tower t
    if !w.dspOn then s
    else
      let b := w.dspBand
      let tick := w.bandTick b
      let s := s.until t tick
      let late := s.units.filter fun u =>
        u.tower = t && decide (u.cls = 3) && (u.st.isQueued || u.st = .saved || u.st = .held) && w.bandAfter u.since = b
      let s := late.foldl (fun s u => s.miss t u.job u.recVa b tick) s
      let tiles := s.launches.filter fun l => lnClass l.image = 3 && w.bandAfter l.since = b
      let s := tiles.foldl (fun s l =>
        let ns := (List.range (lnTiles l.image - l.next)).map (l.next + ·)
        (ns.filter fun n => !l.taken.contains n && l.tileTower n = t).foldl (fun s _ => s.miss t l.job l.addr b tick) s) s
      s.mapTower t fun w => { w with dspBand := b + 1 })

/-- A victim of a deadline pre-emption that is still to be saved more than 4 µs after the decision (R370). -/
def State.tardy (s : State) (t : TowerId) (g : Group) : Bool :=
  g.tower = t && g.stop && !g.ended && match g.stopAt with
    | some d => decide (d + 1000 < (s.tower t).now)
    | none => false

/-- R370: not every victim was saved within 4 µs of the decision; one record names the waiting unit. -/
def execPreemptto (t : TowerId) (n : Nat) (s : State) : Res :=
  .next (match s.findUnit n with
    | none => s
    | some u =>
      if u.waitsDsp t && s.allGroups.any (s.tardy t) then
        let f (g : Group) : Group := if s.tardy t g then { g with stopAt := none } else g
        { s with group := f s.group, groups := s.groups.map f }.report t { cause := .preemptto, job := u.job, recAt := u.recVa }
      else s)

end Sys2Proof.Machine
end

