-- ==== Sys2Proof/Machine/Integer.lean ====
section
/-! DEFINITION. Groups 0x1 and 0x2: integer and logic (R158-R163, Tables 6.3 and 6.4). -/

namespace Sys2Proof.Machine

/-! ### Results -/

/-- Lanes that a vector instruction writes; the scalar pipe runs once whatever `em` holds (R151, R152). -/
def Ctx.act (x : Ctx) : Mask := if isS x.f.d || isEm x.f.d then 1 else x.s.wave.em

/-- Write the result of each lane with a tag. -/
def Ctx.put (x : Ctx) (l : Lat) (tag : BitVec 4) (g : Nat → Word) : Out :=
  .done (x.s.write x.f.d x.s.wave.em l tag (lanesFn g))

/-- Write rounded results and raise the flags of the lanes written (R49). -/
def Ctx.putF (x : Ctx) (l : Lat) (tag : BitVec 4) (g : Nat → FRes) : Out :=
  .done ((x.s.write x.f.d x.s.wave.em l tag (lanesFn fun i => (g i).word)).raise
    (orFlags x.act fun i => (g i).fl))

/-- Lane i of the first source. -/
def Ctx.la (x : Ctx) (i : Nat) : Word := laneAt (x.lanes x.f.a) i
/-- Lane i of the second source. -/
def Ctx.lb (x : Ctx) (i : Nat) : Word := laneAt (x.lanes x.f.b) i
/-- Lane i of the only source, which an immediate may replace. -/
def Ctx.la' (x : Ctx) (i : Nat) : Word := laneAt (x.srcI x.f.a).lanes i
/-- Lane i of the second and last source. -/
def Ctx.lb' (x : Ctx) (i : Nat) : Word := laneAt (x.srcI x.f.b).lanes i
/-- Lane i of the third source. -/
def Ctx.lc' (x : Ctx) (i : Nat) : Word := laneAt (x.srcI (opC x.f)).lanes i

/-- The 64-bit immediate: whole from XIMM, else widened (R72, R82). -/
def Ctx.imm64 (x : Ctx) (k : Widen) : DWord :=
  match x.ximm with
  | some h => h ++ x.f.ext
  | none => match k with
    | .sign => x.f.ext.signExtend 64
    | .zero => x.f.ext.setWidth 64
    | .f64 => BitVec.ofNat 64 (Fmt.convert .f32 .f64 .rne false x.f.ext.toNat).val

/-- Lane i of a 64-bit operand that an immediate may replace. -/
def Ctx.l64 (x : Ctx) (o : Opnd) (k : Widen) (i : Nat) : DWord :=
  if immOn x.f then x.imm64 k else x.lane64 o i

/-! ### Exact integers and their narrowing (R41) -/

/-- The value of a w-bit pattern. -/
def intVal (w : Nat) (sg : Bool) (v : Nat) : Int :=
  if sg && decide (2 ^ (w - 1) ≤ v) then (v : Int) - 2 ^ w else v

/-- The low w bits of an exact result. -/
def wrapTo (w : Nat) (x : Int) : Nat := (x % (2 ^ w : Int)).toNat

/-- An exact result clamped to the type's range, or wrapped. -/
def narrow (w : Nat) (sg sat : Bool) (x : Int) : Nat :=
  if sat then
    let lo : Int := if sg then -(2 ^ (w - 1)) else 0
    let hi : Int := if sg then 2 ^ (w - 1) - 1 else 2 ^ w - 1
    wrapTo w (if x < lo then lo else if hi < x then hi else x)
  else wrapTo w x

/-- The element width, signedness and result tag of a TSEL of Table 6.3. -/
def intWidth (t : Nat) : Nat := if t < 2 then 32 else if t < 4 then 16 else 8
def intSigned (t : Nat) : Bool := t % 2 = 0
def intTag (t : Nat) : BitVec 4 :=
  match t with | 0 => 1 | 1 => 2 | 2 => 10 | 3 => 11 | 4 => 8 | _ => 9

/-- A lane made of packed elements given by their patterns (R42). -/
def packLane (w : Nat) (g : Nat → Nat) : Word :=
  BitVec.ofNat 32 (((List.range (32 / w)).map fun j => (g j % 2 ^ w) * 2 ^ (w * j)).sum)

/-- An exact operation on each element of a lane. -/
def intLane (t : Nat) (sat : Bool) (op : Int → Int → Int) (a b : Word) : Word :=
  let w := intWidth t
  let sg := intSigned t
  packLane w fun j => narrow w sg sat (op (intVal w sg (elem w j a)) (intVal w sg (elem w j b)))

/-- A two-source arithmetic instruction. -/
def Ctx.int2 (x : Ctx) (l : Lat) (op : Int → Int → Int) : Out :=
  x.put l (intTag (tsel x.f)) fun i => intLane (tsel x.f) (satOn x.f) op (x.la i) (x.lb' i)

/-- A one-source arithmetic instruction. -/
def Ctx.int1 (x : Ctx) (op : Int → Int) : Out :=
  x.put .int (intTag (tsel x.f)) fun i => intLane (tsel x.f) (satOn x.f) (fun a _ => op a) (x.la' i) 0

/-- A two-source bit instruction, tag RAW (R57). -/
def Ctx.bit2 (x : Ctx) (op : Word → Word → Word) : Out := x.put .int 0 fun i => op (x.la i) (x.lb' i)

/-- R159 -/
def execIadd (f : Fields) (s : State) : Res :=
  .next (issue (.iadd f) f (fun x => x.int2 .int fun a b => a + b) s)
/-- R159 -/
def execIsub (f : Fields) (s : State) : Res :=
  .next (issue (.isub f) f (fun x => x.int2 .int fun a b => a - b) s)

/-- IADDC and ISUBB: the sum or difference with the carry or borrow of predicate c (R160). -/
def Ctx.carry (x : Ctx) (sub : Bool) : Out :=
  let p := x.prd (opC x.f)
  let r (i : Nat) : Int :=
    let c : Int := if laneOn p i then 1 else 0
    if sub then (x.la i).toNat - (x.lb i).toNat - c else (x.la i).toNat + (x.lb i).toNat + c
  let s := x.s.write x.f.d x.s.wave.em .int (intTag (tsel x.f)) (lanesFn fun i => BitVec.ofNat 32 (wrapTo 32 (r i)))
  .done (s.writePred (opC x.f) x.s.wave.em .int (maskOf fun i => decide (r i < 0 ∨ 2 ^ 32 ≤ r i)))

/-- R160 -/
def execIaddc (f : Fields) (s : State) : Res := .next (issue (.iaddc f) f (fun x => x.carry false) s)
/-- R160 -/
def execIsubb (f : Fields) (s : State) : Res := .next (issue (.isubb f) f (fun x => x.carry true) s)

/-- R159 -/
def execImul (f : Fields) (s : State) : Res :=
  .next (issue (.imul f) f (fun x => x.int2 .mul fun a b => a * b) s)
/-- R159: bits [63:32] of the exact product. -/
def execImulhi (f : Fields) (s : State) : Res :=
  .next (issue (.imulhi f) f (fun x => x.int2 .mul fun a b => (a * b) / 2 ^ 32) s)
/-- R159: one wrap or clamp of the exact x × y + z. -/
def execImad (f : Fields) (s : State) : Res :=
  .next (issue (.imad f) f
    (fun x =>
      let sg := intSigned (tsel f)
      let v (y : Word) : Int := intVal 32 sg y.toNat
      x.put .mul (intTag (tsel f)) fun i =>
        BitVec.ofNat 32 (narrow 32 sg (satOn f) (v (x.la i) * v (x.lb i) + v (x.lc' i)))) s)

/-- A 64-bit arithmetic result, tagged I64 (R57, R158). -/
def Ctx.int64 (x : Ctx) (op : Int → Int → Int) : Out :=
  let sg := intSigned (tsel x.f)
  let v (y : DWord) : Int := intVal 64 sg y.toNat
  .done (x.s.write64 x.f.d x.s.wave.em .mul 13 fun i =>
    BitVec.ofNat 64 (narrow 64 sg (satOn x.f)
      (op (v (x.lane64 x.f.a i)) (v (x.l64 x.f.b (if sg then .sign else .zero) i)))))

/-- R159 -/
def execIadd64 (f : Fields) (s : State) : Res :=
  .next (issue (.iadd64 f) f (fun x => x.int64 fun a b => a + b) s)
/-- R159 -/
def execImul64 (f : Fields) (s : State) : Res :=
  .next (issue (.imul64 f) f (fun x => x.int64 fun a b => a * b) s)

/-- Quotient and remainder of one lane, and whether the divisor is 0 (R161). -/
def divLane (sg : Bool) (a b : Word) : Word × Word × Bool :=
  let x := intVal 32 sg a.toNat
  let y := intVal 32 sg b.toNat
  if b = 0 then ((if sg then (if 0 ≤ x then 0x7FFFFFFF else 0x80000000) else 0xFFFFFFFF), a, true)
  else if sg && decide (x = -2147483648) && decide (y = -1) then (0x80000000, 0, false)
  else (BitVec.ofNat 32 (wrapTo 32 (x.tdiv y)), BitVec.ofNat 32 (wrapTo 32 (x.tmod y)), false)

/-- IDIV and IREM: DZ when an active lane's divisor is 0 (R161). -/
def Ctx.divide (x : Ctx) (rem : Bool) : Out :=
  let sg := intSigned (tsel x.f)
  let r (i : Nat) := divLane sg (x.la i) (x.lb' i)
  .done ((x.s.write x.f.d x.s.wave.em .now (intTag (tsel x.f))
      (lanesFn fun i => if rem then (r i).2.1 else (r i).1)).raise
    (orFlags x.act fun i => if (r i).2.2 then Flags.dz else 0))

/-- R161 -/
def execIdiv (f : Fields) (s : State) : Res := .next (issue (.idiv f) f (fun x => x.divide false) s)
/-- R161 -/
def execIrem (f : Fields) (s : State) : Res := .next (issue (.irem f) f (fun x => x.divide true) s)

/-- R159 -/
def execImin (f : Fields) (s : State) : Res := .next (issue (.imin f) f (fun x => x.int2 .int min) s)
/-- R159 -/
def execImax (f : Fields) (s : State) : Res := .next (issue (.imax f) f (fun x => x.int2 .int max) s)
/-- R159 -/
def execIabs (f : Fields) (s : State) : Res :=
  .next (issue (.iabs f) f (fun x => x.int1 fun a => (a.natAbs : Int)) s)
/-- R159 -/
def execIneg (f : Fields) (s : State) : Res := .next (issue (.ineg f) f (fun x => x.int1 fun a => -a) s)

/-- R159 -/
def execAnd (f : Fields) (s : State) : Res := .next (issue (.and f) f (fun x => x.bit2 (· &&& ·)) s)
/-- R159 -/
def execOr (f : Fields) (s : State) : Res := .next (issue (.or f) f (fun x => x.bit2 (· ||| ·)) s)
/-- R159 -/
def execXor (f : Fields) (s : State) : Res := .next (issue (.xor f) f (fun x => x.bit2 (· ^^^ ·)) s)
/-- R159: x AND NOT y. -/
def execAndn (f : Fields) (s : State) : Res :=
  .next (issue (.andn f) f (fun x => x.bit2 fun a b => a &&& ~~~b) s)
/-- R159 -/
def execNot (f : Fields) (s : State) : Res :=
  .next (issue (.not f) f (fun x => x.put .int 0 fun i => ~~~(x.la' i)) s)

/-- A shift or rotate amount: y[4:0]. -/
def amt (y : Word) : Nat := y.toNat % 32

/-- R159 -/
def execShl (f : Fields) (s : State) : Res :=
  .next (issue (.shl f) f (fun x => x.bit2 fun a b => a <<< amt b) s)
/-- R159: fills with 0. -/
def execShr (f : Fields) (s : State) : Res :=
  .next (issue (.shr f) f (fun x => x.bit2 fun a b => a >>> amt b) s)
/-- R159: fills with bit 31. -/
def execSar (f : Fields) (s : State) : Res :=
  .next (issue (.sar f) f (fun x => x.bit2 fun a b => a.sshiftRight (amt b)) s)
/-- R159 -/
def execRol (f : Fields) (s : State) : Res :=
  .next (issue (.rol f) f (fun x => x.bit2 fun a b => a.rotateLeft (amt b)) s)

/-- A 64-bit shift by y[5:0], tag RAW (R159). -/
def Ctx.shift64 (x : Ctx) (op : DWord → Nat → DWord) : Out :=
  .done (x.s.write64 x.f.d x.s.wave.em .mul 0 fun i => op (x.lane64 x.f.a i) ((x.lb' i).toNat % 64))

/-- R159 -/
def execShl64 (f : Fields) (s : State) : Res :=
  .next (issue (.shl64 f) f (fun x => x.shift64 fun a n => a <<< n) s)
/-- R159: TSEL 1 fills with bit 63. -/
def execShr64 (f : Fields) (s : State) : Res :=
  .next (issue (.shr64 f) f
    (fun x => x.shift64 fun a n => if tsel f = 1 then a.sshiftRight n else a >>> n) s)

/-- Position and width of a bit field: y[4:0] and y[13:8], a width above 32 read as 32 (R162). -/
def fieldPos (y : Word) : Nat := bits y 4 0
def fieldWidth (y : Word) : Nat := min (bits y 13 8) 32

/-- The field of x (R162): bits [min(pos + w, 32) − 1 : pos], zero- or sign-extended; 0 when empty. -/
def bfeLane (sg : Bool) (a b : Word) : Word :=
  let n := min (fieldPos b + fieldWidth b) 32 - fieldPos b
  if n = 0 then 0
  else
    let v := (a.toNat / 2 ^ fieldPos b) % 2 ^ n
    BitVec.ofNat 32 (wrapTo 32 (intVal n sg v))

/-- Insertion (R162): bits of the mask that lie above 31 are dropped. -/
def bfiLane (a b z : Word) : Word :=
  let m : Word := BitVec.ofNat 32 ((2 ^ fieldWidth b - 1) * 2 ^ fieldPos b)
  (z &&& ~~~m) ||| ((a <<< fieldPos b) &&& m)

/-- R162 -/
def execBfe (f : Fields) (s : State) : Res :=
  .next (issue (.bfe f) f (fun x => x.put .int 0 fun i => bfeLane (tsel f = 1) (x.la i) (x.lb' i)) s)
/-- R162 -/
def execBfi (f : Fields) (s : State) : Res :=
  .next (issue (.bfi f) f (fun x => x.put .int 0 fun i => bfiLane (x.la i) (x.lb i) (x.lc' i)) s)

/-- The number of set bits. -/
def popLane (a : Word) : Nat := (lanesOf a).length
/-- Leading zero bits; 32 for 0. -/
def clzLane (a : Word) : Nat := if a = 0 then 32 else 31 - Nat.log2 a.toNat
/-- Trailing zero bits; 32 for 0. -/
def ctzLane (a : Word) : Nat := ((lanesOf a).head?).getD 32
/-- Bit i goes to bit 31 − i. -/
def brevLane (a : Word) : Word := maskOf fun i => a.getLsbD (31 - i)

/-- R159 -/
def execPopc (f : Fields) (s : State) : Res :=
  .next (issue (.popc f) f (fun x => x.put .int 2 fun i => BitVec.ofNat 32 (popLane (x.la' i))) s)
/-- R159 -/
def execClz (f : Fields) (s : State) : Res :=
  .next (issue (.clz f) f (fun x => x.put .int 2 fun i => BitVec.ofNat 32 (clzLane (x.la' i))) s)
/-- R159 -/
def execCtz (f : Fields) (s : State) : Res :=
  .next (issue (.ctz f) f (fun x => x.put .int 2 fun i => BitVec.ofNat 32 (ctzLane (x.la' i))) s)
/-- R159 -/
def execBrev (f : Fields) (s : State) : Res :=
  .next (issue (.brev f) f (fun x => x.put .int 0 fun i => brevLane (x.la' i)) s)
/-- R159: wrap_32(x + (y << k)), k the TSEL. -/
def execLea (f : Fields) (s : State) : Res :=
  .next (issue (.lea f) f (fun x => x.put .int 2 fun i => x.la i + (x.lb' i <<< tsel f)) s)

/-- R159, R57: MOV copies the tag of a register source; .B64 copies each register's own tag. -/
def execMov (f : Fields) (s : State) : Res :=
  .next (issue (.mov f) f
    (fun x =>
      if tsel f = 1 then
        let v (i : Nat) := x.l64 f.a .zero i
        let t0 := if immOn f then 0 else (x.src f.a).tag
        let t1 := if immOn f then 0 else (x.src (Opnd.step f.a 1)).tag
        .done ((x.s.write f.d x.s.wave.em .int t0 (lanesFn fun i => (v i).setWidth 32)).write
          (Opnd.step f.d 1) x.s.wave.em .int t1 (lanesFn fun i => (v i >>> 32).setWidth 32))
      else x.put .int (x.srcI f.a).tag fun i => x.la' i) s)

/-- R163: the immediate with the tag of mod[3:0]. -/
def execMovi (f : Fields) (s : State) : Res :=
  .next (issue (.movi f) f (fun x => x.put .int (f.mod.setWidth 4) fun _ => f.ext) s)

end Sys2Proof.Machine
end

