-- ==== Sys2Proof/Machine/Fp.lean ====
section
/-! DEFINITION. Groups 0x4, 0x5 and 0x6: FP32, scalar F64, and packed F16 and BF16
(R167-R177, Tables 7.2 and 7.3). -/

namespace Sys2Proof.Machine

/-! ### FP32 -/

/-- A rounded F32 result of two sources, tag F32 (R171). -/
def Ctx.fp2 (x : Ctx) (op : Rnd → Bool → Nat → Nat → FRes) : Out :=
  x.putF .fp 3 fun i => op (rnd x.f) (satOn x.f) (x.la i).toNat (x.lb' i).toNat

/-- A result of one source that raises no flag. -/
def Ctx.fp1 (x : Ctx) (l : Lat) (tag : BitVec 4) (op : Nat → Nat) : Out :=
  x.put l tag fun i => BitVec.ofNat 32 (op (x.la i).toNat)

/-- R171 -/
def execFadd (f : Fields) (s : State) : Res := .next (issue (.fadd f) f (fun x => x.fp2 Fmt.f32.add) s)
/-- R171 -/
def execFsub (f : Fields) (s : State) : Res := .next (issue (.fsub f) f (fun x => x.fp2 Fmt.f32.sub) s)
/-- R171 -/
def execFmul (f : Fields) (s : State) : Res := .next (issue (.fmul f) f (fun x => x.fp2 Fmt.f32.mul) s)
/-- R171 -/
def execFfma (f : Fields) (s : State) : Res :=
  .next (issue (.ffma f) f
    (fun x => x.putF .fp 3 fun i =>
      Fmt.f32.fma (rnd f) (satOn f) (x.la i).toNat (x.lb i).toNat (x.lc' i).toNat) s)
/-- R172: variable latency. -/
def execFdiv (f : Fields) (s : State) : Res :=
  .next (issue (.fdiv f) f
    (fun x => x.putF .now 3 fun i =>
      Fmt.f32.div (rnd f) (satOn f) (x.la i).toNat (x.lb' i).toNat) s)
/-- R173, R48 -/
def execFmin (f : Fields) (s : State) : Res :=
  .next (issue (.fmin f) f
    (fun x => x.put .int 3 fun i => BitVec.ofNat 32 (Fmt.f32.minmax false (x.la i).toNat (x.lb' i).toNat)) s)
/-- R173, R48 -/
def execFmax (f : Fields) (s : State) : Res :=
  .next (issue (.fmax f) f
    (fun x => x.put .int 3 fun i => BitVec.ofNat 32 (Fmt.f32.minmax true (x.la i).toNat (x.lb' i).toNat)) s)
/-- R173, R45: clears bit 31. -/
def execFabs (f : Fields) (s : State) : Res :=
  .next (issue (.fabs f) f (fun x => x.put .int 3 fun i => x.la i &&& 0x7FFFFFFF) s)
/-- R173, R45: inverts bit 31. -/
def execFneg (f : Fields) (s : State) : Res :=
  .next (issue (.fneg f) f (fun x => x.put .int 3 fun i => x.la i ^^^ 0x80000000) s)
/-- R173: one class bit, tag N32. -/
def execFclass (f : Fields) (s : State) : Res :=
  .next (issue (.fclass f) f (fun x => x.fp1 .int 2 Fmt.f32.classMask) s)
/-- R174 -/
def execFfloor (f : Fields) (s : State) : Res :=
  .next (issue (.ffloor f) f (fun x => x.fp1 .fp 3 (Fmt.f32.integral .rd)) s)
/-- R174 -/
def execFceil (f : Fields) (s : State) : Res :=
  .next (issue (.fceil f) f (fun x => x.fp1 .fp 3 (Fmt.f32.integral .ru)) s)
/-- R174 -/
def execFtrunc (f : Fields) (s : State) : Res :=
  .next (issue (.ftrunc f) f (fun x => x.fp1 .fp 3 (Fmt.f32.integral .rz)) s)
/-- R174 -/
def execFrint (f : Fields) (s : State) : Res :=
  .next (issue (.frint f) f (fun x => x.fp1 .fp 3 (Fmt.f32.integral (rnd f))) s)
/-- R174 -/
def execFfract (f : Fields) (s : State) : Res :=
  .next (issue (.ffract f) f (fun x => x.putF .fp 3 fun i => Fmt.f32.fract (rnd f) (x.la i).toNat) s)

/-! ### Scalar F64: s pairs; the flags are the wave's (R176, R177) -/

/-- Write an s pair or register from a binary64 or integer result and raise its flags. -/
def Ctx.putD (x : Ctx) (l : Lat) (wide : Bool) (v : Nat) (fl : Flags) : Out :=
  .done ((if wide then x.s.writeS64 x.f.d l (BitVec.ofNat 64 v)
    else x.s.writeS x.f.d l (BitVec.ofNat 32 v)).raise fl)

/-- R176 -/
def execDadd (f : Fields) (s : State) : Res :=
  .next (issue (.dadd f) f
    (fun x =>
      let r := Fmt.f64.add (rnd f) (satOn f) (x.uni64 f.a).toNat (x.l64 f.b .f64 0).toNat
      x.putD .f64 true r.val r.fl) s)
/-- R176 -/
def execDmul (f : Fields) (s : State) : Res :=
  .next (issue (.dmul f) f
    (fun x =>
      let r := Fmt.f64.mul (rnd f) (satOn f) (x.uni64 f.a).toNat (x.l64 f.b .f64 0).toNat
      x.putD .f64 true r.val r.fl) s)
/-- R176 -/
def execDfma (f : Fields) (s : State) : Res :=
  .next (issue (.dfma f) f
    (fun x =>
      let r := Fmt.f64.fma (rnd f) (satOn f) (x.uni64 f.a).toNat (x.uni64 f.b).toNat
        (x.l64 (opC f) .f64 0).toNat
      x.putD .dfma true r.val r.fl) s)

/-- The result of DCVT by TSEL, with its flags (R177, R179). -/
def dcvt (t : Nat) (r : Rnd) (sat : Bool) (w : Word) (p : DWord) : Nat × Flags :=
  let fr (x : FRes) : Nat × Flags := (x.val, x.fl)
  match t with
  | 0 => fr (Fmt.convert .f32 .f64 .rne false w.toNat)
  | 1 => fr (Fmt.convert .f64 .f32 r sat p.toNat)
  | 2 => fr (Fmt.f64.ofInt .rne w.toInt)
  | 3 => fr (Fmt.f64.ofInt .rne w.toNat)
  | 4 => fr (Fmt.f64.ofInt r p.toInt)
  | 5 => fr (Fmt.f64.ofInt r p.toNat)
  | 6 => let x := Fmt.f64.toInt r (-(2 ^ 63)) (2 ^ 63 - 1) p.toNat; (wrapTo 64 x.1, x.2)
  | _ => let x := Fmt.f64.toInt r (-(2 ^ 31)) (2 ^ 31 - 1) p.toNat; (wrapTo 32 x.1, x.2)

/-- R177 -/
def execDcvt (f : Fields) (s : State) : Res :=
  .next (issue (.dcvt f) f
    (fun x =>
      let t := tsel f
      let r := dcvt t (rnd f) (satOn f) (x.uni f.a) (x.uni64 f.a)
      x.putD .f64 (!(t = 1 || t = 7)) r.1 r.2) s)

/-! ### Packed F16 and BF16 (R175) -/

/-- The packed format and tag of a TSEL. -/
def halfFmt (t : Nat) : Fmt := if t = 0 then .f16 else .bf16
def halfTag (t : Nat) : BitVec 4 := if t = 0 then 4 else 5

/-- A result of each half. -/
def Ctx.half (x : Ctx) (op : Nat → Nat → FRes) (l : Lat) : Out :=
  x.putF l (halfTag (tsel x.f)) fun i =>
    packRes 16 [op (elem 16 0 (x.la i)) (elem 16 0 (x.lb' i)), op (elem 16 1 (x.la i)) (elem 16 1 (x.lb' i))]

/-- R175 -/
def execHadd2 (f : Fields) (s : State) : Res :=
  .next (issue (.hadd2 f) f (fun x => x.half ((halfFmt (tsel f)).add (rnd f) (satOn f)) .fp) s)
/-- R175 -/
def execHmul2 (f : Fields) (s : State) : Res :=
  .next (issue (.hmul2 f) f (fun x => x.half ((halfFmt (tsel f)).mul (rnd f) (satOn f)) .fp) s)
/-- R175 -/
def execHfma2 (f : Fields) (s : State) : Res :=
  .next (issue (.hfma2 f) f
    (fun x => x.putF .fp (halfTag (tsel f)) fun i =>
      let h (j : Nat) := (halfFmt (tsel f)).fma (rnd f) (satOn f) (elem 16 j (x.la i))
        (elem 16 j (x.lb i)) (elem 16 j (x.lc' i))
      packRes 16 [h 0, h 1]) s)
/-- R175, R48 -/
def execHmin2 (f : Fields) (s : State) : Res :=
  .next (issue (.hmin2 f) f
    (fun x => x.half (fun a b => ⟨(halfFmt (tsel f)).minmax false a b, 0⟩) .int) s)
/-- R175, R48 -/
def execHmax2 (f : Fields) (s : State) : Res :=
  .next (issue (.hmax2 f) f
    (fun x => x.half (fun a b => ⟨(halfFmt (tsel f)).minmax true a b, 0⟩) .int) s)

/-- x.lo × y.lo + x.hi × y.hi + z, exact, rounded once to F32 (R175). -/
def dotLane (t : Nat) (r : Rnd) (sat : Bool) (a b z : Word) : FRes :=
  let h (j : Nat) := ((halfFmt t).decode (elem 16 j a)).mul ((halfFmt t).decode (elem 16 j b))
  Fmt.f32.sum r sat [h 0, h 1, (Fmt.f32.decode z.toNat).term]

/-- R175 -/
def execFdot2 (f : Fields) (s : State) : Res :=
  .next (issue (.fdot2 f) f
    (fun x => x.putF .dot 3 fun i =>
      dotLane (tsel f) (rnd f) (satOn f) (x.la i) (x.lb i) (x.lc' i)) s)

end Sys2Proof.Machine
end

