-- ==== Sys2Proof/Machine/Sfu.lean ====
section
/-! DEFINITION. The special functions, correctly rounded (R184, R185). A transcendental value is
enclosed between two fractions far closer together than any two neighbouring results; when both
round alike, that is the result, and otherwise it is the open value of Config (log 12). -/

namespace Sys2Proof.Machine

/-- An interval of fixed-point numbers: lo / 2^K ≤ value ≤ hi / 2^K. -/
structure Iv where
  lo : Int
  hi : Int

/-- Fraction bits of the enclosures. -/
def sfuBits : Nat := 460
/-- One. -/
def sfuOne : Int := (2 : Int) ^ sfuBits

/-- An exact dyadic value m * 2^e, outward rounded. -/
def Iv.ofDyadic (m : Int) (e : Int) : Iv :=
  let g := e + sfuBits
  if 0 ≤ g then let x := m * 2 ^ g.toNat; ⟨x, x⟩
  else let d : Int := 2 ^ (-g).toNat; ⟨m / d, m / d + 1⟩

def Iv.add (a b : Iv) : Iv := ⟨a.lo + b.lo, a.hi + b.hi⟩
def Iv.neg (a : Iv) : Iv := ⟨-a.hi, -a.lo⟩
def Iv.sub (a b : Iv) : Iv := a.add b.neg
/-- Product. -/
def Iv.mul (a b : Iv) : Iv :=
  let p := a.lo * b.lo; let q := a.lo * b.hi; let r := a.hi * b.lo; let t := a.hi * b.hi
  ⟨min (min p q) (min r t) / sfuOne, max (max p q) (max r t) / sfuOne + 1⟩
/-- Quotient by a positive integer. -/
def Iv.divNat (a : Iv) (n : Nat) : Iv := ⟨a.lo / n, a.hi / n + 1⟩
/-- Product with an integer. -/
def Iv.mulInt (a : Iv) (n : Int) : Iv := if 0 ≤ n then ⟨a.lo * n, a.hi * n⟩ else ⟨a.hi * n, a.lo * n⟩
/-- Quotient by a positive interval. -/
def Iv.div (a b : Iv) : Iv :=
  let p := a.lo * sfuOne; let q := a.hi * sfuOne
  ⟨min (p / b.hi) (p / b.lo), max (q / b.hi) (q / b.lo) + 1⟩
def Iv.one : Iv := ⟨sfuOne, sfuOne⟩

/-- Σ of t_k for k = n, n+1, …, where t_(k+1) = t_k * z / d(k): the terms until the fuel is spent,
widened by twice the last term, which bounds the rest. -/
def Iv.series (z : Iv) (d : Nat → Nat) : Nat → Nat → Iv → Iv
  | 0, _, t => let m := max t.lo.natAbs t.hi.natAbs; ⟨-(2 * m + 2 : Nat), (2 * m + 2 : Nat)⟩
  | fuel + 1, k, t => t.add (Iv.series z d fuel (k + 1) ((t.mul z).divNat (d k)))

/-- exp of an interval within [−1, 1]. -/
def Iv.expSmall (z : Iv) : Iv := Iv.series z (fun k => k + 1) 90 0 Iv.one

/-- Σ ± x^(2k+1)/(2k+1) by Horner's scheme over the powers w = ±x²: the arctangent or its hyperbolic
twin, for |x| ≤ 1/3. -/
def Iv.odd (x w : Iv) : Nat → Nat → Iv → Iv
  | 0, _, p => let m := max p.lo.natAbs p.hi.natAbs; ⟨-(2 * m + 2 : Nat), (2 * m + 2 : Nat)⟩
  | fuel + 1, k, p => (p.divNat (2 * k + 1)).add (Iv.odd x w fuel (k + 1) (p.mul w))

def Iv.atanh (x : Iv) : Iv := Iv.odd x (x.mul x) 150 0 x
def Iv.atan (x : Iv) : Iv := Iv.odd x (x.mul x).neg 150 0 x

/-- ln 2. -/
def Iv.ln2 : Iv := (Iv.atanh (Iv.one.divNat 3)).mulInt 2
/-- π. -/
def Iv.pi : Iv := ((Iv.atan (Iv.one.divNat 5)).mulInt 16).sub ((Iv.atan (Iv.one.divNat 239)).mulInt 4)

/-- n squarings. -/
def Iv.square : Nat → Iv → Iv
  | 0, a => a
  | n + 1, a => Iv.square n (a.mul a)

/-- exp of an interval within [−256, 256]. -/
def Iv.exp (z : Iv) : Iv := Iv.square 8 (Iv.expSmall (z.divNat 256))

/-- sin and cos of an interval within [−1, 1]. -/
def Iv.sinSmall (z : Iv) : Iv := Iv.series (z.mul z).neg (fun k => (2 * k + 2) * (2 * k + 3)) 50 0 z
def Iv.cosSmall (z : Iv) : Iv := Iv.series (z.mul z).neg (fun k => (2 * k + 1) * (2 * k + 2)) 50 0 Iv.one

/-- sin (add = 0) or cos (add = 1) of m * 2^e: reduction by quarter turns. -/
def Iv.trig (add : Int) (m : Int) (e : Int) : Iv :=
  let half := Iv.pi.divNat 2
  let k : Int := if 0 ≤ e then (2 * m * 2 ^ e.toNat * sfuOne + half.lo) / (2 * half.lo)
    else (2 * m * sfuOne / 2 ^ (-e).toNat + half.lo) / (2 * half.lo)
  let r := (Iv.ofDyadic m e).sub (half.mulInt k)
  match (k + add) % 4 with
  | 0 => r.sinSmall
  | 1 => r.cosSmall
  | 2 => r.sinSmall.neg
  | _ => r.cosSmall.neg

/-- Round an enclosure: decided when both ends have one sign and round alike. -/
def roundIv (rnd : Rnd) (fn : Nat) (x : Word) (a : Iv) : FRes :=
  let r (y : Int) := Fmt.f32.round rnd false (y < 0) y.natAbs (2 ^ sfuBits)
  if decide (0 < a.lo) || decide (a.hi < 0) then
    if r a.lo = r a.hi then r a.lo else ⟨(Config.sfuOpen fn x rnd).toNat, Flags.nx⟩
  else ⟨(Config.sfuOpen fn x rnd).toNat, Flags.nx⟩

/-- A value so close to c that it lies strictly between c and its neighbour on the side of `up`
(in magnitude), rounded: c = m * 2^e with few bits. -/
def roundNear (rnd : Rnd) (neg up : Bool) (m : Nat) (e : Int) : FRes :=
  let n := m * 2 ^ 64
  Fmt.f32.roundDyadic rnd false neg (if up then n + 1 else n - 1) (e - 64)

def fzero (neg : Bool) : FRes := Fmt.f32.zeroRes neg
def finf (neg : Bool) (fl : Flags) : FRes := ⟨(Fmt.f32.infRes false neg).val, fl⟩
def fnan (fl : Flags) : FRes := Fmt.f32.nanRes fl
def fone (neg : Bool) : FRes := ⟨Fmt.f32.signed neg 0x3F800000, 0⟩

/-- Is m * 2^e (m > 0) below 2^k? -/
def below (m : Nat) (e k : Int) : Bool := decide ((Nat.log2 m : Int) + e < k)

/-- 1/x. -/
def sfuRcp (rnd : Rnd) (x : Word) : FRes :=
  match Fmt.f32.decode x.toNat with
  | .nan => fnan 0
  | .inf n => fzero n
  | .fin n m e =>
    if m = 0 then finf n Flags.dz
    else Fmt.f32.round rnd false n (2 ^ (-e).toNat) (m * 2 ^ e.toNat)

/-- 1/√x. -/
def sfuRsq (rnd : Rnd) (x : Word) : FRes :=
  match Fmt.f32.decode x.toNat with
  | .nan => fnan 0
  | .inf n => if n then fnan Flags.iv else fzero false
  | .fin n m e =>
    if m = 0 then finf n Flags.dz
    else if n then fnan Flags.iv
    else Fmt.f32.sqrtRes rnd (2 ^ (-e).toNat) (m * 2 ^ e.toNat)

/-- √x. -/
def sfuSqrt (rnd : Rnd) (x : Word) : FRes :=
  match Fmt.f32.decode x.toNat with
  | .nan => fnan 0
  | .inf n => if n then fnan Flags.iv else finf false 0
  | .fin n m e =>
    if m = 0 then fzero n
    else if n then fnan Flags.iv
    else Fmt.f32.sqrtRes rnd (m * 2 ^ e.toNat) (2 ^ (-e).toNat)

/-- 2^x: exact at integral x; the fraction of x goes through exp. -/
def sfuExp2 (rnd : Rnd) (x : Word) : FRes :=
  match Fmt.f32.decode x.toNat with
  | .nan => fnan 0
  | .inf n => if n then fzero false else finf false 0
  | .fin n m e =>
    if m = 0 then fone false
    else if below m e (-40) then roundNear rnd false (!n) 1 0
    else
      let v : Int := if n then -(m : Int) else m
      if !below m e 8 then
        (if n then Fmt.f32.roundDyadic rnd false false 1 (-300) else Fmt.f32.roundDyadic rnd false false 1 300)
      else
        let fl : Int := if 0 ≤ e then v * 2 ^ e.toNat else v / 2 ^ (-e).toNat
        let fr : Int := if 0 ≤ e then 0 else v % 2 ^ (-e).toNat
        if fr = 0 then Fmt.f32.roundDyadic rnd false false 1 fl
        else
          let y := ((Iv.ofDyadic fr e).mul Iv.ln2).expSmall
          let r (k : Int) := Fmt.f32.roundDyadic rnd false false k.toNat (fl - sfuBits)
          if r y.lo = r y.hi then r y.lo else ⟨(Config.sfuOpen 3 x rnd).toNat, Flags.nx⟩

/-- log₂ x: exact at powers of two. -/
def sfuLog2 (rnd : Rnd) (x : Word) : FRes :=
  match Fmt.f32.decode x.toNat with
  | .nan => fnan 0
  | .inf n => if n then fnan Flags.iv else finf false 0
  | .fin n m e =>
    if m = 0 then finf true Flags.dz
    else if n then fnan Flags.iv
    else
      let l := Nat.log2 m
      let k : Int := l + e
      if m = 2 ^ l then Fmt.f32.sum rnd false [.fin (k < 0) k.natAbs 0]
      else
        let z := (Iv.ofDyadic ((m : Int) - 2 ^ l) 0).div (Iv.ofDyadic ((m : Int) + 2 ^ l) 0)
        let y := ((z.atanh.mulInt 2).div Iv.ln2).add (Iv.ofDyadic k 0)
        roundIv rnd 4 x y

/-- sin x and cos x. -/
def sfuSin (rnd : Rnd) (x : Word) : FRes :=
  match Fmt.f32.decode x.toNat with
  | .nan => fnan 0
  | .inf _ => fnan Flags.iv
  | .fin n m e =>
    if m = 0 then fzero n
    else if below m e (-40) then roundNear rnd n false m e
    else roundIv rnd 5 x (Iv.trig 0 (if n then -(m : Int) else m) e)

def sfuCos (rnd : Rnd) (x : Word) : FRes :=
  match Fmt.f32.decode x.toNat with
  | .nan => fnan 0
  | .inf _ => fnan Flags.iv
  | .fin n m e =>
    if m = 0 then fone false
    else if below m e (-40) then roundNear rnd false false 1 0
    else roundIv rnd 6 x (Iv.trig 1 (if n then -(m : Int) else m) e)

/-- tanh x = (1 − u)/(1 + u) with u = exp(−2|x|). -/
def sfuTanh (rnd : Rnd) (x : Word) : FRes :=
  match Fmt.f32.decode x.toNat with
  | .nan => fnan 0
  | .inf n => fone n
  | .fin n m e =>
    if m = 0 then fzero n
    else if below m e (-40) then roundNear rnd n false m e
    else if !below m e 5 then roundNear rnd n false 1 0
    else
      let u := Iv.exp (Iv.ofDyadic (-(m : Int)) (e + 1))
      let y := (Iv.one.sub u).div (Iv.one.add u)
      roundIv rnd 7 x (if n then y.neg else y)

/-- 1/(1 + e^−x). -/
def sfuSigm (rnd : Rnd) (x : Word) : FRes :=
  match Fmt.f32.decode x.toNat with
  | .nan => fnan 0
  | .inf n => if n then fzero false else fone false
  | .fin n m e =>
    if m = 0 then ⟨0x3F000000, 0⟩
    else if below m e (-40) then roundNear rnd false (!n) 1 (-1)
    else if !below m e 7 then
      (if n then Fmt.f32.roundDyadic rnd false false 1 (-180) else roundNear rnd false false 1 0)
    else
      let u := Iv.exp (Iv.ofDyadic (if n then (m : Int) else -(m : Int)) e)
      roundIv rnd 8 x (Iv.one.div (Iv.one.add u))

end Sys2Proof.Machine
end

