-- ==== Sys2Proof/Machine/Convert.lean ====
section
/-! DEFINITION. Group 0x7: conversions and the special-function lanes (R178-R185). -/

namespace Sys2Proof.Machine

/-- A conversion to an integer as a 32-bit result (R179). -/
def toIntRes (r : Rnd) (lo hi : Int) (x : Word) : FRes :=
  let v := Fmt.f32.toInt r lo hi x.toNat
  ⟨wrapTo 32 v.1, v.2⟩

/-- One lane of CVT by TSEL (R178). -/
def cvtLane (t : Nat) (r : Rnd) (sat : Bool) (x : Word) : FRes :=
  match t with
  | 0 => Fmt.f32.ofInt r x.toInt
  | 1 => Fmt.f32.ofInt r x.toNat
  | 2 => toIntRes r (-(2 ^ 31)) (2 ^ 31 - 1) x
  | 3 => toIntRes r 0 (2 ^ 32 - 1) x
  | 4 => Fmt.convert .f32 .f16 r sat x.toNat
  | 5 => Fmt.convert .f32 .bf16 r sat x.toNat
  | 6 => Fmt.convert .f16 .f32 r sat (elem 16 0 x)
  | _ => Fmt.convert .bf16 .f32 r sat (elem 16 0 x)

/-- Result tags of CVT by TSEL. -/
def cvtTag (t : Nat) : BitVec 4 :=
  match t with | 2 => 1 | 3 => 2 | 4 => 4 | 5 => 5 | _ => 3

/-- R178 -/
def execCvt (f : Fields) (s : State) : Res :=
  .next (issue (.cvt f) f
    (fun x => x.putF .fp (cvtTag (tsel f)) fun i => cvtLane (tsel f) (rnd f) (satOn f) (x.la i)) s)

/-- One lane of PACK2 by TSEL (R180). -/
def packLane2 (t : Nat) (r : Rnd) (sat : Bool) (a b : Word) : FRes :=
  let four (src dst : Fmt) := packRes 8 ([a, a, b, b].zip [0, 1, 0, 1] |>.map fun (v, j) =>
    Fmt.convert src dst r sat (elem 16 j v))
  match t with
  | 0 => packRes 16 [Fmt.convert .f32 .f16 r sat a.toNat, Fmt.convert .f32 .f16 r sat b.toNat]
  | 1 => packRes 16 [Fmt.convert .f32 .bf16 r sat a.toNat, Fmt.convert .f32 .bf16 r sat b.toNat]
  | 2 => four .f16 .e4m3
  | 3 => four .f16 .e5m2
  | 4 => four .bf16 .e4m3
  | 5 => four .bf16 .e5m2
  | 6 => packRes 16 [⟨narrow 16 true sat a.toInt, 0⟩, ⟨narrow 16 true sat b.toInt, 0⟩]
  | _ => packRes 8 ([a, a, b, b].zip [0, 1, 0, 1] |>.map fun (v, j) =>
      ⟨narrow 8 true sat (intVal 16 true (elem 16 j v)), 0⟩)

/-- Result tags of PACK2 by TSEL. -/
def packTag (t : Nat) : BitVec 4 :=
  match t with | 0 => 4 | 1 => 5 | 2 => 6 | 3 => 7 | 4 => 6 | 5 => 7 | 6 => 10 | _ => 8

/-- R180 -/
def execPack2 (f : Fields) (s : State) : Res :=
  .next (issue (.pack2 f) f
    (fun x => x.putF .fp (packTag (tsel f)) fun i =>
      packLane2 (tsel f) (rnd f) (satOn f) (x.la i) (x.lb i)) s)

/-- Register k of UNPK's pair by TSEL (R181): exact widenings. -/
def unpkLane (t k : Nat) (x : Word) : Word :=
  let w (src dst : Fmt) (v : Nat) : FRes := ⟨(Fmt.convert src dst .rne false v).val, 0⟩
  let two (src dst : Fmt) := (packRes 16 [w src dst (elem 8 (2 * k) x), w src dst (elem 8 (2 * k + 1) x)]).word
  match t with
  | 0 => (w .f16 .f32 (elem 16 k x)).word
  | 1 => (w .bf16 .f32 (elem 16 k x)).word
  | 2 => two .e4m3 .f16
  | 3 => two .e5m2 .f16
  | 4 => two .e4m3 .bf16
  | 5 => two .e5m2 .bf16
  | 6 => BitVec.ofNat 32 (wrapTo 32 (intVal 16 true (elem 16 k x)))
  | _ => packLane 16 fun j => wrapTo 16 (intVal 8 true (elem 8 (2 * k + j) x))

/-- Result tags of UNPK by TSEL. -/
def unpkTag (t : Nat) : BitVec 4 :=
  match t with | 0 => 3 | 1 => 3 | 2 => 4 | 3 => 4 | 4 => 5 | 5 => 5 | 6 => 1 | _ => 10

/-- R181: the source is read in full before either destination is written. -/
def execUnpk (f : Fields) (s : State) : Res :=
  .next (issue (.unpk f) f
    (fun x =>
      let a := x.lanes f.a
      let g (k : Nat) := lanesFn fun i => unpkLane (tsel f) k (laneAt a i)
      .done ((x.s.write f.d x.s.wave.em .dot (unpkTag (tsel f)) (g 0)).write (Opnd.step f.d 1)
        x.s.wave.em .dot (unpkTag (tsel f)) (g 1))) s)

/-- R182: inactive lanes count as +0.0; the block image goes to vD, the scales and S to vD+1. -/
def execCvtq (f : Fields) (s : State) : Res :=
  .next (issue (.cvtq f) f
    (fun x =>
      let em := x.s.wave.em
      let xs := (List.range 256).map fun i =>
        if laneOn em (i % 32) then laneAt (x.lanes (Opnd.step f.a (i / 32))) (i % 32) else 0
      let (sw, bl, fl) := nqEncode xs
      let code (l : Nat) : Word :=
        match bl[l / 8]? with
        | some b => BitVec.ofNat 32 (codesNat b.codes / 2 ^ (32 * (l % 8)))
        | none => 0
      let scales := ((List.range 4).map fun k => ((bl[k]?.map NqBlock.scale).getD 0) * 256 ^ k).sum
      let hi (l : Nat) : Word := if l = 0 then BitVec.ofNat 32 scales else if l = 1 then sw else 0
      .done (((x.s.write f.d em .now 12 (lanesFn code)).write (Opnd.step f.d 1) em .now 0
        (lanesFn hi)).raise fl)) s)

/-- Element e of the superblock held in the pair (R183). -/
def Ctx.nqElem (x : Ctx) (fm : Fmt) (e : Nat) : FRes :=
  let k := e / 64
  let p := nqPos (e % 64)
  let byte := elem 8 k (laneAt (x.lanes (Opnd.step x.f.a 1)) 0)
  let code := elem 4 (p % 8) (laneAt (x.lanes x.f.a) (8 * k + p / 8))
  nqDecode fm (rnd x.f) (satOn x.f) code byte (laneAt (x.lanes (Opnd.step x.f.a 1)) 1)

/-- R183: F32 to eight registers, a 16-bit type to four. -/
def execCvtdq (f : Fields) (s : State) : Res :=
  .next (issue (.cvtdq f) f
    (fun x =>
      let em := x.s.wave.em
      let t := tsel f
      let fm := if t = 0 then Fmt.f32 else if t = 1 then .f16 else .bf16
      let tag : BitVec 4 := if t = 0 then 3 else if t = 1 then 4 else 5
      let r (n i : Nat) : FRes :=
        if t = 0 then x.nqElem fm (32 * n + i)
        else packRes 16 [x.nqElem fm (64 * n + 2 * i), x.nqElem fm (64 * n + 2 * i + 1)]
      let put (s : State) (n : Nat) : State :=
        (s.write (Opnd.step f.d n) em .now tag (lanesFn fun i => (r n i).word))
      let fl := (List.range (if t = 0 then 8 else 4)).foldl (fun a n => a ||| orFlags em fun i => (r n i).fl) 0
      .done (((List.range (if t = 0 then 8 else 4)).foldl put x.s).raise fl)) s)

/-- A special function of one source, tag F32 (R184). -/
def Ctx.sfu (x : Ctx) (fn : Rnd → Word → FRes) : Out := x.putF .now 3 fun i => fn (rnd x.f) (x.la i)

/-- R184 -/
def execFrcp (f : Fields) (s : State) : Res := .next (issue (.frcp f) f (fun x => x.sfu sfuRcp) s)
/-- R184 -/
def execFrsq (f : Fields) (s : State) : Res := .next (issue (.frsq f) f (fun x => x.sfu sfuRsq) s)
/-- R184 -/
def execFsqrt (f : Fields) (s : State) : Res := .next (issue (.fsqrt f) f (fun x => x.sfu sfuSqrt) s)
/-- R184 -/
def execFexp2 (f : Fields) (s : State) : Res := .next (issue (.fexp2 f) f (fun x => x.sfu sfuExp2) s)
/-- R184 -/
def execFlog2 (f : Fields) (s : State) : Res := .next (issue (.flog2 f) f (fun x => x.sfu sfuLog2) s)
/-- R184 -/
def execFsin (f : Fields) (s : State) : Res := .next (issue (.fsin f) f (fun x => x.sfu sfuSin) s)
/-- R184 -/
def execFcos (f : Fields) (s : State) : Res := .next (issue (.fcos f) f (fun x => x.sfu sfuCos) s)
/-- R184 -/
def execFtanh (f : Fields) (s : State) : Res := .next (issue (.ftanh f) f (fun x => x.sfu sfuTanh) s)
/-- R184 -/
def execFsigm (f : Fields) (s : State) : Res := .next (issue (.fsigm f) f (fun x => x.sfu sfuSigm) s)

end Sys2Proof.Machine
end

