-- ==== Sys2Proof/Machine/CrossLane.lean ====
section
/-! DEFINITION. Group 0x8: shuffles, votes, MATCH, reductions and scans across lanes (R186-R192). -/

namespace Sys2Proof.Machine

/-- Segment width of a shuffle by TSEL (R187). -/
def segW (t : Nat) : Nat := 32 / 2 ^ t

/-- A shuffle: lane i of d takes lane `sel i n` of a, with a's tag (R187). -/
def Ctx.shuffle (x : Ctx) (sel : Nat → Nat → Nat) : Out :=
  let a := x.src x.f.a
  x.put .lane a.tag fun i => laneAt a.lanes (sel i (x.lb' i).toNat)

/-- R187 -/
def execShfl (f : Fields) (s : State) : Res :=
  .next (issue (.shfl f) f
    (fun x => let w := segW (tsel f); x.shuffle fun i n => i - i % w + n % w) s)
/-- R187 -/
def execShflup (f : Fields) (s : State) : Res :=
  .next (issue (.shflup f) f
    (fun x => let w := segW (tsel f); x.shuffle fun i n => if i - i % w + n ≤ i then i - n else i) s)
/-- R187 -/
def execShfldn (f : Fields) (s : State) : Res :=
  .next (issue (.shfldn f) f
    (fun x => let w := segW (tsel f); x.shuffle fun i n => if i - i % w + w ≤ i + n then i else i + n) s)
/-- R187 -/
def execShflx (f : Fields) (s : State) : Res :=
  .next (issue (.shflx f) f
    (fun x => let w := segW (tsel f); x.shuffle fun i n => i - i % w + ((i % w) ^^^ (n % w))) s)

/-- R189: m := pa AND em. -/
def Ctx.votes (x : Ctx) : Mask := x.prd x.f.a &&& x.s.wave.em

/-- R189 -/
def execVoteany (f : Fields) (s : State) : Res :=
  .next (issue (.voteany f) f
    (fun x => .done (x.s.writePred f.d x.s.wave.em .lane (if x.votes ≠ 0 then 0xFFFFFFFF else 0))) s)
/-- R189 -/
def execVoteall (f : Fields) (s : State) : Res :=
  .next (issue (.voteall f) f
    (fun x => .done (x.s.writePred f.d x.s.wave.em .lane
      (if x.votes = x.s.wave.em then 0xFFFFFFFF else 0))) s)
/-- R189 -/
def execBallot (f : Fields) (s : State) : Res :=
  .next (issue (.ballot f) f (fun x => x.put .lane 2 fun _ => x.votes) s)

/-- R190: the active lanes whose value has the same bits. -/
def execMatch (f : Fields) (s : State) : Res :=
  .next (issue (.match_ f) f
    (fun x =>
      let v (i : Nat) : DWord := if tsel f = 1 then x.lane64 f.a i else (x.la i).setWidth 64
      x.put .mtch 2 fun i => maskOf (fun j => decide (v j = v i)) &&& x.s.wave.em) s)

/-- The sums of one level of R62's tree: x[j] + x[j + w] at the multiples of 2w. -/
def treeStep (r : Rnd) (w : Nat) (v : Lanes × Flags) : Lanes × Flags :=
  let sum (j : Nat) := Fmt.f32.add r false (laneAt v.1 j).toNat (laneAt v.1 (j + w)).toNat
  (lanesFn fun j => if j % (2 * w) = 0 then (sum j).word else laneAt v.1 j,
   (List.range 32).foldl (fun a j => if j % (2 * w) = 0 then a ||| (sum j).fl else a) v.2)

/-- R62's tree over 32 values, with the flags of every step. -/
def treeSum (r : Rnd) (v : Lanes) : Word × Flags :=
  let t := [1, 2, 4, 8, 16].foldl (fun a w => treeStep r w a) (v, 0)
  (laneAt t.1 0, t.2)

/-- The values of a source with zero in the inactive lanes. -/
def Ctx.zeroed (x : Ctx) : Lanes := mergeLanes x.s.wave.em (x.lanes x.f.a) (splat 0)

/-- R191: one result in every active lane; inactive lanes add 0. -/
def execRedadd (f : Fields) (s : State) : Res :=
  .next (issue (.redadd f) f
    (fun x =>
      let v := x.zeroed
      if tsel f = 2 then
        let t := treeSum (rnd f) v
        .done ((x.s.write f.d x.s.wave.em .red 3 (splat t.1)).raise t.2)
      else x.put .red (intTag (tsel f)) fun _ => v.foldl (· + ·) 0) s)

/-- The active lanes of a source combined by an order-free operation; 0 when none is active. -/
def Ctx.combine (x : Ctx) (op : Word → Word → Word) : Word :=
  match (lanesOf x.s.wave.em).map x.la with
  | [] => 0
  | v :: vs => vs.foldl op v

/-- The smaller or larger of two lane values by type code (R191). -/
def redPick (t : Nat) (isMax : Bool) (a b : Word) : Word :=
  if t = 2 then BitVec.ofNat 32 (Fmt.f32.minmax isMax a.toNat b.toNat)
  else if (if t = 0 then a.slt b else a.ult b) != isMax then a else b

/-- A float reduction of one lane still answers the canonical NaN for a NaN (R48, R191). -/
def redFix (t : Nat) (a : Word) : Word :=
  if t = 2 then BitVec.ofNat 32 (Fmt.f32.minmax false a.toNat a.toNat) else a

/-- Tag of a reduction by type code (R191). -/
def redTag (t : Nat) : BitVec 4 := match t with | 0 => 1 | 1 => 2 | 2 => 3 | _ => 0

/-- R191 -/
def execRedmin (f : Fields) (s : State) : Res :=
  .next (issue (.redmin f) f
    (fun x => x.put .red (redTag (tsel f)) fun _ => redFix (tsel f) (x.combine (redPick (tsel f) false))) s)
/-- R191 -/
def execRedmax (f : Fields) (s : State) : Res :=
  .next (issue (.redmax f) f
    (fun x => x.put .red (redTag (tsel f)) fun _ => redFix (tsel f) (x.combine (redPick (tsel f) true))) s)
/-- R191 -/
def execRedand (f : Fields) (s : State) : Res :=
  .next (issue (.redand f) f (fun x => x.put .red 0 fun _ => x.combine (· &&& ·)) s)
/-- R191 -/
def execRedor (f : Fields) (s : State) : Res :=
  .next (issue (.redor f) f (fun x => x.put .red 0 fun _ => x.combine (· ||| ·)) s)

/-- One step of R63: lanes from d upwards add the lane d below. -/
def scanStep (op : Word → Word → FRes) (d : Nat) (v : Lanes × Flags) : Lanes × Flags :=
  let sum (i : Nat) := op (laneAt v.1 (i - d)) (laneAt v.1 i)
  (lanesFn fun i => if d ≤ i then (sum i).word else laneAt v.1 i,
   (List.range 32).foldl (fun a i => if d ≤ i then a ||| (sum i).fl else a) v.2)

/-- The inclusive scan by R63's steps. -/
def scanLanes (op : Word → Word → FRes) (v : Lanes) : Lanes × Flags :=
  [1, 2, 4, 8, 16].foldl (fun a d => scanStep op d a) (v, 0)

/-- R192: TSEL bit 2 selects the exclusive form. -/
def execScanadd (f : Fields) (s : State) : Res :=
  .next (issue (.scanadd f) f
    (fun x =>
      let op (a b : Word) : FRes :=
        if tsel f % 4 = 2 then Fmt.f32.add (rnd f) false a.toNat b.toNat else ⟨(a + b).toNat, 0⟩
      let t := scanLanes op x.zeroed
      let g (i : Nat) : Word :=
        if tsel f < 4 then laneAt t.1 i else if i = 0 then 0 else laneAt t.1 (i - 1)
      .done ((x.s.write f.d x.s.wave.em .red (redTag (tsel f % 4)) (lanesFn g)).raise t.2)) s)

/-- R188: lane i takes the lane of its quarter that field i mod 8 of the selector names. -/
def execPermq (f : Fields) (s : State) : Res :=
  .next (issue (.permq f) f
    (fun x =>
      let a := x.src f.a
      let sel := (x.lb' 0).toNat
      x.put .lane a.tag fun i => laneAt a.lanes (8 * (i / 8) + sel / 2 ^ (3 * (i % 8)) % 8)) s)

end Sys2Proof.Machine
end

