-- ==== Sys2Proof/Machine/Stack.lean ====
section
/-! DEFINITION. Broadcast slots and rejoining copies (R268, R279), the Almanac's commits (R263), the tower link
(R284) and the migration of pages (R282). -/

namespace Sys2Proof.Machine

/-! ### Rejoining copies (R279) -/

/-- The copy goes on by a number of units read and landed; waiting sectors whose unit has landed leave the buffer. -/
def Rejoin.advance (r : Rejoin) (a b : Nat) : Rejoin :=
  let landed := Nat.min 131072 (r.landed + a)
  let readTo := Nat.min 131072 (Nat.max landed (r.readTo + b))
  { r with landed := landed, readTo := readTo, buf := r.buf.filter fun q => landed ≤ q.unit / 2 }

/-- A transmitted sector meets the copy; a buffer that would take a 65th entry restarts it. -/
def Rejoin.hear (r : Rejoin) (q : Sector) : Rejoin :=
  if r.landed ≤ q.unit / 2 ∧ q.unit / 2 < r.readTo then
    if r.buf.length < 64 then { r with buf := r.buf ++ [q] }
    else { r with landed := 0, readTo := 0, buf := [], restarts := r.restarts + 1 }
  else r

/-- Every copy of a tower hears a sector; RESTARTS saturates at 15. -/
def State.rejoinHear (s : State) (t : TowerId) (q : Sector) : State :=
  let n := s.free
  let go (r : Rejoin) : Rejoin := (r.advance (Config.copyStep n) (Config.copyStep (n + 1))).hear q
  if (s.tower t).rejoin.isEmpty then s
  else { s.mapTower t (fun w =>
      let rs := w.rejoin.map go
      let more := (rs.map Rejoin.restarts).sum - (w.rejoin.map Rejoin.restarts).sum
      { w.setBits csrLayerst 27 24 (Nat.min 15 (bits (w.reg csrLayerst) 27 24 + more)) with rejoin := rs }) with
    free := n + 2 }

/-! ### Broadcast slots (R268) -/

/-- The bytes of a sector as the base die makes them: with .MAX, each F16 cell combined with the home image (R340). -/
def Sector.final (q : Sector) (home : List Host.Cell) : List (Nat × Byte) :=
  if !q.max then q.bytes
  else (q.bytes.filter fun b => b.1 % 2 = 0).flatMap fun b =>
    let v := b.2.toNat + 256 * ((Table.find q.bytes (b.1 + 1)).getD 0).toNat
    let r := Fmt.f16.minmax true (Mem.readNat home b.1 2) v
    [(b.1, BitVec.ofNat 8 r), (b.1 + 1, BitVec.ofNat 8 (r / 256))]

/-- A watch entry is written, or its VALID cleared (R110, R111). A job's frame goes with its last valid entry, unless a
WATCH that is still queued behind holds it (R109). The count of the rate window goes on (log 93). -/
def State.watchApply (s : State) (t : TowerId) (job n : Nat) (e : Option WatchEntry) : State :=
  match e with
  | some e => s.mapTower t fun w => { w.setWatch job n e with
      triggers := w.triggers.map fun r => if r.job = job ∧ r.entry = n then { r with isOpen := false } else r }
  | none =>
    let mine := (s.tower t).triggers.filter fun r => r.job = job && r.entry = n
    let drop (u : WorkUnit) : WorkUnit :=
      if u.tower = t && !u.started && (mine.any fun r => u.trigger = some r.num) then { u with cancelled := true } else u
    let s := { s with units := s.units.map drop }
    s.mapTower t fun w =>
      let w := match w.watch job n with
        | some e => w.setWatch job n { e with image := setField e.image 120 1 0 }
        | none => w
      let w := { w with triggers := w.triggers.filter fun r => !(r.job = job && r.entry = n && r.slot.isSome) }
      if (w.watches.any fun e => e.1 / 64 = job && decide (wBits e.2 15 0 0 = 1)) ||
          (w.sectors.any fun q => q.job = job && ((q.watch.bind Prod.snd).isSome)) then w
      else { w with frames := w.frames.filter fun e => e.2 ≠ job, watches := w.watches.filter fun e => e.1 / 64 ≠ job }

/-- R268: a slot of the job carries its oldest queued sector to the home image and to every member. -/
def execSectorTransmit (t : TowerId) (job : Nat) (s : State) : Res :=
  .next (
    let w := s.tower t
    match w.sectors.find? fun q => q.job = job with
    | none => s
    | some q =>
      if w.slotsOf job = 0 ∨ w.rejoin.any fun r => decide (3 ≤ r.restarts) then s
      else
        let bs := q.final w.bcast
        let rel := match s.findWave q.owner with | some k => relsFrom (s.groupOf k).place q.rel | none => q.rel
        let home := bs.foldl (fun m (b : Nat × Byte) => Mem.write m b.1 b.2) w.bcast
        let s := s.mapTower t fun w => { w with bcast := home, sectors := w.sectors.eraseP fun x => x.job = job }
        let s := if bs.isEmpty then s
          else s.mapTower t fun x => x.compare bcastGran w.bcast home [q.unit / 2] q.depth false
        let s := { s with rels := bs.foldl (fun r (b : Nat × Byte) => Table.set [] r (locBcast t b.1) rel) s.rels }
        let s := match q.watch with | some (n, e) => s.watchApply t job n e | none => s
        let s := s.rejoinHear t q
        s.mapWave q.owner fun w => w.mapCmd q.cmd EngCmd.sent)

/-! ### The Almanac (R263) -/

/-- A job would lose every slot while sectors of it are queued: the release waits, as SLOTREL's does (R274). -/
def Tower.commitWaits (t : Tower) (im : Table Word) : Bool :=
  t.sectors.any fun q => decide (0 < t.slotsOf q.job) && !im.any fun e => almOwns e.2 q.job

/-- R263 -/
def execAlmanacCommitApply (t : TowerId) (s : State) : Res :=
  .next (s.mapTower t fun w => match w.almNext with
    | none => w
    | some im => if w.commitWaits im then w else { w with almanac := im, almNext := none })

/-! ### The tower link (R284) -/

/-- The jobs with work in a tower. -/
def State.jobsIn (s : State) (t : TowerId) : List Nat :=
  ((s.units.filter fun u => u.tower = t).map WorkUnit.job ++ (s.launches.filter fun l => l.tower = t).map Launch.job).eraseDups

/-- R284: link traffic is held from here on. -/
def execLinkRetrain (s : State) : Res :=
  .next (if s.link.down then s else { s with link := { s.link with retraining := true } })

/-- R284: after a failed retraining another one starts; after four in succession the link is down. -/
def execLinkRetrainEnd (ok : Bool) (s : State) : Res :=
  .next (
    if !s.link.retraining then s
    else if ok then ({ s with link := ⟨false, 0, false⟩, held := retryNow (fun _ => true) s.held } : State).serveWaiting
    else if s.link.failures + 1 < 4 then { s with link := { s.link with failures := s.link.failures + 1 } }
    else
      let s := { s with link := ⟨false, s.link.failures + 1, true⟩, held := retryNow (fun _ => true) s.held }
      let s := s.serveWaiting
      ((s.jobsIn 0).filter fun j => (s.jobsIn 1).contains j).foldl (fun s j =>
        (s.report 0 { cause := .towerdown, job := j }).report 1 { cause := .towerdown, job := j }) s)

/-! ### Migration (R282) -/

/-- MIGMAX of a job. -/
def migMax (jctl : DWord) : Nat := (bits jctl 11 8) ^^^ 4
/-- MFRZ, MCNT and FRAME of an entry, written. -/
def movedEntry (e : DWord) (frame mcnt : Nat) (frz : Bool) : DWord :=
  BitVec.ofNat 64 (bits e 11 0 + mcnt % 16 * 2 ^ 12 + frame + (if frz ∧ bits e 5 5 = 0 then 2 ^ 5 else 0))

/-- The release queue and the free queue of a tower: physical descriptors and rings. -/
def Tower.migQueue (t : Tower) (csr : Nat) : Nat := (t.reg csr).toNat * 2 ^ 16
def migHome (t : TowerId) : QHome := ⟨0, t, true⟩

/-- Keys in [a, a + n) of a table move by the distance to b. -/
def moveKeys {α : Type} (m : Table α) (a b n : Nat) : Table α :=
  let mine (e : Nat × α) : Bool := a ≤ e.1 && e.1 < a + n
  (m.filter mine).foldl (fun t e => Table.put t (e.1 - a + b) e.2) (m.filter fun e => !mine e && !(b ≤ e.1 && e.1 < b + n))

/-- Everything that names a byte of the old frame names the same byte of the new one. -/
def State.moveFrame (s : State) (a b : Nat) : State :=
  let at_ (d : Nat) : Nat := if a ≤ d ∧ d < a + 2 ^ 16 then d - a + b else d
  let g (x : Group) : Group := { x with opens := x.opens.map fun k => at_ (32 * k) / 32 }
  let w (x : Wave) : Wave := { x with wait := match x.wait with
    | .lock d va sc => .lock (at_ d) va sc
    | .queue d va p m o is sc st => .queue (at_ d) va p m o is sc st
    | .counter d va thr sc sw => .counter (at_ d) va thr sc sw
    | x => x }
  let step (x : HwStep) : HwStep := match x with | .request lvl d => .request lvl (at_ d) | x => x
  { s with
    mem := Mem.writeBytes (Mem.blankRange s.mem b (2 ^ 16)) b (Mem.readBytes s.mem a (2 ^ 16))
    poison := moveKeys s.poison (a / 32) (b / 32) 2048
    opens := moveKeys s.opens (a / 32) (b / 32) 2048
    rels := moveKeys s.rels (locGlobal a) (locGlobal b) (2 ^ 16)
    group := g s.group, groups := s.groups.map g
    wave := w s.wave, waves := s.waves.map w
    launches := s.launches.map fun l => { l with dpa := at_ l.dpa, graphAt := at_ l.graphAt }
    levels := s.levels.map fun q => { q with at_ := at_ q.at_, up := at_ q.up }
    jobs := s.jobs.map fun j => { j with recAt := at_ j.recAt }
    held := s.held.map fun h => { h with todo := h.todo.map step } }

/-- A page that stays where it is: a watch entry, a pin, a freeze or the job's limit holds it (R282, R108). -/
def State.migHeld (s : State) (t : TowerId) (job : Nat) (h : Hit) (fr : Nat) : Bool :=
  let watched (t : Tower) : Bool := t.watches.any fun e => decide (wBits e.2 15 0 0 = 1) && e.2.frames.contains fr
  let pinned (t : Tower) : Bool := t.pins.any fun p => decide (64 * p.2.1 / 2 ^ 16 = fr / 2 ^ 16)
  h.entry.getLsbD 5 || decide (migMax (s.jctlOf job t) = 0) || watched s.tower0 || watched s.tower1 || pinned s.tower0 ||
    pinned s.tower1

/-- MCNT after a migration, and the windows, of which both towers' engines keep one table (log 121): one that is not kept, or has closed, opens anew. -/
def State.migCount (s : State) (t : TowerId) (h : Hit) : Nat × Table Nat :=
  let now := (s.tower t).now
  match Table.find s.migs h.at_ with
  | some t0 => if now < t0 + 250000 then (bits h.entry 15 12 + 1, s.migs) else (1, Table.put s.migs h.at_ now)
  | none =>
    let m := if s.migs.length < 4096 then s.migs else
      let old := (s.migs.map Prod.snd).foldl Nat.min now
      s.migs.eraseP fun e => e.2 = old
    (1, Table.put m h.at_ now)

/-- Move a page to a frame of the other tower: the old frame goes to the release queue. -/
def State.migrate (s : State) (job : Nat) (va : DWord) (h : Hit) (old new : Nat) : Option State :=
  let t := dpaTower old
  match s.hwQueue (migHome t) ((s.tower t).migQueue csrMigrelq) true relHw 1 [BitVec.ofNat 64 old] with
  | none => none
  | some (s, _) =>
    let (n, migs) := s.migCount t h
    let frz := decide (migMax (s.jctlOf job t) ≤ n)
    let s := (({ s with migs := migs }).moveFrame old new).hw64 h.at_ (movedEntry h.entry new n frz) 0
    let s := (s.mapTower t fun w => (w.count csrMigcnt 0 1).count csrMigcnt 16 (if frz then 1 else 0))
    let s := { s with remote := Table.erase s.remote (old / 2 ^ 16) }
    some (s.tlbInv (some job) (some (va.toNat, va.toNat / 2 ^ 16 * 2 ^ 16, 2 ^ 16)))

/-- R282: the engine of a page's home finds its count of remote accesses at THRESH. -/
def execPageMigration (job : Nat) (va : DWord) (s : State) : Res :=
  .next (match walk s.mem (s.rootOf job) va with
    | .error _ => s
    | .ok h =>
      let old := h.dpa / 2 ^ 16 * 2 ^ 16
      let t := dpaTower old
      let w := s.tower t
      let thr := bits (w.reg csrMigctl) 15 0
      let hot := match Table.find s.remote (old / 2 ^ 16) with
        | some (t0, n) => decide (thr ≤ n ∧ w.now < t0 + 25000)
        | none => false
      if h.lvl ≠ 0 ∨ thr = 0 ∨ !hot ∨ s.link.down ∨ s.link.retraining ∨ s.migHeld t job h old then s
      else if w.hostFn 6 then
        { s.report t { hostRec 7 job with addr := BitVec.ofNat 64 (va.toNat / 2 ^ 16 * 2 ^ 16) } with
          remote := Table.erase s.remote (old / 2 ^ 16) }
      else
        let far := otherTower t
        if !dpaOk ((s.tower far).migQueue csrMigfreeq) || !dpaOk (w.migQueue csrMigrelq) then s
        else match s.hwQueue (migHome far) ((s.tower far).migQueue csrMigfreeq) false [] 1 [] with
        | some (s', f :: _) =>
          let new := f.toNat
          if new % 2 ^ 16 ≠ 0 ∨ !dpaOk new ∨ dpaTower new ≠ far then s'
          else (s'.migrate job va h old new).getD s
        | _ => s)

end Sys2Proof.Machine
end

