-- ==== Sys2Proof/Machine/Lantern.lean ====
section
/-! DEFINITION. The Lantern samplers (R329-R337): the weights of the map cells, the draws of a sweep and their
blocks, the sample tasks, and host-assisted sampling. -/

namespace Sys2Proof.Machine

/-! ### Weights (R332) and counts (R333) -/

/-- An F16 pattern widened to F32. -/
def widenHalf (x : Nat) : Nat := (Fmt.f16.convert .f32 .rne false x).val

/-- The weight q of gaze, motion and error values under three weights. -/
def cellWeight (wg wm we g m e : Nat) : Nat :=
  let p := (Fmt.f32.mul .rne false (widenHalf wg) (widenHalf g)).val
  let p := (Fmt.f32.fma .rne false (widenHalf wm) (widenHalf m) p).val
  let p := (Fmt.f32.fma .rne false (widenHalf we) (widenHalf e) p).val
  match Fmt.f32.decode p with
  | .nan => 0
  | .inf neg => if neg then 0 else 1048575
  | .fin neg m e =>
    let q : Nat := if 0 ≤ e + 8 then m * 2 ^ (e + 8).toNat else m / 2 ^ (-(e + 8)).toNat
    if neg then 0 else if 1048576 ≤ q then 1048575 else q

/-- Cells of a priority map. -/
def mapCells : Nat := 57600

/-- The value of cell c of map k in the snapshot. -/
def Tower.mapCell (t : Tower) (k c : Nat) : Nat :=
  Mem.readNat t.bcast (bits (t.reg csrLntmap) 21 6 * 64 + 115200 * k + 2 * c) 2

/-- The weights of a snapshot, cells ascending. -/
def Tower.weights (t : Tower) : List Nat :=
  let wgm := t.reg csrLntwgm
  (List.range mapCells).map fun c =>
    cellWeight (bits wgm 15 0) (bits wgm 31 16) (bits (t.reg csrLntwe) 15 0) (t.mapCell 0 c) (t.mapCell 1 c) (t.mapCell 2 c)

/-- The hash H. -/
def hashH (u : Word) : Word :=
  let u := (u ^^^ (u >>> 16)) * 0x3B9F5A4D
  let u := (u ^^^ (u >>> 15)) * 0x6C8E9CF5
  u ^^^ (u >>> 16)

/-- Cells with their counts of draws, from cell c and the prefix sum before it on. -/
def drawCounts (n φ total : Nat) : Nat → Nat → List Nat → List (Nat × Nat)
  | _, _, [] => []
  | c, before, q :: qs =>
    let k := (n * (before + q) + φ) / total - (n * before + φ) / total
    (if k = 0 then [] else [(c, k)]) ++ drawCounts n φ total (c + 1) (before + q) qs

/-- The counts of a sweep; none when it draws nothing. -/
def Tower.counts (t : Tower) (s : Word) : List (Nat × Nat) :=
  let n := bits (t.reg csrLntswp) 31 10
  let w := t.weights
  let total := w.sum
  if total = 0 ∨ n = 0 then []
  else drawCounts n ((hashH (t.reg csrLntseed ^^^ s ^^^ 0xFFFFFFFF)).toNat * total / 2 ^ 32) total 0 0 w

/-! ### The list of draws and its blocks (R334, R335) -/

/-- Cells and ranks in list order, from rank j on. -/
def drawOrder : Nat → Nat → List (Nat × Nat) → List (Nat × Nat)
  | 0, _, _ => []
  | n + 1, j, ks =>
    match ks.filter fun (p : Nat × Nat) => j < p.2 with
    | [] => []
    | live => live.map (fun (p : Nat × Nat) => (p.1, j)) ++ drawOrder n (j + 1) live

/-- A draw: x and y in 12.4 fixed point, and its tick. -/
def drawAt (seed s : Word) (start pt c j : Nat) : BitVec 16 × BitVec 16 × Word :=
  let h := hashH (hashH (hashH (seed ^^^ s) ^^^ BitVec.ofNat 32 c) ^^^ BitVec.ofNat 32 j)
  (BitVec.ofNat 16 (256 * (c % 240) + bits h 7 0), BitVec.ofNat 16 (256 * (c / 240) + bits h 15 8),
    BitVec.ofNat 32 (start + bits h 31 16 * pt / 2 ^ 16))

/-- Blocks of 32 draws, numbered from b on. -/
def blocksOf {α : Type} : Nat → Nat → List α → List (Nat × List α)
  | 0, _, _ => []
  | n + 1, b, l => if l.isEmpty then [] else (b, l.take 32) :: blocksOf n (b + 1) (l.drop 32)

/-- The blocks of sweep s that starts at a tick. -/
def Tower.sweepBlocks (t : Tower) (s : Word) (start : Nat) : List (Nat × List (BitVec 16 × BitVec 16 × Word)) :=
  let n := bits (t.reg csrLntswp) 31 10
  let l := (drawOrder n 0 (t.counts s)).map fun (p : Nat × Nat) => drawAt (t.reg csrLntseed) s start t.sweepTicks p.1 p.2
  blocksOf l.length 0 l

/-- Pending register writes take effect (R330). -/
def Tower.applyLnt (t : Tower) : Tower :=
  t.lntNext.foldl (fun (w : Tower) (e : Nat × Word) => w.setReg e.1 e.2) { t with lntNext := [] }

/-- A sweep starts: what the last one left is dropped and counted (R335). Its snapshot is the broadcast space as of its
start tick (R331). -/
def Tower.startSweep (t : Tower) (tick : Nat) : Tower :=
  let n := if t.sweeping then t.sweep + 1 else 0
  let pt := t.sweepTicks
  let snap := t.lntSnaps.headD t.bcast
  let t := ((t.applyLnt.count csrLntcnt 16 t.draws.length).count csrLntcnt 0 1)
  let t := { t with
    sweep := n, sweepAt := tick, sweeping := true, lntSnaps := if t.sweepTicks = pt then t.lntSnaps.tail else [] }
  { t with draws := if t.hostFn 3 then [] else { t with bcast := snap }.sweepBlocks (BitVec.ofNat 32 n) tick }

/-- R331: the time base comes to the start of the next sweep. -/
def execLanternSweepStart (t : TowerId) (s : State) : Res :=
  .next (
    let x := s.tower t
    if !x.lntOn then s
    else (s.until t (x.nextSweep : Nat)).mapTower t fun w => w.startSweep x.nextSweep)

/-! ### Sample tasks (R336) -/

/-- Entries of a layer's position buffer in use: sample units there whose groups have not started (R337). -/
def State.posUsed (s : State) (t : TowerId) (l : Nat) : Nat :=
  (s.units.filter fun (u : WorkUnit) => u.tower = t && u.src = 4 && u.layer = l && !u.started).length

/-- A Lantern may emit: its layer is awake, and its queue and its position buffer have room (R335). -/
def State.emitRoom (s : State) (t : TowerId) (l : Nat) : Bool :=
  (s.tower t).awake l && decide ((s.layerQueue t l).length < 16) && decide (s.posUsed t l < 64)

/-- The task record of Table 13.2. -/
def Tower.sampleTask (t : Tower) (x y z : Nat) : BitVec 512 :=
  BitVec.ofNat 512 (packBits
    [(0, 64, (t.reg2 csrLntent).toNat), (64, 64, (t.reg2 csrLntarg).toNat), (128, 16, x), (144, 16, y), (160, 16, z),
     (256, 16, bits (t.reg csrLntpar) 15 0), (272, 3, 2), (275, 3, bits (t.reg csrLntctl) 22 20), (284, 1, 1)])

/-- The job that owns the Lantern. -/
def Tower.lntJob (t : Tower) : Nat := bits (t.reg csrLntctl) 19 8

/-- A Lantern puts the task of a block into its own layer's queue. A job that cannot take it, or that lies beyond a link that is down, refuses it, which nothing
reports (Table 4.1); a cancelled one retires it unrun (R92, R99). -/
def State.emitBlock (s : State) (t : TowerId) (l x y : Nat) (pos : List (BitVec 16 × BitVec 16 × Word)) : State :=
  let w := s.tower t
  if !s.jobOk w.lntJob || s.jobFar w.lntJob t then s
  else
    let (s, n) := s.acceptTask w.lntJob t (w.sampleTask x y pos.length) 0 0 4 none pos
    match s.findUnit n with
    | none => s
    | some u =>
      if s.unitReq u then s.finishUnit u
      else if !u.placeable then (s.gangRec t u.job 0 4).finishUnit u
      else s.mapUnit n fun u => { u with st := .queued l none, layer := l }

/-- The awake layer of a rank. -/
def Tower.rankLayer (t : Tower) (b : Nat) : Option Nat :=
  let a := (List.range 8).filter t.awake
  a[b % a.length]?

/-- The first block whose Lantern may emit. -/
def State.nextBlock (s : State) (t : TowerId) : Option (Nat × Nat × List (BitVec 16 × BitVec 16 × Word)) :=
  (s.tower t).draws.findSome? fun b =>
    match (s.tower t).rankLayer b.1 with
    | some l => if s.emitRoom t l then some (l, b.1, b.2) else none
    | none => none

/-- R335, R336 -/
def execLanternEmitBlock (t : TowerId) (s : State) : Res :=
  .next (if !(s.tower t).lntOn || !(s.tower t).sweeping || s.link.retraining && s.jobFar (s.tower t).lntJob t then s
    else match s.nextBlock t with
      | none => s
      | some (l, b, pos) =>
        let y := (s.tower t).sweep
        (s.mapTower t fun w => { w with draws := w.draws.filter fun d => d.1 ≠ b }).emitBlock t l b y pos)

/-! ### Host-assisted sampling (R337) -/

/-- Entry k of Table 13.3 in the bytes of a block. -/
def posEntry (bs : List Byte) (k : Nat) : BitVec 16 × BitVec 16 × Word :=
  let f (o n : Nat) : Nat := Mem.number ((bs.drop (8 * k + o)).take n)
  (BitVec.ofNat 16 (f 0 2), BitVec.ofNat 16 (f 2 2), BitVec.ofNat 32 (f 4 4))

/-- The block of an item: dropped with a record when the item breaks its layout or the block cannot be read; none while a link that retrains keeps
the block from being read (R284). -/
def State.popBlock (s : State) (t : TowerId) (l : Nat) (item : DWord) : Option State :=
  let job := (s.tower t).lntJob
  let va : DWord := item &&& ~~~0xFF
  let bad (s : State) : State := s.report t { cause := .smpbad, job := job, recAt := item, info := 4 }
  if bits item 7 5 ≠ 0 then some (bad s)
  else match s.hwAt job t false 256 va with
    | .miss _ => some (bad s)
    | .wait => none
    | .denied c => some (s.deniedRec job t va c)
    | .at_ h =>
      some ((s.hwSee job t va h 256).emitBlock t l 0 0 ((List.range (bits item 4 0 + 1)).map (posEntry (s.load h 256))))

/-- R337: a Lantern takes an item of the position queue. A descriptor on a discarded page reads as CAP 0 (R235, R322). -/
def execLanternPopItem (t : TowerId) (l : LayerId) (s : State) : Res :=
  .next (
    let w := s.tower t
    if !w.lntOn || !w.hostFn 3 || !s.emitRoom t l.val || s.link.retraining && s.jobFar w.lntJob t then s
    else match s.hwAt w.lntJob t true 64 (w.reg2 csrLnthq) with
      | .at_ h =>
        if h.disc ∨ h.mtype = 1 ∨ h.dpa % 64 ≠ 0 then s
        else match (s.hwReach w.lntJob t (w.reg2 csrLnthq) h).hwQueue ⟨w.lntJob, dpaTower h.dpa, false⟩ h.dpa false [] 1 [] with
          | some (s', [item]) => (s'.popBlock t l.val item).getD s
          | _ => s
      | .denied c => s.deniedRec w.lntJob t (w.reg2 csrLnthq) c
      | .miss _ => s
      | .wait => s)

end Sys2Proof.Machine
end

