-- ==== Sys2Proof/Machine/Device.lean ====
section
/-! DEFINITION. The display port, panel link and memory clock as time passes (R392, R395, R396), the pushing of
fault records (R359, R422), and the device's own events (R375, R377). -/

namespace Sys2Proof.Machine

/-! ### Lines, panel link, memory clock -/

/-- R392: the tick of the next line comes, and the line is lit. -/
def execLineLit (t : TowerId) (s : State) : Res :=
  .next (
    let w := s.tower t
    if !w.dspOn then s else (s.until t (w.lineTick w.dspNext)).mapTower t Tower.lightDue)

/-- R395 -/
def execPanelLockLoss (t : TowerId) (s : State) : Res :=
  .next (if !(s.tower t).panelLock then s
    else
      (s.mapTower t fun w => { w.lightDue with panelLock := false }).report t
        { cause := .displink, job := bits ((s.tower t).reg csrDspctl) 19 8 })

/-- R395 -/
def execPanelLockReturn (t : TowerId) (s : State) : Res :=
  .next (s.mapTower t fun w => { w.lightDue with panelLock := true })

/-- R396: at T(M), or at once while EN is clear, LPDDR6 stalls and takes the armed rate. -/
def execMemclkChange (t : TowerId) (s : State) : Res :=
  .next (match (s.tower t).armLine with
    | none => s
    | some m =>
      let s := if (s.tower t).dspOn then s.until t ((s.tower t).lineTick m) else s
      s.mapTower t fun w => { w with memStall := true, memRate := w.armRate, armLine := none })

/-- R396 -/
def execMemclkStallEnd (t : TowerId) (s : State) : Res :=
  .next (s.mapTower t fun w => { w with memStall := false })

/-! ### Records to their queues (R359, R414, R422) -/

/-- Item j of a record: its bytes 8j to 8j + 7. -/
def FaultRec.items (r : FaultRec) : List DWord := (List.range 8).map fun j => r.bits.extractLsb' (64 * j) 64

/-- FQ of a job control word as a DPA (R351). -/
def faultQueue (jctl : DWord) : Nat := bits jctl 57 16 * 64

/-- The control word that names a job's fault queue to a tower: its own, or that of the other tower where the job is live
there alone (R351, R377). -/
def State.recJctl (s : State) (job : Nat) (t : TowerId) : DWord :=
  if ((s.findJob job).map fun j => j.liveIn t || !j.liveIn (otherTower t)).getD true then s.jctlOf job t
  else s.jctlOf job (otherTower t)

/-- Push one record: to the host's record queue, whose ring is physical, or to its job's fault queue. A descriptor beyond
a link that is down or retrains takes none (R284). -/
def State.pushRec (s : State) (t : TowerId) (r : FaultRec) : Option State :=
  let d := if r.host then (s.tower t).hrecq.toNat else faultQueue (s.recJctl r.job t)
  if d = 0 ∨ !dpaOk d ∨ ((s.link.down ∨ s.link.retraining) ∧ dpaTower d ≠ t) then none
  else (s.hwQueue ⟨r.job, dpaTower d, r.host⟩ d true (if r.host then relRecq else relHw) 8 r.items).map fun (p : State × List DWord) =>
    p.1.mapTower t fun w => { w with recs := w.recs.erase r }

/-- The records of a job that may go next: in each queue, the records leave in SEQ order. -/
def Tower.firstRecs (t : Tower) (job : Nat) : List FaultRec :=
  ((t.recs.find? fun r => r.host).filter fun r => r.job = job).toList ++
    (t.recs.find? fun r => !r.host && r.job = job).toList

/-- Push a record of a job if a queue takes one. -/
def State.pushJob (s : State) (t : TowerId) (job : Nat) : State :=
  (((s.tower t).firstRecs job).findSome? (s.pushRec t)).getD s

/-- R359: a queue that is full, absent or faulting leaves the record waiting. -/
def execFaultRecordPush (t : TowerId) (job : Nat) (s : State) : Res := .next (s.pushJob t job)

/-- R422: every job that holds records tries again. -/
def execHwqueueRetry (t : TowerId) (s : State) : Res :=
  .next (((s.tower t).recs.map FaultRec.job).eraseDups.foldl (fun s job => s.pushJob t job) s)

/-! ### Soft errors (R375) -/

/-- Poison the line, of two sectors of 32 bytes, that holds the sector of a key. -/
def State.poisonPair (s : State) (k code : Nat) : State :=
  { s with poison := Table.put (Table.put s.poison (k / 2 * 2) code) (k / 2 * 2 + 1) code }
/-- Poison both sectors of the line of memory that holds a byte. -/
def State.poisonLine (s : State) (dpa code : Nat) : State := s.poisonPair (dpa / 32) code

/-- R375: an error of a structure. Codes 1 to 3 strike the named wave at its next instruction; 4 and 8 name a
DPA; 5 and 6 a tower in bit 40 and a byte of its B-store or a record of its Damask; 7 the named wave's image. -/
def execEccUncorrectable (code : Fin 9) (k : WaveKey) (addr : DWord) (s : State) : Res :=
  let a := addr.toNat
  .next (match code.val with
    | 0 => s
    | 4 => if dpaOk a then s.poisonLine a 4 else s
    | 5 => s.poisonPair (bPoison (dpaTower a) 0 (a % 2 ^ 27)) 5
    | 6 => s.poisonPair (dmkPoison (dpaTower a) 0 (a % 2 ^ 23)) 6
    | 7 => s.mapGroup ⟨k.job, k.gid⟩ fun g => if g.resident then g else { g with imgBad := some (.eccsram, addr) }
    | 8 => if dpaOk a then s.poisonLine a 8 else s
    | c => match s.findWave k with
      | some w => if w.inRun then s.as k fun s => s.takeTrap (eccTrap c addr 0) s.wave.pairStart s.wave.pairStart 0 else s
      | none => s)

/-- R375: counted in ECCFIX. -/
def execEccCorrected (t : TowerId) (s : State) : Res := .next (s.mapTower t fun w => w.count csrFltcnt 16 1)

/-! ### Events of the device (R377) -/

/-- One record of a cause to every live job. -/
def State.reportAll (s : State) (t : TowerId) (c : Cause) : State :=
  (s.jobs.filter fun j => !j.retired).foldl (fun s (j : Job) => s.report t { cause := c, job := j.id }) s

/-- R377: every group of the core ends, with a record of KIND 2 to every job with work there. -/
def execMachine (p : Place) (s : State) : Res :=
  .next (
    let gs := s.onCore p
    let s := (gs.map Group.job).eraseDups.foldl (fun s j =>
      s.report p.tower { cause := .machine, kind := 2, loc := some (p.layer.val, p.core.val), job := j }) s
    gs.foldl (fun s (g : Group) => s.killGroup g.key false) s)

/-- R377 -/
def execHosterr (t : TowerId) (s : State) : Res := .next (s.reportAll t .hosterr)
/-- R377 -/
def execHostAssistTimeout (t : TowerId) (s : State) : Res := .next (s.reportAll t .hosterr)
/-- R377 -/
def execFwfault (t : TowerId) (s : State) : Res := .next (s.reportAll t .fwfault)

end Sys2Proof.Machine
end

