-- ==== Sys2Proof/Machine/Host.lean ====
section
/-! DEFINITION. The host: its accesses to device memory (R308, R412), the register window (R413), host-assisted
launch expansion (R416), boot (R417), identity and attestation (R418, R419). -/

namespace Sys2Proof.Machine

/-! ### Accesses to device memory (R412) -/

/-- The record of an access that the host port denies. -/
def State.hostDenied (s : State) (t : TowerId) (dpa : DWord) : State :=
  s.report t { cause := .acctbl, addr := dpa, info := 2 ^ kindHost, detail := 4 }

/-- Is a host access of n bytes in range and granted by the host port's table (R231, R285)? -/
def State.hostOk (s : State) (t : TowerId) (dpa n : Nat) (rd wr at_ : Bool) : Bool :=
  dpaOk dpa && dpaOk (dpa + n - 1) && decide (dpaTower dpa = dpaTower (dpa + n - 1)) &&
    (s.tower t).grants 4 0 kindHost rd wr at_ dpa (dpa + n)

/-- The link to the tower that homes the byte is down: the access is not performed (R284). -/
def State.hostCut (s : State) (t : TowerId) (dpa : DWord) : Bool :=
  s.link.down && dpaOk dpa.toNat && decide (dpaTower dpa.toNat ≠ t)

/-- The byte lies beyond a link that retrains: the access waits (R284). -/
def State.hostWaits (s : State) (t : TowerId) (dpa : DWord) : Bool :=
  s.link.retraining && dpaOk dpa.toNat && decide (dpaTower dpa.toNat ≠ t)
/-- Keep an access until the retraining ends (log 102). -/
def State.holdHost (s : State) (i : Instr) : State := { s with hostHeld := s.hostHeld ++ [i] }
/-- An access that was kept is performed now. -/
def State.dropHost (s : State) (i : Instr) : State := { s with hostHeld := s.hostHeld.erase i }

/-- The report of a read, with no wave, of a poisoned sector (R375). -/
def State.hostEcc (s : State) (t : TowerId) (dpa n : Nat) : State :=
  match s.poisoned dpa n with
  | some c => s.report t { cause := if c = 8 then .eccmem else .eccsram, addr := BitVec.ofNat 64 dpa, info := c }
  | none => s

/-- A release of the host at .SY. -/
def relHost : List RelInfo := [⟨.sy, .host, ⟨0, 0, 0⟩, ⟨0, 0, 0⟩, 0⟩]

/-- R412: what the host receives is outside the device; a denied read, and a poisoned one, leaves a record. -/
def execHostRead (t : TowerId) (dpa : DWord) (n : Nat) (s : State) : Res :=
  let i : Instr := .hostRead t dpa n
  .next (if s.hostWaits t dpa then s.holdHost i else
    let s := s.dropHost i
    if n = 0 ∨ s.hostCut t dpa then s
    else if s.hostOk t dpa.toNat n true false false then s.hostEcc t dpa.toNat n else s.hostDenied t dpa)

/-- R412 -/
def execHostWrite (t : TowerId) (dpa : DWord) (data : List Byte) (rel : Bool) (s : State) : Res :=
  let i : Instr := .hostWrite t dpa data rel
  .next (if s.hostWaits t dpa then s.holdHost i else
    let s := s.dropHost i
    if data.isEmpty ∨ s.hostCut t dpa then s
    else if s.hostOk t dpa.toNat data.length false true false then s.store dpa.toNat data 0 true (if rel then relHost else [])
    else s.hostDenied t dpa)

/-- R412: 4 or 8 bytes, with the operations of ATOM (Table 12.2). One that takes the count of a successor block to zero
submits nothing: which host operation R20's decrement by the host is, the manual does not say (log 97). -/
def execHostAtomic (t : TowerId) (dpa : DWord) (wide : Bool) (op : BitVec 4) (x : DWord) (s : State) : Res :=
  .next (
    let i : Instr := .hostAtomic t dpa wide op x
    if s.hostWaits t dpa then s.holdHost i else
    let s := s.dropHost i
    let d := dpa.toNat
    let n := if wide then 8 else 4
    if s.hostCut t dpa then s
    else if !s.hostOk t d n true true true then s.hostDenied t dpa
    else if (s.poisoned d n).isSome then s.hostEcc t d n
    else
      let v := atomNew (if wide then 1 else 0) op.toNat (Mem.readNat s.mem d n) x.toNat
      s.update d (Mem.bytes v n) 0 true [])

/-! ### The register window (R413) -/

/-- A stored register of the window. -/
def Tower.win (t : Tower) (off : Nat) : Word := Table.get 0 t.hostWin off
def Tower.setWin (t : Tower) (off : Nat) (x : Word) : Tower := { t with hostWin := Table.set 0 t.hostWin off x }
/-- Two of them as an address. -/
def Tower.win64 (t : Tower) (off : Nat) : DWord := t.win (off + 4) ++ t.win off

/-- The bits of a stored register that a write changes. -/
def winMask (off : Nat) : Word :=
  match off with
  | 0x4004 => 0xFFFFFFFF
  | 0x4008 => 0xFFFF
  | 0x4010 => 0xFFF
  | 0x4014 => 0xFFFFFFFF
  | 0x4020 => 0xFFFFFFFF
  | 0x4024 => 0xFFFF
  | 0x4028 => 0xFFFFFFFF
  | 0x402C => 0xFFFFFFFF
  | 0x4030 => 0x0FFFFFFF
  | 0x4060 => 0xFFF
  | 0x4064 => 0xFFFFFFFF
  | 0x4068 => 0xFFFF
  | n => if 0x4040 ≤ n ∧ n < 0x4060 ∧ n % 4 = 0 then 0xFFFFFFFF else 0

/-- Bytes of a big-endian number. -/
def bytesBE (x n : Nat) : List Byte := (Mem.bytes x n).reverse
/-- The SM3 digest of bytes as bytes. -/
def sm3Bytes (bs : List Byte) : List Byte := bytesBE (Config.sm3 bs).toNat 32

/-- The private identity key (R418). -/
def State.idKey (s : State) : Nat :=
  (Config.sm3 (bytesBE s.fuses.seed.toNat 32)).toNat % (Config.sm2Order - 1) + 1
/-- The public identity key: x, then y, big-endian. -/
def State.idPub (s : State) : List Byte := bytesBE (Config.sm2Public s.idKey).toNat 64

/-- A register of the window as the host reads it. -/
def State.winRead (s : State) (t : TowerId) (off : Nat) : Word :=
  let w := s.tower t
  if off % 4 ≠ 0 then 0
  else if off < 0x4000 then if off / 4 < 0x100 then 0 else s.csrRead t (off / 4)
  else if off = 0x4000 then w.hstat
  else if off = 0x4018 then (Table.find w.hostWin off).getD 0x100
  else if off = 0x401C then s.csrRead t csrFnmode
  else if off = 0x406C then if w.att.isSome then 2 else 0
  else if 0x4080 ≤ off ∧ off < 0x40C0 then BitVec.ofNat 32 (Mem.number ((s.idPub.drop (off - 0x4080)).take 4))
  else w.win off &&& winMask off

/-! ### Commands on waves (R362, R413) -/

/-- HWCMD has taken effect: DONE, with a RESULT. -/
def State.hwDone (s : State) (t : TowerId) (r : Bool) : State :=
  s.mapTower t fun w => { w with hostWin := Table.put w.hostWin 0x4018 (if r then 0x300 else 0x100) }

/-- A command with the effect of WAKEW on the wave that HWJOB and HWTAG name. -/
def State.hwWake (s : State) (t : TowerId) (mode : Nat) : State :=
  match s.tagged ((s.tower t).win 0x4010).toNat ((s.tower t).win 0x4014) with
  | none => s.hwDone t false
  | some w => let (s, r) := s.wake mode w; s.hwDone t (r ≠ 0)

/-- R413: as WAKEW.RES. -/
def execHwcmdResume (t : TowerId) (s : State) : Res := .next (s.hwWake t 1)
/-- R413: as WAKEW.ABRT. -/
def execHwcmdAbort (t : TowerId) (s : State) : Res := .next (s.hwWake t 2)
/-- R413: TLBINV.JB of the job. -/
def execHwcmdTlbinv (t : TowerId) (s : State) : Res :=
  .next ((s.tlbInv (some ((s.tower t).win 0x4010).toNat) none).hwDone t true)

/-! ### Host-assisted expansion (R416) -/

/-- Hand a tile of a launch to the dispatcher of a tower; a unit that no core can hold cancels the launch (R122). -/
def State.hostTile (t : TowerId) (id : Nat) (s : State) (lin : Nat) : State :=
  match s.findLaunch id with
  | none => s
  | some l =>
    if l.gangfail then s
    else
      let u := s.tileUnit l lin t .held 0
      if !u.placeable then
        ((s.gangRec l.tower l.job l.addr l.src).mapLaunch id fun l => { l with gangfail := true }).cancelLaunch { l with gangfail := true } 0 l.depth
      else { s with units := s.units ++ [u], seq := s.seq + 1 }.issued { l with taken := lin :: l.taken }

/-- R416 -/
def execHtcountWrite (t : TowerId) (x : Word) (s : State) : Res :=
  .next (
    let va := (s.tower t).win64 0x4028
    let first := ((s.tower t).win 0x4030).toNat
    let n := bits x 27 0
    match s.launches.find? fun l => l.addr = va with
    | none => s
    | some l =>
      let ls := (List.range n).map (first + ·)
      if (l.state ≠ 1 ∧ l.state ≠ 2) ∨ lnTiles l.image < first + n ∨ ls.any (fun i => decide (i < l.next) || l.taken.contains i) then s
      else ls.foldl (State.hostTile t l.id) s)

/-! ### Boot (R417) -/

/-- The bytes of an image at a DPA, header and payload. -/
def State.imgBytes (s : State) (a : Nat) : List Byte := Mem.readBytes s.mem a (256 + Mem.readNat s.mem (a + 8) 4)
/-- A field of an image's header (Table 20.3), its payload, and its digest (step 3). -/
def imgField (im : List Byte) (o n : Nat) : Nat := Mem.number ((im.drop o).take n)
def imgDigest (im : List Byte) : BitVec 256 := Config.sm3 (im.take 96 ++ im.drop 256)
/-- A big-endian field of the header. -/
def imgBE (im : List Byte) (o : Nat) : BitVec 512 := BitVec.ofNat 512 (Mem.number ((im.drop o).take 64).reverse)

/-- The header of Table 20.3 does not hold. -/
def imgHeaderBad (im : List Byte) : Bool :=
  let f := imgField im
  decide (f 0 4 ≠ 0x46324644 ∨ 32 < f 4 4 ∨ f 8 4 % 4096 ≠ 0 ∨ 0x4000000 < f 8 4 ∨
    1 < f 12 4 ∨ f 16 8 % 4 ≠ 0 ∨ f 8 4 ≤ f 16 8 ∨ f 24 8 ≠ 0 ∨ f 160 96 ≠ 0)
/-- HBOOT names no image in the memory of one tower. -/
def State.imgPlaceBad (s : State) (a : Nat) : Bool :=
  let n := Mem.readNat s.mem (a + 8) 4
  !dpaOk a || decide (a % 4096 ≠ 0 ∨ 0x4000000 < n) || !dpaOk (a + 255 + n) || decide (dpaTower a ≠ dpaTower (a + 255 + n))

/-- The error of the steps of R417, in their order; 0 for none. -/
def State.imgError (s : State) (im : List Byte) : Nat :=
  if imgHeaderBad im then 1
  else if Config.sm3 ((im.drop 32).take 64) ≠ s.fuses.rootHash then 3
  else if !Config.sm2Verify (imgBE im 32) (imgBE im 96) (imgDigest im) then 2
  else if imgField im 4 4 < s.fuses.rollback then 4
  else 0

/-- The image that HBOOT of T0 names. -/
def State.imgAt (s : State) : Nat := (s.tower0.win64 0x4004).toNat

/-- GO: T0 verifies the image, and sends it to T1 (R417). -/
def State.bootGo (s : State) (t : TowerId) : State :=
  if t ≠ 0 ∨ (bits s.tower0.hstat 2 0 ≠ 1 ∧ bits s.tower0.hstat 2 0 ≠ 4) then s
  else
    let im := s.imgBytes s.imgAt
    match if s.imgPlaceBad s.imgAt then 1 else s.imgError im with
    | 0 =>
      let s := { s with
        tower0 := { s.tower0 with bootDigest := imgDigest im }, tower1 := { s.tower1 with bootImg := im } }
      (s.mapTower 0 fun w => w.setHstat 2 0).mapTower 1 fun w => w.setHstat 2 0
    | e => s.mapTower 0 fun w => w.setHstat 4 e

/-- R417 -/
def execHbootgo (t : TowerId) (s : State) : Res := .next (s.bootGo t)

/-- R417: T1 repeats the steps on its copy. Both towers then run and the firmware starts at ENTRY, or T1 recovers and
T0 awaits an image. -/
def execTowerImageCheck (s : State) : Res :=
  .next (
    if bits s.tower0.hstat 2 0 ≠ 2 ∨ bits s.tower1.hstat 2 0 ≠ 2 then s
    else
      let im := s.tower1.bootImg
      let s := s.mapTower 1 fun w => { w with bootImg := [] }
      let e := if s.imgError im ≠ 0 then s.imgError im else if imgDigest im ≠ s.tower0.bootDigest then 5 else 0
      if e ≠ 0 then (s.mapTower 0 fun w => w.setHstat 1 0).mapTower 1 fun w => w.setHstat 4 e
      else
        let run (w : Tower) : Tower :=
          { w.setHstat 3 0 with
            bootDigest := s.tower0.bootDigest, bootVersion := imgField im 4 4, fwEntry := some (imgField im 16 8) }
        let fuse := if imgField im 12 1 % 2 = 1 then Nat.max s.fuses.rollback (imgField im 4 4) else s.fuses.rollback
        { s with tower0 := run s.tower0, tower1 := run s.tower1, fuses := { s.fuses with rollback := fuse } })

/-- R417, R418: every register at its reset value and no work; the fuses stay. -/
def execPowerOn (s : State) : Res :=
  .next { State.reset with fuses := s.fuses, inbox := s.inbox, free := s.free, seq := s.seq }

/-! ### Attestation (R419) -/

/-- The values of the CSRs 0x100 to 0xFFF of a tower, as bytes. -/
def State.csrBytes (s : State) (t : TowerId) : List Byte :=
  (List.range 0xF00).flatMap fun n => Mem.bytes (s.csrRead t (0x100 + n)).toNat 4

/-- The job digest of Table 20.4: a job is live while a tower holds it, with the tables of its record (R33, R351). -/
def State.jobDigest (s : State) (job : Nat) : List Byte :=
  match s.findJob job with
  | some j =>
    if j.retired || !(j.live0 || j.live1) then List.replicate 32 0
    else sm3Bytes (Mem.readBytes s.mem j.recAt 64 ++ Mem.readBytes s.mem j.htab.toNat 2048)
  | none => List.replicate 32 0

/-- Bytes 0 to 159 of the report. -/
def State.reportBody (s : State) (t : TowerId) : List Byte :=
  let w := s.tower t
  Mem.bytes 1 4 ++ Mem.bytes (w.bootVersion + s.fuses.rollback * 2 ^ 24) 4 ++
    (List.range 8).flatMap (fun k => Mem.bytes (w.win (0x4040 + 4 * k)).toNat 4) ++ bytesBE w.bootDigest.toNat 32 ++
    sm3Bytes (s.csrBytes 0 ++ s.csrBytes 1) ++ s.jobDigest (w.win 0x4060).toNat ++ Mem.bytes w.now 8 ++ List.replicate 16 0

/-- The reads of a report: a poisoned sector of the job's record or of its handle table has a record (R375). -/
def State.attestEcc (s : State) (t : TowerId) : State :=
  let n := ((s.tower t).win 0x4060).toNat
  match s.findJob n with
  | none => s
  | some j =>
    if j.retired || !(j.live0 || j.live1) then s
    else (s.hwEcc n t j.recVa j.recAt 64).hwEcc n t j.htab j.htab.toNat 2048

/-- GO makes a report, all of it at one instant, whose write is under way while BUSY is set (log 69); a GO meanwhile is ignored.
An ATTOUT out of range or out of alignment leaves nothing written (R231). -/
def State.attest (s : State) (t : TowerId) : State :=
  let d := ((s.tower t).win64 0x4064).toNat
  if (s.tower t).att.isSome ∨ !dpaOk d ∨ d % 256 ≠ 0 then s
  else
    let s := s.attestEcc t
    let b := s.reportBody t
    let sig := (Config.sm2Sign s.idKey (Config.sm3 b) s.free).toNat
    { s with free := s.free + 1 }.mapTower t fun w => { w with
      att := some (d, b ++ Mem.bytes (sig / 2 ^ 256) 32 ++ Mem.bytes (sig % 2 ^ 256) 32) }

/-- The write of a tower's report, at .SY, clears BUSY. -/
def State.reportDone (s : State) (t : TowerId) : Option State :=
  (s.tower t).att.map fun (r : Nat × List Byte) => (s.mapTower t fun w => { w with att := none }).store r.1 r.2 0 false relRecq

/-- R419 -/
def execAttctlGo (t : TowerId) (s : State) : Res := .next (s.attest t)

/-! ### Writes of registers -/

/-- R133 -/
def execClswayWrite (t : TowerId) (x : Word) (s : State) : Res := .next (s.csrWrite t csrClsway x)
/-- R263 -/
def execAlmctlCommit (t : TowerId) (s : State) : Res := .next (s.csrWrite t csrAlmctl 1)
/-- R330 -/
def execLntctlWrite (t : TowerId) (x : Word) (s : State) : Res := .next (s.csrWrite t csrLntctl x)
/-- R390: one of the display registers 0x370 to 0x373. -/
def execDspctlWrite (t : TowerId) (n : BitVec 12) (x : Word) (s : State) : Res :=
  .next (if 0x370 ≤ n.toNat ∧ n.toNat ≤ 0x373 then s.csrWrite t n.toNat x else s)
/-- R396: a write of MEMCLK that sets ARM. -/
def execMemclkArm (t : TowerId) (x : Word) (s : State) : Res := .next (s.csrWrite t csrMemclk (x ||| 4))
/-- R421: a write of PWRCTL that sets GO. -/
def execPwrctlGo (t : TowerId) (x : Word) (s : State) : Res := .next (s.csrWrite t csrPwrctl (x ||| 8))
/-- R414 -/
def execFnmodeWrite (t : TowerId) (x : Word) (s : State) : Res := .next (s.csrWrite t csrFnmode x)
/-- R383 -/
def execDmkctlWrite (t : TowerId) (x : Word) (s : State) : Res := .next (s.csrWrite t csrDmkctl x)
/-- R351: JCTLLO or JCTLHI, of the job that JOBSEL selects. -/
def execJctlWrite (t : TowerId) (hi : Bool) (x : Word) (s : State) : Res :=
  .next (s.csrWrite t (if hi then 0x102 else 0x101) x)

/-- Write a register of the window (R413). -/
def State.winWrite (s : State) (t : TowerId) (off : Nat) (x : Word) : Res :=
  if off % 4 ≠ 0 then .next s
  else if off < 0x4000 then .next (if off / 4 < 0x100 then s else s.csrWrite t (off / 4) x)
  else match off with
    | 0x400C => .next (if x.getLsbD 0 then s.bootGo t else s)
    | 0x4018 => match bits x 1 0 with
      | 1 => .next (s.hwWake t 1)
      | 2 => .next (s.hwWake t 2)
      | 3 => execHwcmdTlbinv t s
      | _ => .next s
    | 0x401C => .next (s.csrWrite t csrFnmode x)
    | 0x4034 => execHtcountWrite t x s
    | 0x406C => .next (if x.getLsbD 0 then s.attest t else s)
    | n => .next (if winMask n = 0 then s else s.mapTower t fun w => w.setWin n (x &&& winMask n))

/-- R8, R413: a register of the host's window. -/
def execRegisterWrite (t : TowerId) (off : BitVec 16) (x : Word) (s : State) : Res := s.winWrite t off.toNat x

end Sys2Proof.Machine
end

