-- ==== Sys2Proof/Machine/Predicate.lean ====
section
/-! DEFINITION. Group 0x3: comparison, predicates and select (R164-R166, Tables 6.5 and 6.6). -/

namespace Sys2Proof.Machine

/-- A comparison of Table 6.6 on two 32-bit integers. -/
def icmpLane (t : Nat) (a b : Word) : Bool :=
  match t with
  | 0 => a == b
  | 1 => a != b
  | 2 => a.slt b
  | 3 => a.sle b
  | 4 => b.slt a
  | 5 => a.ult b
  | 6 => a.ule b
  | _ => b.ult a

/-- A comparison of Table 6.6 on two F32 values: −0 equals +0, and a NaN makes only NE and UN true (R165). -/
def fcmpLane (t : Nat) (a b : Word) : Bool :=
  match FVal.cmp (Fmt.f32.decode a.toNat) (Fmt.f32.decode b.toNat) with
  | none => t = 1 || t = 6
  | some c =>
    match t with
    | 0 => c = 0
    | 1 => c ≠ 0
    | 2 => c < 0
    | 3 => c ≤ 0
    | 4 => 0 < c
    | 5 => 0 ≤ c
    | 6 => false
    | _ => true

/-- Write predicate d in the lanes of em (R164). -/
def Ctx.putP (x : Ctx) (g : Nat → Bool) : Out :=
  .done (x.s.writePred x.f.d x.s.wave.em .int (maskOf g))

/-- R165 -/
def execIcmp (f : Fields) (s : State) : Res :=
  .next (issue (.icmp f) f (fun x => x.putP fun i => icmpLane (tsel f) (x.la i) (x.lb' i)) s)
/-- R165: no flag. -/
def execFcmp (f : Fields) (s : State) : Res :=
  .next (issue (.fcmp f) f (fun x => x.putP fun i => fcmpLane (tsel f) (x.la i) (x.lb' i)) s)

/-- R166, R57: the common tag of the data sources when they are equal, else RAW; an immediate counts
as having the tag of b. -/
def execSel (f : Fields) (s : State) : Res :=
  .next (issue (.sel f) f
    (fun x =>
      let p := x.prd f.a
      let tb := (x.src f.b).tag
      let tag := if immOn f then tb else if tb = (x.src (opC f)).tag then tb else 0
      x.put .int tag fun i => if laneOn p i then x.lb i else x.lc' i) s)

/-- A predicate operation of two sources. -/
def Ctx.pbin (x : Ctx) (op : Bool → Bool → Bool) : Out :=
  x.putP fun i => op (laneOn (x.prd x.f.a) i) (laneOn (x.prd x.f.b) i)

/-- R164 -/
def execPand (f : Fields) (s : State) : Res := .next (issue (.pand f) f (fun x => x.pbin and) s)
/-- R164 -/
def execPor (f : Fields) (s : State) : Res := .next (issue (.por f) f (fun x => x.pbin or) s)
/-- R164 -/
def execPxor (f : Fields) (s : State) : Res := .next (issue (.pxor f) f (fun x => x.pbin xor) s)
/-- R164 -/
def execPnot (f : Fields) (s : State) : Res :=
  .next (issue (.pnot f) f (fun x => x.putP fun i => !laneOn (x.prd f.a) i) s)
/-- R164: 1 or 0, tag N32. -/
def execP2v (f : Fields) (s : State) : Res :=
  .next (issue (.p2v f) f (fun x => x.put .int 2 fun i => if laneOn (x.prd f.a) i then 1 else 0) s)
/-- R164 -/
def execV2p (f : Fields) (s : State) : Res :=
  .next (issue (.v2p f) f (fun x => x.putP fun i => decide (x.la i ≠ 0)) s)
/-- R164: the whole predicate, whatever em holds. -/
def execPmov (f : Fields) (s : State) : Res :=
  .next (issue (.pmov f) f (fun x => .done (x.s.writePred f.d 0xFFFFFFFF .int (x.la' 0))) s)

end Sys2Proof.Machine
end

