-- ==== Sys2Proof/Machine/Dispatch.lean ====
section
/-! DEFINITION. The dispatch of an instruction, or of a step of the hardware, to its meaning: one arm per
constructor of `Instr`. -/

namespace Sys2Proof.Machine

/-- The effect of an instruction or of a step of the hardware. -/
def exec (i : Instr) (s : State) : Host.Outcome State Fault Refusal :=
  match i with
  | .bra f => Sys2Proof.Machine.execBra f s
  | .brc f => Sys2Proof.Machine.execBrc f s
  | .brany f => Sys2Proof.Machine.execBrany f s
  | .brall f => Sys2Proof.Machine.execBrall f s
  | .call f => Sys2Proof.Machine.execCall f s
  | .ret f => Sys2Proof.Machine.execRet f s
  | .jmpi f => Sys2Proof.Machine.execJmpi f s
  | .loop f => Sys2Proof.Machine.execLoop f s
  | .emset f => Sys2Proof.Machine.execEmset f s
  | .empush f => Sys2Proof.Machine.execEmpush f s
  | .empop f => Sys2Proof.Machine.execEmpop f s
  | .emand f => Sys2Proof.Machine.execEmand f s
  | .nop f => Sys2Proof.Machine.execNop f s
  | .yield f => Sys2Proof.Machine.execYield f s
  | .exit f => Sys2Proof.Machine.execExit f s
  | .waittok f => Sys2Proof.Machine.execWaittok f s
  | .sleepw f => Sys2Proof.Machine.execSleepw f s
  | .iadd f => Sys2Proof.Machine.execIadd f s
  | .isub f => Sys2Proof.Machine.execIsub f s
  | .iaddc f => Sys2Proof.Machine.execIaddc f s
  | .isubb f => Sys2Proof.Machine.execIsubb f s
  | .imul f => Sys2Proof.Machine.execImul f s
  | .imulhi f => Sys2Proof.Machine.execImulhi f s
  | .imad f => Sys2Proof.Machine.execImad f s
  | .iadd64 f => Sys2Proof.Machine.execIadd64 f s
  | .imul64 f => Sys2Proof.Machine.execImul64 f s
  | .idiv f => Sys2Proof.Machine.execIdiv f s
  | .irem f => Sys2Proof.Machine.execIrem f s
  | .imin f => Sys2Proof.Machine.execImin f s
  | .imax f => Sys2Proof.Machine.execImax f s
  | .iabs f => Sys2Proof.Machine.execIabs f s
  | .ineg f => Sys2Proof.Machine.execIneg f s
  | .and f => Sys2Proof.Machine.execAnd f s
  | .or f => Sys2Proof.Machine.execOr f s
  | .xor f => Sys2Proof.Machine.execXor f s
  | .andn f => Sys2Proof.Machine.execAndn f s
  | .not f => Sys2Proof.Machine.execNot f s
  | .shl f => Sys2Proof.Machine.execShl f s
  | .shr f => Sys2Proof.Machine.execShr f s
  | .sar f => Sys2Proof.Machine.execSar f s
  | .rol f => Sys2Proof.Machine.execRol f s
  | .shl64 f => Sys2Proof.Machine.execShl64 f s
  | .shr64 f => Sys2Proof.Machine.execShr64 f s
  | .bfe f => Sys2Proof.Machine.execBfe f s
  | .bfi f => Sys2Proof.Machine.execBfi f s
  | .popc f => Sys2Proof.Machine.execPopc f s
  | .clz f => Sys2Proof.Machine.execClz f s
  | .ctz f => Sys2Proof.Machine.execCtz f s
  | .brev f => Sys2Proof.Machine.execBrev f s
  | .lea f => Sys2Proof.Machine.execLea f s
  | .mov f => Sys2Proof.Machine.execMov f s
  | .movi f => Sys2Proof.Machine.execMovi f s
  | .icmp f => Sys2Proof.Machine.execIcmp f s
  | .fcmp f => Sys2Proof.Machine.execFcmp f s
  | .sel f => Sys2Proof.Machine.execSel f s
  | .pand f => Sys2Proof.Machine.execPand f s
  | .por f => Sys2Proof.Machine.execPor f s
  | .pxor f => Sys2Proof.Machine.execPxor f s
  | .pnot f => Sys2Proof.Machine.execPnot f s
  | .p2v f => Sys2Proof.Machine.execP2v f s
  | .v2p f => Sys2Proof.Machine.execV2p f s
  | .pmov f => Sys2Proof.Machine.execPmov f s
  | .fadd f => Sys2Proof.Machine.execFadd f s
  | .fsub f => Sys2Proof.Machine.execFsub f s
  | .fmul f => Sys2Proof.Machine.execFmul f s
  | .ffma f => Sys2Proof.Machine.execFfma f s
  | .fdiv f => Sys2Proof.Machine.execFdiv f s
  | .fmin f => Sys2Proof.Machine.execFmin f s
  | .fmax f => Sys2Proof.Machine.execFmax f s
  | .fabs f => Sys2Proof.Machine.execFabs f s
  | .fneg f => Sys2Proof.Machine.execFneg f s
  | .fclass f => Sys2Proof.Machine.execFclass f s
  | .ffloor f => Sys2Proof.Machine.execFfloor f s
  | .fceil f => Sys2Proof.Machine.execFceil f s
  | .ftrunc f => Sys2Proof.Machine.execFtrunc f s
  | .frint f => Sys2Proof.Machine.execFrint f s
  | .ffract f => Sys2Proof.Machine.execFfract f s
  | .dadd f => Sys2Proof.Machine.execDadd f s
  | .dmul f => Sys2Proof.Machine.execDmul f s
  | .dfma f => Sys2Proof.Machine.execDfma f s
  | .dcvt f => Sys2Proof.Machine.execDcvt f s
  | .hadd2 f => Sys2Proof.Machine.execHadd2 f s
  | .hmul2 f => Sys2Proof.Machine.execHmul2 f s
  | .hfma2 f => Sys2Proof.Machine.execHfma2 f s
  | .hmin2 f => Sys2Proof.Machine.execHmin2 f s
  | .hmax2 f => Sys2Proof.Machine.execHmax2 f s
  | .fdot2 f => Sys2Proof.Machine.execFdot2 f s
  | .cvt f => Sys2Proof.Machine.execCvt f s
  | .pack2 f => Sys2Proof.Machine.execPack2 f s
  | .unpk f => Sys2Proof.Machine.execUnpk f s
  | .cvtq f => Sys2Proof.Machine.execCvtq f s
  | .cvtdq f => Sys2Proof.Machine.execCvtdq f s
  | .frcp f => Sys2Proof.Machine.execFrcp f s
  | .frsq f => Sys2Proof.Machine.execFrsq f s
  | .fsqrt f => Sys2Proof.Machine.execFsqrt f s
  | .fexp2 f => Sys2Proof.Machine.execFexp2 f s
  | .flog2 f => Sys2Proof.Machine.execFlog2 f s
  | .fsin f => Sys2Proof.Machine.execFsin f s
  | .fcos f => Sys2Proof.Machine.execFcos f s
  | .ftanh f => Sys2Proof.Machine.execFtanh f s
  | .fsigm f => Sys2Proof.Machine.execFsigm f s
  | .shfl f => Sys2Proof.Machine.execShfl f s
  | .shflup f => Sys2Proof.Machine.execShflup f s
  | .shfldn f => Sys2Proof.Machine.execShfldn f s
  | .shflx f => Sys2Proof.Machine.execShflx f s
  | .voteany f => Sys2Proof.Machine.execVoteany f s
  | .voteall f => Sys2Proof.Machine.execVoteall f s
  | .ballot f => Sys2Proof.Machine.execBallot f s
  | .match_ f => Sys2Proof.Machine.execMatch f s
  | .redadd f => Sys2Proof.Machine.execRedadd f s
  | .redmin f => Sys2Proof.Machine.execRedmin f s
  | .redmax f => Sys2Proof.Machine.execRedmax f s
  | .redand f => Sys2Proof.Machine.execRedand f s
  | .redor f => Sys2Proof.Machine.execRedor f s
  | .scanadd f => Sys2Proof.Machine.execScanadd f s
  | .permq f => Sys2Proof.Machine.execPermq f s
  | .ld f => Sys2Proof.Machine.execLd f s
  | .st f => Sys2Proof.Machine.execSt f s
  | .ldl f => Sys2Proof.Machine.execLdl f s
  | .stl f => Sys2Proof.Machine.execStl f s
  | .lds f => Sys2Proof.Machine.execLds f s
  | .sts f => Sys2Proof.Machine.execSts f s
  | .stb f => Sys2Proof.Machine.execStb f s
  | .ldb f => Sys2Proof.Machine.execLdb f s
  | .pref f => Sys2Proof.Machine.execPref f s
  | .cinv f => Sys2Proof.Machine.execCinv f s
  | .cwb f => Sys2Proof.Machine.execCwb f s
  | .pin f => Sys2Proof.Machine.execPin f s
  | .unpin f => Sys2Proof.Machine.execUnpin f s
  | .hset f => Sys2Proof.Machine.execHset f s
  | .hget f => Sys2Proof.Machine.execHget f s
  | .xlat f => Sys2Proof.Machine.execXlat f s
  | .atom f => Sys2Proof.Machine.execAtom f s
  | .cas f => Sys2Proof.Machine.execCas f s
  | .red f => Sys2Proof.Machine.execRed f s
  | .fence f => Sys2Proof.Machine.execFence f s
  | .bar f => Sys2Proof.Machine.execBar f s
  | .bararv f => Sys2Proof.Machine.execBararv f s
  | .barwt f => Sys2Proof.Machine.execBarwt f s
  | .qlock f => Sys2Proof.Machine.execQlock f s
  | .qunlock f => Sys2Proof.Machine.execQunlock f s
  | .qpush f => Sys2Proof.Machine.execQpush f s
  | .qpop f => Sys2Proof.Machine.execQpop f s
  | .qtry f => Sys2Proof.Machine.execQtry f s
  | .ctradd f => Sys2Proof.Machine.execCtradd f s
  | .ctrwait f => Sys2Proof.Machine.execCtrwait f s
  | .mmstat f => Sys2Proof.Machine.execMmstat f s
  | .cpy f => Sys2Proof.Machine.execCpy f s
  | .cpyb f => Sys2Proof.Machine.execCpyb f s
  | .gthr f => Sys2Proof.Machine.execGthr f s
  | .sctr f => Sys2Proof.Machine.execSctr f s
  | .bcast f => Sys2Proof.Machine.execBcast f s
  | .cntwait f => Sys2Proof.Machine.execCntwait f s
  | .cntrd f => Sys2Proof.Machine.execCntrd f s
  | .mmq f => Sys2Proof.Machine.execMmq f s
  | .mzero f => Sys2Proof.Machine.execMzero f s
  | .mzld f => Sys2Proof.Machine.execMzld f s
  | .mzmv f => Sys2Proof.Machine.execMzmv f s
  | .mzst f => Sys2Proof.Machine.execMzst f s
  | .mbsel f => Sys2Proof.Machine.execMbsel f s
  | .scan f => Sys2Proof.Machine.execScan f s
  | .scanst f => Sys2Proof.Machine.execScanst f s
  | .lnch f => Sys2Proof.Machine.execLnch f s
  | .taskq f => Sys2Proof.Machine.execTaskq f s
  | .succhint f => Sys2Proof.Machine.execSucchint f s
  | .waitpred f => Sys2Proof.Machine.execWaitpred f s
  | .fetchw f => Sys2Proof.Machine.execFetchw f s
  | .cancel f => Sys2Proof.Machine.execCancel f s
  | .ctrget f => Sys2Proof.Machine.execCtrget f s
  | .watch f => Sys2Proof.Machine.execWatch f s
  | .unwatch f => Sys2Proof.Machine.execUnwatch f s
  | .watchq f => Sys2Proof.Machine.execWatchq f s
  | .smpget f => Sys2Proof.Machine.execSmpget f s
  | .smpput f => Sys2Proof.Machine.execSmpput f s
  | .smprd f => Sys2Proof.Machine.execSmprd f s
  | .pmapwr f => Sys2Proof.Machine.execPmapwr f s
  | .rayq f => Sys2Proof.Machine.execRayq f s
  | .rayrd f => Sys2Proof.Machine.execRayrd f s
  | .tricls f => Sys2Proof.Machine.execTricls f s
  | .triras f => Sys2Proof.Machine.execTriras f s
  | .eyebor f => Sys2Proof.Machine.execEyebor f s
  | .rowwait f => Sys2Proof.Machine.execRowwait f s
  | .rowput f => Sys2Proof.Machine.execRowput f s
  | .trap f => Sys2Proof.Machine.execTrap f s
  | .eret f => Sys2Proof.Machine.execEret f s
  | .csrr f => Sys2Proof.Machine.execCsrr f s
  | .csrw f => Sys2Proof.Machine.execCsrw f s
  | .brkpt f => Sys2Proof.Machine.execBrkpt f s
  | .tlbinv f => Sys2Proof.Machine.execTlbinv f s
  | .pagemap f => Sys2Proof.Machine.execPagemap f s
  | .wakew f => Sys2Proof.Machine.execWakew f s
  | .slotreq f => Sys2Proof.Machine.execSlotreq f s
  | .slotrel f => Sys2Proof.Machine.execSlotrel f s
  | .layerps f => Sys2Proof.Machine.execLayerps f s
  | .ximm f => Sys2Proof.Machine.execXimm f s
  | .xfmt f => Sys2Proof.Machine.execXfmt f s
  | .runStart p port => Sys2Proof.Machine.execRunStart p port s
  | .tokenClear w tok => Sys2Proof.Machine.execTokenClear w tok s
  | .dealTile t => Sys2Proof.Machine.execDealTile t s
  | .clusterEnqueue t l => Sys2Proof.Machine.execClusterEnqueue t l s
  | .placeUnit t l c => Sys2Proof.Machine.execPlaceUnit t l c s
  | .groupStart g => Sys2Proof.Machine.execGroupStart g s
  | .stealRequest t l c => Sys2Proof.Machine.execStealRequest t l c s
  | .donationRequest t l => Sys2Proof.Machine.execDonationRequest t l s
  | .unitRetire u => Sys2Proof.Machine.execUnitRetire u s
  | .groupSave g => Sys2Proof.Machine.execGroupSave g s
  | .groupRestore g => Sys2Proof.Machine.execGroupRestore g s
  | .engineComplete w c => Sys2Proof.Machine.execEngineComplete w c s
  | .fetchwMailboxWrite g => Sys2Proof.Machine.execFetchwMailboxWrite g s
  | .triggerChange t => Sys2Proof.Machine.execTriggerChange t s
  | .rateWindow t => Sys2Proof.Machine.execRateWindow t s
  | .submissionSlotServe t => Sys2Proof.Machine.execSubmissionSlotServe t s
  | .heldUseRetry n => Sys2Proof.Machine.execHeldUseRetry n s
  | .deadlineGuard t => Sys2Proof.Machine.execDeadlineGuard t s
  | .deadline t => Sys2Proof.Machine.execDeadline t s
  | .preemptto t u => Sys2Proof.Machine.execPreemptto t u s
  | .sleepTimeout w => Sys2Proof.Machine.execSleepTimeout w s
  | .watchdog w => Sys2Proof.Machine.execWatchdog w s
  | .ctrwaitSatisfied w => Sys2Proof.Machine.execCtrwaitSatisfied w s
  | .tlbShootdownDone w => Sys2Proof.Machine.execTlbShootdownDone w s
  | .sectorTransmit t job => Sys2Proof.Machine.execSectorTransmit t job s
  | .almanacCommitApply t => Sys2Proof.Machine.execAlmanacCommitApply t s
  | .layerTransitionDone t l => Sys2Proof.Machine.execLayerTransitionDone t l s
  | .rejoinDone t l => Sys2Proof.Machine.execRejoinDone t l s
  | .linkRetrain => Sys2Proof.Machine.execLinkRetrain s
  | .linkRetrainEnd ok => Sys2Proof.Machine.execLinkRetrainEnd ok s
  | .pageMigration job va => Sys2Proof.Machine.execPageMigration job va s
  | .lanternSweepStart t => Sys2Proof.Machine.execLanternSweepStart t s
  | .lanternEmitBlock t => Sys2Proof.Machine.execLanternEmitBlock t s
  | .lanternPopItem t l => Sys2Proof.Machine.execLanternPopItem t l s
  | .lineLit t => Sys2Proof.Machine.execLineLit t s
  | .rowwaitWake w => Sys2Proof.Machine.execRowwaitWake w s
  | .panelLockLoss t => Sys2Proof.Machine.execPanelLockLoss t s
  | .panelLockReturn t => Sys2Proof.Machine.execPanelLockReturn t s
  | .memclkChange t => Sys2Proof.Machine.execMemclkChange t s
  | .memclkStallEnd t => Sys2Proof.Machine.execMemclkStallEnd t s
  | .borrowLate w => Sys2Proof.Machine.execBorrowLate w s
  | .faultRecordPush t job => Sys2Proof.Machine.execFaultRecordPush t job s
  | .hwqueueRetry t => Sys2Proof.Machine.execHwqueueRetry t s
  | .hostRead t dpa n => Sys2Proof.Machine.execHostRead t dpa n s
  | .hostWrite t dpa data rel => Sys2Proof.Machine.execHostWrite t dpa data rel s
  | .hostAtomic t dpa wide op x => Sys2Proof.Machine.execHostAtomic t dpa wide op x s
  | .powerOn => Sys2Proof.Machine.execPowerOn s
  | .towerImageCheck => Sys2Proof.Machine.execTowerImageCheck s
  | .thermal => Sys2Proof.Machine.execThermal s
  | .eccUncorrectable code w addr => Sys2Proof.Machine.execEccUncorrectable code w addr s
  | .eccCorrected t => Sys2Proof.Machine.execEccCorrected t s
  | .layeroff t l => Sys2Proof.Machine.execLayeroff t l s
  | .machine p => Sys2Proof.Machine.execMachine p s
  | .hosterr t => Sys2Proof.Machine.execHosterr t s
  | .hostAssistTimeout t => Sys2Proof.Machine.execHostAssistTimeout t s
  | .fwfault t => Sys2Proof.Machine.execFwfault t s
  | .clswayWrite t x => Sys2Proof.Machine.execClswayWrite t x s
  | .almctlCommit t => Sys2Proof.Machine.execAlmctlCommit t s
  | .lntctlWrite t x => Sys2Proof.Machine.execLntctlWrite t x s
  | .dspctlWrite t n x => Sys2Proof.Machine.execDspctlWrite t n x s
  | .memclkArm t x => Sys2Proof.Machine.execMemclkArm t x s
  | .pwrctlGo t x => Sys2Proof.Machine.execPwrctlGo t x s
  | .fnmodeWrite t x => Sys2Proof.Machine.execFnmodeWrite t x s
  | .hbootgo t => Sys2Proof.Machine.execHbootgo t s
  | .hwcmdResume t => Sys2Proof.Machine.execHwcmdResume t s
  | .hwcmdAbort t => Sys2Proof.Machine.execHwcmdAbort t s
  | .hwcmdTlbinv t => Sys2Proof.Machine.execHwcmdTlbinv t s
  | .htcountWrite t x => Sys2Proof.Machine.execHtcountWrite t x s
  | .attctlGo t => Sys2Proof.Machine.execAttctlGo t s
  | .dmkctlWrite t x => Sys2Proof.Machine.execDmkctlWrite t x s
  | .jctlWrite t hi x => Sys2Proof.Machine.execJctlWrite t hi x s
  | .registerWrite t off x => Sys2Proof.Machine.execRegisterWrite t off x s
  | .clockStepEnd => Sys2Proof.Machine.execClockStepEnd s

end Sys2Proof.Machine
end

