-- ==== Sys2Proof/Machine/Fetch.lean ====
section
/-! DEFINITION. Fetching an instruction (R66, R85): the twelve bytes at the pc of the focus wave, each
through the page walk with the right X, and the traps of a fetch or a decoding that fails. -/

namespace Sys2Proof.Machine

/-- INFO of FETCHERR (Table 14.3); a link that is down traps LINKFAIL instead (R284). -/
def fetchTrap (va : DWord) : Miss → TrapInfo
  | .np => { TrapInfo.at_ .fetcherr va 0 with info := 1 }
  | .prot => { TrapInfo.at_ .fetcherr va 0 with info := 2 }
  | .bad _ _ => { TrapInfo.at_ .fetcherr va 0 with info := 3 }
  | .link => TrapInfo.at_ .linkfail va 0

/-- The place of n bytes of one page that a fetch reads; no trap says that the fetch waits for the link (R284). -/
def State.fetchPlace (s : State) (va : DWord) (n : Nat) : Except (Option TrapInfo) Nat :=
  if s.link.retraining && s.walkFar s.wave.job s.group.tower va then .error none
  else match s.translate s.wave.job s.group.tower .fetch va with
  | .error m => .error (some (fetchTrap va m))
  | .ok h =>
    if h.disc then .error (some { TrapInfo.at_ .fetcherr va 0 with info := 4 })
    else if s.link.retraining ∧ dpaTower h.dpa ≠ s.group.tower then .error none
    else match s.poisoned h.dpa n with
      | some c => .error (some (eccTrap c va 0))
      | none => .ok h.dpa

/-- Bytes of an instruction that lie on the page of its first byte: pages are multiples of 64 KiB. -/
def firstPart (pc : DWord) : Nat := min 12 (2 ^ 16 - pc.toNat % 2 ^ 16)

/-- The places of an instruction's bytes, with their counts: an instruction may cross a page (R66). -/
def State.fetchPlaces (s : State) : Except (Option TrapInfo) (List (Nat × Nat)) :=
  let pc := s.wave.pc
  let n := firstPart pc
  match s.fetchPlace pc n with
  | .error t => .error t
  | .ok a =>
    if n = 12 then .ok [(a, 12)]
    else match s.fetchPlace (pc + BitVec.ofNat 64 n) (12 - n) with
      | .error t => .error t
      | .ok b => .ok [(a, n), (b, 12 - n)]

/-- The word at the pc of the focus wave. -/
def State.fetch (s : State) : Except (Option TrapInfo) (BitVec 96) :=
  match s.fetchPlaces with
  | .error t => .error t
  | .ok l => .ok (Sys2Proof.wordOf (l.flatMap fun (p : Nat × Nat) => Mem.readBytes s.mem p.1 p.2))

/-- What a fetch does: its accesses are counted (R282), and its page walks are noted for what they read (R375, log 91). -/
def State.fetchSeen (s : State) : State :=
  let places : List (Nat × Nat) := match s.fetchPlaces with | .ok l => l | .error _ => []
  (places.foldl (fun s (p : Nat × Nat) => s.touchDpa s.group.tower p.1) s).seeWalks
    (s.wave.pc :: if firstPart s.wave.pc = 12 then [] else [s.wave.pc + BitVec.ofNat 64 (firstPart s.wave.pc)])

/-- The AWAIT of a raising word with END, taken from its hint field (R354). -/
def rawAwait (w : BitVec 96) : BitVec 6 := if w.getLsbD 52 then w.extractLsb' 58 6 else 0

/-- A fetch that fails traps, at the pair's first word (R66, R84); one that waits leaves the wave stalled (R284). -/
def State.fetchFails (s : State) (t : Option TrapInfo) : State :=
  match t with
  | some t => s.takeTrap t s.wave.pairStart s.wave.pairStart 0
  | none => { s with stalled := true }

/-- A word that does not decode traps (R85). -/
def State.decodeFails (s : State) (w : BitVec 96) (c : Cause) : State :=
  s.takeTrap (.plain c) s.wave.pairStart s.wave.pairStart (rawAwait w)

/-! ### Placing a word where the next step fetches it -/

/-- The number of the job that `withFetchWord` makes when no wave can fetch. -/
def loadJob : Nat := 1
/-- DPAs of its page tables, one of each level down to a 2 MiB leaf, and of its program. -/
def loadRoot : Nat := 0x4000
def loadCode : Nat := 0x200000

/-- Page tables that map VA 0 to `loadCode`, writable and executable, by one 2 MiB page (R232). -/
def loadTables (m : List Host.Cell) : List Host.Cell :=
  Mem.writeNat (Mem.writeNat (Mem.writeNat (Mem.writeNat m loadRoot 8 0x8001) 0x8000 8 0xC001) 0xC000 8 0x10001)
    0x10000 8 (loadCode + 15)

/-- A wave in a run at VA 0, in a group of the job with the full register budget, after a boot: the load of a
program from outside the machine (log 10). -/
def State.loaded (s : State) : State :=
  let w : Wave := { Wave.empty with job := loadJob, alive := true, inRun := true }
  let g : Group := { Group.empty with
    job := loadJob, waves := 1, resident := true, started := true, ended := false, task := BitVec.ofNat 512 (40 * 2 ^ 256) }
  let j : Job :=
    { id := loadJob, recAt := 0, recVa := 0, ptroot := BitVec.ofNat 64 loadRoot, htab := 0, jctl0 := 0, jctl1 := 0, live0 := true,
      live1 := true, retired := false, req := false, reason := 0 }
  { s with
    tower0 := s.tower0.setHstat 3 0, tower1 := s.tower1.setHstat 3 0
    wave := w, group := g, jobs := j :: s.jobs.filter (fun (x : Job) => x.id ≠ loadJob), mem := loadTables s.mem }

/-- Store a word at the places that the focus wave fetches from. -/
def State.putWord (s : State) (w : BitVec 96) : List (Nat × Nat) → State
  | [] => s
  | (a, n) :: l => { s with mem := Mem.writeBytes s.mem a ((bytesOf w).take n) }.putWord (w >>> (8 * n)) l

/-- Store a word where the next step fetches: at the focus wave's pc when it can fetch, else in a loaded program. -/
def State.placeWord (s : State) (w : BitVec 96) : State :=
  let s := { s with inbox := [], turns := [], stalled := false, clockStop := false }
  match (if s.wave.inRun then s.fetchPlaces else .error none) with
  | .ok l => s.putWord w l
  | .error _ => s.loaded.putWord w [(loadCode, 12)]

end Sys2Proof.Machine
end

