-- ==== Sys2Proof/Machine/Schedule.lean ====
section
/-! DEFINITION. Which step comes next when the state names none (log 4): the steps that may be due, in an order
of the model's own. The state's `inbox` and `turns` can ask for any other interleaving. -/

namespace Sys2Proof.Machine

/-- The tokens of a wave that are set, as steps that clear them. -/
def Wave.tokenSteps (w : Wave) : List Instr :=
  ((List.finRange 6).filter fun (t : Fin 6) => w.tokens.getLsbD t.val).map fun t => .tokenClear w.key t
/-- The engine commands of a wave, as steps that complete them. -/
def Wave.engineSteps (w : Wave) : List Instr := w.cmds.map fun (c : EngCmd) => .engineComplete w.key c.cls
/-- The ends of a wave's wait. -/
def Wave.waitSteps (w : Wave) : List Instr :=
  match w.wait with
  | .counter _ _ _ _ _ => [.ctrwaitSatisfied w.key]
  | .shootdown => [.tlbShootdownDone w.key]
  | _ => []
/-- Waits that end at a moment. -/
def Wave.timedSteps (w : Wave) : List Instr :=
  match w.wait with
  | .sleep (some _) => [.sleepTimeout w.key]
  | .row _ _ _ => [.rowwaitWake w.key]
  | _ => []

/-- Run starts on the core of a group. -/
def Group.runSteps (g : Group) : List Instr := [.runStart g.place 0, .runStart g.place 1]
/-- The steps of a group that is not running. -/
def Group.steps (g : Group) : List Instr :=
  (if g.ended then [] else [.groupStart g.key]) ++ (if g.resident then [.groupSave g.key] else [.groupRestore g.key]) ++
    (if (g.fetch.map Fetch.pending).getD false then [.fetchwMailboxWrite g.key] else [])

/-- The scheduler's steps of a tower: placement, queues and dealing (R128-R132), the work furthest on first. -/
def dealSteps (t : TowerId) : List Instr :=
  ((List.finRange 8).flatMap fun l => (List.finRange 4).map fun c => .placeUnit t l c) ++
    (List.finRange 8).map (fun l => .clusterEnqueue t l) ++ [.dealTile t]

/-- The steps of a tower that its waiting work asks for. -/
def Tower.steps (x : Tower) (t : TowerId) : List Instr :=
  (match x.recs with | [] => [] | r :: _ => [.faultRecordPush t r.job]) ++
    (match x.sectors with | [] => [] | q :: _ => [.sectorTransmit t q.job]) ++
    (if x.changes.isEmpty then [] else [.triggerChange t]) ++
    (if x.triggers.any fun (r : Trigger) => r.slot.isSome then [.submissionSlotServe t] else []) ++
    (if x.almNext.isSome then [.almanacCommitApply t] else []) ++
    ((List.finRange 8).filter fun (l : LayerId) => (x.layer l.val).goal.isSome).map (fun l => .layerTransitionDone t l) ++
    (if x.rejoin.isEmpty then [] else (List.finRange 8).map fun l => .rejoinDone t l) ++
    (if x.lntSnaps.isEmpty then [] else [.lanternSweepStart t]) ++
    (if x.draws.isEmpty then [] else [.lanternEmitBlock t]) ++
    (if x.lntOn && x.hostFn 3 then (List.finRange 8).map fun l => .lanternPopItem t l else [])

/-- Has the moment that a wave waits for come? -/
def State.timeUp (s : State) (w : Wave) : Bool :=
  match w.wait with
  | .sleep (some c) => decide (c.toNat ≤ (s.clock (s.groupOf w)).toNat)
  | .row line lead _ => (s.tower (s.groupOf w).tower).rowReady line lead
  | _ => false

/-- The retry of a held use whose tick has come (R423). -/
def State.retrySteps (s : State) (n : Nat) : Option Instr :=
  (s.held[n]?).bind fun h => if h.due ≤ (s.tower h.tower).now then some (.heldUseRetry n) else none

/-- Every step that may be due, the focus wave's first. -/
def State.candidates (s : State) : List Instr :=
  s.wave.engineSteps ++ s.wave.tokenSteps ++
    s.waves.flatMap (fun (w : Wave) => w.engineSteps ++ w.tokenSteps ++ w.waitSteps) ++ s.wave.waitSteps ++
    (s.allWaves.filter s.timeUp).flatMap Wave.timedSteps ++
    (if s.link.retraining then [.linkRetrainEnd true] else []) ++ (if s.clockStop then [.clockStepEnd] else []) ++
    (if s.link.retraining then [] else s.hostHeld) ++ s.tower0.steps 0 ++ s.tower1.steps 1 ++ (List.range s.held.length).filterMap s.retrySteps ++
    s.units.map (fun (u : WorkUnit) => .unitRetire u.id) ++ dealSteps 0 ++ dealSteps 1 ++
    s.allGroups.flatMap Group.steps ++ (s.groups ++ [s.group]).flatMap Group.runSteps ++
    s.allWaves.flatMap Wave.timedSteps

/-- Another wave that is in a run. -/
def State.otherRun (s : State) : Option WaveKey := (s.waves.find? fun (w : Wave) => w.inRun).map Wave.key

/-- Nothing is due: a tick passes, and a stalled wave tries again. -/
def State.idle (s : State) : State := { s.ticks 1 with stalled := false }

end Sys2Proof.Machine
end

