-- ==== Sys2Proof/Machine/Step.lean ====
section
/-! DEFINITION. One step of the machine: an event that the inbox holds, a turn of a named wave, the next
instruction of the wave in focus, or a step that is due of itself (log 4). -/

namespace Sys2Proof.Machine

/-- Fetch, decode and run the focus wave's next instruction (R66, R85, R142); no core issues in a clock step (R421). A word
that does not issue yet leaves the wave held back, and its fetch is made when it issues. -/
def stepWave (s : State) : Host.Outcome State Fault Refusal :=
  if s.wave.inRun && !s.clockStop then
    match s.fetch with
    | .error t => .next (s.fetchFails t)
    | .ok w =>
      match decode w with
      | .error c => .next (s.fetchSeen.decodeFails w c)
      | .ok i => match exec i s.fetchSeen with
        | .next t => .next (if t.stalled then { s with stalled := true } else t)
        | o => o
  else .next s

/-- The first of a list of steps that changes the state. -/
def firstDue (s : State) : List Instr → Option State
  | [] => none
  | i :: is => match exec i s with
    | .next t => if t = s then firstDue s is else some t
    | _ => firstDue s is

/-- A step that nobody asked for: one that is due, else another wave's run goes on, else time passes. -/
def autoStep (s : State) : State :=
  let s := { s with stalled := false }
  match (s.reportDone 0).or (s.reportDone 1) with
  | some t => t
  | none =>
  match firstDue s s.candidates with
  | some t => t
  | none => match s.otherRun with
    | some k => s.focusOn k
    | none => s.idle

/-- One step. An inbox entry that has a word is no event, and is dropped. -/
def step (s : State) : Host.Outcome State Fault Refusal :=
  match s.inbox with
  | e :: es =>
    let s := { s with inbox := es, stalled := false }
    if (opOf e).isSome then .next s else exec e s
  | [] =>
    match s.turns with
    | k :: ks => stepWave ({ s with turns := ks, stalled := false }.focusOn k)
    | [] => if s.wave.inRun && !s.stalled && !s.clockStop then stepWave s else .next (autoStep s)

/-- `s` with the instruction of a table word stored where `step` fetches next (log 10). -/
def State.withFetchWord (s : State) (nbits w : Nat) : State := s.placeWord (BitVec.ofNat 96 (w % 2 ^ nbits))

end Sys2Proof.Machine
end

