-- ==== Sys2Proof/Safety.lean ====
section
/-! DEFINITION. What claims call a safe run, the invariants that they speak of, and the words in which they
say that an instruction has its own effect and leaves the rest alone. -/

namespace Sys2Proof

open Machine

/-- A step from `s` goes on. -/
def StepsOn (s : State) : Prop := ∃ t, step s = .next t

/-- A run of n steps from `s` that meets neither a fault nor a refusal. -/
def SafeRun (n : Nat) (s : State) : Prop := ∃ t, core.run n s = .next t

/-- The bytes of the device's memory stand in canonical form. -/
def MemOk (s : State) : Prop := Mem.wf s.mem = true

namespace Machine

/-- The word passes every check of Table 3.9 and no interlock holds it back, so that its own effect is what
happens next (R70, R85, R148). -/
def State.Issues (s : State) (i : Instr) (f : Fields) : Prop :=
  staticFault i = none ∧ interlocked (form i) f s.wave = false ∧ dynFault i (form i) f s = none

/-- The value of the register with an index of Table 3.4 is the same in two waves. -/
def Wave.sameReg (v w : Wave) (r : Nat) : Prop :=
  match Opnd.ofIndex r with
  | some (.v n) => v.vreg n = w.vreg n
  | some (.s n) => v.sreg n = w.sreg n
  | some (.t n) => v.temp n = w.temp n
  | some (.p n) => v.pred n = w.pred n
  | some (.z n) => v.tile n = w.tile n
  | _ => True

/-- Every register outside `keep` has the value that it had. -/
def Wave.regsBut (v w : Wave) (out : Nat → Prop) : Prop := ∀ r, ¬out r → v.sameReg w r

/-- The indices of a destination of `n` registers. -/
def destOf (o : Opnd) (n r : Nat) : Prop := Opnd.index o ≤ r ∧ r < Opnd.index o + n

/-- `e` is `s` but for the wave, and for the count of free values (log 19): memory, local memories, both
towers, groups, units, launches and every other wave are untouched. -/
def State.waveOnly (e s : State) : Prop := e = { s with wave := e.wave, free := e.free }

/-- `v` is `w` but for registers, `em`, the log of late writes, sticky flags, and where it goes next. -/
def Wave.regsOnly (v w : Wave) : Prop :=
  v = { w with vregs := v.vregs, sregs := v.sregs, preds := v.preds, temps := v.temps, late := v.late,
               em := v.em, wflags := v.wflags, npc := v.npc, pendTrap := v.pendTrap }

/-- An exact integer as a type of `w` bits holds it: clamped with .SAT, wrapped without (R41). -/
def fitted (w : Nat) (sg sat : Bool) (x : Int) : Int :=
  if sat then
    if sg then max (-(2 ^ (w - 1))) (min (2 ^ (w - 1) - 1) x) else max 0 (min (2 ^ w - 1) x)
  else if sg then Int.bmod x (2 ^ w) else x % 2 ^ w

/-- The word answers the state in which the effect `e` retires: its token is set, its pc is `e`'s next pc, its
words count, and with END its run ends (R69, R142, R146). -/
def effects (i : Instr) (f : Fields) (s e : State) : Prop := exec i s = .next (e.retire i (form i) f)

/-- A word of one destination that writes, in every lane of `em`, a result that meets `ok`, with a tag, and
raises no flag: it has that effect whenever it issues. -/
def laneResult (k : Fields → Instr) (tag : Fields → Ctx → BitVec 4) (ok : Fields → Ctx → Nat → Word → Prop) : Prop :=
  ∀ (f : Fields) (s : State), s.Issues (k f) f →
    let x := s.ctx (form (k f)) f
    ∃ (l : Lat) (v : Nat → Word), (∀ i < 32, ok f x i (v i)) ∧
      effects (k f) f s (x.s.write f.d s.wave.em l (tag f x) (lanesFn v))

/-- The lanes whose flags an instruction raises: those of `em`, or the one of the scalar pipe (R49, R151). -/
def flagLanes (f : Fields) (s : State) : Mask := if isS f.d || isEm f.d then 1 else s.wave.em

/-- A word that writes rounded results and raises the flags of the lanes that it writes. -/
def roundResult (k : Fields → Instr) (tag : Fields → BitVec 4) (val : Fields → Ctx → Nat → FRes) : Prop :=
  ∀ (f : Fields) (s : State), s.Issues (k f) f →
    let x := s.ctx (form (k f)) f
    ∃ l : Lat, effects (k f) f s
      ((x.s.write f.d s.wave.em l (tag f) (lanesFn fun i => BitVec.ofNat 32 (val f x i).val)).raise
        (orFlags (flagLanes f s) fun i => (val f x i).fl))

/-- A word that writes a predicate in the lanes of `em`. -/
def predResult (k : Fields → Instr) (val : Fields → Ctx → Nat → Bool) : Prop :=
  ∀ (f : Fields) (s : State), s.Issues (k f) f →
    let x := s.ctx (form (k f)) f
    ∃ l : Lat, effects (k f) f s (x.s.writePred f.d s.wave.em l (maskOf (val f x)))

/-- The magnitude of a pattern in units of the least positive value of its format, and its value in them (R43). -/
def Fmt.mag (f : Fmt) (v : Nat) : Nat :=
  let e := v % f.sign / 2 ^ f.fw
  if e = 0 then v % 2 ^ f.fw else (2 ^ f.fw + v % 2 ^ f.fw) * 2 ^ (e - 1)
def Fmt.neg (f : Fmt) (v : Nat) : Bool := decide (f.sign ≤ v)
def Fmt.units (f : Fmt) (v : Nat) : Int := if f.neg v then -(f.mag v : Int) else f.mag v
/-- 1.0 in these units. -/
def Fmt.one (f : Fmt) : Nat := 2 ^ (f.bias + f.fw - 1)
/-- The pattern above the largest finite one: that of infinity, or of the NaN where the format has no infinity (R44). -/
def Fmt.top (f : Fmt) : Nat := if f.hasInf then f.inf else f.sign - 1
/-- Patterns of finite values, of infinities and of NaNs (R43). -/
def Fmt.isFin (f : Fmt) (v : Nat) : Prop := v % f.sign < f.top
def Fmt.isInf (f : Fmt) (v : Nat) : Prop := f.hasInf = true ∧ v % f.sign = f.inf
def Fmt.isNan (f : Fmt) (v : Nat) : Prop := if f.hasInf then f.inf < v % f.sign else v % f.sign = f.sign - 1
/-- An exact value x / d rounded once, and the sign of an exact zero where the value is one (R47). -/
def Fmt.nearest (f : Fmt) (m : Rnd) (sat : Bool) (x : Int) (d : Nat) (zero : Bool) : FRes :=
  if x = 0 then f.zeroRes zero else f.round m sat (decide (x < 0)) x.natAbs d
/-- The sign of an exact sum of zero from terms of these signs (R47). -/
def zeroSign (m : Rnd) (l : List Bool) : Bool := if l.all id then true else if l.any id then decide (m = .rd) else false

/-- Everything outside the focus wave and its group that software can see is untouched: memory, local
memories, towers, units, launches, jobs, other waves and groups, poison, fuses. -/
def State.keepsAll (e s : State) : Prop :=
  e.mem = s.mem ∧ e.locals = s.locals ∧ e.tower0 = s.tower0 ∧ e.tower1 = s.tower1 ∧ e.units = s.units ∧
    e.launches = s.launches ∧ e.jobs = s.jobs ∧ e.waves = s.waves ∧ e.groups = s.groups ∧ e.poison = s.poison ∧
    e.fuses = s.fuses

/-- A tower keeps its registers, its broadcast window, its B-store, Damask, layers and queues of sectors: a store
to memory may only make changes and counts of its watch entries. -/
def Tower.keepsAll (t u : Tower) : Prop :=
  t.csr = u.csr ∧ t.bcast = u.bcast ∧ t.bstore = u.bstore ∧ t.damask = u.damask ∧ t.layers = u.layers ∧
    t.sectors = u.sectors ∧ t.access = u.access ∧ t.recs = u.recs ∧ t.almanac = u.almanac ∧ t.pixels = u.pixels

/-- A wave keeps every register outside `out` and all that governs where and how it runs: its mask, life and
mask stack, flags, trap registers, tokens and pc. -/
def Wave.keeps (v w : Wave) (out : Nat → Prop) : Prop :=
  v.regsBut w out ∧ v.em = w.em ∧ v.live = w.live ∧ v.stack = w.stack ∧ v.wflags = w.wflags ∧ v.sbchk = w.sbchk ∧
    v.tvec = w.tvec ∧ v.tepc = w.tepc ∧ v.tem = w.tem ∧ v.cause = w.cause ∧ v.inh = w.inh ∧ v.info = w.info ∧
    v.taddr = w.taddr ∧ v.tmask = w.tmask ∧ v.tokens = w.tokens ∧ v.pc = w.pc

/-- No register at all. -/
def noReg (_ : Nat) : Prop := False

/-- Every address of a word's access passes the checks of R239: the entry of its handle, the state with the
handle in a translation register, and the bytes of every address, all mapped and granted. No table entry that the
translations read is poisoned (R375). -/
def Ctx.grants (x : Ctx) (need : Need) (k : AccKind) (n align : Nat) (ls : List (Nat × Int)) (e : BitVec 256) (y : Ctx)
    (gs : List GLane) : Prop :=
  x.access need n align ls = .ok (e, y) ∧
    ∃ p : Plan, y.plan e k n ls = .ok p ∧ p.go = gs ∧ p.missing = [] ∧ p.denied = [] ∧ p.records y.s = y.s

/-- The same for the one address of a uniform word, whose bytes one page holds. -/
def Ctx.grantsOne (x : Ctx) (need : Need) (n align : Nat) (k : AccKind) (g : GLane) (y : Ctx) : Prop :=
  x.place need n align k = .ok (g, y) ∧ y.s.tower0 = x.s.tower0 ∧ y.s.tower1 = x.s.tower1

/-- The bytes that n bytes stored at a lane's address may change: those bytes, and where its page was discarded
the rest of the frame and the page's entry (R235). -/
def GLane.covers (g : GLane) (n a : Nat) : Prop :=
  (g.hit.dpa ≤ a ∧ a < g.hit.dpa + n) ∨
    (g.hit.disc = true ∧ (a / 2 ^ 16 = g.hit.dpa / 2 ^ 16 ∨ (g.hit.at_ ≤ a ∧ a < g.hit.at_ + 8)))

/-- Every byte of memory that no address of a store covers reads as before, every local memory is as before, and
the towers keep what they hold. -/
def State.storedAt (e s : State) (gs : List GLane) (n : Nat) : Prop :=
  (∀ a, (∀ g ∈ gs, ¬g.covers n a) → Mem.read e.mem a = Mem.read s.mem a) ∧ e.locals = s.locals ∧
    e.tower0.keepsAll s.tower0 ∧ e.tower1.keepsAll s.tower1 ∧ e.waves = s.waves ∧ e.units = s.units ∧ e.launches = s.launches

/-- The memory with the bytes of some lanes stored in their order. -/
def storeAll (n : Nat) (m : List Host.Cell) (l : List (GLane × Nat)) : List Host.Cell :=
  l.foldl (fun m p => Mem.writeBytes m p.1.hit.dpa (Mem.bytes p.2 n)) m

/-- A destination of one register, and of two. -/
def one : Fields → Nat := fun _ => 1
def two : Fields → Nat := fun _ => 2

/-- The words of the groups 0x1 to 0x8 with the number of registers of their destination: each has its effect
whenever it issues. -/
def registerWords : List ((Fields → Instr) × (Fields → Nat)) :=
  [(.iadd, one), (.isub, one), (.imul, one), (.imulhi, one), (.imad, one), (.iadd64, two), (.imul64, two), (.idiv, one),
   (.irem, one), (.imin, one), (.imax, one), (.iabs, one), (.ineg, one), (.and, one), (.or, one), (.xor, one), (.andn, one),
   (.not, one), (.shl, one), (.shr, one), (.sar, one), (.rol, one), (.shl64, two), (.shr64, two), (.bfe, one), (.bfi, one),
   (.popc, one), (.clz, one), (.ctz, one), (.brev, one), (.lea, one), (.mov, fun f => if tsel f = 1 then 2 else 1), (.movi, one), (.icmp, one), (.fcmp, one),
   (.sel, one), (.pand, one), (.por, one), (.pxor, one), (.pnot, one), (.p2v, one), (.v2p, one), (.pmov, one), (.fadd, one),
   (.fsub, one), (.fmul, one), (.ffma, one), (.fdiv, one), (.fmin, one), (.fmax, one), (.fabs, one), (.fneg, one), (.fclass, one),
   (.ffloor, one), (.fceil, one), (.ftrunc, one), (.frint, one), (.ffract, one), (.dadd, two), (.dmul, two), (.dfma, two),
   (.dcvt, fun f => if tsel f = 1 ∨ tsel f = 7 then 1 else 2), (.hadd2, one), (.hmul2, one), (.hfma2, one), (.hmin2, one), (.hmax2, one), (.fdot2, one), (.cvt, one),
   (.pack2, one), (.unpk, two), (.cvtq, two), (.cvtdq, fun f => if tsel f = 0 then 8 else 4), (.frcp, one), (.frsq, one), (.fsqrt, one), (.fexp2, one),
   (.flog2, one), (.fsin, one), (.fcos, one), (.ftanh, one), (.fsigm, one), (.shfl, one), (.shflup, one), (.shfldn, one),
   (.shflx, one), (.permq, one), (.voteany, one), (.voteall, one), (.ballot, one), (.match_, one), (.redadd, one),
   (.redmin, one), (.redmax, one), (.redand, one), (.redor, one), (.scanadd, one)]

end Machine

end Sys2Proof
end

