-- ==== Sys2Proof/WellFormed.lean ====
section
/-! DEFINITION. Which terms of `Instr` are instructions that a word of memory can hold: those with an opcode
whose fields break none of the rules that decoding checks (Table 3.9, orders 2 to 5). -/

namespace Sys2Proof

/-- An instruction of the opcode map, not a step of the hardware. -/
def Instr.isWord (i : Instr) : Bool := (opOf i).isSome

/-- A well-formed instruction: it has a word, and decoding that word raises none of RESBITS, ILLFMT and GUARDAR. -/
def WellFormed (i : Instr) : Prop := i.isWord = true ∧ staticFault i = none

/-- The check of `WellFormed`. -/
def wellFormed (i : Instr) : Bool := i.isWord && (staticFault i).isNone

end Sys2Proof
end

