-- ==== Sys2Proof/Certificates/Slice0/Obligations.lean ====
section
/-! DEFINITION. The statements about this machine that its rules give, for the provers. -/

open Sys2Proof Sys2Proof.Machine

/-- Right after reset there is no job, launch, unit, group or waiting record, memory and the local memories list
nothing (and read 0, log 1), and memory stands in canonical form. Both towers are in state 1 of HSTAT with their
cores held, every layer is awake and in no transition, and the link is up. The Almanac holds the classes of Table
10.2: slot 45 of array 0 is transmitter 6 of class 1, and no slot belongs to a job. Control registers read their
reset values: CLSWAY, CLSBW, DSPGUARD, MIGCTL, LNTSWP, PROBETHR, BMARGIN, DSPRP and PWRCTL those of their tables,
and every counter and enable 0. The focus wave is no live wave (log 3), and the panel link is locked (log 15).
That a tower's time base starts at 0 is the model's choice too (log 5). (R8, R262, R276, R417, R425,
10_stack_and_towers.md, 20_host_boot_power.md) -/
def Obligations.ResetState : Prop :=
  let s := State.reset
  MemOk s ∧ s.jobs = [] ∧ s.launches = [] ∧ s.units = [] ∧ s.groups = [] ∧ s.waves = [] ∧ s.wave.alive = false ∧ s.wave.inRun = false ∧
  s.plq = [] ∧ s.held = [] ∧ s.mem = [] ∧ (∀ a, Mem.read s.mem a = 0) ∧ s.locals = [] ∧ s.poison = [] ∧ s.inbox = [] ∧ s.turns = [] ∧
  s.link = ⟨false, 0, false⟩ ∧ s.powerNow = none ∧
  ∀ t : TowerId,
    s.winRead t 0x4000 = 1 ∧ (s.tower t).booted = false ∧ (∀ l < 8, (s.tower t).layer l = ⟨.awake, none, none⟩) ∧
    (s.tower t).now = 0 ∧ (s.tower t).recs = [] ∧ (s.tower t).sectors = [] ∧ (s.tower t).triggers = [] ∧ (s.tower t).watches = [] ∧
    (s.tower t).panelLock = true ∧
    bits (almGet (s.tower t).almanac 0 45) 3 0 = 6 ∧ bits (almGet (s.tower t).almanac 0 45) 6 4 = 1 ∧ (∀ j, (s.tower t).slotsOf j = 0) ∧
    s.csrRead t 0x300 = 0x00021108 ∧ s.csrRead t 0x301 = 0x00024244 ∧ s.csrRead t 0x302 = 60 ∧ s.csrRead t 0x330 = 0xFF ∧
    s.csrRead t 0x332 = 256 ∧ s.csrRead t 0x357 = 0x00003C00 ∧ s.csrRead t 0x359 = 100 ∧ s.csrRead t 0x35E = 0x41800000 ∧
    s.csrRead t 0x364 = 2500 ∧ s.csrRead t 0x371 = 500 ∧ s.csrRead t 0x3A0 = 0x00D20002 ∧
    ∀ n ∈ [0x100, 0x103, 0x303, 0x331, 0x333, 0x334, 0x350, 0x35B, 0x360, 0x361, 0x370, 0x376, 0x380, 0x390], s.csrRead t n = 0

/-- Words given in the manual's worked encodings decode to the instructions they stand for: FADD with a
constant, an outward-rounded FFMA, a guarded LD, BRC and BRANY, HFMA2 of BF16, MMQ of E4M3, an LNCH, FETCHW,
STB, STS, an ATOM, a RAYQ, a WAKEW and an SMPRD. (R66, R67, R68, R72, R73, 03_instruction_word.md) -/
def Obligations.DecodedWords : Prop :=
  let g (k : Nat) (n : Bool) : Guard := ⟨n, BitVec.ofNat 4 k⟩
  let w (a b c : Nat) : Option Instr := decodeTableWord 96 (a + b * 2 ^ 32 + c * 2 ^ 64)
  w 0x0C152100 0x00020000 0x3F000000 = some (.fadd ⟨0x48, .v 10, .v 3, .v 0, g 0 false, ⟨1, false, false, false, 0, 0⟩, 0x3F000000⟩) ∧
  w 0x10284103 0x00000028 0x00000006 = some (.ffma ⟨0x10, .v 20, .v 4, .v 5, g 0 false, ⟨0, false, false, false, 0, 0⟩, 6⟩) ∧
  w 0x00196E40 0x01410018 0x00001007 = some (.ld ⟨0x5B, .v 12, .v 0, .v 3, g 0 true, ⟨0, false, false, true, 2, 0⟩, 0x1007⟩) ∧
  w 0x68000001 0x00100007 0x00000006 = some (.brc ⟨0, .v 0, .sp .em, .v 0, g 0 false, ⟨0, true, false, false, 0, 0⟩, 6⟩) ∧
  w 0x00000002 0x00114000 0x00000015 = some (.brany ⟨0, .v 0, .v 0, .v 0, g 4 true, ⟨0, true, false, false, 0, 0⟩, 0x15⟩) ∧
  w 0x04050582 0x00060018 0x3F803F80 = some (.hfma2 ⟨0x41, .v 2, .v 1, .v 3, g 0 false, ⟨3, false, false, false, 0, 0⟩, 0x3F803F80⟩) ∧
  w 0x43E40B00 0x00000AA0 0x00000C11 = some (.mmq ⟨2, .z 2, .v 16, .s 20, g 0 false, ⟨0, false, false, false, 0, 0⟩, 0xC11⟩) ∧
  w 0x03960740 0x08D00A30 0x00002002 = some (.lnch ⟨1, .p 3, .v 0, .s 6, g 0 false, ⟨0, true, false, true, 1, 2⟩, 0x2002⟩) ∧
  w 0x50000344 0x11500A45 0x00000004 = some (.fetchw ⟨0, .v 0, .s 20, .s 8, g 0 false, ⟨0, true, false, true, 2, 4⟩, 4⟩) ∧
  w 0x24012A46 0x00C00010 0x00004005 = some (.stb ⟨0x4A, .v 0, .v 9, .v 2, g 0 false, ⟨0, false, false, true, 1, 0⟩, 0x4005⟩) ∧
  w 0x60014A45 0x00000EC5 0x00001101 = some (.sts ⟨0x52, .v 0, .s 24, .sp .nil, g 0 false, ⟨0, false, false, false, 0, 0⟩, 0x1101⟩) ∧
  w 0x000C5E80 0x00400020 0x00000002 = some (.atom ⟨0x17, .v 6, .v 0, .v 4, g 0 false, ⟨0, false, false, true, 0, 0⟩, 2⟩) ∧
  w 0xA0000784 0x01C11000 0x00000089 = some (.rayq ⟨1, .v 0, .v 40, .v 0, g 1 true, ⟨0, false, false, true, 3, 0⟩, 0x89⟩) ∧
  w 0x0A9807C7 0x00100A25 0 = some (.wakew ⟨1, .s 12, .s 2, .s 4, g 0 false, ⟨0, true, false, false, 0, 0⟩, 0⟩) ∧
  w 0x28400382 0x00C00A65 0x00000086 = some (.smprd ⟨0, .v 32, .s 10, .s 12, g 0 false, ⟨0, false, false, true, 1, 0⟩, 0x86⟩)

/-- With no event and no turn waiting and no clock step under way, a wave in a run whose last word was not held
back takes its next step as exec of the instruction that the twelve bytes at its pc decode to. A fetch that
fails takes its trap at the pair's first word, one that waits for the link leaves the wave held back, and a
word that does not decode traps with the cause that decoding names and the AWAIT of its own hint field. An
event in the inbox comes first, as exec of it; a named turn brings its wave into focus, and runs its
word unless a clock step holds the cores: inbox and turns are the model's choice (log 4). A word that does not issue
yet leaves the state as it was, with the wave held back. The walks of a fetch write records of the poisoned table
entries that they read (log 91); where no sector is poisoned a fetch changes only the counts of accesses to frames of
the other tower. What decodes is well formed, and every instruction that is not
well formed traps with the cause of its fault when it is executed. (R66, R70, R84, R85, R142, R282,
R354, R421, 03_instruction_word.md) -/
def Obligations.StepRunsTheDecodedWord : Prop :=
  (∀ (s t : State) (w : BitVec 96) (i : Instr), s.inbox = [] → s.turns = [] → s.wave.inRun = true → s.stalled = false →
    s.clockStop = false → s.fetch = .ok w → decode w = .ok i → exec i s.fetchSeen = .next t →
    step s = .next (if t.stalled then { s with stalled := true } else t)) ∧
  (∀ (s : State) (w : BitVec 96) (c : Cause), s.inbox = [] → s.turns = [] → s.wave.inRun = true → s.stalled = false →
    s.clockStop = false → s.fetch = .ok w → decode w = .error c →
    step s = .next (s.fetchSeen.takeTrap (.plain c) s.wave.pairStart s.wave.pairStart (if w.getLsbD 52 then w.extractLsb' 58 6 else 0))) ∧
  (∀ (s : State) (x : Option TrapInfo), s.inbox = [] → s.turns = [] → s.wave.inRun = true → s.stalled = false →
    s.clockStop = false → s.fetch = .error x → step s = .next (match x with
      | some t => s.takeTrap t s.wave.pairStart s.wave.pairStart 0
      | none => { s with stalled := true })) ∧
  (∀ (s : State) (e : Instr) (es : List Instr), s.inbox = e :: es → e.isWord = false →
    step s = exec e { s with
      inbox := es
      stalled := false }) ∧
  (∀ (s u : State) (k : WaveKey) (ks : List WaveKey) (w : BitVec 96) (i : Instr), s.inbox = [] → s.turns = k :: ks →
    let t := { s with
      turns := ks
      stalled := false }.focusOn k
    (t.wave.inRun = true → t.clockStop = false → t.fetch = .ok w → decode w = .ok i → exec i t.fetchSeen = .next u →
      step s = .next (if u.stalled then { t with stalled := true } else u)) ∧
    (t.clockStop = true → step s = .next t)) ∧
  (∀ s : State, s.poison = [] → s.fetchSeen = { s with remote := s.fetchSeen.remote } ∧
    (∀ l, s.fetchPlaces = .ok l → (∀ p ∈ l, dpaTower p.1 = s.group.tower) → s.fetchSeen = s)) ∧
  (∀ (w : BitVec 96) (i : Instr), decode w = .ok i → WellFormed i) ∧
  (∀ (i : Instr) (op : Nat) (f : Fields) (s : State) (c : Cause), opOf i = some (op, f) → staticFault i = some c →
    exec i s = .next (s.takeTrap (.plain c) s.wave.pairStart s.wave.pairStart (awaitOf i f)))

/-- For every instruction of the opcode map, with its fields at every value that its checks admit, decoding the
word that encode builds from the tables of the spec gives that instruction back. For every 96-bit word that
decodes, encoding what it decodes to gives that word again, so no bit of a word is dropped and no two words
stand for one instruction; and what it decodes to is well formed. (R66, R67, R71, R72, R73, R85,
03_instruction_word.md) -/
def Obligations.DecodeAndEncodeAgree : Prop :=
  (∀ i : Instr, WellFormed i → ∃ w : BitVec 96, encode i = some w ∧ decode w = .ok i) ∧
  (∀ (w : BitVec 96) (i : Instr), decode w = .ok i → encode i = some w ∧ WellFormed i)

/-- For every state whose device memory stands in canonical form (addresses strictly rising, no entry equal to what an
unlisted address reads as), whatever step the machine takes, of an instruction, of the hardware or of the host,
leaves it in that form, and memory right after reset has it; and from every state there is a next one: no
instruction and no event ends in a fault or a refusal. The canonical form is the model's own choice of how it
holds memory (log 74), and no rule of the spec. (11_memory_model.md, 95_what_each_step_holds.md) -/
def Obligations.MemoryStaysCanonical : Prop :=
  MemOk State.reset ∧ (∀ s t : State, MemOk s → step s = .next t → MemOk t) ∧ (∀ s : State, StepsOn s)

/-- Each word of the groups 0x1 to 0x8 (IADDC and ISUBB, which also write a predicate, are in a statement of
their own) that passes its checks answers a next state in which its effect retires. The effect changes
nothing outside the wave: no byte of memory or of a local memory, no tower, group, unit or launch, no other
wave. Within the wave it changes only the destination registers, the log of late writes, sticky flags, the
trap of an enabled flag, em where d is em, and the next pc, which is the address of the following word.
Tiles, stack, LIVE, tokens and every special register of the wave keep their values. (R145, R151, R152,
R158, R164, R167, R186, 06_issue_control_integer.md) -/
def Obligations.ArithmeticWordsCompleteAndKeepTheRest : Prop :=
  ∀ p ∈ registerWords, ∀ (f : Fields) (s : State), s.Issues (p.1 f) f →
    ∃ e : State, effects (p.1 f) f s e ∧ e.waveOnly s ∧ e.wave.regsOnly s.wave ∧
      e.wave.npc = s.wave.pc + 12 ∧ (f.d ≠ .sp .em → e.wave.em = s.wave.em) ∧
      (e.wave.wflags &&& s.wave.wflags = s.wave.wflags) ∧
      e.wave.regsBut s.wave (destOf f.d (p.2 f))

/-- Writing an operand under a mask gives a v register the tag and, in the lanes of the mask, the new words, and
keeps the words of its other lanes; an s register takes lane 0 whatever the mask is; em takes lane 0 AND
LIVE; nil and every other special operand discard the write; a p register takes bit 0 of each lane of the
mask, and a t register the tag and the new words of those lanes. No other register changes, em only where it
is the operand, and LIVE, the flags, the next pc, the pending trap and all else of the wave stand, but the
log of late writes; nothing outside the wave changes but the count of free values that fill a dead temporary
(log 19). (R59, R74, R151, R152, 02_number_formats.md) -/
def Obligations.OperandWritesReachOnlyTheirRegister : Prop :=
  ∀ (s : State) (o : Opnd) (m : Mask) (l : Machine.Lat) (tag : BitVec 4) (x : Lanes),
    (s.write o m l tag x).waveOnly s ∧ (s.write o m l tag x).wave.regsOnly s.wave ∧
    (s.write o m l tag x).wave.regsBut s.wave (destOf o 1) ∧
    (∀ n, o = .v n → ((s.write o m l tag x).wave.vreg n).tag = tag ∧ ∀ i < 32,
      laneAt ((s.write o m l tag x).wave.vreg n).lanes i =
        if laneOn m i then laneAt x i else laneAt (s.wave.vreg n).lanes i) ∧
    (∀ n, o = .s n → (s.write o m l tag x).wave.sreg n = laneAt x 0) ∧
    (o = .sp .em → (s.write o m l tag x).wave.em = laneAt x 0 &&& s.wave.live) ∧
    (o ≠ .sp .em → (s.write o m l tag x).wave.em = s.wave.em) ∧
    (s.write o m l tag x).wave.wflags = s.wave.wflags ∧ (s.write o m l tag x).wave.npc = s.wave.npc ∧
    (s.write o m l tag x).wave.pendTrap = s.wave.pendTrap ∧
    (∀ n, o = .p n → ∀ i < 32, laneOn ((s.write o m l tag x).wave.pred n) i =
      if laneOn m i then (laneAt x i).getLsbD 0 else laneOn (s.wave.pred n) i) ∧
    (∀ n, o = .t n → ∃ r, (s.write o m l tag x).wave.temp n = some r ∧ r.tag = tag ∧ (∀ i < 32, laneOn m i = true →
      laneAt r.lanes i = laneAt x i) ∧ ∀ q, s.wave.temp n = some q → ∀ i < 32, laneOn m i = false → laneAt r.lanes i = laneAt q.lanes i) ∧
    (o = .sp .nil → s.write o m l tag x = s)

/-- When a word retires and no trap of an enabled flag is pending, the wave goes on at the next pc that its
effect named. Every v, s and p register, every tile, em, LIVE, the mask stack and the flags are as the
effect left them, and so are all of memory and every local memory. Without END the run counts one word, its
nominal time passes one clock and its ST, and the token of a word that carries TV is set; a memory or
atomics word ends the life of every temporary. With END, where LIVE is not zero and the group is not to end,
the wave is in no run, its temporaries hold no value, its late writes have all landed, its next run waits
for the tokens of its AWAIT field, and the wave lives on. (R69, R142, R145, R146, R149, R157,
06_issue_control_integer.md) -/
def Obligations.RetiringAndRunEndsKeepTheRest : Prop :=
  ∀ (e : State) (i : Instr) (f : Fields), e.wave.pendTrap = none →
    let t := e.retire i (form i) f
    (f.hint.stop = false →
      t.wave.pc = e.wave.npc ∧ t.wave.runLen = e.wave.runLen + 1 ∧
      t.wave.time = e.wave.time + 1 + f.hint.st.toNat ∧ t.wave.inRun = e.wave.inRun ∧
      t.wave.vregs = e.wave.vregs ∧ t.wave.sregs = e.wave.sregs ∧ t.wave.preds = e.wave.preds ∧
      t.wave.tiles = e.wave.tiles ∧ t.wave.em = e.wave.em ∧ t.wave.live = e.wave.live ∧
      t.wave.wflags = e.wave.wflags ∧ t.wave.stack = e.wave.stack ∧ t.wave.npc = e.wave.npc ∧ t.wave.pendTrap = none ∧
      t.wave.tokens = (if f.hint.tv then e.wave.tokens ||| (1 <<< f.hint.tok.toNat) else e.wave.tokens) ∧
      t.wave.temps = (if (form i).mem then [] else e.wave.temps) ∧
      t.mem = e.mem ∧ t.locals = e.locals) ∧
    (f.hint.stop = true → e.wave.live ≠ 0 → e.group.kill = false → e.wave.alive = true →
      t.wave.pc = e.wave.npc ∧ t.wave.inRun = false ∧ t.wave.temps = [] ∧ t.wave.late = [] ∧
      t.wave.await = awaitOf i f ∧ t.wave.alive = true ∧
      t.wave.em = e.wave.em ∧ t.wave.live = e.wave.live ∧ t.wave.wflags = e.wave.wflags ∧
      t.wave.stack = e.wave.stack ∧ t.wave.pendTrap = none ∧
      t.wave.tokens = (if f.hint.tv then e.wave.tokens ||| (1 <<< f.hint.tok.toNat) else e.wave.tokens) ∧
      t.wave.vregs = e.wave.vregs ∧ t.wave.sregs = e.wave.sregs ∧ t.wave.preds = e.wave.preds ∧
      t.wave.tiles = e.wave.tiles ∧ t.mem = e.mem ∧ t.locals = e.locals)

/-- IADD, ISUB, IMUL, IMULHI, IMIN and IMAX of two sources and IABS and INEG of one give, in each element of the
type that TSEL names (one of 32 bits, two of 16, four of 8), the exact integer result as that type holds it:
wrapped, or with .SAT clamped to the type's range. IMULHI's exact result is the product divided by 2^32.
IMAD does so once for x times y plus z, and IADD64 and IMUL64 do so at 64 bits into a pair tagged I64. Every
other result carries the type's tag. (R41, R42, R57, R158, R159) -/
def Obligations.IntegerWordsGiveTheExactResultFitted : Prop :=
  (∀ p ∈ ([(.iadd, fun a b => a + b), (.isub, fun a b => a - b), (.imul, fun a b => a * b),
        (.imulhi, fun a b => a * b / 2 ^ 32), (.imin, fun a b => min a b), (.imax, fun a b => max a b)] :
        List ((Fields → Instr) × (Int → Int → Int))),
      laneResult p.1 (fun f _ => [1, 2, 10, 11, 8, 9].getD (tsel f) 0) fun f x i r =>
        ∀ j < 32 / intWidth (tsel f),
          let v (y : Word) := intVal (intWidth (tsel f)) (intSigned (tsel f)) (elem (intWidth (tsel f)) j y)
          v r = fitted (intWidth (tsel f)) (intSigned (tsel f)) (satOn f) (p.2 (v (x.la i)) (v (x.lb' i)))) ∧
    (∀ p ∈ ([(.iabs, fun a => (a.natAbs : Int)), (.ineg, fun a => -a)] : List ((Fields → Instr) × (Int → Int))),
      laneResult p.1 (fun f _ => [1, 2, 10, 11, 8, 9].getD (tsel f) 0) fun f x i r =>
        ∀ j < 32 / intWidth (tsel f),
          let v (y : Word) := intVal (intWidth (tsel f)) (intSigned (tsel f)) (elem (intWidth (tsel f)) j y)
          v r = fitted (intWidth (tsel f)) (intSigned (tsel f)) (satOn f) (p.2 (v (x.la' i)))) ∧
    (laneResult .imad (fun f _ => [1, 2].getD (tsel f) 0) fun f x i r =>
      let v (y : Word) := intVal 32 (intSigned (tsel f)) y.toNat
      v r = fitted 32 (intSigned (tsel f)) (satOn f) (v (x.la i) * v (x.lb i) + v (x.lc' i))) ∧
    (∀ p ∈ ([(.iadd64, fun a b => a + b), (.imul64, fun a b => a * b)] : List ((Fields → Instr) × (Int → Int → Int))),
      ∀ (f : Fields) (s : State), s.Issues (p.1 f) f →
        let x := s.ctx (form (p.1 f)) f
        let v (y : DWord) := intVal 64 (intSigned (tsel f)) y.toNat
        ∃ r : Nat → DWord,
          (∀ i, v (r i) = fitted 64 (intSigned (tsel f)) (satOn f)
            (p.2 (v (x.lane64 f.a i)) (v (x.l64 f.b (if intSigned (tsel f) then .sign else .zero) i)))) ∧
          effects (p.1 f) f s (x.s.write64 f.d s.wave.em .mul 13 r))

/-- IADDC writes a plus b plus the carry of the predicate c, truncated to 32 bits, and sets that predicate in
the lanes of em to whether the exact sum reached 2^32; ISUBB writes a minus b minus the borrow and sets the
predicate to whether the exact difference is below 0. TSEL selects only the result tag. (R160) -/
def Obligations.CarryChains : Prop :=
  (∀ (f : Fields) (s : State), s.Issues (.iaddc f) f →
      let x := s.ctx (form (.iaddc f)) f
      let c (i : Nat) : Nat := if laneOn (x.prd (opC f)) i then 1 else 0
      effects (.iaddc f) f s
        ((x.s.write f.d s.wave.em .int (if tsel f = 0 then 1 else 2)
          (lanesFn fun i => x.la i + x.lb i + BitVec.ofNat 32 (c i))).writePred (opC f) s.wave.em .int
          (maskOf fun i => decide (2 ^ 32 ≤ (x.la i).toNat + (x.lb i).toNat + c i)))) ∧
    (∀ (f : Fields) (s : State), s.Issues (.isubb f) f →
      let x := s.ctx (form (.isubb f)) f
      let c (i : Nat) : Nat := if laneOn (x.prd (opC f)) i then 1 else 0
      effects (.isubb f) f s
        ((x.s.write f.d s.wave.em .int (if tsel f = 0 then 1 else 2)
          (lanesFn fun i => x.la i - x.lb i - BitVec.ofNat 32 (c i))).writePred (opC f) s.wave.em .int
          (maskOf fun i => decide ((x.la i).toNat < (x.lb i).toNat + c i))))

/-- IDIV gives the quotient truncated towards zero and IREM the remainder of the dividend's sign. A divisor of
zero gives IDIV 0x7FFFFFFF or 0x80000000 by the dividend's sign (0xFFFFFFFF for .N32) and IREM the dividend,
and raises DZ where its lane is active. The most negative dividend by minus one gives that dividend and
remainder 0. (R161) -/
def Obligations.DivisionAndItsCorners : Prop :=
  ∀ p ∈ ([(.idiv, false), (.irem, true)] : List ((Fields → Instr) × Bool)),
    ∀ (f : Fields) (s : State), s.Issues (p.1 f) f →
      let x := s.ctx (form (p.1 f)) f
      let quot (i : Nat) : Word :=
        if tsel f = 0 then
          if x.lb' i = 0 then (if (x.la i).msb then 0x80000000 else 0x7FFFFFFF)
          else if x.la i = 0x80000000 ∧ x.lb' i = 0xFFFFFFFF then 0x80000000
          else BitVec.ofInt 32 ((x.la i).toInt.tdiv (x.lb' i).toInt)
        else if x.lb' i = 0 then 0xFFFFFFFF else x.la i / x.lb' i
      let rem (i : Nat) : Word :=
        if x.lb' i = 0 then x.la i
        else if tsel f = 0 then
          if x.la i = 0x80000000 ∧ x.lb' i = 0xFFFFFFFF then 0
          else BitVec.ofInt 32 ((x.la i).toInt.tmod (x.lb' i).toInt)
        else x.la i % x.lb' i
      effects (p.1 f) f s
        ((x.s.write f.d s.wave.em .now (if tsel f = 0 then 1 else 2) (lanesFn (if p.2 then rem else quot))).raise
          (orFlags (flagLanes f s) fun i => if x.lb' i = 0 then Flags.dz else 0))

/-- AND, OR, XOR, ANDN, SHL, SHR, SAR and ROL of two sources, NOT and BREV of one, and LEA give in each lane the
bits that their entries name, with shift amounts taken modulo 32; SHL64 and SHR64 shift the pair by an
amount modulo 64, SHR64 with TSEL 1 filling with bit 63. All are tagged RAW but LEA, which is N32. (R57,
R158, R159) -/
def Obligations.BitWordsGiveTheirBits : Prop :=
  (∀ p ∈ ([(.and, fun a b => a &&& b), (.or, fun a b => a ||| b), (.xor, fun a b => a ^^^ b),
        (.andn, fun a b => a &&& ~~~b), (.shl, fun a b => a <<< (b.toNat % 32)),
        (.shr, fun a b => a >>> (b.toNat % 32)), (.sar, fun a b => a.sshiftRight (b.toNat % 32)),
        (.rol, fun a b => a.rotateLeft (b.toNat % 32))] : List ((Fields → Instr) × (Word → Word → Word))),
      laneResult p.1 (fun _ _ => 0) fun _ x i r => r = p.2 (x.la i) (x.lb' i)) ∧
    (laneResult .not (fun _ _ => 0) fun _ x i r => r = ~~~(x.la' i)) ∧
    (laneResult .brev (fun _ _ => 0) fun _ x i r => ∀ b < 32, r.getLsbD b = (x.la' i).getLsbD (31 - b)) ∧
    (laneResult .lea (fun _ _ => 2) fun f x i r => r = x.la i + (x.lb' i <<< tsel f)) ∧
    (∀ p ∈ ([(.shl64, fun _ a n => a <<< n),
        (.shr64, fun t a n => if t = 1 then a.sshiftRight n else a >>> n)] :
        List ((Fields → Instr) × (Nat → DWord → Nat → DWord))),
      ∀ (f : Fields) (s : State), s.Issues (p.1 f) f →
        let x := s.ctx (form (p.1 f)) f
        effects (p.1 f) f s (x.s.write64 f.d s.wave.em .mul 0 fun i =>
          p.2 (tsel f) (x.lane64 f.a i) ((x.lb' i).toNat % 64)))

/-- CLZ and CTZ give the number of zero bits above the highest and below the lowest set bit, and 32 for zero;
POPC adds up the bits. MOV copies the source with its tag, and MOV.B64 both registers each with its own;
MOVI writes the immediate with the tag that its mod names. (R57, R159, R163) -/
def Obligations.CountsAndMoves : Prop :=
  (laneResult .popc (fun _ _ => 2) fun _ x i r =>
      r.toNat = ((List.range 32).map fun b => ((x.la' i).getLsbD b).toNat).sum) ∧
    (laneResult .clz (fun _ _ => 2) fun _ x i r =>
      r.toNat ≤ 32 ∧ (∀ b < 32, 32 ≤ b + r.toNat → (x.la' i).getLsbD b = false) ∧
        (r.toNat < 32 → (x.la' i).getLsbD (31 - r.toNat) = true)) ∧
    (laneResult .ctz (fun _ _ => 2) fun _ x i r =>
      r.toNat ≤ 32 ∧ (∀ b < r.toNat, (x.la' i).getLsbD b = false) ∧
        (r.toNat < 32 → (x.la' i).getLsbD r.toNat = true)) ∧
    (laneResult .movi (fun f _ => f.mod.setWidth 4) fun f _ _ r => r = f.ext) ∧
    (∀ (f : Fields) (s : State), s.Issues (.mov f) f →
      let x := s.ctx (form (.mov f)) f
      effects (.mov f) f s
        (if tsel f = 1 then
          (x.s.write f.d s.wave.em .int (if immOn f then 0 else (x.src f.a).tag)
            (lanesFn fun i => (x.l64 f.a .zero i).setWidth 32)).write (Opnd.step f.d 1) s.wave.em .int
            (if immOn f then 0 else (x.src (Opnd.step f.a 1)).tag)
            (lanesFn fun i => (x.l64 f.a .zero i >>> 32).setWidth 32)
        else x.s.write f.d s.wave.em .int (x.srcI f.a).tag (lanesFn fun i => x.la' i)))

/-- With pos = y[4:0] and w = y[13:8], a width above 32 read as 32 and the other bits of y ignored: BFE gives
the bits from pos up to bit 31 at most, zero-extended, or sign-extended from the top bit of the field with
TSEL 1, and 0 for an empty field; BFI puts the low bits of x at pos into z, and mask bits above 31 are
dropped. (R162) -/
def Obligations.BitFieldsExtractAndInsert : Prop :=
  (laneResult .bfe (fun _ _ => 0) fun f x i r =>
      let p := bits (x.lb' i) 4 0
      let n := min (p + min (bits (x.lb' i) 13 8) 32) 32 - p
      (∀ b < n, r.getLsbD b = (x.la i).getLsbD (p + b)) ∧
        ∀ b, n ≤ b → b < 32 → r.getLsbD b = (decide (tsel f = 1) && decide (0 < n) && (x.la i).getLsbD (p + n - 1))) ∧
    (laneResult .bfi (fun _ _ => 0) fun _ x i r =>
      let p := bits (x.lb i) 4 0
      let n := min (bits (x.lb i) 13 8) 32
      ∀ b < 32, r.getLsbD b =
        if p ≤ b ∧ b < p + n then (x.la i).getLsbD (b - p) else (x.lc' i).getLsbD b)

/-- BRA goes to its own address plus four times its offset; BRC does so when its register is zero, or not zero with
.NZ; BRANY when some lane of em AND the guard is set; BRALL when em AND the guard equals em; LOOP counts d down
and goes there while it is not zero; CALL writes the address of the following word to its pair and goes there. RET
and JMPI go to the address in their pair when it is a multiple of 4, and trap ALIGN with that address when it is
not. When it does not branch the wave goes on at the following word. Only the next pc and the named registers
change. That TADDR of this ALIGN is the target is the model's choice (log 26): R155 gives the cause alone. (R153,
R154, R155, 06_issue_control_integer.md) -/
def Obligations.ControlWordsChooseTheNextAddress : Prop :=
  let goes (k : Fields → Instr) (c : Ctx → Fields → Bool) (e : Ctx → Fields → State) : Prop :=
    ∀ (f : Fields) (s : State), s.Issues (k f) f →
      let x := s.ctx (form (k f)) f
      effects (k f) f s
        ((e x f).goto (s.wave.pc + if c x f then 4 * f.ext.signExtend 64 else 12))
  goes .bra (fun _ _ => true) (fun x _ => x.s) ∧
  goes .brc (fun x f => if mbits f 0 0 = 1 then x.uni f.a ≠ 0 else x.uni f.a = 0) (fun x _ => x.s) ∧
  goes .brany (fun x _ => x.m ≠ 0) (fun x _ => x.s) ∧
  goes .brall (fun x _ => x.m = x.s.wave.em) (fun x _ => x.s) ∧
  goes .loop (fun x f => x.uni f.d ≠ 1) (fun x f => x.s.writeS f.d .int (x.uni f.d - 1)) ∧
  goes .call (fun _ _ => true) (fun x f => x.s.writeS64 f.d .int (x.s.wave.pc + 12)) ∧
  (∀ k ∈ ([.ret, .jmpi] : List (Fields → Instr)), ∀ (f : Fields) (s : State), s.Issues (k f) f →
    let a := (s.ctx (form (k f)) f).lane64 f.a 0
    (a.toNat % 4 = 0 → effects (k f) f s (s.goto a)) ∧
    (a.toNat % 4 ≠ 0 → exec (k f) s = .next (({ s.goto (s.wave.pc + 12) with stalled := false }).takeTrap (.at_ .align a 0)
      s.wave.pairStart s.wave.pairStart (awaitOf (k f) f))))

/-- EMSET sets em to its operand AND LIVE. EMPUSH puts em on a stack of at most eight masks and EMPOP takes the
top, AND LIVE; a full or an empty stack traps ILLFMT. EMAND clears the lanes of em that its predicate, or
its inverse with .NOT, does not set. EXIT removes the lanes of em AND the guard from LIVE, em and every mask
of the stack. NOP, YIELD and WAITTOK have no effect but their run end. SLEEPW consumes a pending wake, and
otherwise makes the wave sleep: for its operand times 64 clk, or until it is woken when the operand is 0.
(R152, R153, R156, R157, R369) -/
def Obligations.MaskAndLifeWords : Prop :=
  let on (s : State) : State := s.goto (s.wave.pc + 12)
  let set (s : State) (w : Wave) : State := on { s with wave := w }
  (∀ k ∈ ([.nop, .yield, .waittok] : List (Fields → Instr)), ∀ (f : Fields) (s : State),
    s.Issues (k f) f → effects (k f) f s (on s)) ∧
  (∀ (f : Fields) (s : State), s.Issues (.emset f) f →
    effects (.emset f) f s (set s { s.wave with em := (s.ctx (form (.emset f)) f).uni f.a &&& s.wave.live })) ∧
  (∀ (f : Fields) (s : State), s.Issues (.emand f) f →
    let p := (s.ctx (form (.emand f)) f).prd f.a
    effects (.emand f) f s
      (set s { s.wave with em := s.wave.em &&& (if mbits f 0 0 = 1 then ~~~p else p) })) ∧
  (∀ (f : Fields) (s : State), s.Issues (.empush f) f →
    (s.wave.stack.length < 8 → effects (.empush f) f s (set s { s.wave with stack := s.wave.em :: s.wave.stack })) ∧
    (8 ≤ s.wave.stack.length → exec (.empush f) s = .next (({ on s with stalled := false }).takeTrap (.plain .illfmt)
      s.wave.pairStart s.wave.pairStart (awaitOf (.empush f) f)))) ∧
  (∀ (f : Fields) (s : State), s.Issues (.empop f) f →
    (∀ m st, s.wave.stack = m :: st →
      effects (.empop f) f s (set s { s.wave with em := m &&& s.wave.live, stack := st })) ∧
    (s.wave.stack = [] → exec (.empop f) s = .next (({ on s with stalled := false }).takeTrap (.plain .illfmt)
      s.wave.pairStart s.wave.pairStart (awaitOf (.empop f) f)))) ∧
  (∀ (f : Fields) (s : State), s.Issues (.exit f) f →
    let k := ~~~(maskFor f s.wave (s.ctx (form (.exit f)) f).w)
    effects (.exit f) f s (set s { s.wave with
      live := s.wave.live &&& k, em := s.wave.em &&& k, stack := s.wave.stack.map (· &&& k) })) ∧
  (∀ (f : Fields) (s : State), s.Issues (.sleepw f) f →
    let n := (s.ctx (form (.sleepw f)) f).uni f.a
    effects (.sleepw f) f s (set s
      (if s.wave.wakePend then { s.wave with wakePend := false }
       else { s.wave with wait := .sleep (if n = 0 then none else some (s.clock s.group + n.setWidth 64 * 64)) })))

/-- ICMP's eight codes compare signed or unsigned words. PAND, POR, PXOR and PNOT combine predicates, V2P is set
where the word is not zero, P2V gives 1 or 0 tagged N32, each in the lanes of em; PMOV writes the whole
predicate whatever em holds. SEL takes b where its predicate is set and c elsewhere, with the common tag of
the two when they are equal and RAW otherwise. (R57, R164, R165, R166, 06_issue_control_integer.md) -/
def Obligations.ComparisonsAndPredicates : Prop :=
  (predResult .icmp fun f x i =>
    let a := x.la i
    let b := x.lb' i
    [decide (a = b), decide (a ≠ b), decide (a.toInt < b.toInt), decide (a.toInt ≤ b.toInt), decide (b.toInt < a.toInt),
      decide (a.toNat < b.toNat), decide (a.toNat ≤ b.toNat), decide (b.toNat < a.toNat)].getD (tsel f) false) ∧
  (∀ p ∈ ([(.pand, and), (.por, or), (.pxor, xor)] : List ((Fields → Instr) × (Bool → Bool → Bool))),
    predResult p.1 fun f x i => p.2 (laneOn (x.prd f.a) i) (laneOn (x.prd f.b) i)) ∧
  (predResult .pnot fun f x i => !laneOn (x.prd f.a) i) ∧
  (predResult .v2p fun _ x i => decide (x.la i ≠ 0)) ∧
  (laneResult .p2v (fun _ _ => 2) fun f x i r => r = if laneOn (x.prd f.a) i then 1 else 0) ∧
  (∀ (f : Fields) (s : State), s.Issues (.pmov f) f →
    let x := s.ctx (form (.pmov f)) f
    effects (.pmov f) f s (x.s.writePred f.d 0xFFFFFFFF .int (x.la' 0))) ∧
  (laneResult .sel
    (fun f x => if immOn f ∨ (x.src f.b).tag = (x.src (opC f)).tag then (x.src f.b).tag else 0)
    fun f x i r => r = if laneOn (x.prd f.a) i then x.lb i else x.lc' i)

/-- FCMP of two F32 values: when either is a NaN only NE and UN are true and neither is raised as a flag; +0 and
-0 are equal; any other pair is ordered as its sign and magnitude are. It writes its predicate in the lanes
of em. (R165, 07_vector_arithmetic.md) -/
def Obligations.FloatCompareIsOrdered : Prop :=
  let nan (a : Word) : Prop := 0x7F800000 < (a &&& 0x7FFFFFFF).toNat
  let val (a : Word) : Int := if a.msb then -((a &&& 0x7FFFFFFF).toNat : Int) else (a.toNat : Int)
  predResult .fcmp (fun f x i => fcmpLane (tsel f) (x.la i) (x.lb' i)) ∧
  ∀ t < 8, ∀ a b : Word,
    (nan a ∨ nan b → fcmpLane t a b = (decide (t = 1) || decide (t = 6))) ∧
    (¬nan a → ¬nan b → fcmpLane t a b =
      [decide (val a = val b), decide (val a ≠ val b), decide (val a < val b), decide (val a ≤ val b),
        decide (val b < val a), decide (val b ≤ val a), false, true].getD t false)

/-- FADD, FSUB, FMUL, FFMA and FDIV, the packed HADD2, HMUL2 and HFMA2, FDOT2 and the scalar DADD, DMUL and DFMA
write the operation of their format rounded once in the mode of RND, saturated with .SAT, and raise the OR
of the flags of the lanes that they write. Packed results hold the result of the low halves below that of
the high halves. For finite operands the sum, difference, product, multiply-add and quotient are the exact value
rounded once, with the sign of R47 where it is zero; a NaN operand gives the canonical NaN without a flag, and
infinities, 0 × ∞, ∞ − ∞ and a division by zero give what R427 and R172 say, an infinite result of .SAT the largest
finite value. FDOT2 rounds the exact sum of two products and its addend once, and a NaN term, 0 × ∞ or infinities of
both signs make it the canonical NaN, an infinity of one sign that infinity. (R45, R47, R49, R171, R172, R175, R176,
R427, 07_vector_arithmetic.md) -/
def Obligations.FloatWordsRoundOnce : Prop :=
  (∀ p ∈ ([(.fadd, Fmt.f32.add), (.fsub, Fmt.f32.sub), (.fmul, Fmt.f32.mul), (.fdiv, Fmt.f32.div)] :
      List ((Fields → Instr) × (Rnd → Bool → Nat → Nat → FRes))),
    roundResult p.1 (fun _ => 3) fun f x i => p.2 (rnd f) (satOn f) (x.la i).toNat (x.lb' i).toNat) ∧
  (roundResult .ffma (fun _ => 3) fun f x i =>
    Fmt.f32.fma (rnd f) (satOn f) (x.la i).toNat (x.lb i).toNat (x.lc' i).toNat) ∧
  (∀ p ∈ ([(.hadd2, Fmt.add), (.hmul2, Fmt.mul)] : List ((Fields → Instr) × (Fmt → Rnd → Bool → Nat → Nat → FRes))),
    roundResult p.1 (fun f => if tsel f = 0 then 4 else 5) fun f x i =>
      let r (j : Nat) := p.2 (if tsel f = 0 then .f16 else .bf16) (rnd f) (satOn f) (elem 16 j (x.la i))
        (elem 16 j (x.lb' i))
      ⟨(r 0).val % 2 ^ 16 + 2 ^ 16 * ((r 1).val % 2 ^ 16), (r 0).fl ||| (r 1).fl⟩) ∧
  (roundResult .hfma2 (fun f => if tsel f = 0 then 4 else 5) fun f x i =>
    let r (j : Nat) := (if tsel f = 0 then Fmt.f16 else .bf16).fma (rnd f) (satOn f) (elem 16 j (x.la i))
      (elem 16 j (x.lb i)) (elem 16 j (x.lc' i))
    ⟨(r 0).val % 2 ^ 16 + 2 ^ 16 * ((r 1).val % 2 ^ 16), (r 0).fl ||| (r 1).fl⟩) ∧
  (roundResult .fdot2 (fun _ => 3) fun f x i =>
    let h (j : Nat) (y : Word) := (if tsel f = 0 then Fmt.f16 else .bf16).decode (elem 16 j y)
    Fmt.f32.sum (rnd f) (satOn f) [(h 0 (x.la i)).mul (h 0 (x.lb i)), (h 1 (x.la i)).mul (h 1 (x.lb i)),
      (Fmt.f32.decode (x.lc' i).toNat).term]) ∧
  (∀ p ∈ ([(.dadd, Fmt.f64.add), (.dmul, Fmt.f64.mul)] :
      List ((Fields → Instr) × (Rnd → Bool → Nat → Nat → FRes))),
    ∀ (f : Fields) (s : State), s.Issues (p.1 f) f →
      let x := s.ctx (form (p.1 f)) f
      let r := p.2 (rnd f) (satOn f) (x.lane64 f.a 0).toNat (x.l64 f.b .f64 0).toNat
      effects (p.1 f) f s ((x.s.writeS64 f.d .f64 (BitVec.ofNat 64 r.val)).raise r.fl)) ∧
  (∀ (f : Fields) (s : State), s.Issues (.dfma f) f →
    let x := s.ctx (form (.dfma f)) f
    let r := Fmt.f64.fma (rnd f) (satOn f) (x.lane64 f.a 0).toNat (x.lane64 f.b 0).toNat (x.l64 (opC f) .f64 0).toNat
    effects (.dfma f) f s ((x.s.writeS64 f.d .dfma (BitVec.ofNat 64 r.val)).raise r.fl)) ∧
  (∀ fm ∈ [Fmt.f32, .f64, .f16, .bf16], ∀ (m : Rnd) (sat : Bool) (x y z : Nat),
    let i (v : Nat) : Int := fm.units v
    let sg (v : Nat) : Bool := fm.neg v
    let p : Bool := sg x != sg y
    (fm.isFin x → fm.isFin y →
      fm.add m sat x y = fm.nearest m sat (i x + i y) fm.one (zeroSign m [sg x, sg y]) ∧
      fm.sub m sat x y = fm.nearest m sat (i x - i y) fm.one (zeroSign m [sg x, !sg y]) ∧
      fm.mul m sat x y = fm.nearest m sat (i x * i y) (fm.one * fm.one) p ∧
      (fm.isFin z → fm.fma m sat x y z = fm.nearest m sat (i x * i y + i z * fm.one) (fm.one * fm.one) (zeroSign m [p, sg z])) ∧
      (fm.mag y ≠ 0 → fm.div m sat x y = fm.round m sat p (fm.mag x) (fm.mag y)) ∧
      (fm.mag y = 0 → fm.div m sat x y = if fm.mag x = 0 then fm.nanRes Flags.iv else ⟨(fm.infRes sat p).val, Flags.dz⟩) ∧
      (fm.isInf z → fm.fma m sat x y z = fm.infRes sat (sg z))) ∧
    (fm.isNan x ∨ fm.isNan y → fm.add m sat x y = fm.nanRes 0 ∧ fm.sub m sat x y = fm.nanRes 0 ∧
      fm.mul m sat x y = fm.nanRes 0 ∧ fm.div m sat x y = fm.nanRes 0 ∧ fm.fma m sat x y z = fm.nanRes 0) ∧
    (fm.isInf x → fm.isFin y → fm.add m sat x y = fm.infRes sat (sg x) ∧ fm.sub m sat x y = fm.infRes sat (sg x) ∧
      fm.add m sat y x = fm.infRes sat (sg x) ∧ fm.sub m sat y x = fm.infRes sat (!sg x) ∧
      fm.div m sat x y = fm.infRes sat p ∧ fm.div m sat y x = fm.zeroRes p ∧
      fm.mul m sat x y = (if fm.mag y = 0 then fm.nanRes Flags.iv else fm.infRes sat p) ∧
      fm.mul m sat y x = (if fm.mag y = 0 then fm.nanRes Flags.iv else fm.infRes sat p)) ∧
    (fm.isInf x → fm.isInf y → fm.div m sat x y = fm.nanRes Flags.iv ∧ fm.mul m sat x y = fm.infRes sat p ∧
      fm.add m sat x y = (if p then fm.nanRes Flags.iv else fm.infRes sat (sg x)) ∧
      fm.sub m sat x y = (if p then fm.infRes sat (sg x) else fm.nanRes Flags.iv)) ∧
    (fm.isInf x → ¬fm.isNan y →
      let zero : Prop := fm.isFin y ∧ fm.mag y = 0
      ∀ r ∈ [fm.fma m sat x y z, fm.fma m sat y x z],
        (zero → r = fm.nanRes Flags.iv) ∧ (¬zero → fm.isFin z → r = fm.infRes sat p) ∧ (¬zero → fm.isNan z → r = fm.nanRes 0) ∧
        (¬zero → fm.isInf z → r = if sg z = p then fm.infRes sat p else fm.nanRes Flags.iv)) ∧
    (fm.isFin x → fm.isFin y → fm.isNan z → fm.fma m sat x y z = fm.nanRes 0) ∧
    fm.infRes sat p = ⟨fm.signed p (if sat then fm.max else fm.inf), 0⟩) ∧
  (∀ h ∈ [Fmt.f16, .bf16], ∀ (m : Rnd) (sat : Bool) (a b c d z : Nat),
    let r := Fmt.f32.sum m sat [(h.decode a).mul (h.decode b), (h.decode c).mul (h.decode d), (Fmt.f32.decode z).term]
    let nil (x y : Nat) : Prop := h.isInf x ∧ h.isFin y ∧ h.mag y = 0 ∨ h.isInf y ∧ h.isFin x ∧ h.mag x = 0
    let inf (x y : Nat) (n : Bool) : Prop := (h.isInf x ∧ ¬h.isNan y ∨ h.isInf y ∧ ¬h.isNan x) ∧ ¬nil x y ∧ (h.neg x != h.neg y) = n
    let some_ (n : Bool) : Prop := inf a b n ∨ inf c d n ∨ Fmt.f32.isInf z ∧ Fmt.f32.neg z = n
    let nan : Prop := (∃ v ∈ [a, b, c, d], h.isNan v) ∨ Fmt.f32.isNan z
    let iv : Prop := nil a b ∨ nil c d ∨ some_ false ∧ some_ true
    (iv → r = Fmt.f32.nanRes Flags.iv) ∧ (¬iv → nan → r = Fmt.f32.nanRes 0) ∧
    (¬iv → ¬nan → ∀ n, some_ n → r = Fmt.f32.infRes sat n) ∧
    ((∀ v ∈ [a, b, c, d], h.isFin v) → Fmt.f32.isFin z →
      r = Fmt.f32.nearest m sat ((h.units a * h.units b + h.units c * h.units d) * Fmt.f32.one + Fmt.f32.units z * (h.one * h.one : Nat))
        (h.one * h.one * Fmt.f32.one) (zeroSign m [h.neg a != h.neg b, h.neg c != h.neg d, Fmt.f32.neg z])))

/-- A value n/d of either sign is rounded once to F64, F32, F16, BF16, E4M3 or E5M2, subnormal results among them. With
no overflow .RZ gives the neighbour towards zero, .RU and .RD the neighbour above and below, and .RNE the nearer one,
of two as near the even one; .SAT changes nothing; OF is not raised, NX exactly where the result is inexact, and UF
where besides the value rounded to the format's precision with no least exponent lies below the least normal one. A
value whose rounded magnitude exceeds the largest finite one raises OF and NX alone, and gives what Table 2.2 says: that
largest value with .SAT, in E4M3 and in the modes that round towards zero there, else the infinity of its sign. An exact
zero keeps its sign. (R44, R46, R47, R49, 02_number_formats.md) -/
def Obligations.RoundingModesBracketTheExactValue : Prop :=
  ∀ fm ∈ [Fmt.f64, .f32, .f16, .bf16, .e4m3, .e5m2], ∀ (m : Rnd) (sat neg : Bool) (n d : Nat), 0 < d →
    let r := fm.round m sat neg n d
    let v := n * fm.one
    let x := fm.mag r.val
    let away : Prop := m = if neg then .rd else .ru
    let last := fm.mag fm.max * d
    let next := fm.mag fm.top * d
    let least := fm.mag (2 ^ fm.fw) * d
    let ovf : Prop := if m = .rne then last + next < 2 * v ∨ last + next = 2 * v ∧ fm.max % 2 = 1 else if away then last < v else next ≤ v
    let tiny : Prop := if m = .rne then 4 * v + d < 4 * least else if away then 2 * v + d ≤ 2 * least else v < least
    (n = 0 → r = fm.zeroRes neg) ∧
    (0 < n → ovf → r = ⟨fm.signed neg (if sat = true ∨ fm.hasInf = false ∨ ¬(m = .rne ∨ away) then fm.max else fm.inf),
      Flags.of_ ||| Flags.nx⟩) ∧
    (0 < n → ¬ovf → r.val < 2 * fm.sign ∧ fm.isFin r.val ∧ fm.neg r.val = neg ∧ r = fm.round m false neg n d ∧
      (m ≠ .rne → ¬away → x * d ≤ v ∧ v < fm.mag (r.val + 1) * d) ∧
      (away → v ≤ x * d ∧ (x ≠ 0 → fm.mag (r.val - 1) * d < v)) ∧
      (m = .rne → 2 * v ≤ (x + fm.mag (r.val + 1)) * d ∧ (2 * v = (x + fm.mag (r.val + 1)) * d → r.val % 2 = 0) ∧
        (x ≠ 0 → (fm.mag (r.val - 1) + x) * d ≤ 2 * v ∧ (2 * v = (fm.mag (r.val - 1) + x) * d → r.val % 2 = 0))) ∧
      r.fl = (if x * d = v then 0 else Flags.nx ||| if tiny then Flags.uf else 0))

/-- FABS clears bit 31 and FNEG inverts it, whatever the value is. FMIN and FMAX, the packed HMIN2 and HMAX2,
FCLASS and FFLOOR to FRINT write their result and raise no flag; FFRACT rounds and raises. A minimum or maximum is the
canonical NaN where an operand is a NaN, and else the bits of the lower or higher operand, −0 below +0. FFLOOR, FCEIL,
FTRUNC and FRINT give the integer next below, next above, next towards zero and in the mode RND, with the sign of x where
it is 0; an infinity passes, and a NaN becomes the canonical NaN. FFRACT rounds x − ⌊x⌋ once, 0x3F7FFFFF in place of 1.0
and +0 for every exact zero; a NaN gives the canonical NaN, and an infinity that NaN with IV. FCLASS sets
exactly one of its ten bits. (R45, R48, R173, R174, R175) -/
def Obligations.FloatSignsMinimaAndClasses : Prop :=
  (laneResult .fabs (fun _ _ => 3) fun _ x i r => ∀ b < 32, r.getLsbD b = (decide (b ≠ 31) && (x.la i).getLsbD b)) ∧
  (laneResult .fneg (fun _ _ => 3) fun _ x i r => ∀ b < 32, r.getLsbD b = (decide (b = 31) ^^ (x.la i).getLsbD b)) ∧
  (∀ p ∈ ([(.fmin, false), (.fmax, true)] : List ((Fields → Instr) × Bool)),
    laneResult p.1 (fun _ _ => 3) fun _ x i r =>
      r = BitVec.ofNat 32 (Fmt.f32.minmax p.2 (x.la i).toNat (x.lb' i).toNat)) ∧
  (∀ p ∈ ([(.hmin2, false), (.hmax2, true)] : List ((Fields → Instr) × Bool)),
    roundResult p.1 (fun f => if tsel f = 0 then 4 else 5) fun f x i =>
      let r (j : Nat) := (if tsel f = 0 then Fmt.f16 else .bf16).minmax p.2 (elem 16 j (x.la i)) (elem 16 j (x.lb' i))
      ⟨r 0 % 2 ^ 16 + 2 ^ 16 * (r 1 % 2 ^ 16), 0⟩) ∧
  (laneResult .fclass (fun _ _ => 2) fun _ x i r =>
    r = BitVec.ofNat 32 (Fmt.f32.classMask (x.la i).toNat) ∧ ∃ c < 10, r = BitVec.ofNat 32 (2 ^ c)) ∧
  (∀ p ∈ ([(.ffloor, fun _ => .rd), (.fceil, fun _ => .ru), (.ftrunc, fun _ => .rz), (.frint, rnd)] :
      List ((Fields → Instr) × (Fields → Rnd))),
    laneResult p.1 (fun _ _ => 3) fun f x i r => r = BitVec.ofNat 32 (Fmt.f32.integral (p.2 f) (x.la i).toNat)) ∧
  (roundResult .ffract (fun _ => 3) fun f x i => Fmt.f32.fract (rnd f) (x.la i).toNat) ∧
  (∀ fm ∈ [Fmt.f32, .f16, .bf16], ∀ (isMax : Bool) (x y : Nat),
    let r := fm.minmax isMax x y
    let k (v : Nat) : Int := if fm.neg v then -1 - (v - fm.sign : Nat) else v
    (fm.isNan x ∨ fm.isNan y → r = fm.nan) ∧
    (¬fm.isNan x → ¬fm.isNan y → (r = x ∨ r = y) ∧ ∀ v ∈ [x, y], if isMax then k v ≤ k r else k r ≤ k v)) ∧
  (∀ (m : Rnd) (x : Nat), x < 2 ^ 32 →
    let fm := Fmt.f32
    let r := fm.integral m x
    let v := fm.units x
    let one : Int := fm.one
    (fm.isNan x → r = fm.nan) ∧ (fm.isInf x → r = x) ∧
    (fm.isFin x → fm.isFin r ∧ fm.neg r = fm.neg x ∧ ∃ k : Int, fm.units r = k * one ∧
      match m with
      | .rd => k * one ≤ v ∧ v < (k + 1) * one
      | .ru => (k - 1) * one < v ∧ v ≤ k * one
      | .rz => k.natAbs * fm.one ≤ v.natAbs ∧ v.natAbs < (k.natAbs + 1) * fm.one
      | .rne => 2 * (v - k * one).natAbs ≤ fm.one ∧ (2 * (v - k * one).natAbs = fm.one → k % 2 = 0))) ∧
  (∀ (m : Rnd) (x : Nat),
    let fm := Fmt.f32
    let w := fm.units x - fm.units x / fm.one * fm.one
    let r := fm.nearest m false w fm.one false
    (fm.isNan x → fm.fract m x = fm.nanRes 0) ∧ (fm.isInf x → fm.fract m x = fm.nanRes Flags.iv) ∧
    (fm.isFin x → fm.fract m x = if r.val = 0x3F800000 then ⟨0x3F7FFFFF, r.fl⟩ else r))

/-- With segments of 32, 16, 8, 4 or 2 lanes, SHFL reads the lane that its operand names within the segment,
SHFLUP and SHFLDN the lane that many below or above, or its own where that would leave the segment, SHFLX
the lane whose place differs by exclusive OR; PERMQ reads within a quarter the lane that the selector's
field names; all copy the source's tag. VOTEANY and VOTEALL write a predicate of all ones or zeros in the
lanes of em, BALLOT the mask of active lanes whose predicate is set, MATCH the mask of active lanes with the
same bits. (R186, R187, R188, R189, R190) -/
def Obligations.LanesExchangeAndVote : Prop :=
  let from_ (k : Fields → Instr) (src : Fields → Ctx → Nat → Nat) : Prop :=
    laneResult k (fun f x => (x.src f.a).tag) fun f x i r => r = x.la (src f x i)
  let base (f : Fields) (i : Nat) : Nat := i / (32 / 2 ^ tsel f) * (32 / 2 ^ tsel f)
  let off (f : Fields) (i : Nat) : Nat := i % (32 / 2 ^ tsel f)
  from_ .shfl (fun f x i => base f i + (x.lb' i).toNat % (32 / 2 ^ tsel f)) ∧
  from_ .shflup (fun f x i => if (x.lb' i).toNat ≤ off f i then i - (x.lb' i).toNat else i) ∧
  from_ .shfldn (fun f x i => if off f i + (x.lb' i).toNat < 32 / 2 ^ tsel f then i + (x.lb' i).toNat else i) ∧
  from_ .shflx (fun f x i => base f i + (off f i ^^^ (x.lb' i).toNat % (32 / 2 ^ tsel f))) ∧
  from_ .permq (fun _ x i => i / 8 * 8 + bits (x.lb' 0) (3 * (i % 8) + 2) (3 * (i % 8))) ∧
  (∀ p ∈ ([(.voteany, fun v _ => decide (v ≠ 0)), (.voteall, fun v em => decide (v = em))] :
      List ((Fields → Instr) × (Mask → Mask → Bool))),
    predResult p.1 fun f x _ => p.2 (x.prd f.a &&& x.s.wave.em) x.s.wave.em) ∧
  (laneResult .ballot (fun _ _ => 2) fun f x _ r => r = x.prd f.a &&& x.s.wave.em) ∧
  (laneResult .match_ (fun _ _ => 2) fun f x i r => ∀ j < 32, laneOn r j =
    (laneOn x.s.wave.em j && decide ((if tsel f = 1 then x.lane64 f.a j = x.lane64 f.a i else x.la j = x.la i))))

/-- The integer REDADD gives every lane the wrapped sum of the active lanes, and integer SCANADD gives lane i
the sum of the active lanes up to i, or below i in its exclusive form. With some lane active, REDAND and
REDOR give the AND and OR of the active lanes, and the integer REDMIN and REDMAX the smallest and largest of
them. The F32 REDMIN and REDMAX give the canonical NaN where an active lane holds a NaN, and else the bits of the
smallest or largest active lane, −0 below +0. None of these raises a flag. The F32 forms of REDADD and SCANADD add by
the fixed tree and by the fixed steps, with +0.0 in inactive lanes, and raise the flags of every step. With no lane
active REDAND, REDOR, REDMIN and REDMAX write their tag, and change no lane. (R48, R59, R62, R63, R191, R192) -/
def Obligations.ReductionsCombineActiveLanes : Prop :=
  let act (x : Ctx) (i : Nat) : Word := if laneOn x.s.wave.em i then x.la i else 0
  (∀ (f : Fields) (s : State), tsel f < 2 → s.Issues (.redadd f) f →
    let x := s.ctx (form (.redadd f)) f
    ∃ l, effects (.redadd f) f s (x.s.write f.d s.wave.em l (if tsel f = 0 then 1 else 2)
      (splat (((List.range 32).map (act x)).foldl (· + ·) 0)))) ∧
  (∀ (f : Fields) (s : State), tsel f = 2 → s.Issues (.redadd f) f →
    let x := s.ctx (form (.redadd f)) f
    let t := treeSum (rnd f) (lanesFn (act x))
    ∃ l, effects (.redadd f) f s ((x.s.write f.d s.wave.em l 3 (splat t.1)).raise t.2)) ∧
  (∀ (f : Fields) (s : State), tsel f % 4 = 2 → s.Issues (.scanadd f) f →
    let x := s.ctx (form (.scanadd f)) f
    let t := scanLanes (fun a b => Fmt.f32.add (rnd f) false a.toNat b.toNat) (lanesFn (act x))
    ∃ l, effects (.scanadd f) f s ((x.s.write f.d s.wave.em l 3
      (lanesFn fun i => if tsel f < 4 then laneAt t.1 i else if i = 0 then 0 else laneAt t.1 (i - 1))).raise t.2)) ∧
  (∀ (f : Fields) (s : State), tsel f % 4 < 2 → s.Issues (.scanadd f) f →
    let x := s.ctx (form (.scanadd f)) f
    ∃ l, effects (.scanadd f) f s (x.s.write f.d s.wave.em l (if tsel f % 4 = 0 then 1 else 2)
      (lanesFn fun i => ((List.range (if tsel f < 4 then i + 1 else i)).map (act x)).foldl (· + ·) 0))) ∧
  (∀ p ∈ ([(.redand, and), (.redor, or)] : List ((Fields → Instr) × (Bool → Bool → Bool))),
    laneResult p.1 (fun _ _ => 0) fun _ x _ r => x.s.wave.em ≠ 0 → ∀ b < 32, r.getLsbD b =
      ((lanesOf x.s.wave.em).map fun j => (x.la j).getLsbD b).foldl p.2 (p.2 true false == false)) ∧
  (∀ p ∈ ([(.redmin, false), (.redmax, true)] : List ((Fields → Instr) × Bool)),
    laneResult p.1 (fun f _ => [1, 2, 3].getD (tsel f) 0) fun f x _ r => x.s.wave.em ≠ 0 →
      let nan (y : Word) : Prop := 0x7F800000 < (y &&& 0x7FFFFFFF).toNat
      let v (y : Word) : Int :=
        if tsel f < 2 then intVal 32 (intSigned (tsel f)) y.toNat
        else if y.msb then -1 - ((y &&& 0x7FFFFFFF).toNat : Int) else (y.toNat : Int)
      (tsel f = 2 → (∃ j, laneOn x.s.wave.em j ∧ nan (x.la j)) → r = 0x7FC00000) ∧
      ((tsel f < 2 ∨ tsel f = 2 ∧ ∀ j, laneOn x.s.wave.em j → ¬nan (x.la j)) →
        (∃ j, laneOn x.s.wave.em j ∧ r = x.la j) ∧
        ∀ j, laneOn x.s.wave.em j → if p.2 then v (x.la j) ≤ v r else v r ≤ v (x.la j))) ∧
  (∀ p ∈ ([(.redand, fun _ => 0), (.redor, fun _ => 0), (.redmin, fun t => [1, 2, 3].getD t 0), (.redmax, fun t => [1, 2, 3].getD t 0)] :
      List ((Fields → Instr) × (Nat → BitVec 4))), ∀ (f : Fields) (s : State), s.Issues (p.1 f) f → s.wave.em = 0 →
    ∃ e : State, effects (p.1 f) f s e ∧ ∀ n, f.d = .v n → (e.wave.vreg n).tag = p.2 (tsel f) ∧
      ∀ i < 32, laneAt (e.wave.vreg n).lanes i = laneAt (s.wave.vreg n).lanes i)

/-- CVT, PACK2 and the special functions write one result in each lane of em, with the tag of the type that they give,
and raise the flags of the lanes written; UNPK writes its pair with the wider type's tag and raises none. CVTQ reads
256 values, +0.0 in the lanes that are not active, and puts the codes of block k into lanes 8k to 8k + 7 of d by their
nibble places, tagged NQ4X8, and the four scale bytes, S and zeros into lanes 0, 1 and the rest of the next register,
tagged RAW. Where a value is a NaN or an infinity, S is 0x7FC00000, every scale 0xF8 and every code 7, with IV. Else S
is the largest magnitude, a block of zeros is written flushed, one whose ρ is below 2^−30 is written flushed with QZ,
and each other takes the least scale byte not below its ρ and for each element the code with the level nearest to x /
(σ × S), the smaller magnitude winning a tie. CVTDQ writes each element of its superblock, eight registers of F32 or
four of a packed 16-bit type: level × σ × S rounded once, +0.0 in a flushed block, and the canonical NaN where S is a
NaN or an infinity, with IV for the infinity; that these two come before the flushed block is the order of R183's
listing, beside R52's words (log 96). FRCP of a zero gives the infinity of its sign with DZ; FSQRT of a negative
number gives the canonical NaN with IV. (R52, R53, R54, R55, R57, R178, R180, R181, R182, R183, R184,
07_vector_arithmetic.md) -/
def Obligations.ConversionsAndFunctionsComplete : Prop :=
  (roundResult .cvt (fun f => [3, 3, 1, 2, 4, 5, 3, 3].getD (tsel f) 3) fun f x i =>
    cvtLane (tsel f) (rnd f) (satOn f) (x.la i)) ∧
  (roundResult .pack2 (fun f => [4, 5, 6, 7, 6, 7, 10, 8].getD (tsel f) 8) fun f x i =>
    packLane2 (tsel f) (rnd f) (satOn f) (x.la i) (x.lb i)) ∧
  (∀ p ∈ ([(.frcp, sfuRcp), (.frsq, sfuRsq), (.fsqrt, sfuSqrt), (.fexp2, sfuExp2), (.flog2, sfuLog2), (.fsin, sfuSin),
      (.fcos, sfuCos), (.ftanh, sfuTanh), (.fsigm, sfuSigm)] : List ((Fields → Instr) × (Rnd → Word → FRes))),
    roundResult p.1 (fun _ => 3) fun f x i => p.2 (rnd f) (x.la i)) ∧
  (∀ (f : Fields) (s : State), s.Issues (.unpk f) f →
    let x := s.ctx (form (.unpk f)) f
    let g (k : Nat) := lanesFn fun i => unpkLane (tsel f) k (x.la i)
    let tag : BitVec 4 := [3, 3, 4, 4, 5, 5, 1, 10].getD (tsel f) 10
    ∃ l, effects (.unpk f) f s ((x.s.write f.d s.wave.em l tag (g 0)).write (Opnd.step f.d 1) s.wave.em l tag (g 1))) ∧
  (∀ (f : Fields) (s : State), s.Issues (.cvtq f) f →
    let x := s.ctx (form (.cvtq f)) f
    let q := nqEncode ((List.range 256).map fun i =>
      if laneOn s.wave.em (i % 32) then laneAt (x.lanes (Opnd.step f.a (i / 32))) (i % 32) else 0)
    let block (k : Nat) : NqBlock := q.2.1.getD k ⟨0, [], false⟩
    ∃ (l : Machine.Lat) (u v : Lanes), effects (.cvtq f) f s
      (((x.s.write f.d s.wave.em l 12 u).write (Opnd.step f.d 1) s.wave.em l 0 v).raise q.2.2) ∧
      (∀ k < 4, ∀ i < 64, elem 4 (nqPos i % 8) (laneAt u (8 * k + nqPos i / 8)) = (block k).codes.getD i 0) ∧
      (∀ k < 4, elem 8 k (laneAt v 0) = (block k).scale) ∧ laneAt v 1 = q.1 ∧ ∀ i < 32, 2 ≤ i → laneAt v i = 0) ∧
  (∀ xs : List Word, xs.length = 256 →
    let q := nqEncode xs
    let mag (y : Word) : Nat := (y &&& 0x7FFFFFFF).toNat
    let bad : Prop := ∃ y ∈ xs, 0x7F800000 ≤ mag y
    let part (k : Nat) : List Word := (xs.drop (64 * k)).take 64
    let top (k : Nat) : Nat := ((part k).map f32Mag).foldl max 0
    let flushed (b : NqBlock) : Prop := b.scale = 0 ∧ b.codes = List.replicate 64 7
    let small (k : Nat) : Prop := 0 < top k ∧ top k * 2 ^ 30 < f32Mag q.1
    q.2.1.length = 4 ∧
    (bad → q.1 = 0x7FC00000 ∧ (∀ b ∈ q.2.1, b.scale = 0xF8 ∧ b.codes = List.replicate 64 7) ∧ q.2.2 = Flags.iv) ∧
    (¬bad → (∀ y ∈ xs, mag y ≤ q.1.toNat) ∧ (∃ y ∈ xs, q.1.toNat = mag y) ∧
      ((∃ k < 4, small k) → q.2.2 = Flags.qz) ∧ ((∀ k < 4, ¬small k) → q.2.2 = 0) ∧
      ∀ k < 4, ∀ b, q.2.1[k]? = some b → (top k = 0 ∨ small k → flushed b) ∧
        (0 < top k → ¬small k →
          let val (c : Nat) : Nat := (8 + c % 8) * 2 ^ (c / 8) * f32Mag q.1
          let off (y : Word) (c : Nat) : Nat := (256 * 2 ^ 34 * f32Units y - nqLevel c * val b.scale).natAbs
          8 ≤ b.scale ∧ b.scale < 256 ∧ top k * 2 ^ 34 ≤ val b.scale ∧ (∀ c, 8 ≤ c → c < b.scale → val c < top k * 2 ^ 34) ∧
          b.codes.length = 64 ∧ ∀ (i : Nat) (y : Word) (c : Nat), (part k)[i]? = some y → b.codes[i]? = some c → c < 16 ∧
            ∀ d < 16, off y c ≤ off y d ∧ (off y d = off y c → (nqLevel c).natAbs ≤ (nqLevel d).natAbs)))) ∧
  (∀ (f : Fields) (s : State), s.Issues (.cvtdq f) f →
    let x := s.ctx (form (.cvtdq f)) f
    let fm : Fmt := if tsel f = 0 then .f32 else if tsel f = 1 then .f16 else .bf16
    let el (i : Nat) : FRes := nqDecode fm (rnd f) (satOn f)
      (elem 4 (nqPos (i % 64) % 8) (laneAt (x.lanes f.a) (8 * (i / 64) + nqPos (i % 64) / 8)))
      (elem 8 (i / 64) (laneAt (x.lanes (Opnd.step f.a 1)) 0)) (laneAt (x.lanes (Opnd.step f.a 1)) 1)
    let n := if tsel f = 0 then 8 else 4
    let r (n i : Nat) : FRes := if tsel f = 0 then el (32 * n + i) else packRes 16 [el (64 * n + 2 * i), el (64 * n + 2 * i + 1)]
    ∃ l : Machine.Lat, effects (.cvtdq f) f s
      (((List.range n).foldl (fun e k => e.write (Opnd.step f.d k) s.wave.em l (if tsel f = 0 then 3 else if tsel f = 1 then 4 else 5)
        (lanesFn fun i => (r k i).word)) x.s).raise
        ((List.range n).foldl (fun a k => a ||| orFlags s.wave.em fun i => (r k i).fl) 0))) ∧
  (∀ (fm : Fmt) (m : Rnd) (sat : Bool) (c b : Nat) (w : Word),
    let r := nqDecode fm m sat c b w
    (w.toNat % 2 ^ 31 < 0x7F800000 → b / 8 % 32 = 0 → r = fm.zeroRes false) ∧
    (0x7F800000 < w.toNat % 2 ^ 31 → r = fm.nanRes 0) ∧
    (w.toNat % 2 ^ 31 = 0x7F800000 → r = fm.nanRes Flags.iv) ∧
    (b / 8 % 32 ≠ 0 → ∀ ng k e, Fmt.f32.decode w.toNat = .fin ng k e → r = fm.roundDyadic m sat (decide (nqLevel c < 0) != ng)
      ((nqLevel c).natAbs * (8 + b % 8) * k) (e - 8 + (b / 8 % 32 : Nat) - 34))) ∧
  (∀ (f : Fields) (s : State), s.Issues (.dcvt f) f →
    let x := s.ctx (form (.dcvt f)) f
    let r := dcvt (tsel f) (rnd f) (satOn f) (x.uni f.a) (x.uni64 f.a)
    ∃ l, effects (.dcvt f) f s
      ((if tsel f = 1 ∨ tsel f = 7 then x.s.writeS f.d l (BitVec.ofNat 32 r.1)
        else x.s.writeS64 f.d l (BitVec.ofNat 64 r.1)).raise r.2)) ∧
  (∀ m, sfuRcp m 0 = ⟨0x7F800000, Flags.dz⟩ ∧ sfuRcp m 0x80000000 = ⟨0xFF800000, Flags.dz⟩) ∧
  (∀ m (a : Word), a.msb → 0x80000000 < a.toNat → a.toNat ≤ 0xFF800000 → sfuSqrt m a = ⟨Fmt.f32.nan, Flags.iv⟩)

/-- An LD or LDS that issues, whose every address passes the checks of R239, and whose bytes no pending tile
store of the wave touches, completes. LD gives each active lane the bytes of the page that its own address
maps to, little-endian and zero-extended into the registers of the span: one, the pair of .B64 and .S64, or the four
of .B128. Every one of them takes the tag of Table 9.7, the handle's DFTAG for .B8 to .B128 and the type's own for
the others, and never a reserved tag: with no active lane, an entry whose DFTAG is one leaves the tag open (log 114).
A lane that is not active keeps its words. LDS gives the s registers the bytes at its one address.
Every byte of memory and of local memory, the towers, every other register, em, LIVE, the flags and the trap
registers are unchanged. (R56, R237, R238, R239, R240, R242, R210, 09_feeding_data.md) -/
def Obligations.LoadsGiveTheBytesOfTheirAddresses : Prop :=
  (∀ (f : Fields) (s : State), s.Issues (.ld f) f →
    let x := s.ctx (form (.ld f)) f
    let n := mtBytes (mbits f 3 0)
    ∀ (e : BitVec 256) (y : Ctx) (gs : List GLane),
      x.grants { spaces := [1], rd := true } ⟨.read, true, false, false, true, kindWave⟩ n n x.laneOffs e y gs →
      s.wave.drains (x.laneOffs.map fun p => (vaOf e p.2).toNat) n = false →
      ∃ u : State, effects (.ld f) f s u ∧ u.keepsAll s ∧ u.wave.keeps s.wave (destOf f.d (mtRegs (mbits f 3 0))) ∧
        u.wave.npc = s.wave.pc + 12 ∧ gs.map GLane.lane = lanesOf x.m ∧
        (∀ g ∈ gs, s.translate s.group.job s.group.tower .read (vaOf e (x.off g.lane)) = .ok g.hit) ∧
        ∀ q : Fin 320, f.d = .v q → ∀ k < mtRegs (mbits f 3 0), q.val + k < 320 →
          (∀ g ∈ gs, laneAt (u.wave.vreg (q.val + k)).lanes g.lane =
            BitVec.ofNat 32 (Mem.number (s.load g.hit n) / 2 ^ (32 * k))) ∧
          (∀ i < 32, laneOn x.m i = false → laneAt (u.wave.vreg (q.val + k)).lanes i = laneAt (s.wave.vreg (q.val + k)).lanes i) ∧
          (u.wave.vreg (q.val + k)).tag = loadTag (mbits f 3 0) e) ∧
  (mtRegs 3 = 2 ∧ mtRegs 14 = 2 ∧ mtRegs 4 = 4 ∧ (∀ t < 15, t ∉ [3, 4, 14] → mtRegs t = 1) ∧
    ∀ e, (∀ t, (loadTag t e).toNat < 14) ∧ (∀ t < 5, (hDftag e).toNat < 14 → loadTag t e = hDftag e) ∧ ∀ t < 15, 5 ≤ t → loadTag t e = [8, 9, 10, 11, 1, 2, 3, 4, 5, 13].getD (t - 5) 0) ∧
  (∀ (f : Fields) (s : State), s.Issues (.lds f) f →
    let x := s.ctx (form (.lds f)) f
    let n := mtBytes (mbits f 3 0)
    ∀ (e : BitVec 256) (y : Ctx) (g : GLane),
      x.grants { spaces := [1], rd := true } ⟨.read, true, false, false, true, kindWave⟩ n n x.uniOff e y [g] →
      s.wave.drains (x.uniOff.map fun p => (vaOf e p.2).toNat) n = false →
      ∃ u : State, effects (.lds f) f s u ∧ u.keepsAll s ∧ u.wave.keeps s.wave (destOf f.d (mtRegs (mbits f 3 0))) ∧
        u.wave.npc = s.wave.pc + 12 ∧ s.translate s.group.job s.group.tower .read (vaOf e (x.off 0)) = .ok g.hit ∧
        ∀ q : Fin 128, f.d = .s q → ∀ k < mtRegs (mbits f 3 0), q.val + k < 128 →
          u.wave.sreg (q.val + k) = BitVec.ofNat 32 (Mem.number (s.load g.hit n) / 2 ^ (32 * k)))

/-- An ST or STS that issues, whose every address passes the checks of R239 and whose data carry an accepted
tag, completes. Where no page that it meets is discarded, memory is the old one with the bytes of each
active lane stored at the address that its page walk gives, lane after lane in ascending order, so that of
two lanes at one byte the higher one stands. Every byte outside the stored ones reads as before (beside the
frame and the entry of a page that the store revives), and so do local memories, towers, every register, em,
LIVE, flags and trap registers. (R235, R237, R239, R240, R242, 09_feeding_data.md) -/
def Obligations.StoresWriteTheBytesOfTheirAddresses : Prop :=
  (∀ (f : Fields) (s : State), s.Issues (.st f) f →
    let x := s.ctx (form (.st f)) f
    let n := mtBytes (mbits f 3 0)
    ∀ (e : BitVec 256) (y : Ctx) (gs : List GLane),
      x.grants { spaces := [1], wr := true } ⟨.write, false, true, false, true, kindWave⟩ n n x.laneOffs e y gs →
      x.dataBad f.a (mtRegs (mbits f 3 0)) (mtAccept (mbits f 3 0)) = false →
      ∃ u : State, effects (.st f) f s u ∧ u.storedAt s gs n ∧ u.wave.keeps s.wave noReg ∧ u.wave.npc = s.wave.pc + 12 ∧
        gs.map GLane.lane = lanesOf x.m ∧
        (∀ g ∈ gs, s.translate s.group.job s.group.tower .write (vaOf e (x.off g.lane)) = .ok g.hit) ∧
        ((∀ g ∈ gs, g.hit.disc = false) →
          u.mem = storeAll n s.mem (gs.map fun g => (g, x.wide f.a (mtRegs (mbits f 3 0)) g.lane)))) ∧
  (∀ (f : Fields) (s : State), s.Issues (.sts f) f →
    let x := s.ctx (form (.sts f)) f
    let n := mtBytes (mbits f 3 0)
    ∀ (e : BitVec 256) (y : Ctx) (g : GLane),
      x.grants { spaces := [1], wr := true } ⟨.write, false, true, false, true, kindWave⟩ n n x.uniOff e y [g] →
      ∃ u : State, effects (.sts f) f s u ∧ u.storedAt s [g] n ∧ u.wave.keeps s.wave noReg ∧ u.wave.npc = s.wave.pc + 12 ∧
        s.translate s.group.job s.group.tower .write (vaOf e (x.off 0)) = .ok g.hit ∧
        (g.hit.disc = false → u.mem = storeAll n s.mem [(g, x.wide f.a (mtRegs (mbits f 3 0)) 0)]))

/-- An LDL or STL that issues, whose offsets pass the checks of R239 and meet no live entry of the range scoreboard,
completes. LDL gives each active lane the little-endian bytes at BASE plus its offset in the local space of the
group's unit, in every register of its pair or quad, each with the tag of Table 9.7. STL, whose data carry an accepted
tag, stores each active lane's bytes there in ascending order of the lanes. Global memory, the local memory of every
other unit, the towers, and every register but LDL's destination are unchanged, as are em, LIVE, the flags and the
trap registers. (R227, R237, R239, R241, R251, 09_feeding_data.md) -/
def Obligations.LocalAccessesReachOnlyTheirUnit : Prop :=
  (∀ (f : Fields) (s : State), s.Issues (.ldl f) f →
    let x := s.ctx (form (.ldl f)) f
    let n := mtBytes (mbits f 3 0)
    ∀ (e : BitVec 256) (y : Ctx), x.access { spaces := [2], rd := true } n n x.laneOffs = .ok (e, y) →
      (∀ p ∈ x.laneOffs, s.group.boardBlocks false (localOff e p.2) n = false) →
      ∃ u : State, effects (.ldl f) f s u ∧ u.keepsAll s ∧ u.wave.keeps s.wave (destOf f.d (mtRegs (mbits f 3 0))) ∧
        u.wave.npc = s.wave.pc + 12 ∧
        ∀ q : Fin 320, f.d = .v q → ∀ k < mtRegs (mbits f 3 0), q.val + k < 320 →
          (u.wave.vreg (q.val + k)).tag = loadTag (mbits f 3 0) e ∧ ∀ i < 32,
          laneAt (u.wave.vreg (q.val + k)).lanes i =
            if laneOn x.m i then
              BitVec.ofNat 32 (Mem.readNat (s.localMem s.group.unit) (localOff e (x.off i)) n / 2 ^ (32 * k))
            else laneAt (s.wave.vreg (q.val + k)).lanes i) ∧
  (∀ (f : Fields) (s : State), s.Issues (.stl f) f →
    let x := s.ctx (form (.stl f)) f
    let n := mtBytes (mbits f 3 0)
    ∀ (e : BitVec 256) (y : Ctx), x.access { spaces := [2], wr := true } n n x.laneOffs = .ok (e, y) →
      (∀ p ∈ x.laneOffs, s.group.boardBlocks true (localOff e p.2) n = false) →
      x.dataBad f.a (mtRegs (mbits f 3 0)) (mtAccept (mbits f 3 0)) = false →
      ∃ u : State, effects (.stl f) f s u ∧ u.mem = s.mem ∧ u.tower0 = s.tower0 ∧ u.tower1 = s.tower1 ∧
        u.wave.keeps s.wave noReg ∧ u.wave.npc = s.wave.pc + 12 ∧
        u.localMem s.group.unit = (lanesOf x.m).foldl (fun m i =>
          Mem.writeBytes m (localOff e (x.off i)) (Mem.bytes (x.wide f.a (mtRegs (mbits f 3 0)) i) n)) (s.localMem s.group.unit) ∧
        ∀ k, k ≠ s.group.unit → u.localMem k = s.localMem k)

/-- An LDB that issues and whose offsets pass the checks of R239 completes: each active lane that the broadcast table
grants receives the bytes of the own tower's window at BASE plus its offset, every other lane keeps its words, a
lane that is not granted leaves an ACCTBL trap after the instruction, and nothing else changes. An STB that
issues, whose offsets and data pass their checks, in a job that owns a slot of the tower and has room for a sector
and a command, completes with every lane granted: the bytes that its lanes store, lane after lane in ascending
order, at BASE plus their offsets leave as one sector for each 32-byte unit that they touch, which joins the end
of the tower's queue as a release of the word's scope; one command of class BC that counts these sectors is added,
and no byte of the window changes before a sector is transmitted, nor any byte of memory. With no active lane
nothing is sent, and a job without a slot traps NOSLOT. The sectors of a table of bytes hold just its bytes, each
in the one sector of its unit. That TMASK of NOSLOT holds the active lanes is the model's choice (log 26). (R239,
R267, R268, R271, R272, R250, 10_stack_and_towers.md) -/
def Obligations.BroadcastAccesses : Prop :=
  (∀ (f : Fields) (s : State), s.Issues (.ldb f) f →
    let x := s.ctx (form (.ldb f)) f
    let n := mtBytes (mbits f 3 0)
    let tw := s.tower s.group.tower
    ∀ (e : BitVec 256) (y : Ctx), x.access { spaces := [3], rd := true } n n x.laneOffs = .ok (e, y) →
      let ok (i : Nat) : Bool := tw.grants 5 s.group.job kindWave true false false (hBase e + x.off i).toNat ((hBase e + x.off i).toNat + n)
      ∃ u : State, effects (.ldb f) f s u ∧ u.keepsAll s ∧ u.wave.keeps s.wave (destOf f.d (mtRegs (mbits f 3 0))) ∧
        u.wave.npc = s.wave.pc + 12 ∧
        ((∃ i ∈ lanesOf x.m, ok i = false) → s.wave.pendTrap = none → ∃ t, u.wave.pendTrap = some t ∧ t.cause = .acctbl ∧
          ∀ i < 32, laneOn t.mask i = (laneOn x.m i && !ok i)) ∧
        ∀ q : Fin 320, f.d = .v q → ∀ k < mtRegs (mbits f 3 0), q.val + k < 320 →
          (u.wave.vreg (q.val + k)).tag = loadTag (mbits f 3 0) e ∧ ∀ i < 32,
          laneAt (u.wave.vreg (q.val + k)).lanes i =
            if laneOn x.m i && ok i then BitVec.ofNat 32 (Mem.readNat tw.bcast (hBase e + x.off i).toNat n / 2 ^ (32 * k))
            else laneAt (s.wave.vreg (q.val + k)).lanes i) ∧
  (∀ (f : Fields) (s : State), s.Issues (.stb f) f →
    let x := s.ctx (form (.stb f)) f
    let n := mtBytes (mbits f 3 0)
    let tw := s.tower s.group.tower
    ∀ (e : BitVec 256) (y : Ctx), x.access { spaces := [3], wr := true } n n x.laneOffs = .ok (e, y) →
      x.dataBad f.a (mtRegs (mbits f 3 0)) (mtAccept (mbits f 3 0)) = false →
      (tw.slotsOf s.group.job = 0 → ∃ (u : State) (t : TrapInfo), u.keepsAll s ∧ t.cause = .noslot ∧ t.mask = x.m ∧
        exec (.stb f) s = .next (u.takeTrap t s.wave.pairStart s.wave.pairStart (awaitOf (.stb f) f))) ∧
      (tw.slotsOf s.group.job ≠ 0 → x.m = 0 →
        ∃ u : State, effects (.stb f) f s u ∧ u.keepsAll s ∧ u.wave = { s.wave with npc := s.wave.pc + 12 }) ∧
      (tw.slotsOf s.group.job ≠ 0 → x.m ≠ 0 → tw.queued s.group.job < 64 → s.wave.count .bc < 63 →
      (∀ p ∈ x.laneOffs, tw.grants 5 s.group.job kindWave false true false (hBase e + p.2).toNat ((hBase e + p.2).toNat + n) = true) →
      let cells : Table Byte := (lanesOf x.m).foldl (fun b i =>
        (List.range n).foldl (fun b k => Table.put b ((hBase e + x.off i).toNat + k)
          (BitVec.ofNat 8 (x.wide f.a (mtRegs (mbits f 3 0)) i / 2 ^ (8 * k)))) b) []
      let q := sectorsFrom s.group.job s.wave.key s.seq s.group.depth (s.relBy (scopeArg f)) false cells
      ∃ u : State, effects (.stb f) f s u ∧ u.mem = s.mem ∧ u.locals = s.locals ∧
        u.tower s.group.tower = { tw with sectors := tw.sectors ++ q } ∧ (∀ k, k ≠ s.group.tower → u.tower k = s.tower k) ∧
        u.wave.cmds = s.wave.cmds ++ [⟨s.seq, .bc, .sectors q.length, 0, none, none, none, false, [], s.wave.pairStart,
          (encode (.stb f)).getD 0, 0⟩] ∧
        u.wave.keeps s.wave noReg ∧ u.wave.npc = s.wave.pc + 12)) ∧
  (∀ (job cmd depth : Nat) (k : WaveKey) (rel : List RelInfo) (mx : Bool) (cells : Table Byte),
    let q := sectorsFrom job k cmd depth rel mx cells
    (q.map Sector.unit).Nodup ∧ (∀ p ∈ cells, ∃ r ∈ q, r.unit = p.1 / 32 ∧ p ∈ r.bytes) ∧
      ∀ r ∈ q, r.bytes ≠ [] ∧ (∀ p ∈ r.bytes, p ∈ cells ∧ p.1 / 32 = r.unit) ∧ r.job = job ∧ r.max = mx ∧ r.owner = k ∧
        r.cmd = cmd ∧ r.depth = depth ∧ r.rel = rel ∧ r.watch = none)

/-- PREF, CINV, CWB, PIN and UNPIN that issue complete, when no lane is active with no check at all, else when their
handle and range pass the checks of R243 and R245 and no page walk of the range is malformed or lacks the link. No
byte of memory or of local memory and no register changes. PREF, CINV and CWB leave both towers as they are. PIN and
UNPIN change, beside the next pc and the translation registers of the group, only the pins of the group's tower, PIN
also its count of failed pins: PIN adds pins of the group's job and layer for lines of the
range alone, and where an access table denies a line an ACCTBL trap follows; UNPIN takes away just those pins that
the group's job holds in its layer for lines of the range. That nothing is checked with no active lane (log 27),
that a range of size 0 is a range (log 28), that CINV and CWB change no byte (log 29), and that UNPIN reaches the
issuing layer alone (log 115) are the model's choices. (R233, R239, R243, R245, R246, 09_feeding_data.md) -/
def Obligations.CacheWordsChangeNoValue : Prop :=
  let pins (s : State) : List (Nat × Nat × Nat) := (s.tower s.group.tower).pins
  let only (s u : State) : Prop :=
    u = { s with
      wave := u.wave
      group := { s.group with trs := u.group.trs }
      tower0 := u.tower0
      tower1 := u.tower1
      free := u.free } ∧
    (∀ t, t ≠ s.group.tower → u.tower t = s.tower t) ∧
    u.tower s.group.tower = { s.tower s.group.tower with
      pins := pins u
      csr := (u.tower s.group.tower).csr }
  (∀ (f : Fields) (s : State), s.Issues (.pref f) f →
    let x := s.ctx (form (.pref f)) f
    (x.m = 0 ∨ needBad { spaces := [1], rd := true } (s.entry (hOf f)) = false) →
    ∃ u : State, effects (.pref f) f s u ∧ u.keepsAll s ∧ u.wave = { s.wave with npc := s.wave.pc + 12 }) ∧
  (∀ k ∈ ([.cinv, .cwb] : List (Fields → Instr)), ∀ (f : Fields) (s : State), s.Issues (k f) f →
    let x := s.ctx (form (k f)) f
    (x.m = 0 ∨ ∃ e o n y, x.range = .ok (e, o, n, y) ∧ y.rangePages e o n = .ok y) →
    ∃ u : State, effects (k f) f s u ∧ u.keepsAll s ∧ u.wave = { s.wave with npc := s.wave.pc + 12 }) ∧
  (∀ (f : Fields) (s : State), s.Issues (.pin f) f →
    let x := s.ctx (form (.pin f)) f
    (x.m = 0 → ∃ u : State, effects (.pin f) f s u ∧ u.keepsAll s ∧ u.wave = { s.wave with npc := s.wave.pc + 12 }) ∧
    ∀ (e : BitVec 256) (o : Int) (n : Nat) (y : Ctx), x.m ≠ 0 → x.range = .ok (e, o, n, y) → y.rangePages e o n = .ok y →
    let ok (p : DWord × Hit) : Bool := p.2.disc ||
      s.globalOk s.group.tower p.2.mtype s.group.job kindWave true false false p.2.dpa (p.2.dpa + 64)
    ∃ u : State, effects (.pin f) f s u ∧ only s u ∧
      u.wave = { s.wave with
        npc := s.wave.pc + 12
        pendTrap := u.wave.pendTrap } ∧
      (s.wave.pendTrap = none → u.wave.pendTrap =
        ((s.rangeLines e o n).find? fun p => !ok p).map fun p => TrapInfo.late .acctbl p.1) ∧
      (∀ p ∈ pins s, p ∈ pins u) ∧
      (∀ p ∈ pins u, p ∈ pins s ∨
        ∃ q ∈ s.rangeLines e o n, ok q = true ∧ p = (s.group.layer.val, q.2.dpa / 64, s.group.job)) ∧
      ∀ n, n ≠ csrPincnt → Table.get 0 (u.tower s.group.tower).csr n = Table.get 0 (s.tower s.group.tower).csr n) ∧
  (∀ (f : Fields) (s : State), s.Issues (.unpin f) f →
    let x := s.ctx (form (.unpin f)) f
    (x.m = 0 → ∃ u : State, effects (.unpin f) f s u ∧ u.keepsAll s ∧ u.wave = { s.wave with npc := s.wave.pc + 12 }) ∧
    ∀ (e : BitVec 256) (o : Int) (n : Nat) (y : Ctx), x.m ≠ 0 → x.range = .ok (e, o, n, y) → y.rangePages e o n = .ok y →
    ∃ u : State, effects (.unpin f) f s u ∧ only s u ∧ u.wave = { s.wave with npc := s.wave.pc + 12 } ∧
      (u.tower s.group.tower).csr = (s.tower s.group.tower).csr ∧
      ∀ p, p ∈ pins u ↔ p ∈ pins s ∧
        ¬(p.1 = s.group.layer.val ∧ p.2.2 = s.group.job ∧ p.2.1 ∈ (s.rangeLines e o n).map fun q => q.2.dpa / 64))

/-- An HSET that issues with an active lane and a valid table entry, of whatever space, puts a copy of the entry into the
translation register that it names, with the DPA of BASE and the extent E: the bytes from BASE on, at most LIMIT and 2
GiB, over which the pages are mapped, not discarded, in consecutive frames of one tower and of the same W, X and MTYPE, as
far as 16 leaf entries tell; both are 0 where BASE is not mapped or the space has no translation, and at a malformed walk
too, which is the model's choice (log 103). It is then the most recently used, and no other register holds the handle. An
invalid entry traps HINVAL, a poisoned one ECCSRAM or ECCMEM with its place in the table (log 91), one beyond a link that
is down LINKFAIL, and beyond a retraining link the word waits; with no active lane nothing happens, which is the model's
choice (log 27); memory, towers and the wave's registers stand. An HGET.E that issues gives the eight s registers the 32
bytes of the handle's entry in the job's table; an HGET.T the DPA of BASE in a privileged wave and else 0, E, and the
number of the register that holds the handle with bit 8 set, then zeros; where no register holds the handle it gives what
a load of it would put there, with index 0 and bit 8 clear, which is the model's choice (log 81). An XLAT that issues with
offsets within the handle, and whose walks the link serves (log 8), gives each active lane
the description of R249 tagged I64: MAPPED, W, X, DISC, MFRZ, MTYPE, HT and the page size of the leaf with
bits 63 to 16 of the byte's DPA in a privileged wave and else 0; 0x8000 for a malformed walk; and 0 for an
unmapped byte. HGET and XLAT change only their destination, where the table entries that they read are sound. (R38, R229,
R247, R248, R249, R284, R375, 09_feeding_data.md) -/
def Obligations.HandleAndTranslationWords : Prop :=
  let far (s : State) (f : Fields) : Prop := dpaTower (s.entryAt s.group.job (hOf f)) ≠ s.group.tower
  let at_ (s : State) (va : Nat) : Except Miss Hit := walk s.mem (s.rootOf s.group.job) (BitVec.ofNat 64 va)
  (∀ (f : Fields) (s : State), s.Issues (.hset f) f →
    let x := s.ctx (form (.hset f)) f
    let e := s.tableEntry s.group.job (hOf f)
    let base := BitVec.ofNat 64 (hBase e)
    let traps (t : TrapInfo) : Prop := ∃ u : State, u.keepsAll s ∧ u.group = s.group ∧
      exec (.hset f) s = .next (u.takeTrap t s.wave.pairStart s.wave.pairStart (awaitOf (.hset f) f))
    (x.m = 0 → ∃ u : State, effects (.hset f) f s u ∧ u.keepsAll s ∧ u.group = s.group ∧
      u.wave = { s.wave with npc := s.wave.pc + 12 }) ∧
    (x.m ≠ 0 → far s f → s.link.down = true → traps (.at_ .linkfail (BitVec.ofNat 64 (32 * hOf f)) 0)) ∧
    (x.m ≠ 0 → far s f → s.link.down = false → s.link.retraining = true → exec (.hset f) s = .next { s with stalled := true }) ∧
    (∀ c, x.m ≠ 0 → (far s f → s.link.down = false ∧ s.link.retraining = false) →
      s.poisoned (s.entryAt s.group.job (hOf f)) 32 = some c → traps (eccTrap c (BitVec.ofNat 64 (32 * hOf f)) 0)) ∧
    (x.m ≠ 0 → x.tableRead (hOf f) = .ok () → hValid e = false → traps (.at_ .hinval 0 0)) ∧
    (x.m ≠ 0 → x.tableRead (hOf f) = .ok () → hValid e = true → hSpace e = 1 → s.walkFar s.group.job s.group.tower base = true →
      (s.link.down = true → traps (.at_ .linkfail base 0)) ∧
      (s.link.down = false → s.link.retraining = true → exec (.hset f) s = .next { s with stalled := true })) ∧
    (x.m ≠ 0 → x.tableRead (hOf f) = .ok () → hValid e = true → x.baseLink e = .ok () →
    ∃ u : State, effects (.hset f) f s u ∧ u.keepsAll s ∧ u.wave = { s.wave with npc := s.wave.pc + 12 } ∧
      (∃ t : TransReg, Table.find u.group.trs (mbits f 2 0) = some t ∧ t.handle = hOf f ∧ t.entry = e ∧ t.rank = 0 ∧
        (hSpace e ≠ 1 → t.base = 0 ∧ t.ext = 0) ∧
        (hSpace e = 1 → match at_ s (hBase e) with
          | .ok h => t.base = h.dpa ∧
            let cap := min (hLimit e) (2 ^ 31)
            let good (a : Nat) : Prop := ∃ p, at_ s (hBase e + a) = .ok p ∧ p.disc = false ∧ p.dpa = h.dpa + a ∧
              dpaTower p.dpa = dpaTower h.dpa ∧ p.w = h.w ∧ p.x = h.x ∧ p.mtype = h.mtype
            t.ext ≤ cap ∧ (∀ a < t.ext, good a) ∧ (t.ext < cap → ¬good t.ext ∨ t.pages.length = 16) ∧ t.pages.length ≤ 16 ∧
              (t.pages.map Prod.fst).Nodup ∧ ∀ q ∈ t.pages, ∃ a p, at_ s (hBase e + a) = .ok p ∧
                q = ((hBase e + a) / pageSize p.lvl * pageSize p.lvl, pageSize p.lvl)
          | .error _ => t.base = 0 ∧ t.ext = 0)) ∧
        ∀ p ∈ u.group.trs, p.2.handle = hOf f → p.1 = mbits f 2 0)) ∧
  (∀ (f : Fields) (s : State), s.Issues (.hget f) f → mbits f 0 0 = 0 → (s.ctx (form (.hget f)) f).tableRead (hOf f) = .ok () →
    ∃ u : State, effects (.hget f) f s u ∧ u.keepsAll s ∧ u.wave.keeps s.wave (destOf f.d 8) ∧ u.wave.npc = s.wave.pc + 12 ∧
      ∀ q : Fin 128, f.d = .s q → ∀ k < 8, q.val + k < 128 →
        u.wave.sreg (q.val + k) = (s.tableEntry s.group.job (hOf f)).extractLsb' (32 * k) 32) ∧
  (∀ (f : Fields) (s : State), s.Issues (.hget f) f → mbits f 0 0 = 1 →
    let x := s.ctx (form (.hget f)) f
    let e := s.tableEntry s.group.job (hOf f)
    let gives (t : TransReg) (k : Nat) : Prop := t.base < 2 ^ 64 → t.ext < 2 ^ 64 → k < 2 ^ 32 →
      ∃ u : State, effects (.hget f) f s u ∧ u.keepsAll s ∧ u.wave.keeps s.wave (destOf f.d 8) ∧ u.wave.npc = s.wave.pc + 12 ∧
      ∀ q : Fin 128, f.d = .s q → q.val + 7 < 128 →
        (u.wave.sreg (q.val + 1) ++ u.wave.sreg q.val : DWord).toNat = (if s.wave.jctl.getLsbD 0 then t.base else 0) ∧
        (u.wave.sreg (q.val + 3) ++ u.wave.sreg (q.val + 2) : DWord).toNat = t.ext ∧
        (u.wave.sreg (q.val + 4)).toNat = k ∧ ∀ j ∈ [5, 6, 7], u.wave.sreg (q.val + j) = 0
    (∀ k t, s.group.trFind (hOf f) = some (k, t) → gives t (k + 256)) ∧
    (s.group.trFind (hOf f) = none → x.tableRead (hOf f) = .ok () → hValid e = true → x.baseLink e = .ok () →
      gives (s.makeTr (hOf f) e) 0)) ∧
  (∀ (f : Fields) (s : State), s.Issues (.xlat f) f →
    let x := s.ctx (form (.xlat f)) f
    ∀ (e : BitVec 256) (y : Ctx), x.access { spaces := [1] } 1 1 x.laneOffs = .ok (e, y) →
    y.walkLink (x.laneOffs.map fun p => (p.1, vaOf e p.2)) = .ok () →
    (y.s.seeWalks (x.laneOffs.map fun p => vaOf e p.2)) = y.s →
    ∃ u : State, effects (.xlat f) f s u ∧ u.keepsAll s ∧ u.wave.keeps s.wave (destOf f.d 2) ∧ u.wave.npc = s.wave.pc + 12 ∧
      ∀ q : Fin 320, f.d = .v q → q.val + 1 < 320 →
        (u.wave.vreg q).tag = 13 ∧ (u.wave.vreg (q.val + 1)).tag = 13 ∧ ∀ i < 32,
        let lo := laneAt (u.wave.vreg q).lanes i
        let hi := laneAt (u.wave.vreg (q.val + 1)).lanes i
        let v : DWord := hi ++ lo
        if laneOn x.m i then
          match walk s.mem (s.rootOf s.group.job) (vaOf e (x.off i)) with
          | .ok h => v.getLsbD 0 = true ∧ v.getLsbD 1 = h.w ∧ v.getLsbD 2 = h.x ∧ v.getLsbD 3 = h.disc ∧
            v.getLsbD 4 = h.entry.getLsbD 5 ∧ bits v 6 5 = h.mtype ∧ bits v 7 7 = (dpaTower h.dpa).val ∧
            bits v 9 8 = min h.lvl 2 ∧ bits v 15 10 = 0 ∧ bits v 63 16 = if s.wave.jctl.getLsbD 0 then h.dpa / 2 ^ 16 else 0
          | .error (.bad _ _) => v = 0x8000
          | .error _ => v = 0
        else lo = laneAt (s.wave.vreg q).lanes i ∧ hi = laneAt (s.wave.vreg (q.val + 1)).lanes i)

/-- An ATOM, RED or CAS that issues, whose every address passes the checks of R239 and R311, completes. Lane after
lane in ascending order, each address gives up its old value and takes what Table 12.2 makes of it and of the lane's
operand (CAS: the lane's a where the old value equals its d). Where no page is discarded, memory is the old one with
just these words replaced, so that two lanes at one address both take effect. ATOM and CAS give each active lane the
old value that its own turn read, in one register or, at 64 bits, in both of the pair, keep the tag of each and the
words of the other lanes, and change no other register; with an s operand the word is performed once, for lane 0's
operand, and gives the s registers the old value; RED changes none. Every other byte of memory is as before, as are
local memories and what the towers hold. (R291, R310, R311, R312, R313, R314, 12_synchronising.md) -/
def Obligations.AtomicsReadAndWriteInOneStep : Prop :=
  let turn (n : Nat) (new : Nat → Nat → Option Nat) (r : List Host.Cell × List (Nat × Nat)) (g : GLane) :
      List Host.Cell × List (Nat × Nat) :=
    let o := Mem.readNat r.1 g.hit.dpa n
    ((match new g.lane o with | some v => Mem.writeBytes r.1 g.hit.dpa (Mem.bytes v n) | none => r.1), r.2 ++ [(g.lane, o)])
  let vector (k : Fields → Instr) (need : Need) (regs : Fields → Nat) (ret : Bool)
      (new : Ctx → Fields → Nat → Nat → Option Nat) : Prop :=
    ∀ (f : Fields) (s : State), s.Issues (k f) f → isS f.d = false →
      let x := s.ctx (form (k f)) f
      let n := 4 * regs f
      ∀ (e : BitVec 256) (y : Ctx) (gs : List GLane),
        x.grants need ⟨.write, need.rd, true, true, false, kindWave⟩ n n x.laneOffs e y gs →
        let r := gs.foldl (turn n (new x f)) (s.mem, [])
        ∃ u : State, effects (k f) f s u ∧ u.storedAt s gs n ∧ u.wave.npc = s.wave.pc + 12 ∧
          u.wave.keeps s.wave (fun i => ret = true ∧ destOf f.d (regs f) i) ∧ gs.map GLane.lane = lanesOf x.m ∧
          ((∀ g ∈ gs, g.hit.disc = false) → u.mem = r.1 ∧
            (ret = true → ∀ q : Fin 320, f.d = .v q → ∀ j < regs f, q.val + j < 320 →
              (u.wave.vreg (q.val + j)).tag = (s.wave.vreg (q.val + j)).tag ∧ ∀ i < 32,
              laneAt (u.wave.vreg (q.val + j)).lanes i = if laneOn x.m i then BitVec.ofNat 32 (laneVal r.2 i / 2 ^ (32 * j))
                else laneAt (s.wave.vreg (q.val + j)).lanes i))
  let scalar (k : Fields → Instr) (need : Need) (regs : Fields → Nat) (ret : Bool)
      (new : Ctx → Fields → Nat → Nat → Option Nat) : Prop :=
    ∀ (f : Fields) (s : State), s.Issues (k f) f → isS f.d = true →
      let x := s.ctx (form (k f)) f
      let n := 4 * regs f
      ∀ (e : BitVec 256) (y : Ctx) (g : GLane),
        x.grants need ⟨.write, need.rd, true, true, false, kindWave⟩ n n x.uniOff e y [g] →
        let o := Mem.readNat s.mem g.hit.dpa n
        ∃ u : State, effects (k f) f s u ∧ u.storedAt s [g] n ∧ u.wave.npc = s.wave.pc + 12 ∧
          u.wave.keeps s.wave (fun i => ret = true ∧ destOf f.d (regs f) i) ∧
          (g.hit.disc = false →
            u.mem = (match new x f 0 o with | some v => Mem.writeBytes s.mem g.hit.dpa (Mem.bytes v n) | none => s.mem) ∧
            (ret = true → ∀ q : Fin 128, f.d = .s q → ∀ j < regs f, q.val + j < 128 →
              u.wave.sreg (q.val + j) = BitVec.ofNat 32 (o / 2 ^ (32 * j))))
  let both (k : Fields → Instr) (need : Need) (regs : Fields → Nat) (ret : Bool)
      (new : Ctx → Fields → Nat → Nat → Option Nat) : Prop := vector k need regs ret new ∧ scalar k need regs ret new
  both .atom needAt (fun f => if mbits f 6 5 = 1 then 2 else 1) true
      (fun x f i o => some (atomNew (mbits f 6 5) (atomOp f) o (x.wide f.d (if mbits f 6 5 = 1 then 2 else 1) i))) ∧
    both .red { spaces := [1], at_ := true } (fun f => if mbits f 6 5 = 1 then 2 else 1) false
      (fun x f i o => some (atomNew (mbits f 6 5) (atomOp f) o (x.wide f.d (if mbits f 6 5 = 1 then 2 else 1) i))) ∧
    both .cas needAt (fun f => if mbits f 5 5 = 1 then 2 else 1) true
      (fun x f i o => if o = x.wide f.d (if mbits f 5 5 = 1 then 2 else 1) i then
        some (x.wide f.a (if mbits f 5 5 = 1 then 2 else 1) i) else none)

/-- For a width of 32 or 64 bits and patterns that fit it: ADD wraps; MIN and MAX take the less and the greater,
signed and unsigned; AND, OR and XOR act on the bits; XCHG takes the operand; INC gives 0 once the location
has reached the operand, else one more; DEC gives the operand where the location is 0 or above it, else one
less. These are the rows of TY 0 and 1. In F32, TY 2, ADD rounds the exact sum once to nearest even, MIN and MAX order
−0 below +0 and give the canonical NaN where one of the two is a NaN, and XCHG takes the operand. (R45, R46, R48, R312,
12_synchronising.md) -/
def Obligations.AtomicOperationsOfTheTable : Prop :=
  ∀ w ∈ [32, 64], ∀ o x : Nat, o < 2 ^ w → x < 2 ^ w →
    let sg (v : Nat) : Int := if v < 2 ^ (w - 1) then (v : Int) else (v : Int) - 2 ^ w
    atomInt w 0 o x = (o + x) % 2 ^ w ∧
    sg (atomInt w 1 o x) = min (sg o) (sg x) ∧ atomInt w 2 o x = min o x ∧
    sg (atomInt w 3 o x) = max (sg o) (sg x) ∧ atomInt w 4 o x = max o x ∧
    (∀ k, (atomInt w 5 o x).testBit k = (o.testBit k && x.testBit k) ∧
      (atomInt w 6 o x).testBit k = (o.testBit k || x.testBit k) ∧
      (atomInt w 7 o x).testBit k = (o.testBit k ^^ x.testBit k)) ∧
    atomInt w 8 o x = x ∧
    atomInt w 9 o x = (if x ≤ o then 0 else o + 1) ∧
    atomInt w 10 o x = (if o = 0 ∨ x < o then x else o - 1) ∧
    (∀ op ≤ 10, atomInt w op o x < 2 ^ w ∧ atomNew (if w = 32 then 0 else 1) op o x = atomInt w op o x) ∧
    (w = 32 →
      let fm := Fmt.f32
      let add := atomNew 2 0 o x
      let k (v : Nat) : Int := if fm.neg v then -1 - (v - fm.sign : Nat) else v
      (fm.isFin o → fm.isFin x →
        add = (fm.nearest .rne false (fm.units o + fm.units x) fm.one (zeroSign .rne [fm.neg o, fm.neg x])).val) ∧
      (fm.isNan o ∨ fm.isNan x → ∀ op ∈ [0, 1, 3], atomNew 2 op o x = 0x7FC00000) ∧
      (fm.isInf o → fm.isInf x → add = if fm.neg x = fm.neg o then o else 0x7FC00000) ∧
      (fm.isInf o → fm.isFin x → add = o) ∧
      (fm.isInf x → fm.isFin o → add = x) ∧
      (¬fm.isNan o → ¬fm.isNan x →
        (atomNew 2 1 o x = o ∨ atomNew 2 1 o x = x) ∧ k (atomNew 2 1 o x) = min (k o) (k x) ∧
        (atomNew 2 3 o x = o ∨ atomNew 2 3 o x = x) ∧ k (atomNew 2 3 o x) = max (k o) (k x)) ∧
      atomNew 2 8 o x = x)

/-- A FENCE that issues completes: no byte of memory or of a local memory and no register changes. With a
release half the wave's later writes are releases at the fence's scope, or at a wider one of an earlier
fence; with an acquire half each earlier read of the wave that found a release which the fence's scope does not
reach, from where the wave stood at the read, is one mismatch, judged again at every later acquiring fence, which is the
model's reading (log 86). An MMSTAT that issues gives its s register the status word of Table
11.4 as it stood, and with .CLR leaves SCOPE, OPENLOST and MISMATCH clear; without it they stand. (R297,
R303, R316, R328, 11_memory_model.md) -/
def Obligations.FencesAndTheStatusOfTheMemoryModel : Prop :=
  (∀ (f : Fields) (s : State), s.Issues (.fence f) f →
    ∃ u : State, effects (.fence f) f s u ∧ u.mem = s.mem ∧ u.locals = s.locals ∧ u.tower0 = s.tower0 ∧ u.tower1 = s.tower1 ∧
      u.wave.keeps s.wave noReg ∧ u.wave.npc = s.wave.pc + 12 ∧
      (∀ c, ordRel f = some c → ∃ d, u.wave.fenceRel = some d ∧ Scope.num c ≤ Scope.num d ∧
        (s.wave.fenceRel = none → d = c)) ∧
      (ordRel f = none → u.wave.fenceRel = s.wave.fenceRel) ∧
      u.wave.relReads = s.wave.relReads ∧
      (∀ c, ordAcq f = some c →
        let n := (s.wave.relReads.filter fun r => !r.rels.all (s.syncs c r.place)).length
        u.wave.mismatch = s.wave.mismatch + BitVec.ofNat 16 n ∧ u.wave.mmScope = (s.wave.mmScope || decide (n ≠ 0))) ∧
      (ordAcq f = none → u.wave.mmScope = s.wave.mmScope ∧ u.wave.mismatch = s.wave.mismatch)) ∧
  (∀ (f : Fields) (s : State), s.Issues (.mmstat f) f →
    ∃ u : State, effects (.mmstat f) f s u ∧ u.keepsAll s ∧ u.wave.keeps s.wave (destOf f.d 1) ∧ u.wave.npc = s.wave.pc + 12 ∧
      (∀ q : Fin 128, f.d = .s q → let r := u.wave.sreg q
        r.getLsbD 0 = s.wave.mmScope ∧ r.getLsbD 1 = s.wave.openLost ∧ r.getLsbD 2 = s.checked ∧ bits r 15 3 = 0 ∧
          bits r 31 16 = s.wave.mismatch.toNat) ∧
      (f.mod.getLsbD 0 = true → u.wave.mmScope = false ∧ u.wave.openLost = false ∧ u.wave.mismatch = 0) ∧
      (f.mod.getLsbD 0 = false →
        u.wave.mmScope = s.wave.mmScope ∧ u.wave.openLost = s.wave.openLost ∧ u.wave.mismatch = s.wave.mismatch))

/-- At an offset that is a multiple of 8 and lies in the local space, with no arrival of the wave pending and an
expected count above the arrivals, a BARARV or BAR that issues completes: it stores the barrier word with
one more arrival, or with none once the expected count is reached, and with the accumulator that the payload
operation makes of the old one (of its identity at the first arrival, whatever the operation) and of the
contribution. No other local byte and no byte of memory changes. Where the count is not reached the wave's
record is pending, no other wave changes, and after BAR the wave waits. Where it is reached the record of
every wave of the unit that is pending at the offset completes with the accumulator: a wave that waits on it
receives it in its lanes of em and waits no more, another holds the completed record, and the wave of the
BAR receives it at once. BARWT on a completed record gives it to the lanes of em and clears the record; on a
pending one it waits. A pending or missing record, or a count that is full, traps BARBAD, and an offset that
is no multiple of 8 or beyond the space traps ALIGN or LOCALOOB, with nothing changed. (R317, R318, R319,
12_synchronising.md) -/
def Obligations.BarriersCountArrivals : Prop :=
  let word (s : State) (o : Nat) : Nat := Mem.readNat (s.localMem s.group.unit) o 8
  let ready (s : State) (o : Nat) : Prop :=
    (∀ k, s.wave.arrival ≠ .pending k) ∧ word s o / 2 ^ 16 % 2 ^ 16 < word s o % 2 ^ 16
  let acc (x : Ctx) (o p : Nat) : Word :=
    let w := word x.s o
    let a : Word := if w / 2 ^ 16 % 2 ^ 16 = 0 then (popOp p).1 else BitVec.ofNat 32 (w / 2 ^ 32)
    if p = 0 then a else (popOp p).2 a (x.contribution p)
  let last (s : State) (o : Nat) : Bool := decide (word s o / 2 ^ 16 % 2 ^ 16 + 1 = word s o % 2 ^ 16)
  let got (v : Wave) (w : Wave) (d : Opnd) (r : Word) : Prop := v.arrival = .none ∧ v.wait = .none ∧
    (∀ q : Fin 128, d = .s q → v.sreg q = r) ∧ (∀ q : Fin 320, d = .v q → (v.vreg q).tag = 2 ∧ ∀ i < 32,
      laneAt (v.vreg q).lanes i = if laneOn w.em i then r else laneAt (w.vreg q).lanes i)
  let arrived (k : Fields → Instr) (f : Fields) (s u : State) (o : Nat) : Prop :=
    let x := s.ctx (form (k f)) f
    let r := acc x o (mbits f 2 0)
    u.mem = s.mem ∧ u.wave.npc = s.wave.pc + 12 ∧
    u.localMem s.group.unit = Mem.writeBytes (s.localMem s.group.unit) o (Mem.bytes
      (word s o % 2 ^ 16 + (if last s o then 0 else word s o / 2 ^ 16 % 2 ^ 16 + 1) * 2 ^ 16 + r.toNat * 2 ^ 32) 8) ∧
    (∀ k, k ≠ s.group.unit → u.localMem k = s.localMem k) ∧
    (last s o = false → u.waves = s.waves) ∧
    (last s o = true → u.waves.length = s.waves.length ∧ ∀ (n : Nat) (w v : Wave), s.waves[n]? = some w → u.waves[n]? = some v →
      if (s.groupOf w).unit = s.group.unit ∧ w.arrival = .pending o then
        (∀ a d, w.wait = .barrier a d → got v w d r) ∧ ((∀ a d, w.wait ≠ .barrier a d) → v = { w with arrival := .complete o r })
      else v = w)
  let traps (k : Fields → Instr) (f : Fields) (s : State) (t : TrapInfo) : Prop := ∃ u : State, u.keepsAll s ∧
    exec (k f) s = .next (u.takeTrap t s.wave.pairStart s.wave.pairStart (awaitOf (k f) f))
  (∀ k ∈ ([.bararv, .bar, .barwt] : List (Fields → Instr)), ∀ (f : Fields) (s : State), s.Issues (k f) f →
    let o := (s.ctx (form (k f)) f).off 0
    (o % 8 ≠ 0 → traps k f s (.at_ .align (BitVec.ofInt 64 o) 0)) ∧
    (o % 8 = 0 → o < 0 ∨ (s.group.space : Int) < o + 8 → traps k f s (.at_ .localoob (BitVec.ofInt 64 o) 0))) ∧
  (∀ k ∈ ([.bararv, .bar] : List (Fields → Instr)), ∀ (f : Fields) (s : State) (o : Nat), s.Issues (k f) f →
    (s.ctx (form (k f)) f).off 0 = o → o % 8 = 0 → o + 8 ≤ s.group.space → ¬ready s o →
    traps k f s (.at_ .barbad (BitVec.ofNat 64 o) 0)) ∧
  (∀ (f : Fields) (s : State) (o : Nat), s.Issues (.bararv f) f →
    let x := s.ctx (form (.bararv f)) f
    x.off 0 = o → o % 8 = 0 → o + 8 ≤ s.group.space → ready s o →
    ∃ u : State, effects (.bararv f) f s u ∧ arrived .bararv f s u o ∧ u.wave.keeps s.wave noReg ∧
      u.wave.arrival = if last s o then .complete o (acc x o (mbits f 2 0)) else .pending o) ∧
  (∀ (f : Fields) (s : State) (o : Nat), s.Issues (.bar f) f →
    let x := s.ctx (form (.bar f)) f
    x.off 0 = o → o % 8 = 0 → o + 8 ≤ s.group.space → ready s o →
    ∃ u : State, effects (.bar f) f s u ∧ arrived .bar f s u o ∧
      (last s o = false → u.wave.wait = .barrier o f.d ∧ u.wave.arrival = .pending o ∧ u.wave.keeps s.wave noReg) ∧
      (last s o = true → u.wave.keeps s.wave (destOf f.d 1) ∧ got u.wave s.wave f.d (acc x o (mbits f 2 0)))) ∧
  (∀ (f : Fields) (s : State) (o : Nat), s.Issues (.barwt f) f →
    let x := s.ctx (form (.barwt f)) f
    x.off 0 = o → o % 8 = 0 → o + 8 ≤ s.group.space →
    (s.wave.arrival = .pending o →
      ∃ u : State, effects (.barwt f) f s u ∧ u.keepsAll s ∧ u.wave.keeps s.wave noReg ∧ u.wave.npc = s.wave.pc + 12 ∧
        u.wave.arrival = .pending o ∧ u.wave.wait = .barrier o f.d) ∧
    (∀ r, s.wave.arrival = .complete o r → s.wave.wait = .none →
      ∃ u : State, effects (.barwt f) f s u ∧ u.keepsAll s ∧ u.wave.keeps s.wave (destOf f.d 1) ∧ u.wave.npc = s.wave.pc + 12 ∧
        got u.wave s.wave f.d r) ∧
    ((∀ r, s.wave.arrival ≠ .complete o r) → s.wave.arrival ≠ .pending o →
      traps .barwt f s (.at_ .barbad (BitVec.ofNat 64 o) 0)))

/-- A QLOCK that issues on a lock word that it may use (and whose page is not discarded) takes a free lock: the holder
field becomes the wave's tag and no other byte changes. On a lock that another wave holds it waits: the holder
stands, the count of waiters grows by one, the wave's tag is the new tail, linked from the old one, or also the
head of an empty list, and no byte outside the word changes. On a lock that it holds itself it traps QLOCKBAD. A
QUNLOCK by the holder of a lock without waiters clears the holder field and no other byte; by any other wave it
traps QLOCKBAD. With waiters it hands over: the oldest waiter's tag becomes HOLDER, the count falls by one, HEAD
becomes its link, TAIL 0 where that is 0, the waiter waits no more, every other wave stands, and no byte outside
the word changes. A HEAD that names no waiter ends the list: HOLDER and WAITERS become 0 and a record of QLOCKBAD
is written. Registers, em, LIVE, flags and trap registers of the wave stand. That such a HEAD leaves HEAD and TAIL
0 is the model's choice (log 33). (R320, R321, 12_synchronising.md) -/
def Obligations.LocksAreTakenAndPassedOn : Prop :=
  let w (s : State) (d k : Nat) : Nat := Mem.readNat s.mem (d + k) 4
  let own (s : State) : Nat := s.wave.tag.toNat
  (∀ (f : Fields) (s : State) (g : GLane) (y : Ctx), s.Issues (.qlock f) f →
    (s.ctx (form (.qlock f)) f).grantsOne needAt 16 16 accAt g y → g.hit.disc = false →
    (w s g.hit.dpa 0 = 0 →
      ∃ u : State, effects (.qlock f) f s u ∧ u.mem = Mem.writeBytes s.mem g.hit.dpa (Mem.bytes (own s) 4) ∧
        u.locals = s.locals ∧ u.wave.keeps s.wave noReg ∧ u.wave.wait = s.wave.wait ∧ u.wave.npc = s.wave.pc + 12) ∧
    (w s g.hit.dpa 0 ≠ 0 → w s g.hit.dpa 0 ≠ own s →
      ∃ u : State, effects (.qlock f) f s u ∧ u.wave.wait = .lock g.hit.dpa g.va (scopeLow f) ∧
        w u g.hit.dpa 0 = w s g.hit.dpa 0 ∧ w u g.hit.dpa 4 = (w s g.hit.dpa 4 + 1) % 2 ^ 32 ∧ w u g.hit.dpa 12 = own s ∧
        u.wave.link = 0 ∧ (w s g.hit.dpa 8 = 0 → w u g.hit.dpa 8 = own s) ∧
        (∀ p, w s g.hit.dpa 8 ≠ 0 → s.waiter .lock g.hit.dpa (w s g.hit.dpa 12) = some p → p.key ≠ s.wave.key →
          w u g.hit.dpa 8 = w s g.hit.dpa 8 ∧ ∃ q ∈ u.allWaves, q.key = p.key ∧ q.link = s.wave.tag) ∧
        (∀ a, a < g.hit.dpa ∨ g.hit.dpa + 16 ≤ a → Mem.read u.mem a = Mem.read s.mem a) ∧
        u.locals = s.locals ∧ u.wave.keeps s.wave noReg ∧ u.wave.npc = s.wave.pc + 12) ∧
    (w s g.hit.dpa 0 = own s →
      exec (.qlock f) s = .next (({ y.s with stalled := false } : State).takeTrap (.at_ .qlockbad g.va 0)
        s.wave.pairStart s.wave.pairStart (awaitOf (.qlock f) f)))) ∧
  (∀ (f : Fields) (s : State) (g : GLane) (y : Ctx), s.Issues (.qunlock f) f →
    (s.ctx (form (.qunlock f)) f).grantsOne needAt 16 16 accAt g y → g.hit.disc = false →
    (∀ v, w s g.hit.dpa 0 = own s → w s g.hit.dpa 8 ≠ 0 → s.waiter .lock g.hit.dpa (w s g.hit.dpa 8) = some v →
      v.key ≠ s.wave.key → (s.allWaves.map Wave.key).Nodup → s.wave.alive = true → v.pendTrap = none → v.jctl.getLsbD 6 = false →
      ∃ u : State, effects (.qunlock f) f s u ∧ w u g.hit.dpa 0 = w s g.hit.dpa 8 ∧ w u g.hit.dpa 4 = w s g.hit.dpa 4 - 1 ∧
        w u g.hit.dpa 8 = v.link.toNat ∧ w u g.hit.dpa 12 = (if v.link = 0 then 0 else w s g.hit.dpa 12) ∧
        (∀ a, a < g.hit.dpa ∨ g.hit.dpa + 16 ≤ a → Mem.read u.mem a = Mem.read s.mem a) ∧ u.locals = s.locals ∧
        u.wave.keeps s.wave noReg ∧ u.wave.npc = s.wave.pc + 12 ∧
        (∀ x ∈ s.waves, x.key ≠ v.key → x ∈ u.waves) ∧ ∃ q ∈ u.waves, q.key = v.key ∧ q.wait = .none ∧ q.alive = true ∧
          q.pc = v.pc ∧ q.vregs = v.vregs ∧ q.sregs = v.sregs ∧ q.preds = v.preds ∧ q.em = v.em) ∧
    (w s g.hit.dpa 0 = own s → w s g.hit.dpa 8 ≠ 0 → s.waiter .lock g.hit.dpa (w s g.hit.dpa 8) = none →
      ∃ u : State, effects (.qunlock f) f s u ∧ (∀ k ∈ [0, 4, 8, 12], w u g.hit.dpa k = 0) ∧
        (∀ a, a < g.hit.dpa ∨ g.hit.dpa + 16 ≤ a → Mem.read u.mem a = Mem.read s.mem a) ∧ u.locals = s.locals ∧
        u.wave.keeps s.wave noReg ∧ u.wave.npc = s.wave.pc + 12 ∧ u.waves = s.waves ∧
        (((s.tower s.group.tower).recs.filter fun r => r.job = s.wave.job).length < 32 →
          ∃ r ∈ (u.tower s.group.tower).recs, r.job = s.wave.job ∧ taskBits r.bits 0 5 0 = causeCode .qlockbad)) ∧
    (w s g.hit.dpa 0 = own s → w s g.hit.dpa 8 = 0 →
      ∃ u : State, effects (.qunlock f) f s u ∧ u.mem = Mem.writeBytes s.mem g.hit.dpa (Mem.bytes 0 4) ∧
        u.locals = s.locals ∧ u.wave.keeps s.wave noReg ∧ u.wave.npc = s.wave.pc + 12) ∧
    (w s g.hit.dpa 0 ≠ own s →
      exec (.qunlock f) s = .next (({ y.s with stalled := false } : State).takeTrap (.at_ .qlockbad g.va 0)
        s.wave.pairStart s.wave.pairStart (awaitOf (.qunlock f) f))))

/-- With no item to move the three words do nothing. On a descriptor with a capacity, a clear reserved word and no
waiters, and with a request of at least one item, more than CAP items trap QOVF, and make QTRY fail; with at most
CAP items: a QPUSH with room writes its items, lanes ascending, to the ring slots that follow the queued ones, and
COUNT grows by their number; a QPOP with enough items gives each lane the next item from HEAD on, HEAD advances
modulo CAP and COUNT falls. Where the request cannot be served the wave waits with its request, alone in its list:
only the descriptor's waiter fields of that direction change. QTRY is served as they are and its predicate becomes
1, or changes no byte and its predicate becomes 0. Every byte outside the slots written and the descriptor's HEAD
and COUNT is as before, and a QPUSH changes no register. A QPUSH serves the pop that waits for more items than are
queued, once its own make them enough: that wave receives the queued items and then the pushed ones, lanes ascending,
its list becomes empty and its wait ends. A QPOP serves the push that waits for room, before itself where it needs the
items and else after itself, and receives the queued items and then that push's; what stays is in the ring. With
several waiting the unit serves each direction's list from its oldest request on, without passing one over, until
neither list's oldest can be served. That HEAD is kept reduced modulo CAP is the model's choice (log 32): R322 reduces
the number of a slot. (R322, R323, R324, 12_synchronising.md) -/
def Obligations.QueuesAreServedInOrder : Prop :=
  let fld (s : State) (d k : Nat) : Nat := Mem.readNat s.mem (d + k) 4
  let idle (s : State) (d n : Nat) : Prop :=
    fld s d 8 ≠ 0 ∧ fld s d 12 = 0 ∧ fld s d 24 = 0 ∧ fld s d 32 = 0 ∧ 1 ≤ n ∧ fld s d 20 ≤ fld s d 8
  let lanes (s : State) (f : Fields) : List Nat := qLanes f.d s.wave.em
  let slots (s : State) (d : Nat) (write : Bool) (at_ n : Nat) (h : Nat → Hit) : Prop :=
    ∀ j < n, s.qSlot (s.qHome d) write (s.qAddr d ((at_ + j) % fld s d 8)) = .ok (h j) ∧ (h j).disc = false ∧
      (write = false → s.poisoned (h j).dpa 8 = none)
  let pushed (f : Fields) (s u : State) (d : Nat) (h : Nat → Hit) (item : Nat → DWord) : Prop :=
    fld u d 16 = fld s d 16 ∧ fld u d 20 = fld s d 20 + (lanes s f).length ∧ u.locals = s.locals ∧
      ∀ a, a < d + 16 ∨ d + 24 ≤ a → Mem.read u.mem a = Mem.read ((List.range (lanes s f).length).foldl
        (fun m j => Mem.writeBytes m (h j).dpa (Mem.bytes (item j).toNat 8)) s.mem) a
  let popped (f : Fields) (s u : State) (d : Nat) (h : Nat → Hit) : Prop :=
    fld u d 16 = (fld s d 16 + (lanes s f).length) % fld s d 8 ∧ fld u d 20 = fld s d 20 - (lanes s f).length ∧
      u.locals = s.locals ∧ (∀ a, a < d + 16 ∨ d + 24 ≤ a → Mem.read u.mem a = Mem.read s.mem a) ∧
      (∀ q : Fin 320, f.d = .v q → q.val + 1 < 320 → ∀ j < (lanes s f).length, ∀ i, (lanes s f)[j]? = some i →
        (laneAt (u.wave.vreg (q.val + 1)).lanes i ++ laneAt (u.wave.vreg q.val).lanes i : DWord) =
          BitVec.ofNat 64 (Mem.number (s.load (h j) 8))) ∧
      ∀ q : Fin 128, f.d = .s q → q.val + 1 < 128 →
        (u.wave.sreg (q.val + 1) ++ u.wave.sreg q.val : DWord) = BitVec.ofNat 64 (Mem.number (s.load (h 0) 8))
  let found (i : Instr) (f : Fields) (s : State) (g : GLane) : Prop :=
    s.Issues i f ∧ (∃ y, (s.ctx (form i) f).grantsOne needAt 64 64 accAt g y) ∧ g.hit.disc = false ∧
      idle s g.hit.dpa (lanes s f).length
  -- as `found`, but one wave waits alone on the list of the other direction
  let meets (i : Instr) (f : Fields) (s : State) (g : GLane) (v : Wave) (push : Bool) (va : DWord) (m : Mask) (o : Opnd)
      (its : List DWord) (sc : Option Scope) : Prop :=
    let d := g.hit.dpa
    s.Issues i f ∧ (∃ y, (s.ctx (form i) f).grantsOne needAt 64 64 accAt g y) ∧ g.hit.disc = false ∧
      fld s d 8 ≠ 0 ∧ fld s d 12 = 0 ∧ 1 ≤ (lanes s f).length ∧ 1 ≤ (qLanes o m).length ∧ fld s d 20 ≤ fld s d 8 ∧
      fld s d (if push then 32 else 24) = v.tag.toNat ∧ fld s d (if push then 24 else 32) = 0 ∧
      s.waiter (if push then .pushes else .pops) d v.tag.toNat = some v ∧ v.link = 0 ∧ v ∈ s.waves ∧
      (s.allWaves.map Wave.key).Nodup ∧ s.wave.alive = true ∧ v.pendTrap = none ∧ v.jctl.getLsbD 6 = false ∧
      v.wait = .queue d va push m o its sc none
  let apart (d : Nat) (h : Hit) : Prop := h.dpa + 8 ≤ d ∨ d + 64 ≤ h.dpa
  -- the waiting wave goes on and leaves an empty list; the ring keeps the items that no one took, from `first` on
  let met (s u : State) (d : Nat) (v : Wave) (push : Bool) (took gave : Nat) (h : Nat → Hit) (item : Nat → DWord) (first : Nat) : Prop :=
    let l := if push then 32 else 24
    let c := if push then 44 else 40
    fld u d 16 = (fld s d 16 + took) % fld s d 8 ∧ fld u d 20 = fld s d 20 + gave - took ∧
      fld u d l = 0 ∧ fld u d (l + 4) = 0 ∧ fld u d c = fld s d c - 1 ∧ u.locals = s.locals ∧
      (∀ x ∈ s.waves, x.key ≠ v.key → x ∈ u.waves) ∧
      ∀ a, (a < d + 16 ∨ d + 24 ≤ a) → (a < d + l ∨ d + l + 8 ≤ a) → (a < d + c ∨ d + c + 4 ≤ a) →
        Mem.read u.mem a = Mem.read ((List.range (gave - first)).foldl
          (fun m j => Mem.writeBytes m (h (first + j)).dpa (Mem.bytes (item (first + j)).toNat 8)) s.mem) a
  let gets (w old : Wave) (o : Opnd) (m : Mask) (item : Nat → DWord) : Prop :=
    w.keeps old (destOf o 2) ∧
      (∀ q : Fin 320, o = .v q → q.val + 1 < 320 → ∀ j < (qLanes o m).length, ∀ i, (qLanes o m)[j]? = some i →
        (laneAt (w.vreg (q.val + 1)).lanes i ++ laneAt (w.vreg q.val).lanes i : DWord) = item j) ∧
      ∀ q : Fin 128, o = .s q → q.val + 1 < 128 → (w.sreg (q.val + 1) ++ w.sreg q.val : DWord) = item 0
  let queued (s u : State) (d : Nat) (push : Bool) : Prop :=
    let o := if push then 32 else 24
    let c := if push then 44 else 40
    fld u d o = s.wave.tag.toNat ∧ fld u d (o + 4) = s.wave.tag.toNat ∧ fld u d c = (fld s d c + 1) % 2 ^ 32 ∧
      (∀ a, (a < d + o ∨ d + o + 8 ≤ a) → (a < d + c ∨ d + c + 4 ≤ a) → Mem.read u.mem a = Mem.read s.mem a) ∧
      u.locals = s.locals ∧ (∀ x ∈ s.waves, x.key ≠ s.wave.key → x ∈ u.waves) ∧ u.wave.link = 0 ∧ u.wave.keeps s.wave noReg ∧ u.wave.npc = s.wave.pc + 12
  (∀ k ∈ ([.qpush, .qpop, .qtry] : List (Fields → Instr)), ∀ (f : Fields) (s : State), s.Issues (k f) f → lanes s f = [] →
    ∃ u : State, effects (k f) f s u ∧ u.keepsAll s ∧ u.wave = { s.wave with npc := s.wave.pc + 12 }) ∧
  (∀ k ∈ ([.qpush, .qpop] : List (Fields → Instr)), ∀ (f : Fields) (s : State) (g : GLane), found (k f) f s g →
    fld s g.hit.dpa 8 < (lanes s f).length → ∃ u : State, u.mem = s.mem ∧ u.locals = s.locals ∧
      exec (k f) s = .next (u.takeTrap (.at_ .qovf g.va 0) s.wave.pairStart s.wave.pairStart (awaitOf (k f) f))) ∧
  (∀ (f : Fields) (s : State) (g : GLane), found (.qpush f) f s g →
    let x := s.ctx (form (.qpush f)) f
    let d := g.hit.dpa
    (∀ h, (lanes s f).length ≤ fld s d 8 - fld s d 20 → slots s d true (fld s d 16 + fld s d 20) (lanes s f).length h →
      ∃ u : State, effects (.qpush f) f s u ∧ pushed f s u d h (fun j => x.lane64 f.d ((lanes s f).getD j 0)) ∧
        u.wave.keeps s.wave noReg ∧ u.wave.wait = s.wave.wait ∧ u.wave.npc = s.wave.pc + 12) ∧
    (fld s d 8 - fld s d 20 < (lanes s f).length → (lanes s f).length ≤ fld s d 8 →
      ∃ u : State, effects (.qpush f) f s u ∧ queued s u d true ∧
        u.wave.wait = .queue d g.va true s.wave.em f.d ((lanes s f).map (x.lane64 f.d)) (scopeLow f) none)) ∧
  (∀ (f : Fields) (s : State) (g : GLane), found (.qpop f) f s g →
    let d := g.hit.dpa
    (∀ h, (lanes s f).length ≤ fld s d 20 → slots s d false (fld s d 16) (lanes s f).length h →
      ∃ u : State, effects (.qpop f) f s u ∧ popped f s u d h ∧ u.wave.keeps s.wave (destOf f.d 2) ∧
        u.wave.wait = s.wave.wait ∧ u.wave.npc = s.wave.pc + 12) ∧
    (fld s d 20 < (lanes s f).length → (lanes s f).length ≤ fld s d 8 →
      ∃ u : State, effects (.qpop f) f s u ∧ queued s u d false ∧
        u.wave.wait = .queue d g.va false s.wave.em f.d [] (scopeLow f) none)) ∧
  (∀ (f : Fields) (s : State) (g : GLane), found (.qtry f) f s g →
    let x := s.ctx (form (.qtry f)) f
    let d := g.hit.dpa
    let lit (u : State) (b : Bool) : Prop := ∀ p : Fin 16, f.a = .p p → ∀ i < 32,
      laneOn (u.wave.pred p) i = if isS f.d || laneOn s.wave.em i then b else laneOn (s.wave.pred p) i
    (∀ h, f.mod.getLsbD 0 = true → (lanes s f).length ≤ fld s d 8 - fld s d 20 →
      slots s d true (fld s d 16 + fld s d 20) (lanes s f).length h →
      ∃ u : State, effects (.qtry f) f s u ∧ pushed f s u d h (fun j => x.lane64 f.d ((lanes s f).getD j 0)) ∧ lit u true ∧
        u.wave.keeps s.wave (destOf f.a 1)) ∧
    (∀ h, f.mod.getLsbD 0 = false → (lanes s f).length ≤ fld s d 20 → slots s d false (fld s d 16) (lanes s f).length h →
      ∃ u : State, effects (.qtry f) f s u ∧ popped f s u d h ∧ lit u true ∧
        u.wave.keeps s.wave (fun i => destOf f.a 1 i ∨ destOf f.d 2 i)) ∧
    ((if f.mod.getLsbD 0 then fld s d 8 - fld s d 20 else fld s d 20) < (lanes s f).length ∨ fld s d 8 < (lanes s f).length →
      ∃ u : State, effects (.qtry f) f s u ∧ u.mem = s.mem ∧ u.locals = s.locals ∧ lit u false ∧
        u.wave.keeps s.wave (destOf f.a 1))) ∧
  (∀ (f : Fields) (s : State) (g : GLane) (v : Wave) (va : DWord) (m : Mask) (o : Opnd) (sc : Option Scope) (h r : Nat → Hit),
    meets (.qpush f) f s g v false va m o [] sc →
    let x := s.ctx (form (.qpush f)) f
    let d := g.hit.dpa
    let n := (lanes s f).length
    let k := (qLanes o m).length
    let own (j : Nat) : DWord := x.lane64 f.d ((lanes s f).getD j 0)
    fld s d 20 < k → k ≤ fld s d 20 + n → fld s d 20 + n ≤ fld s d 8 → slots s d false (fld s d 16) (fld s d 20) h →
    (∀ j, k ≤ fld s d 20 + j → j < n → s.qSlot (s.qHome d) true (s.qAddr d ((fld s d 16 + fld s d 20 + j) % fld s d 8)) = .ok (r j) ∧
      (r j).disc = false ∧ apart d (r j)) →
    ∃ u : State, effects (.qpush f) f s u ∧ met s u d v false k n r own (k - fld s d 20) ∧ u.wave.keeps s.wave noReg ∧
      u.wave.wait = s.wave.wait ∧ u.wave.npc = s.wave.pc + 12 ∧ ∃ w ∈ u.waves, w.key = v.key ∧ w.wait = .none ∧ w.alive = true ∧
        gets w v o m fun j => if j < fld s d 20 then BitVec.ofNat 64 (Mem.number (s.load (h j) 8)) else own (j - fld s d 20)) ∧
  (∀ (f : Fields) (s : State) (g : GLane) (v : Wave) (va : DWord) (m : Mask) (o : Opnd) (its : List DWord) (sc : Option Scope) (h r : Nat → Hit),
    meets (.qpop f) f s g v true va m o its sc →
    let d := g.hit.dpa
    let n := (lanes s f).length
    let k := its.length
    k = (qLanes o m).length → fld s d 20 + k ≤ fld s d 8 + n → (fld s d 20 < n → fld s d 20 + k ≤ fld s d 8) →
    n ≤ fld s d 20 + k → n ≤ fld s d 8 → slots s d false (fld s d 16) (min n (fld s d 20)) h →
    (∀ j, n ≤ fld s d 20 + j → j < k → s.qSlot (s.qHome d) true (s.qAddr d ((fld s d 16 + fld s d 20 + j) % fld s d 8)) = .ok (r j) ∧
      (r j).disc = false ∧ apart d (r j)) →
    ∃ u : State, effects (.qpop f) f s u ∧ met s u d v true n k r (fun j => its.getD j 0) (n - fld s d 20) ∧
      u.wave.wait = s.wave.wait ∧ u.wave.npc = s.wave.pc + 12 ∧
      (gets u.wave s.wave f.d s.wave.em fun j =>
        if j < fld s d 20 then BitVec.ofNat 64 (Mem.number (s.load (h j) 8)) else its.getD (j - fld s d 20) 0) ∧
      ∃ w ∈ u.waves, w.key = v.key ∧ w.wait = .none ∧ w.alive = true ∧ w.keeps v noReg) ∧
  (∀ (cap n : Nat) (q : QRun),
    let r := QRun.serve cap n q
    (∃ (a b : List QReq) (done : List (QReq × List (Nat × Option (DWord × List RelInfo)))),
      q.pops = a ++ r.pops ∧ q.pushes = b ++ r.pushes ∧ r.done = q.done ++ done ∧ done.length = a.length + b.length ∧
        a.Sublist (done.map Prod.fst) ∧ b.Sublist (done.map Prod.fst)) ∧
    (q.pops.length + q.pushes.length ≤ n → (∀ p ps, r.pops = p :: ps → p.stop = true ∨ r.count < p.n) ∧
      ∀ p ps, r.pushes = p :: ps → p.stop = true ∨ cap - r.count < p.n))

/-- A CTRADD that issues on a plain counter (KIND 0) whose sum is not negative stores the sum at the counter's eight
bytes and changes no other byte and no register; a sum below zero traps CTRUNDER. On a successor block (KIND 1), and
on a graph, phase or job record (KIND 2, 3 and 4) of the job, of that KIND and not RETIRED, it does the same, and
traps LNCHBAD on any other record; where the addend brings the counter to zero, KIND 1 then submits the block's launch
if it names one, and the others retire the level: RETIRED is set in the record, where the link and the access tables
let the hardware write it, and the parent's counter and the successor block, if there is one, are to be decremented. A
CTRWAIT that issues goes on with nothing changed where the counter is at or below the threshold, and waits outside its
run on the counter where it is above; with .SWAP every group of its unit is then to be swapped out. A CTRGET that
issues gives the s pair the counter's 64 bits and changes nothing else. (R17, R18, R107, R123, R326, R327,
12_synchronising.md) -/
def Obligations.CountersAddWaitAndRead : Prop :=
  (∀ (f : Fields) (s : State) (g : GLane) (y : Ctx), s.Issues (.ctradd f) f →
    let x := s.ctx (form (.ctradd f)) f
    x.grantsOne needAt 8 8 accAt g y → g.hit.disc = false → mbits f 5 3 = 0 →
    let sum : Int := s.counterAt g.hit.dpa + (x.uni64 f.a).toInt
    (0 ≤ sum →
      ∃ u : State, effects (.ctradd f) f s u ∧ u.mem = Mem.writeBytes s.mem g.hit.dpa (Mem.bytes (BitVec.ofInt 64 sum : DWord).toNat 8) ∧
        u.locals = s.locals ∧ u.wave.keeps s.wave noReg ∧ u.wave.npc = s.wave.pc + 12) ∧
    (sum < 0 → ∃ t : State, t.mem = s.mem ∧ t.locals = s.locals ∧
      exec (.ctradd f) s = .next (t.takeTrap (.at_ .ctrunder g.va 0) s.wave.pairStart s.wave.pairStart (awaitOf (.ctradd f) f)))) ∧
  (∀ (f : Fields) (s : State) (g : GLane) (y : Ctx), s.Issues (.ctradd f) f →
    let x := s.ctx (form (.ctradd f)) f
    let k := mbits f 5 3
    let d := g.hit.dpa
    let job := s.group.job
    let t := s.group.tower
    let n : Int := (x.uni64 f.a).toInt
    let sum : Int := s.counterAt d + n
    let size := if k = 1 then 16 else 64
    let named : Prop := k = 1 ∨
      (Mem.readNat s.mem (d + 34) 2 % 2 ^ 12 = job ∧ s.recKind d = k - 1 ∧ s.recRetired d = false)
    k ∈ [1, 2, 3, 4] → x.grantsOne needAt size size accAt g y → g.hit.disc = false →
    (¬named → ∃ t : State, t.mem = s.mem ∧ t.locals = s.locals ∧
      exec (.ctradd f) s = .next (t.takeTrap (.at_ .lnchbad g.va 0) s.wave.pairStart s.wave.pairStart (awaitOf (.ctradd f) f))) ∧
    (named → sum < 0 → ∃ t : State, t.mem = s.mem ∧ t.locals = s.locals ∧
      exec (.ctradd f) s = .next (t.takeTrap (.at_ .ctrunder g.va 0) s.wave.pairStart s.wave.pairStart (awaitOf (.ctradd f) f))) ∧
    (named → 0 ≤ sum → ∃ u : State, u.mem = Mem.writeBytes s.mem d (Mem.bytes (BitVec.ofInt 64 sum : DWord).toNat 8) ∧
      u.locals = s.locals ∧ u.wave.keeps s.wave noReg ∧ u.wave.npc = s.wave.pc + 12 ∧
      ((sum ≠ 0 ∨ n = 0) → effects (.ctradd f) f s u) ∧
      (sum = 0 → n ≠ 0 → k = 1 → effects (.ctradd f) f s
        (if s.read64 (d + 8) = 0 then u else u.hwSteps job t s.group.depth [.submit (s.read64 (d + 8)) g.va (dpaTower d)])) ∧
      (sum = 0 → n ≠ 0 → k = 2 ∨ k = 3 →
        let r := u.retireLevel job t g.va d (k - 1) s.group.depth
        effects (.ctradd f) f s (r.1.hwSteps job t s.group.depth r.2)) ∧
      (sum = 0 → n ≠ 0 → k = 4 → ∀ j, u.findJob job = some j →
        let r := u.retireJob j t s.group.depth
        effects (.ctradd f) f s (r.1.hwSteps job t s.group.depth r.2)))) ∧
  (∀ (s : State) (job : Nat) (t : TowerId) (va : DWord) (d kind depth : Nat),
    let r := s.retireLevel job t va d kind depth
    (s.link.down = false ∨ dpaTower (d + 32) = t → s.hwDeny job t true (d + 32) 1 = none → r.1.recRetired d = true) ∧ r.2 = .level (s.read64 (d + 16)) va (kind + 1) ::
      (if s.read64 (d + 24) = 0 then [] else [.block (s.read64 (d + 24)) va])) ∧
  (∀ (s : State) (j : Job) (t : TowerId) (depth : Nat),
    let r := s.retireJob j t depth
    (s.link.down = false ∨ dpaTower (j.recAt + 32) = t → s.hwDeny j.id t true (j.recAt + 32) 1 = none →
        r.1.recRetired j.recAt = true) ∧ (∀ k, r.1.findJob j.id = some k → k.retired = true ∧ k.live0 = false ∧ k.live1 = false) ∧
      r.2 = if s.read64 (j.recAt + 24) = 0 then [] else [.block (s.read64 (j.recAt + 24)) j.recVa]) ∧
  (∀ (f : Fields) (s : State) (g : GLane) (y : Ctx), s.Issues (.ctrwait f) f →
    let x := s.ctx (form (.ctrwait f)) f
    x.grantsOne { spaces := [1], rd := true } 8 8 ⟨.revive, true, false, true, false, kindWave⟩ g y → g.hit.disc = false →
    let above : Prop := (x.uni64 f.a).toInt < s.counterAt g.hit.dpa
    ∃ u : State, effects (.ctrwait f) f s u ∧ { u with groups := s.groups }.keepsAll s ∧ u.wave.keeps s.wave noReg ∧
      u.wave.npc = s.wave.pc + 12 ∧ (¬(above ∧ f.mod.getLsbD 3 = true) → u.groups = s.groups) ∧
      (above → f.mod.getLsbD 3 = true → u.group.swapWant = true ∧
        u.groups = s.groups.map fun g => if g.unit = s.group.unit ∧ g.ended = false then { g with swapWant := true } else g) ∧
      (¬above → u.wave.wait = s.wave.wait) ∧
      (above → ∃ sc, u.wave.wait = .counter g.hit.dpa g.va (x.uni64 f.a).toInt sc (f.mod.getLsbD 3))) ∧
  (∀ (f : Fields) (s : State) (g : GLane) (e : BitVec 256) (y z : Ctx), s.Issues (.ctrget f) f →
    let x := s.ctx (form (.ctrget f)) f
    x.recordAt { spaces := [1], rd := true } 8 8 = .ok (e, y) → y.recordHit e accRd 8 = .ok (g, z) →
    z.s.tower0 = s.tower0 → z.s.tower1 = s.tower1 →
    ∃ u : State, effects (.ctrget f) f s u ∧ u.keepsAll s ∧ u.wave.keeps s.wave (destOf f.d 2) ∧ u.wave.npc = s.wave.pc + 12 ∧
      ∀ q : Fin 128, f.d = .s q → q.val + 1 < 128 →
        (u.wave.sreg (q.val + 1) ++ u.wave.sreg q.val : DWord) = BitVec.ofNat 64 (Mem.number (s.load g.hit 8)))

/-- An engine command that issues with an active lane, a well-formed shape record that its wave can read, coordinates,
counter and tensor that pass their checks, its own space, and room in its class, completes: exactly one command is
added behind the wave's others, of its class, with the work, token, counter and scope that the word names, and the
command has transferred nothing: memory, local memory, towers, every register, em, LIVE and flags are as before.
With no active lane a CPY, CPYB or BCAST checks nothing and makes no command, as R253 and R273 say; a GTHR or SCTR goes
on as with active lanes and its command is counted (log 36). (R250, R251,
R252, R253, R254, R255, R256, R273, 09_feeding_data.md) -/
def Obligations.EngineCommandsJoinTheirClass : Prop :=
  let joins (k : Fields → Instr) (f : Fields) (s : State) (c : EngClass) (op : EngOp) (tok : Option Nat) (ctr : Option DWord) : Prop :=
    ∃ u : State, effects (k f) f s u ∧ u.keepsAll s ∧ u.wave.keeps s.wave noReg ∧ u.wave.npc = s.wave.pc + 12 ∧
      u.wave.cmds = s.wave.cmds ++ [⟨s.seq, c, op, 0, tok, ctr, engScope f, false, [], s.wave.pairStart,
        (encode (k f)).getD 0, (s.ctx (form (k f)) f).uni64 f.a⟩]
  let shaped (x y : Ctx) (sh : BitVec 512) : Prop :=
    x.m ≠ 0 ∧ x.shape = .ok (sh, y) ∧ y.s.tower0 = x.s.tower0 ∧ y.s.tower1 = x.s.tower1
  let checked (x y : Ctx) (f : Fields) (sh : BitVec 512) (ctr : Option DWord) : Prop :=
    shaped x y sh ∧ y.more f.b (shRank sh) = .ok () ∧ y.counter = .ok ctr
  (∀ k ∈ ([.cpy, .cpyb, .bcast] : List (Fields → Instr)), ∀ (f : Fields) (s : State), s.Issues (k f) f →
    (s.ctx (form (k f)) f).m = 0 →
    ∃ u : State, effects (k f) f s u ∧ u.keepsAll s ∧ u.group = s.group ∧ u.wave = { s.wave with npc := s.wave.pc + 12 }) ∧
  (∀ (f : Fields) (s : State) (sh : BitVec 512) (ctr : Option DWord) (y : Ctx), s.Issues (.cpy f) f →
    let x := s.ctx (form (.cpy f)) f
    let lo := (x.uni f.d).toNat
    let hi := lo + shCount sh * shSize sh
    checked x y f sh ctr → y.tensor sh (f.mod.getLsbD 0) (x.coords (shRank sh)) = .ok () → hi ≤ s.group.space →
    s.group.boardFull lo hi = false → s.wave.count .cp < 63 →
    joins .cpy f s .cp (.cpy (!f.mod.getLsbD 0) lo sh (x.coords (shRank sh))) none ctr) ∧
  (∀ (f : Fields) (s : State) (sh : BitVec 512) (ctr : Option DWord) (b : Nat) (y : Ctx), s.Issues (.cpyb f) f →
    let x := s.ctx (form (.cpyb f)) f
    let sel := x.uni f.d
    checked x y f sh ctr → y.tensor sh false (x.coords (shRank sh)) = .ok () →
    s.bSlot (bits sel 25 20) (bits sel 19 0) (shCount sh * shSize sh) = some b → s.wave.count .mx < 63 →
    joins .cpyb f s .mx (.cpyb b sh (x.coords (shRank sh))) none ctr) ∧
  (∀ (f : Fields) (s : State) (sh : BitVec 512) (co : List Lanes) (ctr : Option DWord) (y : Ctx), s.Issues (.gthr f) f →
    let x := s.ctx (form (.gthr f)) f
    x.lanesCmd false = .ok (sh, co, ctr, y) → y.s.tower0 = s.tower0 → y.s.tower1 = s.tower1 →
    s.wave.count .gt < 63 →
    joins .gthr f s .gt (.gthr f.d.num x.m sh co) (some f.hint.tok.toNat) ctr) ∧
  (∀ (f : Fields) (s : State) (sh : BitVec 512) (co : List Lanes) (ctr : Option DWord) (y : Ctx), s.Issues (.sctr f) f →
    let x := s.ctx (form (.sctr f)) f
    x.lanesCmd true = .ok (sh, co, ctr, y) → y.s.tower0 = s.tower0 → y.s.tower1 = s.tower1 →
    s.wave.count .gt < 63 →
    joins .sctr f s .gt (.sctr (x.lanes f.d) x.m sh co) none ctr) ∧
  (∀ (f : Fields) (s : State) (sh : BitVec 512) (ctr : Option DWord) (y : Ctx), s.Issues (.bcast f) f →
    let x := s.ctx (form (.bcast f)) f
    let d := x.uni f.d
    let e := s.entry (bits d 5 0)
    let tw := towersOf s.group.tower (mbits f 1 0)
    checked x y f sh ctr → y.tensor sh false (x.coords (shRank sh)) = .ok () →
    bits d 7 6 = 0 → y.sound (bits d 5 0) = .ok () → needBad { spaces := [3], wr := true } e = false → bits d 31 8 % shSize sh = 0 →
    bits d 31 8 + shCount sh * shSize sh ≤ hLimit e → y.reach (towerList tw) = .ok () →
    (∀ t ∈ towerList tw, (s.tower t).slotsOf s.group.job ≠ 0) → s.wave.count .bc < 63 →
    joins .bcast f s .bc (.bcast tw.1 tw.2 (hBase e + bits d 31 8) sh (x.coords (shRank sh)) false 0) none ctr)

/-- Element n of a CPY to local memory whose page is found writes the bytes of its tensor element at the n-th place of
the box in dense order, and zeros where the element lies outside the extents; nothing else changes. Element n of a CPY
to memory stores the local bytes of its place at the tensor element's address and nothing else, and one outside the
extents nothing. A GTHR's lane n receives its tensor element zero-extended, or 0, with the shape's tag, and no other
lane changes; one that is not active sets the tag alone. Element n of a CPYB, where no later element of its 64-byte
unit is without a page, is written at its place of the core's slice of the B-store. Lane n of a SCTR stores the low
bytes of its data at its tensor element, or nothing where the lane is not active or the element lies outside the
extents. A BCAST whose queues have room for its units, every element readable and every byte granted, leaves one
sector for each 32-byte unit of its dense box in every named tower, behind the queued ones. A quarter of an MZST.ADD,
or one element of an MZST, whose cells all have pages, adds its values to the old words, wrapping or by the F32 sum,
or stores them, one cell after the other, at the cells' addresses, and one that meets a fault before any of its stores
is left out whole. A command of one of these kinds runs through its elements in their order from where it stands, an
element that is left out leaving its error, or a denied one its record; at the last one it retires, and at a
translation fault it parks there. A command that retires leaves its class with its errors behind the class's earlier
ones and its token clear; one with a counter that it reaches, above 0, takes 1 off it, one at or below 0 leaves it
with a CTRUNDER record, and one whose counter has no page parks. Choices of the model: the transfers in one run (log
9), an error for each element in its turn (log 37), a failed or retraining link at a counter (log 87), the tag (log
36). (R200, R210, R211, R250, R254, R255, R256, R268, R273, R284, R288, 09_feeding_data.md) -/
def Obligations.EngineElementsMoveTheirBytes : Prop :=
  (∀ (s : State) (lo : Nat) (sh : BitVec 512) (co : List Int) (n : Nat) (bs : List Byte),
    (boxOff sh co n = none ∧ bs = List.replicate (shSize sh) 0 ∨
      ∃ o h, boxOff sh co n = some o ∧ s.engAt .cp false (s.shVa sh o) (shSize sh) = .ok h ∧ bs = s.load h (shSize sh)) →
    ∃ u : State, s.engElem (.cpy true lo sh co) n = .ok u ∧ u.mem = s.mem ∧ u.wave = s.wave ∧
      u.localMem s.group.unit = Mem.writeBytes (s.localMem s.group.unit) (lo + n * shSize sh) bs ∧
      ∀ k, k ≠ s.group.unit → u.localMem k = s.localMem k) ∧
  (∀ (s : State) (lo : Nat) (sh : BitVec 512) (co : List Int) (n : Nat), boxOff sh co n = none →
    s.engElem (.cpy false lo sh co) n = .ok s) ∧
  (∀ (s : State) (lo : Nat) (sh : BitVec 512) (co : List Int) (n : Nat) (o : Int) (h : Hit),
    let bs := Mem.readBytes (s.localMem s.group.unit) (lo + n * shSize sh) (shSize sh)
    boxOff sh co n = some o → s.engAt .cp true (s.shVa sh o) bs.length = .ok h → h.disc = false →
    ∃ u : State, s.engElem (.cpy false lo sh co) n = .ok u ∧ u.mem = Mem.writeBytes s.mem h.dpa bs ∧
      u.locals = s.locals ∧ u.wave.keeps s.wave noReg) ∧
  (∀ (s : State) (d : Nat) (m : Mask) (sh : BitVec 512) (co : List Lanes) (n : Nat) (bs : List Byte), laneOn m n = true → n < 32 →
    (laneOff sh co n = none ∧ bs = [] ∨
      ∃ o h, laneOff sh co n = some o ∧ s.engAt .gt false (s.shVa sh o) (shSize sh) = .ok h ∧ bs = s.load h (shSize sh)) →
    ∃ u : State, s.engElem (.gthr d m sh co) n = .ok u ∧ u.mem = s.mem ∧ u.locals = s.locals ∧
      (u.wave.vreg d).tag = shTag sh ∧
      ∀ i < 32, laneAt (u.wave.vreg d).lanes i =
        if i = n then BitVec.ofNat 32 (Mem.number bs) else laneAt (s.wave.vreg d).lanes i) ∧
  (∀ (s : State) (d : Nat) (m : Mask) (sh : BitVec 512) (co : List Lanes) (n : Nat), laneOn m n = false →
    ∃ u : State, s.engElem (.gthr d m sh co) n = .ok u ∧ u.keepsAll s ∧ u.group = s.group ∧
      (u.wave.vreg d).tag = shTag sh ∧ (u.wave.vreg d).lanes = (s.wave.vreg d).lanes ∧
      ∀ r, r ≠ d → u.wave.vreg r = s.wave.vreg r) ∧
  (∀ (s : State) (off : Nat) (sh : BitVec 512) (co : List Int) (n : Nat) (bs : List Byte),
    s.cpybStop off sh co (n + 1) ((List.range (shCount sh - n - 1)).map (n + 1 + ·)) = none →
    (boxOff sh co n = none ∧ bs = List.replicate (shSize sh) 0 ∨
      ∃ o h, boxOff sh co n = some o ∧ s.engAt .mx false (s.shVa sh o) (shSize sh) = .ok h ∧ bs = s.load h (shSize sh)) →
    ∃ u : State, s.engElem (.cpyb off sh co) n = .ok u ∧ u.mem = s.mem ∧ u.locals = s.locals ∧ u.wave = s.wave ∧
      (u.tower s.group.tower).bstore = Mem.writeBytes (s.tower s.group.tower).bstore
        (bKey s.group.coreIdx (off + n * shSize sh)) bs ∧ ∀ t, t ≠ s.group.tower → u.tower t = s.tower t) ∧
  (∀ (s : State) (data : Lanes) (m : Mask) (sh : BitVec 512) (co : List Lanes) (n : Nat),
    (laneOn m n = false ∨ laneOff sh co n = none → s.engElem (.sctr data m sh co) n = .ok s) ∧
    ∀ o h, laneOn m n = true → laneOff sh co n = some o →
      s.engAt .gt true (s.shVa sh o) (shSize sh) = .ok h → h.disc = false →
      ∃ u : State, s.engElem (.sctr data m sh co) n = .ok u ∧ u.locals = s.locals ∧ u.wave.keeps s.wave noReg ∧
        u.mem = Mem.writeBytes s.mem h.dpa (Mem.bytes (laneAt data n).toNat (shSize sh))) ∧
  (∀ (s : State) (c : EngCmd) (t0 t1 : Bool) (off : Nat) (sh : BitVec 512) (co : List Int) (left : Nat) (bs : Nat → List Byte),
    let ts := towerList (t0, t1)
    let total := (off + shCount sh * shSize sh + 31) / 32 - off / 32
    let cells : Table Byte := (List.range (shCount sh)).flatMap fun n => (bs n).zipIdx.map fun p => (off + (n * shSize sh + p.2), p.1)
    let q := sectorsFrom s.group.job s.wave.key c.num s.group.depth (s.cmdRel c) false cells
    c.next = 0 → (∀ e ∈ s.wave.cmds, e.num = c.num → e = c) → s.link.down = false → total ≤ 64 → (∀ t ∈ ts, (s.tower t).queued s.group.job + total ≤ 64) →
    (∀ n < shCount sh, boxOff sh co n = none ∧ bs n = List.replicate (shSize sh) 0 ∨
      ∃ o h, boxOff sh co n = some o ∧ s.engAt .bc false (s.shVa sh o) (shSize sh) = .ok h ∧ bs n = s.load h (shSize sh)) →
    (∀ t ∈ ts, ∀ b ∈ cells, (s.tower t).grants 5 s.group.job (kindEng .bc) false true false b.1 (b.1 + 1) = true) →
    let u := s.bcastQueue c t0 t1 off sh co left
    u.mem = s.mem ∧ u.locals = s.locals ∧
      (∀ t, (u.tower t).sectors = (if t ∈ ts then (s.tower t).sectors ++ q else (s.tower t).sectors) ∧
        (u.tower t).bcast = (s.tower t).bcast ∧ (u.tower t).csr = (s.tower t).csr) ∧
      u.wave = s.wave.mapCmd c.num fun e => { e with
        next := total
        op := .bcast t0 t1 off sh co true (left + ts.length * q.length) }) ∧
  (∀ (s : State) (e : BitVec 256) (cells : List (List (Nat × Word))) (add f32 : Bool) (own : Option Scope) (rel : List RelInfo) (n : Nat),
    let cs := if add then cells.getD n [] else (cells.flatten[n]?).toList
    (∀ r, s.mzStop e add cs = some r → s.engElem (.mzst e cells add f32 own rel) n = r) ∧
    (s.mzStop e add cs = none →
      s.engElem (.mzst e cells add f32 own rel) n = s.mzCells e add f32 own (relsFrom s.group.place rel) cs) ∧
    s.mzCells e add f32 own rel [] = .ok s) ∧
  (∀ (s : State) (e : BitVec 256) (add f32 : Bool) (own : Option Scope) (rel : List RelInfo) (o : Nat) (z : Word) (cs : List (Nat × Word)),
    let new (old : Nat) : Word := if !add then z else if f32 then (Fmt.f32.add .rne false old z.toNat).word else BitVec.ofNat 32 old + z
    (hSpace e = 2 → ∃ u : State, s.mzCells e add f32 own rel ((o, z) :: cs) = u.mzCells e add f32 own rel cs ∧ u.mem = s.mem ∧
      u.wave = s.wave ∧ u.localMem s.group.unit = Mem.writeBytes (s.localMem s.group.unit) (localOff e o)
        (Mem.bytes (new (Mem.readNat (s.localMem s.group.unit) (localOff e o) 4)).toNat 4)) ∧
    ∀ h, hSpace e ≠ 2 → s.engAt .mx true (vaOf e o) 4 = .ok h → h.disc = false →
      ∃ u : State, s.mzCells e add f32 own rel ((o, z) :: cs) = u.mzCells e add f32 own rel cs ∧ u.locals = s.locals ∧
        u.wave.keeps s.wave noReg ∧ u.mem = Mem.writeBytes s.mem h.dpa (Mem.bytes (new (Mem.readNat s.mem h.dpa 4)).toNat 4)) ∧
  (∀ (s : State) (c : EngCmd) (ss : Nat → State) (m : Nat),
    let at_ (s : State) (n : Nat) : State := { s with wave := s.wave.mapCmd c.num fun c => { c with next := n } }
    let go (s : State) (n : Nat) : Option State :=
      match s.engElem c.op n with
      | .ok v => some (at_ v (n + 1))
      | .skip t => some (at_ { s with wave := s.wave.mapCmd c.num fun c => { c with err := c.err ++ [t] } } (n + 1))
      | .denied va k => some (at_ (s.cmdDenied c va k) (n + 1))
      | .stop _ _ _ => none
    (∀ n, c.op ≠ .sectors n) → (∀ a b off sh co q n, c.op ≠ .bcast a b off sh co q n) → s.link.retraining = false →
    ss c.next = (match c.op with | .mzst _ _ _ _ own _ => if c.next = 0 then s.release own else s | _ => s) →
    c.next ≤ m → m ≤ c.op.count → (∀ n, c.next ≤ n → n < m → go (ss n) n = some (ss (n + 1))) →
    (m = c.op.count → s.cmdRun c = (ss m).cmdRetire c.num) ∧
    ∀ f va w, m < c.op.count → (ss m).engElem c.op m = .stop f va w → s.cmdRun c = (ss m).cmdFault c f va w) ∧
  (∀ (s : State) (c : EngCmd), (s.wave.cmds.find? fun x => x.num = c.num) = some c → (∀ k n, s.wave.wait ≠ .cntwait k n) →
    let isOver (u : State) (err : List TrapInfo) : Prop :=
      u.locals = s.locals ∧ u.wave.keeps { s.wave with tokens := u.wave.tokens } noReg ∧ u.wave.wait = s.wave.wait ∧
        u.wave.cmds = s.wave.cmds.filter (fun x => x.num ≠ c.num) ∧ u.wave.engErr = s.wave.engErr ++ (c.err ++ err).map (fun t => (c.cls, t)) ∧
        (c.tok = none → u.wave.tokens = s.wave.tokens) ∧ ∀ k, c.tok = some k → u.wave.tokens = s.wave.tokens &&& ~~~(1#6 <<< k)
    (c.ctr = none → (s.cmdRetire c.num).mem = s.mem ∧ isOver (s.cmdRetire c.num) []) ∧
    (∀ va, c.ctr = some va → s.link.retraining = true → s.walkFar s.group.job s.group.tower va = true → s.cmdRetire c.num = s) ∧
    (∀ va m, c.ctr = some va → (s.link.retraining && s.walkFar s.group.job s.group.tower va) = false →
      s.translate s.group.job s.group.tower .write va = .error m →
      (m = .link → (s.cmdRetire c.num).mem = s.mem ∧ isOver (s.cmdRetire c.num) [.at_ .linkfail va 0]) ∧
      (m ≠ .link → s.cmdRetire c.num = s.cmdFault c m va true)) ∧
    ∀ va h, c.ctr = some va → (s.link.retraining && s.walkFar s.group.job s.group.tower va) = false →
      s.translate s.group.job s.group.tower .write va = .ok h →
      (s.link.retraining = true → dpaTower h.dpa ≠ s.group.tower → s.cmdRetire c.num = s) ∧
      (s.link.retraining = false ∨ dpaTower h.dpa = s.group.tower → h.disc = false → s.poisoned h.dpa 8 = none →
        s.denyClass s.group.tower h.mtype s.group.job (kindEng c.cls) true true true h.dpa (h.dpa + 8) = none →
        (0 < s.counterAt h.dpa → isOver (s.cmdRetire c.num) [] ∧
          (s.cmdRetire c.num).mem = Mem.writeBytes s.mem h.dpa (Mem.bytes (BitVec.ofInt 64 (s.counterAt h.dpa - 1) : DWord).toNat 8)) ∧
        (s.counterAt h.dpa ≤ 0 → isOver (s.cmdRetire c.num) [] ∧ (s.cmdRetire c.num).mem = s.mem ∧
          (((s.tower s.group.tower).recs.filter fun r => r.job = s.group.job).length < 16 →
            ∃ r ∈ ((s.cmdRetire c.num).tower s.group.tower).recs, r.job = s.group.job ∧
              taskBits r.bits 0 5 0 = causeCode .ctrunder))))

/-- With at most 63 commands of each class outstanding, a CNTRD that issues gives its s register the five counts in
six bits each, and changes nothing else. A CNTWAIT that issues, of a class without an unreported error, completes:
it changes nothing where the class has at most N commands outstanding, and else the wave waits for the class and
N. The first error that a completed command of the class left is taken at the CNTWAIT instead, precisely, and only
that one is reported no more. That a CNTWAIT takes the first of several errors and leaves the others for later
CNTWAITs is the model's choice (log 37). (R250, R257, R258, R259, 09_feeding_data.md) -/
def Obligations.CountsOfOutstandingCommands : Prop :=
  (∀ (f : Fields) (s : State), s.Issues (.cntrd f) f → (∀ c, s.wave.count c ≤ 63) →
    ∃ u : State, effects (.cntrd f) f s u ∧ u.keepsAll s ∧ u.wave.keeps s.wave (destOf f.d 1) ∧ u.wave.npc = s.wave.pc + 12 ∧
      ∀ q : Fin 128, f.d = .s q →
        let v := u.wave.sreg q
        bits v 5 0 = s.wave.count .cp ∧ bits v 11 6 = s.wave.count .gt ∧ bits v 17 12 = s.wave.count .mx ∧
          bits v 23 18 = s.wave.count .bc ∧ bits v 29 24 = s.wave.count .ry ∧ bits v 31 30 = 0) ∧
  (∀ (f : Fields) (s : State), s.Issues (.cntwait f) f →
    let c := classOf (mbits f 2 0)
    let n := mbits f 6 3
    ((∀ e ∈ s.wave.engErr, e.1 ≠ c) →
      ∃ u : State, effects (.cntwait f) f s u ∧ u.keepsAll s ∧ u.wave.npc = s.wave.pc + 12 ∧
        u.wave = { s.wave with npc := s.wave.pc + 12, wait := if s.wave.count c ≤ n then s.wave.wait else .cntwait c n }) ∧
    (∀ t, (s.wave.engErr.find? fun e => e.1 = c) = some (c, t) →
      ∃ u : State, u.keepsAll s ∧ u.wave.engErr = (s.wave.engErr.eraseP fun e => e.1 = c) ∧
        exec (.cntwait f) s = .next (u.takeTrap t s.wave.pairStart s.wave.pairStart (awaitOf (.cntwait f) f))))

/-- MZERO that issues makes every element of its tile +0 or 0 under the tag of its TYPE. MZMV to a tile writes
row m of quarter q from lane 8q + m of its eight registers where em has the lane, and leaves the other rows;
MZMV from a tile gives each lane of em the eight elements of its row, with the tile's tag. MBSEL with
aligned bounds inside the slice and owned pages sets its slot to the base and length. MMQ on a tile of the
right tag, whose B tiles lie in the slot and are sound, gives each element of an active row and column the
exact sum over K of its products, and of the old element unless ZA, rounded once; an element of any other
row or column keeps its value. No other register, no byte of memory and nothing of the towers changes. With NQ4 weights
the terms under an S that is no finite number (log 39) and the sign of a zero sum (log 116) are the model's choices.
(R194, R203, R204, R206, R207, R212, 08_matrix_and_scan.md) -/
def Obligations.TilesAreClearedMovedAndMultiplied : Prop :=
  (∀ (f : Fields) (s : State), s.Issues (.mzero f) f →
    ∃ u : State, effects (.mzero f) f s u ∧ u.keepsAll s ∧ u.wave.keeps s.wave (destOf f.d 1) ∧ u.wave.npc = s.wave.pc + 12 ∧
      ∀ z : Fin 16, f.d = .z z → (u.wave.tile z).tag = (if mbits f 0 0 = 0 then 3 else 1) ∧
        ∀ q m n, (u.wave.tile z).at_ q m n = 0) ∧
  (∀ (f : Fields) (s : State), s.Issues (.mzmv f) f → f.mod.getLsbD 0 = true →
    let x := s.ctx (form (.mzmv f)) f
    ∃ u : State, effects (.mzmv f) f s u ∧ u.keepsAll s ∧ u.wave.keeps s.wave (destOf f.d 1) ∧ u.wave.npc = s.wave.pc + 12 ∧
      ∀ z : Fin 16, f.d = .z z → (u.wave.tile z).tag = (if mbits f 1 1 = 0 then 3 else 1) ∧
        ∀ q < 4, ∀ m < 8, ∀ n < 8, (u.wave.tile z).at_ q m n =
          if laneOn s.wave.em (8 * q + m) then laneAt (x.lanes (Opnd.step f.a n)) (8 * q + m) else (s.wave.tile z).at_ q m n) ∧
  (∀ (f : Fields) (s : State), s.Issues (.mzmv f) f → f.mod.getLsbD 0 = false →
    let x := s.ctx (form (.mzmv f)) f
    x.tileBad f.a (tileTag (mbits f 1 1)) = false →
    ∃ u : State, effects (.mzmv f) f s u ∧ u.keepsAll s ∧ u.wave.keeps s.wave (destOf f.d 8) ∧ u.wave.npc = s.wave.pc + 12 ∧
      ∀ (z : Fin 16) (r : Fin 320), f.a = .z z → f.d = .v r → ∀ n < 8, r.val + n < 320 →
        (u.wave.vreg (r.val + n)).tag = (s.wave.tile z).tag ∧
        ∀ i < 32, laneAt (u.wave.vreg (r.val + n)).lanes i =
          if laneOn s.wave.em i then (s.wave.tile z).at_ (i / 8) (i % 8) n else laneAt (s.wave.vreg (r.val + n)).lanes i) ∧
  (∀ (f : Fields) (s : State), s.Issues (.mbsel f) f →
    let x := s.ctx (form (.mbsel f)) f
    let a := (x.uni f.a).toNat
    let b := (x.uni f.b).toNat
    a % 64 = 0 → b % 64 = 0 → a + b ≤ 2 ^ 20 →
    (b = 0 ∨ (s.tower s.group.tower).bOwned s.group.job a (a + b) = true) →
    ∃ u : State, effects (.mbsel f) f s u ∧ u.keepsAll s ∧ u.wave = { s.wave with npc := s.wave.pc + 12 } ∧
      Table.get (0, 0) u.group.slots (mbits f 5 0) = (a, b) ∧
      ∀ k, k ≠ mbits f 5 0 → Table.get (0, 0) u.group.slots k = Table.get (0, 0) s.group.slots k) ∧
  (∀ (f : Fields) (s : State), s.Issues (.mmq f) f →
    let x := s.ctx (form (.mmq f)) f
    let c := mbits f 3 0
    let pr (lo : Nat) : Mask := if f.ext.getLsbD (lo + 4) then x.w.pred (ebits f (lo + 3) lo) else 0xFFFFFFFF
    let row (q m : Nat) : Bool := laneOn (s.wave.em &&& pr 0) (8 * q + m)
    let col (q n : Nat) : Bool := laneOn (pr 5) (8 * q + n)
    let live (q : Nat) : Prop := (∃ m < 8, row q m = true) ∧ ∃ n < 8, col q n = true
    let b (q : Nat) : Word := laneAt (x.lanes f.b) (8 * q)
    let cw := if c < 7 then 32 else 40
    ∀ base : Nat → Nat, x.tileBad f.d (if c = 6 then 1 else 3) = false →
    (∀ q < 4, live q → bits (b q) 19 0 % 64 = 0 ∧ s.bSlot (ebits f 15 10) (bits (b q) 19 0) (mmqTileBytes c) = some (base q)) →
    s.poison = [] →
    ∃ u : State, effects (.mmq f) f s u ∧ u.keepsAll s ∧ u.wave.regsBut s.wave (destOf f.d 1) ∧ u.wave.em = s.wave.em ∧
      u.wave.npc = s.wave.pc + 12 ∧
      ∀ z : Fin 16, f.d = .z z → (u.wave.tile z).tag = (s.wave.tile z).tag ∧
        ∀ q < 4, ∀ m < 8, ∀ n < 8, (u.wave.tile z).at_ q m n =
          if row q m && col q n then
            (mmqElem c (x.aElem c q m)
              (Mem.readBytes (s.tower s.group.tower).bstore (bKey s.group.coreIdx (base q) + cw * n) cw)
              (if bits (b q) 26 20 = 0 then mmqK c else min (bits (b q) 26 20) (mmqK c))
              (if f.mod.getLsbD 4 then none else some ((s.wave.tile z).at_ q m n))).word
          else (s.wave.tile z).at_ q m n)

/-- An MZLD that issues, whose handle, stride, origins and rows pass the checks of R208 (in local space meeting
no live entry of the range scoreboard, in global space with every byte mapped and granted), completes:
element n of each active row takes the four bytes at the row's offset plus 4n, every other element keeps its
value, and the tile has the tag of its TYPE. No byte of memory and no other register changes. An MZST on a
tile of the right tag, under the same checks, with room in class MX and in the scoreboard, completes: one
command of class MX holds every element of each active row as it now stands, and nothing has been stored.
With no active lane there is no command. (R208, R209, R210, 08_matrix_and_scan.md) -/
def Obligations.TilesLoadAndStoreTheirRows : Prop :=
  (∀ (f : Fields) (s : State), s.Issues (.mzld f) f →
    let x := s.ctx (form (.mzld f)) f
    ∀ (e : BitVec 256) (ls : List (Nat × Int)) (y : Ctx), x.tileCheck { spaces := [1, 2], rd := true } = .ok (e, ls, y) →
    ∀ get : Int → Word,
      (hSpace e = 2 ∧ (∀ p ∈ ls, s.group.boardBlocks false (localOff e p.2) 32 = false) ∧
          (∀ o, get o = BitVec.ofNat 32 (Mem.readNat (s.localMem s.group.unit) (localOff e o) 4)) ∨
        hSpace e = 1 ∧ s.wave.drains ((rowElems ls).map fun p => (vaOf e p.2).toNat) 4 = false ∧
          ∃ gs w, y.plan e ⟨.read, true, false, false, true, kindWave⟩ 4 (rowElems ls) = .ok ⟨gs, [], [], w⟩ ∧ y.s.seeWalks w = y.s ∧
            ∀ o h, s.translate s.group.job s.group.tower .read (vaOf e o) = .ok h → get o = BitVec.ofNat 32 (Mem.number (s.load h 4))) →
      ∃ u : State, effects (.mzld f) f s u ∧ u.keepsAll s ∧ u.wave.keeps s.wave (destOf f.d 1) ∧ u.wave.npc = s.wave.pc + 12 ∧
        ls.map Prod.fst = lanesOf x.m ∧
        ∀ z : Fin 16, f.d = .z z → (u.wave.tile z).tag = (if mbits f 6 6 = 0 then 3 else 1) ∧
          (∀ i o n, (i, o) ∈ ls → n < 8 → (u.wave.tile z).at_ (i / 8) (i % 8) n = get (o + (4 * n : Nat))) ∧
          ∀ i < 32, laneOn x.m i = false → ∀ n < 8, (u.wave.tile z).at_ (i / 8) (i % 8) n = (s.wave.tile z).at_ (i / 8) (i % 8) n) ∧
  (∀ (f : Fields) (s : State), s.Issues (.mzst f) f →
    let x := s.ctx (form (.mzst f)) f
    ∀ (e : BitVec 256) (ls : List (Nat × Int)) (y : Ctx),
      x.tileBad f.d (tileTag (mbits f 6 6)) = false →
      x.tileCheck { spaces := [1, 2], rd := f.mod.getLsbD 5, wr := true } = .ok (e, ls, y) →
      (x.m = 0 → ∃ u : State, effects (.mzst f) f s u ∧ u.keepsAll s ∧ u.wave = { s.wave with npc := s.wave.pc + 12 }) ∧
      (x.m ≠ 0 → s.wave.count .mx < 63 →
        (∀ lo hi, hSpace e = 2 → (∀ p ∈ ls, lo ≤ localOff e p.2 ∧ localOff e p.2 + 32 ≤ hi) → s.group.boardFull lo hi = false) →
        ∃ (u : State) (cells : List (List (Nat × Word))), effects (.mzst f) f s u ∧ u.keepsAll s ∧
          u.wave.keeps s.wave noReg ∧ u.wave.npc = s.wave.pc + 12 ∧
          u.wave.cmds = s.wave.cmds ++ [⟨s.seq, .mx, .mzst e cells (f.mod.getLsbD 5) (decide (mbits f 6 6 = 0)) (tileScope f) (s.relBy (tileScope f)), 0,
            none, none, none, false, [], s.wave.pairStart, (encode (.mzst f)).getD 0, 0⟩] ∧
          ∀ z : Fin 16, f.d = .z z → ∀ c, c ∈ cells.flatten ↔
            ∃ i o n, (i, o) ∈ ls ∧ n < 8 ∧ c = ((o + (4 * n : Nat)).toNat, (s.wave.tile z).at_ (i / 8) (i % 8) n)))

/-- A SCAN that issues, with no tile store of its wave pending, on a control block that it can read, that passes the
checks of R214 and whose accesses no target denies, completes. Where none of its stages meets a translation fault,
no SCAN of the wave is left under way, memory and local memory are as its stages left them, its s register holds
the status word of R219, its flags are raised, and every other register, em, LIVE, the stack and the trap
registers stand; a stage without a page leaves the SCAN stopped at that address. A stage of a channel group writes
each output of its steps at YOFF + (t P + p) es and keeps the new states, both of the inputs read before; an
element is read and written at its offset of the local space or of its page. A recurrent step makes each state a
times the old one plus the rounded product of B and x, rounded once, and the output the rounded sums of C times
the states, in order; a chunk makes each output and each state one rounded exact sum over the products that R217
names, with the cumulative decays g[t][s]. SCANST gives its s register the same word from a length, a threshold
and a chunk length, or 0 for a length of 0, and changes nothing else. A SCAN behind a pending MZST of its wave,
which this statement leaves out, waits for it. That wait, SCAN's work done at its issue, and a number of chunks
above 24 bits truncated in the status word are the model's choices (log 40). (R213, R214, R215, R216, R217, R219,
R221, R430, 08_matrix_and_scan.md) -/
def Obligations.ScansRunTheRecurrence : Prop :=
  let ss (l thr q : Nat) (w : Word) : Prop :=
    w.getLsbD 0 = decide (thr ≤ l) ∧ w.getLsbD 1 = decide ((if thr ≤ l then l / q else 0) * q < l) ∧ bits w 7 2 = 0 ∧
      bits w 31 8 = (if thr ≤ l then l / q else 0) % 2 ^ 24
  let mulV (x y : Nat) : Nat := (Fmt.f32.mul .rne false x y).val
  (∀ (f : Fields) (s : State), s.Issues (.scan f) f →
    let x := s.ctx (form (.scan f)) f
    ∀ (e : BitVec 256) (y : Ctx) (g : GLane) (w : List DWord),
      (∀ c ∈ s.wave.cmds, c.op.stores = false) → (vaOf (s.entry (hOf f)) (x.off 0)).toNat % 128 = 0 →
      x.access { spaces := [1], rd := true } 128 1 x.uniOff = .ok (e, y) →
      y.plan e ⟨.read, true, false, false, true, kindWave⟩ 128 y.uniOff = .ok ⟨[g], [], [], w⟩ →
      let c : BitVec 1024 := BitVec.ofNat 1024 (Mem.number (s.load g.hit 128))
      y.sound (scDh c) = .ok () → y.scanBad c = none → (∃ gs v, y.scanAccess c = .ok ⟨gs, [], [], v⟩) →
      let s1 := ((y.s.seeWalks w).readHit none g.hit 128 g.va).touch g.hit
      let s2 := (s1.useHandle (scDh c) (s1.entry (scDh c))).fed
      let r := scanGo (s2.entry (scDh c)) (scStages c) s2 ⟨c, f.d, f.hint.tok.toNat, [], [], 0, none, s.wave.pairStart⟩
      let frame (u : State) : Prop := u.mem = r.1.mem ∧ u.locals = r.1.locals ∧ u.wave.npc = s.wave.pc + 12 ∧
        u.wave.regsBut s.wave (destOf f.d 1) ∧ u.wave.em = s.wave.em ∧ u.wave.live = s.wave.live ∧ u.wave.stack = s.wave.stack ∧
        u.wave.tokens = s.wave.tokens ∧ u.wave.tvec = s.wave.tvec ∧ u.wave.tepc = s.wave.tepc ∧ u.wave.tem = s.wave.tem ∧
        u.wave.cause = s.wave.cause ∧ u.wave.inh = s.wave.inh ∧ u.wave.taddr = s.wave.taddr ∧ u.wave.tmask = s.wave.tmask
      (r.2.2 = none → ∃ u : State, effects (.scan f) f s u ∧ frame u ∧ u.wave.scan = none ∧
        u.wave.wflags = s.wave.wflags ||| r.2.1.fl ∧
        ∀ q : Fin 128, f.d = .s q → ss (scL c) (scThr c) (scQ c) (u.wave.sreg q)) ∧
      (∀ m va wr, r.2.2 = some (.miss m va wr) → ∃ (u : State) (q : ScanProg) (k : Cause), effects (.scan f) f s u ∧ frame u ∧
        u.wave.regsBut s.wave noReg ∧ u.wave.wflags = s.wave.wflags ∧ u.wave.scan = some q ∧ q.stop = some (k, va) ∧ q.scb = c)) ∧
  (∀ (s : State) (e : BitVec 256) (q : ScanProg) (g t0 len : Nat), len ≠ 0 →
    let c := q.scb
    let ins (p : Nat) : List ScanIn := (List.range len).map fun k => s.scanIn e c p (t0 + k)
    let out (p : Nat) : List Nat × List Nat :=
      if len = 1 then
        let r := ssStep (scFmt c) 0 ((ins p).getD 0 ⟨0, 0, [], []⟩) (s.scanState e q p t0)
        (r.1, [r.2.1])
      else
        let r := ssChunk (scFmt c) 0 (ins p) (s.scanState e q p t0)
        (r.1, r.2.1)
    (s.scanStage e q g t0 len).1 = ((scChans c g).flatMap fun p => (out p).2.zipIdx.map fun v =>
        (scOff c 4 + ((t0 + v.2) * scP c + p) * scEs c, v.1)).foldl (fun s w => s.scanWrite e w.1 (scEs c) w.2) s ∧
      ∀ p ∈ scChans c g, ∀ d < scD c, d < (out p).1.length →
        Table.get 0 (s.scanStage e q g t0 len).2.state (p * scD c + d) = BitVec.ofNat 32 ((out p).1.getD d 0)) ∧
  (∀ (s : State) (e : BitVec 256) (o : Fmt) (at_ n v : Nat),
    let as (x : Nat) : Nat := if o = .f32 then x else (o.convert .f32 .rne false x).val
    (hSpace e = 2 → s.scanRead e o at_ n = as (Mem.readNat (s.localMem s.group.unit) (localOff e at_) n) ∧
      (s.scanWrite e at_ n v).localMem s.group.unit = Mem.writeBytes (s.localMem s.group.unit) (localOff e at_) (Mem.bytes v n) ∧
      (s.scanWrite e at_ n v).mem = s.mem) ∧
    (∀ h, hSpace e ≠ 2 → s.translate s.group.job s.group.tower .read (vaOf e at_) = .ok h →
      s.scanRead e o at_ n = as (Mem.number (s.load h n))) ∧
    (∀ h, hSpace e ≠ 2 → s.translate s.group.job s.group.tower .write (vaOf e at_) = .ok h → h.disc = false →
      (s.scanWrite e at_ n v).mem = Mem.writeBytes s.mem h.dpa (Mem.bytes v n) ∧ (s.scanWrite e at_ n v).locals = s.locals)) ∧
  (∀ (o : Fmt) (fl : Flags) (i : ScanIn) (h : List Nat), i.b.length = h.length →
    let t := ssStep o fl i h
    t.1.length = h.length ∧ (∀ d < h.length, t.1.getD d 0 =
      (Fmt.f32.fma .rne false i.a (h.getD d 0) (mulV (i.b.getD d 0) i.x)).val) ∧
    t.2.1 = (scOut o ((i.c.zip t.1).foldl (fun s p => (Fmt.f32.fma .rne false p.1 p.2 s).val) 0)).val) ∧
  (∀ (o : Fmt) (fl : Flags) (ins : List ScanIn) (h : List Nat), ins ≠ [] →
    let i (k : Nat) : ScanIn := ins.getD k ⟨0, 0, [], []⟩
    let g (k j : Nat) : Nat := ((List.range (k + 1 - j)).map (j + ·)).foldl (fun v m => mulV v (i m).a) 0x3F800000
    let t := ssChunk o fl ins h
    t.1.length = h.length ∧ t.2.1.length = ins.length ∧
    (∀ k < ins.length, t.2.1.getD k 0 = (o.sum .rne false
      (((List.range (k + 1)).map fun j =>
        scTerm (mulV (Fmt.f32.sum .rne false (((i k).c.zip (i j).b).map fun p => scTerm p.1 p.2)).val (g k (j + 1))) (i j).x) ++
       ((i k).c.zip h).map fun p => scTerm (mulV p.1 (g k 0)) p.2)).val) ∧
    ∀ d < h.length, t.1.getD d 0 = (Fmt.f32.sum .rne false
      (scTerm (g (ins.length - 1) 0) (h.getD d 0) ::
        (List.range ins.length).map fun j => scTerm (mulV ((i j).b.getD d 0) (g (ins.length - 1) (j + 1))) (i j).x)).val) ∧
  (∀ (f : Fields) (s : State), s.Issues (.scanst f) f →
    let x := s.ctx (form (.scanst f)) f
    ∃ u : State, effects (.scanst f) f s u ∧ u.keepsAll s ∧ u.wave.keeps s.wave (destOf f.d 1) ∧ u.wave.npc = s.wave.pc + 12 ∧
      ∀ q : Fin 128, f.d = .s q →
        ((x.uni f.a).toNat = 0 → u.wave.sreg q = 0) ∧
        ((x.uni f.a).toNat ≠ 0 → ss (x.uni f.a).toNat (x.uni f.b).toNat (8 * 2 ^ mbits f 1 0) (u.wave.sreg q)))

/-- An LNCH or TASKQ that issues, on a record that its wave can use, where the entries that its group holds and
the claims before its own leave it one of the four, and whose record the dispatcher accepts, completes with
the state that the acceptance left and no claim of its wave; with .NB its predicate is 1. Where no entry is
left the .NB form sets the predicate to 0 and changes nothing else, and the plain form leaves its run with a
claim: the one that it has, or a new one behind all others. A record that the dispatcher refuses traps
LNCHBAD or TASKBAD. An accepted launch is one more live launch, QUEUED, with ISSUED and RETIRED 0 and the
record's address, and takes one entry of the group's pending-launch queue; an accepted task is one more
unit, held, and takes one entry. No register but the predicate changes. That a TASKQ reaches its record as a write, as an
LNCH must, is the model's choice (log 119): R103 asks RD and WR of the handle of both. (R92, R95, R103, 04_launching.md) -/
def Obligations.SubmissionsAreAccepted : Prop :=
  let lit (f : Fields) (u : State) (m : Mask) : Prop := ∀ p : Fin 16, f.d = .p p → u.wave.pred p = m
  let nbOut (f : Fields) (i : Nat) : Prop := f.mod.getLsbD 0 = true ∧ destOf f.d 1 i
  (∀ (f : Fields) (s : State) (e : BitVec 256) (y z : Ctx) (g : GLane) (t : State), s.Issues (.lnch f) f →
    (s.ctx (form (.lnch f)) f).recordAt needRw 128 128 = .ok (e, y) → s.entryFor s.group s.wave = true →
    y.recordHit e accRw 128 = .ok (g, z) →
    ((z.s.revive g.hit).release (some .dv)).submitLaunch s.group.job s.group.tower g.va g.hit.dpa s.group.depth
      (some (s.group.gid, s.group.unit)) 0 = .ok t →
    ∃ u : State, effects (.lnch f) f s u ∧ u.launches = t.launches ∧ u.mem = t.mem ∧ u.plq = t.plq ∧ u.wave.claim = none ∧
      u.wave.keeps s.wave (nbOut f) ∧ u.wave.npc = s.wave.pc + 12 ∧ (f.mod.getLsbD 0 = true → lit f u 0xFFFFFFFF)) ∧
  (∀ (f : Fields) (s : State) (e : BitVec 256) (y z : Ctx) (g : GLane) (t : State), s.Issues (.taskq f) f →
    (s.ctx (form (.taskq f)) f).recordAt needRw 64 64 = .ok (e, y) → s.entryFor s.group s.wave = true →
    y.recordHit e accRw 64 = .ok (g, z) →
    ((z.s.revive g.hit).release (some .dv)).submitTask s.group.job s.group.tower g.va g.hit.dpa s.group.depth
      (some (s.group.gid, s.group.unit)) 0 = .ok t →
    ∃ u : State, effects (.taskq f) f s u ∧ u.units = t.units ∧ u.mem = t.mem ∧ u.plq = t.plq ∧ u.wave.claim = none ∧
      u.wave.keeps s.wave (nbOut f) ∧ u.wave.npc = s.wave.pc + 12 ∧ (f.mod.getLsbD 0 = true → lit f u 0xFFFFFFFF)) ∧
  (∀ p ∈ ([(.lnch, 128), (.taskq, 64)] : List ((Fields → Instr) × Nat)), ∀ (f : Fields) (s : State) (e : BitVec 256) (y : Ctx),
    s.Issues (p.1 f) f → (s.ctx (form (p.1 f)) f).recordAt needRw p.2 p.2 = .ok (e, y) →
    s.entryFor s.group s.wave = false →
    (f.mod.getLsbD 0 = true → ∃ u : State, effects (p.1 f) f s u ∧ u.keepsAll s ∧ u.plq = s.plq ∧
      u.wave.keeps s.wave (destOf f.d 1) ∧ lit f u 0) ∧
    (f.mod.getLsbD 0 = false → ∃ t : State, exec (p.1 f) s = .next t ∧ t.launches = s.launches ∧ t.units = s.units ∧
      t.plq = s.plq ∧ t.mem = s.mem ∧ t.seq = s.seq + 1 ∧
      (s.wave.alive = true → s.group.kill = false → s.wave.live ≠ 0 →
        ∀ w, t.findWave s.wave.key = some w → w.inRun = false ∧ w.wait = .retry false ∧ w.pc = s.wave.pairStart ∧
          w.claim = some (s.wave.claim.getD s.seq)))) ∧
  (∀ p ∈ ([(.lnch, 128, .lnchbad), (.taskq, 64, .taskbad)] : List ((Fields → Instr) × Nat × Cause)),
    ∀ (f : Fields) (s : State) (e : BitVec 256) (y z : Ctx) (g : GLane), s.Issues (p.1 f) f →
    (s.ctx (form (p.1 f)) f).recordAt needRw p.2.1 p.2.1 = .ok (e, y) → s.entryFor s.group s.wave = true →
    y.recordHit e accRw p.2.1 = .ok (g, z) → z.s.tower0 = s.tower0 → z.s.tower1 = s.tower1 →
    let s' := (z.s.revive g.hit).release (some .dv)
    (if p.2.1 = 128
      then s'.submitLaunch s.group.job s.group.tower g.va g.hit.dpa s.group.depth (some (s.group.gid, s.group.unit)) 0
      else s'.submitTask s.group.job s.group.tower g.va g.hit.dpa s.group.depth (some (s.group.gid, s.group.unit)) 0) = .bad →
    ∃ u : State, u.keepsAll s ∧ u.plq = s.plq ∧
      exec (p.1 f) s = .next (u.takeTrap (.at_ p.2.2 g.va 0) s.wave.pairStart s.wave.pairStart (awaitOf (p.1 f) f))) ∧
  (∀ (s : State) (job : Nat) (t : TowerId) (va : DWord) (dpa depth gid un src : Nat) (u : State),
    s.submitLaunch job t va dpa depth (some (gid, un)) src = .ok u →
    u.launches.length = s.launches.length + 1 ∧ u.seq = s.seq + 1 ∧ u.wave = s.wave ∧ u.units = s.units ∧
      u.plq = s.plq ++ [⟨job, gid, un, some s.seq, none⟩] ∧
      ∃ n ∈ u.launches, n.id = s.seq ∧ n.addr = va ∧ n.dpa = dpa ∧ n.job = job ∧ n.tower = t ∧ n.state = 1 ∧
        n.issued = 0 ∧ n.retired = 0 ∧ n.next = 0) ∧
  (∀ (s : State) (job : Nat) (t : TowerId) (va : DWord) (dpa depth gid un src : Nat) (u : State),
    s.submitTask job t va dpa depth (some (gid, un)) src = .ok u →
    u.seq = s.seq + 1 ∧ u.wave = s.wave ∧ u.launches = s.launches ∧ u.plq = s.plq ++ [⟨job, gid, un, none, some s.seq⟩] ∧
      ∃ n : WorkUnit, u.units = s.units ++ [n] ∧ n.id = s.seq ∧ n.recVa = va ∧ n.job = job ∧ n.tower = t ∧ n.st = .held)

/-- A SUCCHINT that issues completes: where the group's unit belongs to a launch with a successor linked to it, the
unit's tile is counted as hinted in that launch, every other launch standing as it was, and else nothing changes. A
WAITPRED goes on with nothing changed where the group's link is not pending, waits outside its run where it is, and
traps WAITPREDX where the link was cancelled. A FETCHW of a persistent group, with a mailbox inside its local space
and aligned, no request pending and no tile held, on the record of a plain launch of its job, live or ended,
completes: the first eight bytes of the mailbox are zero, no other local byte changes, its 32 bytes are one more live
write entry of the scoreboard, and the request is pending. On a gang's record, one never submitted, one on a discarded
page or one of another job it traps FETCHBAD, and while a request is pending it leaves its run to issue again. That a
live record is judged by the launch that holds it, one not live by its JOB field with 0 as the own job, and that the
wait for the mailbox leaves the run to issue again, are the model's choices (log 46), as is that WAITPREDX names no
address (log 26). (R97, R104, R105, R136, R426, 04_launching.md) -/
def Obligations.PredecessorsAndMailboxes : Prop :=
  (∀ (f : Fields) (s : State), s.Issues (.succhint f) f →
    ∃ u : State, effects (.succhint f) f s u ∧ { u with launches := s.launches }.keepsAll s ∧
      u.wave = { s.wave with npc := s.wave.pc + 12 } ∧
      (∀ w n, s.findUnit s.group.unit = some w → w.launch = some n → s.hasSuccessor n = true →
        u.launches = s.launches.map fun l =>
          if l.id = n ∧ ¬w.lin ∈ l.hinted then { l with hinted := w.lin :: l.hinted } else l) ∧
      ((∀ w n, s.findUnit s.group.unit = some w → w.launch = some n → s.hasSuccessor n = false) →
        u.launches = s.launches)) ∧
  (∀ (f : Fields) (s : State), s.Issues (.waitpred f) f →
    (∀ n, s.groupLink s.group = .pending n →
      ∃ u : State, effects (.waitpred f) f s u ∧ u.keepsAll s ∧
        u.wave = { s.wave with npc := s.wave.pc + 12, wait := .waitpred s.wave.pc }) ∧
    (s.groupLink s.group = .none ∨ s.groupLink s.group = .satisfied →
      ∃ u : State, effects (.waitpred f) f s u ∧ u.keepsAll s ∧ u.wave = { s.wave with npc := s.wave.pc + 12 }) ∧
    (s.groupLink s.group = .cancelled → ∃ u : State, u.keepsAll s ∧
      exec (.waitpred f) s = .next (u.takeTrap (.plain .waitpredx) s.wave.pairStart s.wave.pairStart (awaitOf (.waitpred f) f)))) ∧
  (∀ (f : Fields) (s : State) (e : BitVec 256) (y z : Ctx) (g : GLane), s.Issues (.fetchw f) f →
    let x := s.ctx (form (.fetchw f)) f
    let mb := (x.uni f.a).toNat
    let own := Mem.readNat s.mem (g.hit.dpa + 28) 2 % 2 ^ 12
    taskBits s.group.task 35 1 1 = 1 → mb % 32 = 0 → mb + 32 ≤ s.group.localSize →
    x.recordAt { spaces := [1], rd := true } 128 128 = .ok (e, y) → y.recordHit e accRd 128 = .ok (g, z) →
    (∀ q, s.group.fetch = some q → q.pending = false ∧ q.tile = none) → s.group.boardFull mb (mb + 32) = false →
    ((∃ l, s.liveDpa g.hit.dpa = some l ∧ l.job = s.group.job ∧ lnGang l.image = false) ∨
      (s.liveDpa g.hit.dpa = none ∧ g.hit.disc = false ∧ bits (s.read64 (g.hit.dpa + 120)) 59 56 ≠ 0 ∧
        (Mem.read s.mem (g.hit.dpa + 27)).getLsbD 4 = false ∧ (own = 0 ∨ own = s.group.job))) →
    ∃ u : State, effects (.fetchw f) f s u ∧ u.mem = s.mem ∧ u.wave.keeps s.wave noReg ∧ u.wave.npc = s.wave.pc + 12 ∧
      u.localMem s.group.unit = Mem.writeBytes (s.localMem s.group.unit) mb (Mem.bytes 0 8) ∧
      (∀ k, k ≠ s.group.unit → u.localMem k = s.localMem k) ∧
      u.group.fetch = some ⟨((s.liveDpa g.hit.dpa).map Launch.addr).getD g.va, mb, true, none⟩ ∧
      u.group.board = s.group.board ++ [⟨mb, mb + 32, true, s.wave.idx, true⟩]) ∧
  (∀ (f : Fields) (s : State) (e : BitVec 256) (y : Ctx), s.Issues (.fetchw f) f →
    let x := s.ctx (form (.fetchw f)) f
    let mb := (x.uni f.a).toNat
    let fails (t : TrapInfo) : Prop := ∃ u : State, u.keepsAll s ∧
      exec (.fetchw f) s = .next (u.takeTrap t s.wave.pairStart s.wave.pairStart (awaitOf (.fetchw f) f))
    (taskBits s.group.task 35 1 1 = 0 → fails (.at_ .fetchbad (BitVec.ofNat 64 mb) 0)) ∧
    (taskBits s.group.task 35 1 1 = 1 →
      (mb % 32 ≠ 0 → fails (.at_ .align (BitVec.ofNat 64 mb) 0)) ∧
      (mb % 32 = 0 → s.group.localSize < mb + 32 → fails (.at_ .localoob (BitVec.ofNat 64 mb) 0)) ∧
      (mb % 32 = 0 → mb + 32 ≤ s.group.localSize → x.recordAt { spaces := [1], rd := true } 128 128 = .ok (e, y) →
        (∀ q, s.group.fetch = some q → q.pending = true → ∃ t : State, exec (.fetchw f) s = .next t ∧ t.mem = s.mem ∧
          t.locals = s.locals ∧ t.launches = s.launches ∧ (s.wave.live ≠ 0 → s.group.kill = false →
            t.wave.wait = .retry true ∧ t.wave.inRun = false ∧ t.wave.pc = s.wave.pairStart)) ∧
        ((∀ q, s.group.fetch = some q → q.pending = false) → ∀ g z, y.recordHit e accRd 128 = .ok (g, z) →
          z.s.tower0 = s.tower0 → z.s.tower1 = s.tower1 →
          let own := Mem.readNat s.mem (g.hit.dpa + 28) 2 % 2 ^ 12
          ((∃ l, s.liveDpa g.hit.dpa = some l ∧ (l.job ≠ s.group.job ∨ lnGang l.image = true)) ∨
            (s.liveDpa g.hit.dpa = none ∧ (g.hit.disc = true ∨ bits (s.read64 (g.hit.dpa + 120)) 59 56 = 0 ∨
              (Mem.read s.mem (g.hit.dpa + 27)).getLsbD 4 = true ∨ (own ≠ 0 ∧ own ≠ s.group.job)))) →
          fails (.at_ .fetchbad g.va 0)))))

/-- A CANCEL that issues completes at each of its levels, on a record that it may use: .UN marks the group's
unit as cancelled and the group, if it has not ended, is to end, cancel-masked or not, as are the unit's other groups
that are not cancel-masked, while its masked ones stand; .LN on a live launch
of the job leaves a request on it, and a group of it that is not cancel-masked and has not ended is to end;
.GR and .PH on a record of their KIND, owned by the job and not retired, leave a request on the record, on
every live launch of the job whose graph is that record and, for .PH, on every known graph below it; .JB on
the record of a job that is live leaves a request on the job and on its live launches. A request is the word of REQ and
REASON, which the wave stores in the record that it names and the hardware in the live records below it, bytes 112 to 119
of a launch's, where it can reach them. CANCEL.LN of a launch that has ended, and
.GR and .PH of a retired record, change nothing; a record of another kind or, but for .JB, of another job
traps LNCHBAD at the record's address, one on a discarded page read as zeros, and .JB on another job's record without
PRIV traps PRIV. That the REASON of a record's first request stands (log 43), and that HBOUNDS covers the cancel word
alone (log 118), are the model's choices. (R21, R22, R99, R106, 04_launching.md) -/
def Obligations.CancellationRequestsItsLevel : Prop :=
  (∀ (f : Fields) (s : State), s.Issues (.cancel f) f → mbits f 2 0 = 0 →
    ∃ u : State, effects (.cancel f) f s u ∧ (∀ w ∈ u.units, w.id = s.group.unit → w.cancelled = true) ∧
      u.units.length = s.units.length ∧ (s.group.ended = false → u.group.kill = true) ∧
      ((∃ w, s.findUnit s.group.unit = some w) → (s.allGroups.map Group.key).Nodup → ∀ h ∈ s.groups, h.unit = s.group.unit →
        (taskBits h.task 35 2 2 = 1 → h ∈ u.groups) ∧
        (taskBits h.task 35 2 2 = 0 → ∃ k ∈ u.groups, k.key = h.key ∧ k.kill = true))) ∧
  (∀ (f : Fields) (s : State) (e : BitVec 256) (y z : Ctx) (g : GLane), s.Issues (.cancel f) f →
    let x := s.ctx (form (.cancel f)) f
    let lv := mbits f 2 0
    let d := g.hit.dpa - 8
    let own := Mem.readNat s.mem (d + 34) 2 % 2 ^ 12
    let fails (t : TrapInfo) : Prop := ∃ u : State, u.keepsAll s ∧
      exec (.cancel f) s = .next (u.takeTrap t s.wave.pairStart s.wave.pairStart (awaitOf (.cancel f) f))
    let still : Prop := ∃ u : State, effects (.cancel f) f s u ∧ u.keepsAll s ∧ u.levels = s.levels
    let asked (u : State) (l : Launch) : Prop := ∃ k ∈ u.launches, k.id = l.id ∧ k.req = true
    x.recordAt needRw 8 8 = .ok (e, y) → y.recordHit e accRw 8 = .ok (g, z) →
    z.s.tower0 = s.tower0 → z.s.tower1 = s.tower1 →
    (lv = 1 → let r := g.hit.dpa - 112
      ((g.va - 112).toNat % 128 ≠ 0 → fails (.at_ .lnchbad (g.va - 112) 0)) ∧
      ((g.va - 112).toNat % 128 = 0 →
        (∀ l, s.liveDpa r = some l →
          (l.job ≠ s.group.job → fails (.at_ .lnchbad (g.va - 112) 0)) ∧
          (l.job = s.group.job → ∃ u : State, effects (.cancel f) f s u ∧ asked u l ∧
            (∀ w, s.findUnit s.group.unit = some w → w.job = l.job → w.launch = some l.id → s.group.ended = false →
              taskBits s.group.task 35 2 2 = 0 → u.group.kill = true))) ∧
        (s.liveDpa r = none → let o := if g.hit.disc then 0 else Mem.readNat s.mem (r + 28) 2 % 2 ^ 12
          let st := if g.hit.disc then 0 else bits (s.read64 (r + 120)) 63 56
          (st ≤ 5 → (o = 0 ∨ o = s.group.job) → still) ∧
          (5 < st ∨ (o ≠ 0 ∧ o ≠ s.group.job) → fails (.at_ .lnchbad (g.va - 112) 0))))) ∧
    ((lv = 2 ∨ lv = 3) → ((g.va - 8).toNat % 64 ≠ 0 ∨ g.hit.disc = true ∨ s.recKind d ≠ lv - 1 ∨ own ≠ s.group.job →
        fails (.at_ .lnchbad (g.va - 8) 0)) ∧
      ((g.va - 8).toNat % 64 = 0 → g.hit.disc = false → s.recKind d = lv - 1 → own = s.group.job →
        (s.recRetired d = true → still) ∧
        (s.recRetired d = false → ∃ u : State, effects (.cancel f) f s u ∧
          (∃ q ∈ u.levels, q.job = s.group.job ∧ q.at_ = d ∧ q.req = true) ∧
          (∀ l ∈ s.launches, l.job = s.group.job → l.graphAt = d → asked u l) ∧
          (lv = 3 → ∀ q ∈ s.levels, q.job = s.group.job → q.kind = 1 → q.up = d →
            ∃ r ∈ u.levels, r.job = q.job ∧ r.at_ = q.at_ ∧ r.req = true)))) ∧
    (lv = 4 → ((g.va - 8).toNat % 64 ≠ 0 ∨ g.hit.disc = true ∨ s.recKind d ≠ 3 → fails (.at_ .lnchbad (g.va - 8) 0)) ∧
      ((g.va - 8).toNat % 64 = 0 → g.hit.disc = false → s.recKind d = 3 → own ≠ s.group.job → s.wave.jctl.getLsbD 0 = false →
        fails (.plain .priv))) ∧
    (∀ j, lv = 4 → (g.va - 8).toNat % 64 = 0 → g.hit.disc = false → s.recKind d = 3 → (own = s.group.job ∨ s.wave.jctl.getLsbD 0 = true) →
      (s.jobs.find? fun j => j.id = own && j.recAt = d) = some j → j.retired = false →
      ∃ u : State, effects (.cancel f) f s u ∧ (∃ k ∈ u.jobs, k.id = own ∧ k.req = true) ∧
        ∀ l ∈ s.launches, l.job = own → asked u l)) ∧
  (∀ (s : State) (l : Launch) (reason : BitVec 8) (depth : Nat), s.findLaunch l.id = some l →
    let u := s.reqLaunch l.id reason depth
    let far : Prop := dpaTower (l.dpa + 112) ≠ l.tower
    u.units = s.units ∧ (u.launches = s.launches.map fun k => if k.id = l.id then { k with req := true, reason := reason } else k) ∧
      (s.link.retraining = true ∧ far → u.mem = s.mem ∧
        ∃ w, u.held = s.held ++ [w] ∧ w.todo = [.request false l.dpa] ∧ w.job = l.job ∧ w.tower = l.tower) ∧
      (¬(s.link.retraining = true ∧ far) → u.held = s.held ∧
        (s.link.down = true ∧ far → u.mem = s.mem) ∧ (¬(s.link.down = true ∧ far) →
          ((s.hwDeny l.job l.tower true (l.dpa + 112) 8).isSome = true → u.mem = s.mem) ∧
          (s.hwDeny l.job l.tower true (l.dpa + 112) 8 = none →
            u.mem = Mem.writeBytes s.mem (l.dpa + 112) (Mem.bytes (1 + reason.toNat * 256) 8))))) ∧
  (∀ (s : State) (d : Nat) (reason : BitVec 8), (s.orCancel d reason).mem = Mem.writeBytes s.mem d (Mem.bytes (1 + reason.toNat * 256) 8)) ∧
  (∀ (s : State) (l : Launch) (reason : BitVec 8), s.cancelOwn l reason =
    let r := if l.req then l.reason else reason
    ((s.markLaunch l.id r).orCancel (l.dpa + 112) r).endLaunch l)

/-- A WATCH that issues on a sound image within its space, with slots, frames and room in every named tower,
completes: one sector that writes the valid entry joins the end of each named tower's queue as one command of
class BC, and each named tower counts the job among its watch frames. UNWATCH sends the clearing of the entry in
the same way. WATCHQ stores the 64 bytes of the entry of the named tower, zeros for a job without entries, at the
record's address, and its s register holds VALID and DISABLED in bits 1:0; no other byte of memory and no other
register changes. That frames are allotted when WATCH issues, and that the sector stands at the entry's place in
the frame, are the model's choices (log 45). (R108, R110, R111, R112, R429, 04_launching.md) -/
def Obligations.WatchEntriesTravelAsSectors : Prop :=
  let sec (s u : State) (t : TowerId) (n : Nat) (e : Option WatchEntry) : Sector :=
    ⟨s.group.job, (0x400000 + 4096 * ((u.tower t).frameOf s.group.job).getD 0 + 64 * n) / 32, [], false, s.wave.key, s.seq,
      s.group.depth, [], some (n, e)⟩
  let sent (i : Instr) (s u : State) (ts : List TowerId) (n : Nat) (e : Option WatchEntry) : Prop :=
    (∀ t ∈ ts, (u.tower t).sectors = (s.tower t).sectors ++ [sec s u t n e]) ∧
      (∀ t, t ∉ ts → u.tower t = s.tower t) ∧ (∀ t, (u.tower t).watches = (s.tower t).watches) ∧
      u.wave.cmds = s.wave.cmds ++ [⟨s.seq, .bc, .sectors ts.length, 0, none, none, none, false, [], s.wave.pairStart,
        (encode i).getD 0, 0⟩] ∧
      u.mem = s.mem ∧ u.locals = s.locals ∧ u.wave.keeps s.wave noReg ∧ u.wave.npc = s.wave.pc + 12
  let room (s : State) (ts : List TowerId) : Prop :=
    s.wave.count .bc < 63 ∧ ∀ t ∈ ts, (s.tower t).queued s.group.job < 64 ∧ (s.tower t).slotsOf s.group.job ≠ 0
  (∀ (f : Fields) (s : State) (e : BitVec 256) (y z : Ctx) (g : GLane) (fr : List Nat), s.Issues (.watch f) f →
    let x := s.ctx (form (.watch f)) f
    let n := (x.uni f.a).toNat
    let ts := towerList (towersOf s.group.tower (mbits f 1 0))
    let img : BitVec 512 := BitVec.ofNat 512 (Mem.number (s.load g.hit 64))
    let bc := decide (taskBits img 45 0 0 = 1)
    n < 64 → x.recordAt { spaces := [1], rd := true } 64 64 = .ok (e, y) → y.recordHit e accRd 64 = .ok (g, z) →
    z.s.tower0 = s.tower0 → z.s.tower1 = s.tower1 → watchBad img (s.wave.jctl.getLsbD 0) = false →
    (bc = true ∧ taskBits img 0 63 0 + 64 * taskBits img 8 31 0 ≤ 0x400000 ∧ fr = [] ∨
      bc = false ∧ z.watchFrames (taskBits img 0 63 0) (taskBits img 8 31 0) = .ok fr ∧
        z.s.seeWalks (watchPages (taskBits img 0 63 0) (taskBits img 8 31 0)) = z.s) →
    z.reach ts = .ok () → room s ts →
    (∀ t ∈ ts, ((s.tower t).frameOf s.group.job).isSome = true ∨ (s.tower t).frames.length < 768) →
    ∃ u : State, effects (.watch f) f s u ∧ sent (.watch f) s u ts n (some ⟨setField img 120 1 1, fr⟩) ∧
      ∀ t ∈ ts, (u.tower t).frameOf s.group.job ≠ none ∧
        ((s.tower t).frameOf s.group.job ≠ none → (u.tower t).frames = (s.tower t).frames)) ∧
  (∀ (f : Fields) (s : State), s.Issues (.unwatch f) f →
    let x := s.ctx (form (.unwatch f)) f
    let n := (x.uni f.a).toNat
    let ts := towerList (towersOf s.group.tower (mbits f 1 0))
    n < 64 → x.reach ts = .ok () → room s ts →
    ∃ u : State, effects (.unwatch f) f s u ∧ sent (.unwatch f) s u ts n none) ∧
  (∀ (f : Fields) (s : State) (e : BitVec 256) (y z : Ctx) (g : GLane), s.Issues (.watchq f) f →
    let x := s.ctx (form (.watchq f)) f
    let n := (x.uni f.a).toNat
    let ts := towerList (towersOf s.group.tower (mbits f 1 0))
    let tw := s.tower (ts.headD 0)
    let has := (tw.frameOf s.group.job).isSome
    let img : BitVec 512 := if has then ((Table.find tw.watches (64 * s.group.job + n)).map WatchEntry.image).getD 0 else 0
    n < 64 → x.recordAt { spaces := [1], wr := true } 64 64 = .ok (e, y) → y.recordHit e accWr 64 = .ok (g, z) →
    g.hit.disc = false → x.reach ts = .ok () →
    ∃ u : State, effects (.watchq f) f s u ∧ u.mem = Mem.writeBytes s.mem g.hit.dpa (Mem.bytes img.toNat 64) ∧
      u.locals = s.locals ∧ u.wave.keeps s.wave (destOf f.d 1) ∧ u.wave.npc = s.wave.pc + 12 ∧
      ∀ q : Fin 128, f.d = .s q → bits (u.wave.sreg q) 1 0 = taskBits img 15 1 0)

/-- SMPGET of a group that carries positions gives lane i the coordinate pair and work coordinate i, and a predicate
of the lanes that have one; in any other group it traps SMPBAD. SMPPUT whose handle, owner and records pass their
checks inserts the records of the active lanes in ascending lane order, with EYE and VALID written, and its predicate
holds the lanes that were inserted. SMPRD on a window that passes its checks gives lane i the record of rank r0 + i,
eight words, or zeros, and a predicate of the lanes that have one; the records of a window are ranked by age, Y, X and
bytes 8 to 27. EYEBOR under the same checks in both towers, with the link up and room in class GT, completes with one
command and transfers nothing yet; with no active lane SMPRD and EYEBOR only give their eight registers the tags.
Memory and every other register keep their values. An insertion into a band that is not full takes the lowest slot
that its rising list of records leaves free. One into a full band takes the slot of the record that goes before all
others of the band and before the new one, which EVICT counts; where the new one goes first it is dropped, which DROP
counts, as is one into a band that is off. A borrow that is not late, with the link up and the other tower's records
sound, gives each lane the record of its rank reprojected, or zeros where there is none or it is not usable, clears
the late predicate and retires; a late one gives zeros and sets it, a poisoned record of the band zeros with ECCSRAM
for the next CNTWAIT, and under REPLAY a link that is down zeros with LINKFAIL. A record is usable where its DEPTH is
finite and above 0 and the integer nearest to X − 16δ, ties to even, lies in the frame; it takes that X and BORROWED,
and keeps the rest. Choices of the model: SMPPUT, SMPRD and EYEBOR check nothing without a lane (log 36), SMPGET tests
for positions first (log 48), an error gives zeros in every lane (log 49), and a borrow waits for a retraining link
(log 87). (R339, R382, R384, R386, R387, R388, R389, 15_retirement_and_display.md) -/
def Obligations.SamplesArePutReadAndBorrowed : Prop :=
  let winOk (x : Ctx) (s : State) (e : BitVec 256) (w : DWord) (ts : List TowerId) : Prop :=
    x.sound (ebits x.f 5 0) = .ok () ∧ needBad { spaces := [4], rd := true } e = false ∧ (∀ t ∈ ts, (s.tower t).ownsDamask s.group.job = true) ∧
      winBad w = false ∧ winBand w * 2 ^ 22 < hLimit e
  let tagged (s : State) (d : Opnd) : State :=
    (List.range 8).foldl (fun s k => s.write (Opnd.step d k) 0 .now (sampleTag k) (splat 0)) s
  (∀ (f : Fields) (s : State), s.Issues (.smpget f) f →
    let x := s.ctx (form (.smpget f)) f
    let n := s.task 20 15 0
    let at_ (i : Nat) := s.group.posblk.getD i (0, 0, 0)
    (s.task 35 4 4 = 0 → ∃ u : State, u.keepsAll s ∧
      exec (.smpget f) s = .next (u.takeTrap (.plain .smpbad) s.wave.pairStart s.wave.pairStart (awaitOf (.smpget f) f))) ∧
    (s.task 35 4 4 = 1 → effects (.smpget f) f s
      (((x.s.write f.d x.m .now 11 (lanesFn fun i => if i < n then (at_ i).2.1 ++ (at_ i).1 else 0)).write
        (Opnd.step f.d 1) x.m .now 2 (lanesFn fun i => if i < n then (at_ i).2.2 else 0)).writePred
        f.a x.m .now (maskOf fun i => decide (i < n))))) ∧
  (∀ (f : Fields) (s : State), s.Issues (.smpput f) f →
    let x := s.ctx (form (.smpput f)) f
    let e := s.entry (ebits f 5 0)
    let tw := s.group.tower
    let ins := (lanesOf x.m).foldl (fun (a : Tower × List Nat) i =>
      match a.1.insert (smFlags (x.sample i) tw.val 0) with
      | (t, some _) => (t, i :: a.2)
      | (t, none) => (t, a.2)) (s.tower tw, [])
    (x.m = 0 ∨ x.sound (ebits f 5 0) = .ok ()) →
    needBad { spaces := [4], wr := true } e = false → (s.tower tw).ownsDamask s.group.job = true →
    (∀ i ∈ lanesOf x.m, smBad (x.sample i) = false ∧ smBand (x.sample i) * 2 ^ 22 < hLimit e) →
    ∃ u : State, effects (.smpput f) f s u ∧ u.mem = s.mem ∧ u.locals = s.locals ∧ u.wave.keeps s.wave (destOf f.d 1) ∧
      u.wave.npc = s.wave.pc + 12 ∧ u.tower tw = ins.1 ∧ (∀ t, t ≠ tw → u.tower t = s.tower t) ∧
      ∀ p : Fin 16, f.d = .p p → ∀ i < 32, laneOn (u.wave.pred p) i =
        if laneOn x.m i then decide (i ∈ ins.2) else laneOn (s.wave.pred p) i) ∧
  (∀ (f : Fields) (s : State), s.Issues (.smprd f) f →
    let x := s.ctx (form (.smprd f)) f
    let e := s.entry (ebits f 5 0)
    let t := s.tower s.group.tower
    let w := x.uni64 f.a
    let row (i : Nat) := rankLane (t.ranked w (x.uni f.b)) (x.uni (Opnd.step f.b 1)) i
    let pk : Opnd := .p ⟨ebits f 9 6 % 16, Nat.mod_lt _ (by decide)⟩
    (x.m = 0 → effects (.smprd f) f s (tagged x.s f.d)) ∧
    (x.m ≠ 0 → winOk x s e w [s.group.tower] → s.bandPoison s.group.tower (winBand w) = false →
      effects (.smprd f) f s
        (((List.range 8).foldl (fun s k => s.write (Opnd.step f.d k) x.m .now (sampleTag k) (lanesFn fun i => sampleWord (row i) k))
          (x.s.useHandle (ebits f 5 0) e)).writePred pk x.m .now (maskOf fun i => (row i).isSome)))) ∧
  (∀ (f : Fields) (s : State), s.Issues (.eyebor f) f →
    let x := s.ctx (form (.eyebor f)) f
    (x.m = 0 → effects (.eyebor f) f s (tagged x.s f.d)) ∧
    (x.m ≠ 0 → winOk x s (s.entry (ebits f 5 0)) (x.uni64 f.a) [0, 1] → s.link.down = false → s.wave.count .gt < 63 →
      ∃ u : State, effects (.eyebor f) f s u ∧ u.keepsAll s ∧ u.wave.keeps s.wave noReg ∧ u.wave.npc = s.wave.pc + 12 ∧
        u.wave.cmds = s.wave.cmds ++ [⟨s.seq, .gt, .eyebor f.d.num (ebits f 9 6) (ebits f 13 10) x.m (x.uni64 f.a) (x.uni f.b)
          (x.uni (Opnd.step f.b 1)), 0, some f.hint.tok.toNat, none, none, false, [], s.wave.pairStart,
          (encode (.eyebor f)).getD 0, 0⟩])) ∧
  (∀ (t : Tower) (w : DWord) (rho : Word),
    (t.ranked w rho).Pairwise (fun a b => rankKey rho a ≤ rankKey rho b) ∧
      (t.ranked w rho).Perm (((t.band (winBand w)).map Prod.snd).filter (inWindow w))) ∧
  (∀ (t : Tower) (r : Sample),
    let b := smBand r
    (t.bandOn b = false → t.insert r = (t.count csrDmkcnt 16 1, none)) ∧
    (t.bandOn b = true → (t.band b).length < 131072 →
      let k := freeSlot 0 (t.band b)
      t.insert r = ({ t with damask := Table.put t.damask (dmkKey b k) r }, some k) ∧
        ((t.band b).Pairwise (fun p q => p.1 < q.1) →
          (∀ q ∈ t.band b, q.1 ≠ k) ∧ ∀ j < k, ∃ q ∈ t.band b, q.1 = j)) ∧
    (t.bandOn b = true → 131072 ≤ (t.band b).length →
      ((∀ q ∈ t.band b, evictsFirst (smTs r) q (131072, r) = false) → t.insert r = (t.count csrDmkcnt 16 1, none)) ∧
      ((∃ q ∈ t.band b, evictsFirst (smTs r) q (131072, r) = true) →
        ∃ v ∈ t.band b, t.insert r = ({ t with damask := Table.put t.damask (dmkKey b v.1) r }.count csrDmkcnt 0 1, some v.1) ∧
          evictsFirst (smTs r) v (131072, r) = true ∧ ∀ q ∈ t.band b, evictsFirst (smTs r) q v = false))) ∧
  (∀ (s : State) (c : EngCmd) (due : Bool) (d pk pl : Nat) (m : Mask) (win : DWord) (dl r0 : Word), c.op = .eyebor d pk pl m win dl r0 →
    (s.wave.cmds.find? fun x => x.num = c.num) = some c → c.ctr = none → (∀ k n, s.wave.wait ≠ .cntwait k n) →
    let own := s.tower s.group.tower
    let far := s.tower (otherTower s.group.tower)
    let replay := s.wave.jctl.getLsbD 7
    let row (i : Nat) : Option Sample :=
      (((far.ranked win dl).map (reproject (own.reg csrBfocal) (own.reg csrBbase)))[(r0 + BitVec.ofNat 32 i).toNat]?).join
    let gives (rs : Nat → Option Sample) (late : Bool) (err : List TrapInfo) : Prop :=
      let u := s.borrowRun c due
      u.mem = s.mem ∧ u.locals = s.locals ∧ u.wave.cmds = s.wave.cmds.filter (fun x => x.num ≠ c.num) ∧
        u.wave.engErr = s.wave.engErr ++ (c.err ++ err).map (fun t => (c.cls, t)) ∧
        (∀ j < 8, (u.wave.vreg (d + j)).tag = sampleTag j) ∧
        ∀ i < 32, (∀ j < 8, laneAt (u.wave.vreg (d + j)).lanes i =
            if laneOn m i then sampleWord (rs i) j else laneAt (s.wave.vreg (d + j)).lanes i) ∧
          (pk ≠ pl → laneOn (u.wave.pred pk) i = if laneOn m i then (rs i).isSome else laneOn (s.wave.pred pk) i) ∧
          (laneOn (u.wave.pred pl) i = if laneOn m i then late else laneOn (s.wave.pred pl) i)
    (replay = false → due = true ∨ s.link.down = true ∨ own.borrowLate dl = true → gives (fun _ => none) true []) ∧
    (due = false → s.link.down = false → replay = true ∨ own.borrowLate dl = false →
      (s.link.retraining = true → s.borrowRun c due = s) ∧
      (s.link.retraining = false → s.bandPoison (otherTower s.group.tower) (winBand win) = false → gives row false []) ∧
      (s.link.retraining = false → s.bandPoison (otherTower s.group.tower) (winBand win) = true →
        gives (fun _ => none) false [eccTrap 6 0 0])) ∧
    (replay = true → due = false → s.link.down = true → s.link.retraining = false →
      gives (fun _ => none) false [.at_ .linkfail 0 0])) ∧
  (∀ (f b : Word) (r q : Sample), reproject f b r = some q ↔
    ∃ (mant : Nat) (e k : Int), Fmt.f32.decode (smDepth r).toNat = .fin false mant e ∧ mant ≠ 0 ∧
      borrowX (smX r) (rDiv (rMul f b) (smDepth r)) = some k ∧ 0 ≤ k ∧ k < 61440 ∧ q = smBorrow r k.toNat) ∧
  (∀ (x : Nat) (d : Word), (∀ n m e, Fmt.f32.decode d.toNat ≠ .fin n m e) → borrowX x d = none) ∧
  (∀ (x : Nat) (d : Word) (n : Bool) (m : Nat) (e : Int), Fmt.f32.decode d.toNat = .fin n m e →
    ∃ k : Int, borrowX x d = some k ∧
      let up : Int := 2 ^ (e + 4).toNat
      let dn : Int := 2 ^ (-(e + 4)).toNat
      let exact : Int := x * dn + (if n then (m : Int) else -(m : Int)) * up
      2 * (k * dn - exact).natAbs ≤ dn ∧ (2 * (k * dn - exact).natAbs = dn → k % 2 = 0)) ∧
  (∀ (r : Sample) (k : Nat), k < 2 ^ 16 → smX (smBorrow r k) = k ∧ (smBorrow r k).getLsbD 225 = true ∧
    ∀ i < 256, i < 32 ∨ 48 ≤ i → i ≠ 225 → (smBorrow r k).getLsbD i = r.getLsbD i)

/-- PMAPWR by the owner of the tower's Lanterns, on cells inside the map, with a slot, room and no denied lane,
completes: the sectors that hold its cells join the end of the tower's queue as one command of class BC, and with
no active lane nothing happens. TRICLS sets its predicate where the three snapped points exist and the double area
exceeds the tower's threshold. TRIRAS on 1 to 1024 probes of a handle that passes its checks, all mapped and
granted, completes: lane by lane in ascending order each covered probe's word becomes the greater of its old value
and the lane's, and d counts the probes covered, or is 0xFFFFFFFF for a point that cannot be snapped. An edge that
passes through a probe belongs to exactly one of its two directions, and a triangle of area 0 covers nothing. That
TRIRAS translates every word before any update is the model's choice (log 48). (R340, R347, R348, R349, R350,
13_sampling_and_shading.md) -/
def Obligations.MapsTrianglesAndProbes : Prop :=
  (∀ (f : Fields) (s : State), s.Issues (.pmapwr f) f →
    let x := s.ctx (form (.pmapwr f)) f
    let t := s.tower s.group.tower
    let cx (i : Nat) : Nat := bits (laneAt (x.lanes f.a) i) 15 0
    let cy (i : Nat) : Nat := bits (laneAt (x.lanes f.a) i) 31 16
    let off (i : Nat) : Nat := t.mapBase + 115200 * mbits f 1 0 + 2 * (240 * cy i + cx i)
    let cells := (lanesOf x.m).foldl (fun b i => cellPut (decide (mbits f 3 2 = 1)) b (off i) (bits (laneAt (x.lanes f.b) i) 15 0)) []
    bits (t.reg csrLntctl) 19 8 = s.group.job → (∀ i ∈ lanesOf x.m, cx i < 240 ∧ cy i < 240) → t.slotsOf s.group.job ≠ 0 →
    (x.m = 0 → ∃ u : State, effects (.pmapwr f) f s u ∧ u.keepsAll s ∧ u.wave = { s.wave with npc := s.wave.pc + 12 }) ∧
    (x.m ≠ 0 → t.queued s.group.job < 64 → s.wave.count .bc < 63 →
      (∀ i ∈ lanesOf x.m, t.grants 5 s.group.job kindWave false true false (off i) (off i + 2) = true) →
      ∃ (u : State) (r : List RelInfo), effects (.pmapwr f) f s u ∧ u.mem = s.mem ∧ u.locals = s.locals ∧
        u.wave.keeps s.wave noReg ∧ u.wave.npc = s.wave.pc + 12 ∧ (∀ k, k ≠ s.group.tower → u.tower k = s.tower k) ∧
        let secs := sectorsFrom s.group.job s.wave.key s.seq s.group.depth r (decide (mbits f 3 2 = 1)) cells
        u.tower s.group.tower = { t with sectors := t.sectors ++ secs } ∧
        u.wave.cmds = s.wave.cmds ++ [⟨s.seq, .bc, .sectors secs.length, 0, none, none, none, false, [], s.wave.pairStart,
          (encode (.pmapwr f)).getD 0, 0⟩])) ∧
  (∀ (f : Fields) (s : State), s.Issues (.tricls f) f →
    let x := s.ctx (form (.tricls f)) f
    ∃ v : Nat → Bool, effects (.tricls f) f s (x.s.writePred f.d x.m .now (maskOf v)) ∧
      ∀ i < 32, (v i = true ↔ ∃ a b c, x.snapPt 0 i = some a ∧ x.snapPt 2 i = some b ∧ x.snapPt 4 i = some c ∧
        areaLarge (edgeFn a b c) ((s.tower s.group.tower).reg csrProbethr) = true)) ∧
  (∀ (f : Fields) (s : State), s.Issues (.triras f) f →
    let x := s.ctx (form (.triras f)) f
    let n := (x.uni f.b).toNat
    let e := s.entry (hOf f)
    let o := dispOf f
    let y : Ctx := { x with s := x.s.useHandle (hOf f) e }
    0 < n → n ≤ 1024 → x.sound (hOf f) = .ok () → needBad needAt e = false → (vaOf e o).toNat % 16 = 0 → 0 ≤ o → o + 16 * n ≤ (hLimit e : Int) →
    (x.m = 0 → effects (.triras f) f s (y.s.write f.d 0 .now 2 (splat 0))) ∧
    (∀ gs w, x.m ≠ 0 → y.plan e accAt 16 ((List.range n).map fun (k : Nat) => (32, o + 16 * k)) = .ok ⟨gs, [], [], w⟩ →
      let run := (lanesOf x.m).foldl (fun (p : State × List (Nat × Nat)) i =>
        ((y.rasterLane gs i p.1).1, p.2 ++ [(i, (y.rasterLane gs i p.1).2.toNat)]))
        ((gs.foldl (fun s g => (s.readHit none g.hit 16 g.va).touch g.hit) (y.s.seeWalks w)).fed, [])
      effects (.triras f) f s (run.1.write f.d x.m .now 2 (lanesFn fun i => BitVec.ofNat 32 (laneVal run.2 i))))) ∧
  (∀ (s : State) (g : GLane) (z id : Word), g.hit.disc = false →
    (s.raiseWord g z id).mem = Mem.writeBytes s.mem (g.hit.dpa + 8)
      (Mem.bytes (max (Mem.readNat s.mem (g.hit.dpa + 8) 8) ((~~~z).toNat * 2 ^ 32 + id.toNat)) 8)) ∧
  (∀ a b : Pt, a ≠ b → ptOwned a b = !ptOwned b a) ∧
  (∀ (a b c p : Pt) (z0 z1 z2 : Word), area2 a b c = 0 → probeHit a b c p z0 z1 z2 = none)

/-- A RAYQ that issues, on a handle and header that pass their checks, whatever its lanes are, on a slot that is not
pending and with room in class RY, completes: the slot holds its rays, mask, flags and handle with the status of the
active lanes pending, and one command of class RY is added. A RAYRD on a slot that is not pending and whose active
lanes hold neither a bad ray nor a too deep walk completes: lanes with a hit get t, u, v and the triangle, the others
+infinity, 0, 0 and 0xFFFFFFFF, and the predicate holds the hits; bad rays trap RAYBAD with their lanes, and without
one too deep walks BVHDEPTH with theirs. A query serves its pending lanes in their order, each lane's slot taking its
hit, a miss, a bad ray or BVH, or a walk too deep; at a translation fault it stops and parks, and when every lane has
its result the slot is pending no more and the command retires. A ray that the rule refuses is bad, and one with tmin
above tmax misses. A node's hit children are visited in ascending k with tmax narrowed by the best hit, the triangles
of a leaf in ascending index; with ANY the first hit ends the query, else the nearer one stays, of equals the higher
id and index. A triangle's hit lies between tmin and tmax, holds its id, and is a hit without CULLB too; an edge of
two distinct points is owned in exactly one direction. A ROWWAIT that issues leaves its wave waiting for the named
line and lead. A ROWPUT by the owner of the display, on pixels below column 3840, granted, completes: one segment of
the line and pixels joins the wave's others. A line named by 32 bits has those low bits. No memory and no other
register changes. Choices of the model: ROWPUT's class 3 access at [0, 0), and its empty segment without a lane (log
36), a node's boxes tested when it is visited (log 80), the header read again at the query (log 47), RAYBAD first (log
122). (R342, R343, R344, R345, R346, R390, R393, R394, 13_sampling_and_shading.md, 15_retirement_and_display.md) -/
def Obligations.RaysAndRows : Prop :=
  (∀ (f : Fields) (s s1 : State), s.Issues (.rayq f) f →
    let x := s.ctx (form (.rayq f)) f
    let k := raySlotOf f
    x.rayHead = .ok s1 → s1.tower0 = s.tower0 → s1.tower1 = s.tower1 → (s.wave.raySlot k).pend = false → s.wave.count .ry < 63 →
    ∃ u : State, effects (.rayq f) f s u ∧ u.keepsAll s ∧ u.wave.keeps s.wave noReg ∧ u.wave.npc = s.wave.pc + 12 ∧
      u.wave.cmds = s.wave.cmds ++ [⟨s.seq, .ry, .ray k, 0, none, none, none, false, [], s.wave.pairStart,
        (encode (.rayq f)).getD 0, 0⟩] ∧
      let q := u.wave.raySlot k
      q.rays = (List.range 8).map (fun j => x.lanes (Opnd.step f.a j)) ∧ q.m = x.m ∧ q.handle = hOf f ∧ q.pend = true ∧
        q.cullb = f.mod.getLsbD 0 ∧ q.any_ = f.mod.getLsbD 1 ∧
        ∀ i < 32, q.status.getD i 0 = if laneOn x.m i then rayPending else rayNone) ∧
  (∀ (f : Fields) (s : State), s.Issues (.rayrd f) f →
    let x := s.ctx (form (.rayrd f)) f
    let q := s.wave.raySlot (raySlotOf f)
    let hit (i : Nat) : Bool := decide (q.status.getD i 0 = rayHit)
    let col (k : Nat) (no : Word) : Lanes := lanesFn fun i => if hit i then laneAt (q.res.getD k (splat 0)) i else no
    q.pend = false →
    ((∀ i ∈ lanesOf x.m, q.status.getD i 0 ≠ rayIsBad ∧ q.status.getD i 0 ≠ rayDeep) →
      effects (.rayrd f) f s
        (((((x.s.write f.d x.m .now 3 (col 0 0x7F800000)).write (Opnd.step f.d 1) x.m .now 3 (col 1 0)).write
          (Opnd.step f.d 2) x.m .now 3 (col 2 0)).write (Opnd.step f.d 3) x.m .now 2 (col 3 0xFFFFFFFF)).writePred
          f.a x.m .now (maskOf hit))) ∧
    ((∃ i ∈ lanesOf x.m, q.status.getD i 0 = rayIsBad) → ∃ u : State, u.keepsAll s ∧
      exec (.rayrd f) s = .next (u.takeTrap
        { TrapInfo.plain .raybad with mask := maskOf fun i => laneOn x.m i && decide (q.status.getD i 0 = rayIsBad) }
        s.wave.pairStart s.wave.pairStart (awaitOf (.rayrd f) f))) ∧
    ((∀ i ∈ lanesOf x.m, q.status.getD i 0 ≠ rayIsBad) → (∃ i ∈ lanesOf x.m, q.status.getD i 0 = rayDeep) →
      ∃ u : State, u.keepsAll s ∧ exec (.rayrd f) s = .next (u.takeTrap
        { TrapInfo.plain .bvhdepth with mask := maskOf fun i => laneOn x.m i && decide (q.status.getD i 0 = rayDeep) }
        s.wave.pairStart s.wave.pairStart (awaitOf (.rayrd f) f)))) ∧
  (∀ (s v : State) (c : EngCmd) (slot i : Nat) (is : List Nat),
    let put (v : State) (code : Nat) (h : Option RayHit) : State :=
      { v with wave := { v.wave with rays := Table.put v.wave.rays slot ((v.wave.raySlot slot).hold i code h) } }
    let on (v : State) : Prop := s.rayLanes c slot (i :: is) = v.rayLanes c slot is
    let q := rayQuery (s.wave.raySlot slot) i s
    (q = .ok none v → on (put v rayMiss none)) ∧
    (∀ h, q = .ok (some h) v ∨ q = .error (.found h) v → on (put v rayHit (some h))) ∧
    (q = .error .bad v → on (put v rayIsBad none)) ∧ (q = .error .deep v → on (put v rayDeep none)) ∧
    (∀ m va, q = .error (.stop m va) v → s.rayLanes c slot (i :: is) = (v.cmdFault c m va false, false)) ∧
    s.rayLanes c slot [] = (s, true)) ∧
  (∀ (q : RaySlot) (i code : Nat) (h : Option RayHit), i < 32 → q.status.length = 32 → q.res.length = 4 →
    (∀ j, (q.hold i code h).status.getD j 0 = if j = i then code else q.status.getD j 0) ∧
    ∀ k < 4, ∀ j < 32, laneAt ((q.hold i code h).res.getD k (splat 0)) j =
      match h with
      | some x => if j = i then [x.t, x.u, x.v, x.id].getD k 0 else laneAt (q.res.getD k (splat 0)) j
      | none => laneAt (q.res.getD k (splat 0)) j) ∧
  (∀ (s v : State) (c : EngCmd) (slot : Nat), s.link.retraining = false →
    let ls := (lanesOf (s.wave.raySlot slot).m).filter fun i => (s.wave.raySlot slot).status.getD i 0 = rayPending
    (s.rayLanes c slot ls = (v, true) → s.rayRun c slot =
      ({ v with wave := { v.wave with rays := Table.put v.wave.rays slot { v.wave.raySlot slot with pend := false } } } : State).cmdRetire c.num) ∧
    (s.rayLanes c slot ls = (v, false) → s.rayRun c slot = v)) ∧
  (∀ (q : RaySlot) (i : Nat) (s : State),
    let r : RayReg := fun k => laneAt (q.rays.getD k (splat 0)) i
    let e := s.entry q.handle
    ((∃ k < 8, rDec (r k) = .nan) ∨ (∃ k < 6, (rDec (r k)).isFin = false) ∨ (∀ k ∈ [3, 4, 5], (rDec (r k)).eq .zero = true) →
      rayQuery q i s = .error .bad s) ∧
    ∀ x v, rayBad r = false → bvhRead e 0 8 s = .ok x v →
      (bvhHeader x = none → rayQuery q i s = .error .bad v) ∧
      ∀ o n t, bvhHeader x = some (o, n, t) →
        ((rDec (r 7)).lt (rDec (r 6)) = true → rayQuery q i s = .ok none v) ∧
        ((rDec (r 7)).lt (rDec (r 6)) = false → rayQuery q i s = rayNode ⟨r, q.cullb, q.any_, e, o, n, t⟩ 64 0 none v)) ∧
  (∀ (q : RayJob) (n fuel : Nat) (best : Option RayHit) (s v : State) (x : Nat), rayNode q 0 n best s = .error .deep s ∧
    (bvhRead q.e (128 + 128 * n) 8 s = .ok x v →
      let ref (k : Nat) : Nat := x / 2 ^ (32 * (24 + k)) % 2 ^ 32
      let tmax : FVal := match best with | some b => rDec b.t | none => rDec (q.r 7)
      let hits := (List.range 4).filter fun k => decide (ref k / 2 ^ 30 ≠ 0) && boxHit q.r (fun j => wordOf x (6 * k + j)) tmax
      (x / 2 ^ 896 ≠ 0 ∨ (∃ k < 4, refBad q (ref k) = true) → rayNode q (fuel + 1) n best s = .error .bad v) ∧
      (x / 2 ^ 896 = 0 → (∀ k < 4, refBad q (ref k) = false) → rayNode q (fuel + 1) n best s =
        (hits.foldlM (fun best k =>
          if ref k / 2 ^ 30 = 1 then rayNode q fuel (ref k % 2 ^ 24) best
          else rayLeaf q ((List.range (ref k / 2 ^ 24 % 64 + 1)).map (ref k % 2 ^ 24 + ·)) best) best : RayM (Option RayHit)) v))) ∧
  (∀ (q : RayJob) (i : Nat) (is : List Nat) (best : Option RayHit) (s v : State) (t : Nat), rayLeaf q [] best s = .ok best s ∧
    (bvhRead q.e (q.triOff + 48 * i) 3 s = .ok t v →
      let hit := triHit q.r q.cullb (wordOf t) (wordOf t 9) i
      (hit = none → rayLeaf q (i :: is) best s = rayLeaf q is best v) ∧
      ∀ h, hit = some h → (q.any_ = true → rayLeaf q (i :: is) best s = .error (.found h) v) ∧
        (q.any_ = false → rayLeaf q (i :: is) best s = rayLeaf q is (some (match best with | some b => h.better b | none => h)) v))) ∧
  (∀ x y : RayHit, ((rDec x.t).lt (rDec y.t) = true → x.better y = x) ∧
    ((rDec y.t).lt (rDec x.t) = true → x.better y = y) ∧
    ((rDec x.t).eq (rDec y.t) = true → (y.id.toNat < x.id.toNat ∨ y.id = x.id ∧ y.idx < x.idx → x.better y = x) ∧
      (x.id.toNat < y.id.toNat ∨ y.id = x.id ∧ x.idx ≤ y.idx → x.better y = y))) ∧
  (∀ (r : RayReg) (cullb : Bool) (tri : Nat → Word) (id : Word) (n : Nat) (h : RayHit), triHit r cullb tri id n = some h →
    (rDec (r 6)).le (rDec h.t) = true ∧ (rDec h.t).le (rDec (r 7)) = true ∧ h.id = id ∧ h.idx = n ∧
      (∀ k < 9, (rDec (tri k)).isFin = true) ∧ triHit r false tri id n = some h) ∧
  (∀ a b : RayPt, (∀ p ∈ [a, b], (rDec p.x).isFin = true ∧ (rDec p.y).isFin = true) →
    ((rDec a.x).eq (rDec b.x) = false ∨ (rDec a.y).eq (rDec b.y) = false) → a.owned b = !b.owned a) ∧
  (∀ (f : Fields) (s : State), s.Issues (.rowwait f) f →
    let x := s.ctx (form (.rowwait f)) f
    ∃ u : State, effects (.rowwait f) f s u ∧ u.keepsAll s ∧ u.group = s.group ∧
      u.wave = { s.wave with
        npc := s.wave.pc + 12
        wait := .row ((s.tower s.group.tower).lineNamed (x.uni f.a)) (if isNil f.b then 0 else (x.uni f.b).toNat) f.d }) ∧
  (∀ (f : Fields) (s : State), s.Issues (.rowput f) f →
    let x := s.ctx (form (.rowput f)) f
    let t := s.tower s.group.tower
    let x0 := (x.uni (Opnd.step f.b 1)).toNat
    bits (t.reg csrDspctl) 19 8 = s.group.job → (∀ i ∈ lanesOf x.m, x0 + i < 3840) →
    t.grants 3 s.group.job kindWave false true false 0 0 = true →
    ∃ u : State, effects (.rowput f) f s u ∧ u.keepsAll s ∧ u.group = s.group ∧
      u.wave = { s.wave with
        npc := s.wave.pc + 12
        segs := s.wave.segs ++ [⟨f.hint.tok.toNat, t.lineNamed (x.uni f.b), f.d, (lanesOf x.m).map fun i => (x0 + i, x.pixel i)⟩] }) ∧
  (∀ (t : Tower) (v : Word), BitVec.ofInt 32 (t.lineNamed v) = v)

/-- A trap of way T or A in a wave with a handler, that is not in one, sets TEPC to the resume address, TCAUSE
to the cause, AFTER and INFO with INH set, TADDR and TMASK to the failing address and lanes, TEM to em, and
em to LIVE; the wave leaves its run, its next run starts at TVEC and waits for the AWAIT tokens of a raising
word with END, and its registers, tiles, memory and tokens are as they were. TRAP and BRKPT that issue there
complete by taking theirs, of way A, at the following word, with TADDR holding their code. Without a
handler, or within one, a record of KIND 2 with the cause waits for its job and the group is to end, its
wave having ended; BRKPT instead leaves a record of KIND 1 and a parked wave that resumes at the resume
address. (R353, R354, R355, R364, 14_interruption.md) -/
def Obligations.TrapsAreEntered : Prop :=
  let entered (s t : State) (i : TrapInfo) (resume : DWord) (await : BitVec 6) : Prop :=
    t.wave.tepc = resume ∧ t.wave.cause = BitVec.ofNat 6 (causeCode i.cause) ∧ t.wave.after = i.after ∧ t.wave.info = i.info ∧
      t.wave.inh = true ∧ t.wave.taddr = i.addr ∧ t.wave.tmask = i.mask ∧ t.wave.tem = s.wave.em ∧ t.wave.em = s.wave.live ∧
      t.wave.pc = s.wave.tvec ∧ t.wave.tvec = s.wave.tvec ∧ t.wave.inRun = false ∧ t.wave.await = await ∧
      t.wave.alive = true ∧ t.wave.pendTrap = none ∧ t.wave.temps = [] ∧
      t.wave.vregs = s.wave.vregs ∧ t.wave.sregs = s.wave.sregs ∧ t.wave.preds = s.wave.preds ∧ t.wave.tiles = s.wave.tiles ∧
      t.wave.stack = s.wave.stack ∧ t.wave.live = s.wave.live ∧ t.wave.wflags = s.wave.wflags ∧
      t.mem = s.mem ∧ t.locals = s.locals
  let live (s : State) : Prop := s.group.kill = false ∧ s.wave.alive = true ∧ s.wave.live ≠ 0
  let handled (s : State) : Prop := s.wave.tvec ≠ 0 ∧ s.wave.inh = false ∧ live s
  let recorded (s t : State) (i : TrapInfo) (kind : Nat) : Prop := ∃ r ∈ (t.tower s.group.tower).recs,
    r.job = s.wave.job ∧ taskBits r.bits 0 5 0 = causeCode i.cause ∧ taskBits r.bits 0 7 6 = kind ∧
      taskBits r.bits 8 63 0 = i.addr.toNat ∧ taskBits r.bits 28 31 0 = i.mask.toNat
  (∀ (s : State) (i : TrapInfo) (pc resume : DWord) (await : BitVec 6), handled s →
    entered s (s.takeTrap i pc resume await) i resume await ∧
      (s.takeTrap i pc resume await).wave.tokens = s.wave.tokens) ∧
  (∀ p ∈ ([(.trap, .trapi, 14), (.brkpt, .brkpt, 13)] : List ((Fields → Instr) × Cause × Nat)),
    ∀ (f : Fields) (s : State), s.Issues (p.1 f) f → handled s → s.wave.pendTrap = none →
    ∃ t : State, exec (p.1 f) s = .next t ∧ causeCode p.2.1 = p.2.2 ∧
      entered s t (.late p.2.1 (BitVec.ofNat 64 (immOf f))) (s.wave.pc + 12) (awaitOf (p.1 f) f)) ∧
  (∀ (s : State) (i : TrapInfo) (pc resume : DWord) (await : BitVec 6), s.wave.tvec = 0 ∨ s.wave.inh = true →
    ((s.tower s.group.tower).recs.filter fun r => r.job = s.wave.job).length < 31 →
    let t := s.takeTrap i pc resume await
    (i.cause ≠ .brkpt → s.wave.inGroup s.group.key = true →
      recorded s t i 2 ∧ t.group.kill = true ∧ t.wave.alive = false ∧ t.wave.tepc = resume) ∧
    (i.cause = .brkpt → live s → recorded s t i 1 ∧ t.wave.wait = .parked .brkpt i.addr ∧ t.wave.pc = resume ∧
      t.wave.inRun = false ∧ t.wave.alive = true ∧ t.wave.tepc = resume ∧ t.mem = s.mem ∧ t.wave.em = s.wave.em))

/-- An ERET that issues traps ILLFMT with INH clear, and ALIGN with TEPC not a multiple of 4. Otherwise it completes:
em is TEM AND LIVE, INH is 0, and the next run starts at TEPC; nothing else of the wave and nothing outside it
changes. That TADDR of this ALIGN is TEPC is the model's choice (log 26): R365 gives the cause alone. (R365) -/
def Obligations.EretReturns : Prop :=
  ∀ (f : Fields) (s : State), s.Issues (.eret f) f →
    let traps (t : TrapInfo) : Prop := ∃ u : State, u.keepsAll s ∧ u.wave = { s.wave with npc := s.wave.pc + 12 } ∧
      exec (.eret f) s = .next (u.takeTrap t s.wave.pairStart s.wave.pairStart (awaitOf (.eret f) f))
    (s.wave.inh = false → traps (.plain .illfmt)) ∧
    (s.wave.inh = true → s.wave.tepc.toNat % 4 ≠ 0 → traps (.at_ .align s.wave.tepc 0)) ∧
    (s.wave.inh = true → s.wave.tepc.toNat % 4 = 0 →
      f.hint.stop = true ∧
      effects (.eret f) f s { s with wave := { s.wave with
        em := s.wave.tem &&& s.wave.live
        inh := false
        npc := s.wave.tepc } })

/-- CSRR gives d the register that SEL names: of the wave below 0x100, else of the own tower, or with .OTH of
the other. CSRW writes a, or IMM, alone, ORed into the old value, or cleared from it, and gives d the old
value. A write of a wave register keeps read-only registers, clears WFLAGS where a one is written, and keeps
TVEC's low two bits 0; a wave register so written reads back. A tower register without an effect of its own
takes the writable bits and keeps the others, and a register of neither kind stands. XIMM and XFMT that
issue note themselves for the word to come, at the address of the first prefix, and change nothing else. A CSRW
of a tower register, and a CSRR of one but PROBETHR, that passes its checks has PRIV set. (R352, R363, R366, R82, R83,
14_interruption.md) -/
def Obligations.RegistersAreReadAndWritten : Prop :=
  (∀ (f : Fields) (s : State), s.Issues (.csrr f) f →
    let x := s.ctx (form (.csrr f)) f
    let t := if f.mod.getLsbD 0 then otherTower s.group.tower else s.group.tower
    ∃ l : Machine.Lat, effects (.csrr f) f s
      (x.s.writeS f.d l (if selOf f < 0x100 then s.wave.csr (selOf f) else s.csrRead t (selOf f)))) ∧
  (∀ (f : Fields) (s : State), s.Issues (.csrw f) f →
    let x := s.ctx (form (.csrw f)) f
    let t := if f.mod.getLsbD 0 then otherTower s.group.tower else s.group.tower
    let old := if selOf f < 0x100 then s.wave.csr (selOf f) else s.csrRead t (selOf f)
    let v : Word := if f.mod.getLsbD 3 then BitVec.ofNat 32 (immOf f) else if isNil f.a then 0 else x.uni f.a
    let new := [v, old ||| v, old &&& ~~~v].getD (mbits f 2 1) 0
    ∃ l : Machine.Lat, effects (.csrw f) f s
      ((if selOf f < 0x100 then { x.s with wave := x.s.wave.setCsr (selOf f) new } else x.s.csrWrite t (selOf f) new).writeS f.d l old)) ∧
  (∀ (w : Wave) (x : Word),
    (w.setCsr 1 x).csr 1 = w.csr 1 &&& ~~~x ∧ (w.setCsr 2 x).csr 2 = x &&& 0xFFFFFFFC ∧ (w.setCsr 0 x).csr 0 = x &&& 1 ∧
    (∀ n ∈ [3, 4, 5, 10], (w.setCsr n x).csr n = x) ∧ (∀ n ∈ [6, 7, 8, 9], w.setCsr n x = w) ∧
    ∀ m n, m ≠ n → (w.setCsr n x).csr m = w.csr m) ∧
  (∀ (s : State) (t : TowerId) (n : Nat) (x : Word), csrMask n ≠ 0 →
    ((s.csrWrite t n x).tower t).reg n = ((s.tower t).reg n &&& ~~~csrMask n) ||| (x &&& csrMask n) ∧
    (∀ m, m ≠ n → ((s.csrWrite t n x).tower t).reg m = (s.tower t).reg m) ∧ (s.csrWrite t n x).mem = s.mem ∧
    (s.csrWrite t n x).wave = s.wave) ∧
  (∀ n ∈ [0x103, 0x330, 0x331, 0x335, 0x361, 0x374, 0x375, 0x376], ∀ (s : State) (t : TowerId) (x : Word), s.csrWrite t n x = s) ∧
  (∀ (f : Fields) (s : State), s.Issues (.ximm f) f →
    effects (.ximm f) f s { s with wave := { s.wave with
      npc := s.wave.pc + 12
      pfx := { s.wave.pfx with
        start := some s.wave.pairStart
        ximm := some (s.wave.pc, f.ext) } } }) ∧
  (∀ (f : Fields) (s : State), s.Issues (.xfmt f) f →
    effects (.xfmt f) f s { s with wave := { s.wave with
      npc := s.wave.pc + 12
      pfx := { s.wave.pfx with
        start := some s.wave.pairStart
        xfmt := some s.wave.pc } } }) ∧
  (∀ (f : Fields) (s : State), s.Issues (.csrw f) f → 0x100 ≤ selOf f → s.wave.jctl.getLsbD 0 = true) ∧
  (∀ (f : Fields) (s : State), s.Issues (.csrr f) f → 0x100 ≤ selOf f → selOf f ≠ 0x35E → s.wave.jctl.getLsbD 0 = true)

/-- A PAGEMAP that issues on an aligned address in range, granted, with the link up where it is the other tower's, on
a word without poison, reads the word o at p, stores a there, with .CMP only where o equals d, changes no other
byte, and gives d the word o. A TLBINV that issues leaves the wave waiting for the shoot- down, and no translation
register of the groups it reaches holds what it invalidates: with .JB none of the job's, with .ALL none at all,
and else none of the job's on a page that held or holds the address; groups of another job keep theirs but for
.ALL. A WAKEW in its own job or with PRIV gives 0 where no live wave has the tag; .WAKE of a sleeping wave ends
its sleep and of any other sets WAKEPEND, with d 1; .RES of a parked wave ends its wait, with d 1, and of a wave
with nothing parked gives 0; .ABRT of a wave with nothing parked gives 0; .ABRT of a parked wave of another group
gives 1, and the group is to end. WAKEW without .WAKE, or in another job, is privileged, and traps PRIV without
PRIV. WAKEW may name its own wave: .WAKE sets its WAKEPEND, .RES lets its parked SCAN and commands go on, .ABRT
with a parked SCAN ends its group, and with nothing parked d is 0. The page and the overlap that TLBINV.PG takes
(log 34), and which waves .ABRT acts on and its record (log 35), are the model's choices. (R367, R368, R369, R363,
14_interruption.md) -/
def Obligations.PageEntriesAndWaves : Prop :=
  (∀ (f : Fields) (s : State), s.Issues (.pagemap f) f →
    let x := s.ctx (form (.pagemap f)) f
    let d := (x.uni64 f.b).toNat
    let o := Mem.read64 s.mem d
    d % 8 = 0 → dpaOk d = true → (dpaTower d = s.group.tower ∨ s.link.down = false ∧ s.link.retraining = false) →
    s.poisoned d 8 = none → s.globalOk s.group.tower 0 s.group.job kindWave true true true d (d + 8) = true →
    ∃ u : State, effects (.pagemap f) f s u ∧ u.locals = s.locals ∧ u.wave.keeps s.wave (destOf f.d 2) ∧ u.wave.npc = s.wave.pc + 12 ∧
      u.mem = (if f.mod.getLsbD 0 = false ∨ o = x.uni64 f.d then Mem.writeBytes s.mem d (Mem.bytes (x.uni64 f.a).toNat 8) else s.mem) ∧
      ∀ q r : Fin 128, f.d = .s q → r.val = q.val + 1 → u.wave.sreg q = o.setWidth 32 ∧ u.wave.sreg r = (o >>> 32).setWidth 32) ∧
  (∀ (f : Fields) (s : State), s.Issues (.tlbinv f) f →
    let x := s.ctx (form (.tlbinv f)) f
    ∃ u : State, effects (.tlbinv f) f s u ∧ u.keepsAll { s with groups := u.groups } ∧
      u.wave = { s.wave with
        npc := s.wave.pc + 12
        wait := .shootdown } ∧
      (∀ g ∈ u.allGroups, (mbits f 1 0 = 1 ∧ g.job = x.jobArg ∨ mbits f 1 0 = 2) → g.trs = []) ∧
      (mbits f 1 0 = 0 → ∀ g ∈ u.allGroups, g.job = x.jobArg → ∀ p ∈ g.trs, ∀ q ∈ p.2.pages,
        let va := (x.uni64 f.b).toNat
        let pg := s.pageOf x.jobArg va
        ¬(q.1 ≤ va ∧ va < q.1 + q.2) ∧ ¬(q.1 < pg.1 + pg.2 ∧ pg.1 < q.1 + q.2)) ∧
      (mbits f 1 0 ≠ 2 → ∀ g ∈ s.allGroups, g.job ≠ x.jobArg → g ∈ u.allGroups)) ∧
  (∀ (f : Fields) (s : State), s.Issues (.wakew f) f →
    let x := s.ctx (form (.wakew f)) f
    let md := mbits f 1 0
    let d (u : State) (v : Word) : Prop := ∀ q : Fin 128, f.d = .s q → u.wave.sreg q = v
    (md ≠ 0 → s.wave.jctl.getLsbD 0 = true) ∧
    (md = 0 → x.jobArg ≠ s.group.job → s.wave.jctl.getLsbD 0 = false → ∃ u : State, u.keepsAll s ∧
      exec (.wakew f) s = .next (u.takeTrap (.plain .priv) s.wave.pairStart s.wave.pairStart (awaitOf (.wakew f) f))) ∧
    ((md ≠ 0 ∨ x.jobArg = s.group.job ∨ s.wave.jctl.getLsbD 0 = true) →
      (s.tagged x.jobArg (x.uni f.b) = none →
        ∃ u : State, effects (.wakew f) f s u ∧ u.keepsAll s ∧ u.wave.keeps s.wave (destOf f.d 1) ∧ d u 0) ∧
      (∀ w ∈ s.waves, s.tagged x.jobArg (x.uni f.b) = some w → w.key ≠ s.wave.key →
        (md = 0 → ∃ u : State, effects (.wakew f) f s u ∧ u.wave.keeps s.wave (destOf f.d 1) ∧ d u 1 ∧ u.mem = s.mem ∧
          ∃ v ∈ u.waves, v.key = w.key ∧
            v = (match w.wait with | .sleep _ => { w with wait := .none, dogCount := 0 } | _ => { w with wakePend := true })) ∧
        (md = 1 → w.isParked = true → ∃ u : State, effects (.wakew f) f s u ∧ u.wave.keeps s.wave (destOf f.d 1) ∧ d u 1 ∧
          u.mem = s.mem ∧ ∃ v ∈ u.waves, v.key = w.key ∧ v.wait = .none ∧ v.parkedMask = w.parkedMask ∧ v.pc = w.pc) ∧
        (md = 2 → w.parkedOn ≠ none → s.wave.alive = true → (∀ v ∈ s.waves, v.key ≠ s.wave.key) →
          s.wave.inGroup s.group.key = true → s.group.key ≠ ⟨w.job, w.gid⟩ →
          ∃ u : State, effects (.wakew f) f s u ∧ d u 1 ∧ ∀ g ∈ u.groups, g.key = ⟨w.job, w.gid⟩ → g.kill = true) ∧
        (md ≠ 0 → w.parkedOn = none → (md = 1 → w.cmds.any EngCmd.parked = false) →
          ∃ u : State, effects (.wakew f) f s u ∧ u.wave.keeps s.wave (destOf f.d 1) ∧ d u 0 ∧ u.mem = s.mem ∧ u.waves = s.waves)) ∧
      (s.tagged x.jobArg (x.uni f.b) = some s.wave → s.wave.wait = .none →
        (md = 0 → ∃ u : State, effects (.wakew f) f s u ∧ u.wave.keeps s.wave (destOf f.d 1) ∧ d u 1 ∧ u.mem = s.mem ∧
          u.wave.wakePend = true) ∧
        (md = 1 → s.wave.scanParked ≠ none ∨ s.wave.cmds.any EngCmd.parked = true → ∃ u : State, effects (.wakew f) f s u ∧
          u.wave.keeps s.wave (destOf f.d 1) ∧ d u 1 ∧ u.mem = s.mem ∧ u.wave.scanParked = none ∧
          ∀ c ∈ u.wave.cmds, c.parked = false) ∧
        (md = 2 → s.wave.scanParked ≠ none → s.wave.inRun = true → s.wave.inGroup s.group.key = true →
          ∃ u : State, effects (.wakew f) f s u ∧ d u 1 ∧ ∀ g ∈ u.allGroups, g.key = s.group.key → g.kill = true) ∧
        (md ≠ 0 → s.wave.scanParked = none → (md = 1 → s.wave.cmds.any EngCmd.parked = false) →
          ∃ u : State, effects (.wakew f) f s u ∧ u.wave.keeps s.wave (destOf f.d 1) ∧ d u 0 ∧ u.mem = s.mem ∧ u.waves = s.waves))))

/-- With FNMODE.SLOTS set, a SLOTREQ or SLOTREL that issues gives 0, changes no slot, and leaves a record of FN 6 for
the host. With FNMODE.SLOTS clear, a SLOTREQ that issues for 1 to 8192 slots, of which every named tower has that
many free, gives each of them the first free slots of the order of R274 for the job and sets d to the count;
otherwise it gives 0 and changes nothing. A SLOTREL frees as many of the job's slots, or all for 0, and sets d to
the sum, unless sectors that need the last slots are queued, when its wave leaves its run and waits. A LAYERPS
that issues waits while a power change is in progress; else it traps RECONFIG where a named tower would keep no
awake layer, waits where a named layer is in a transition, and otherwise completes, every named layer having
started its transition in turn, with the mask of the layers it alters in d, tower 1's in bits 15:8. SLOTREQ and
SLOTREL change no memory and no register but d. That LAYERPS waits for BUSY before it tests for RECONFIG, and then
for the transitions (log 53), and that FNMODE of the issuing tower alone decides for slots of either tower (log 55),
are the model's choices. (R274, R275, R278, 10_stack_and_towers.md) -/
def Obligations.SlotsAndLayersAreChanged : Prop :=
  let d (f : Fields) (u : State) (v : Word) : Prop := ∀ q : Fin 128, f.d = .s q → u.wave.sreg q = v
  let waits (i : Instr) (s : State) (w : Wait) : Prop := ∃ t : State, exec i s = .next t ∧ t.mem = s.mem ∧ t.tower0 = s.tower0 ∧
    t.tower1 = s.tower1 ∧ (s.group.kill = false → s.wave.live ≠ 0 →
      t.wave.wait = w ∧ t.wave.inRun = false ∧ t.wave.pc = s.wave.pairStart)
  (∀ k ∈ ([.slotreq, .slotrel] : List (Fields → Instr)), ∀ (f : Fields) (s : State), s.Issues (k f) f →
    (s.tower s.group.tower).hostFn 5 = true →
    let job := bits ((s.ctx (form (k f)) f).uni f.a) 11 0
    ∃ u : State, effects (k f) f s u ∧ u.mem = s.mem ∧ u.locals = s.locals ∧ u.wave.keeps s.wave (destOf f.d 1) ∧ d f u 0 ∧
      (∀ t, (u.tower t).almanac = (s.tower t).almanac) ∧
      (((s.tower s.group.tower).recs.filter fun r => r.job = job).length < 32 →
        ∃ r ∈ (u.tower s.group.tower).recs, r.host = true ∧ r.job = job ∧ taskBits r.bits 3 7 0 = 6 ∧ taskBits r.bits 32 31 0 = job)) ∧
  (∀ (f : Fields) (s : State), s.Issues (.slotreq f) f → (s.tower s.group.tower).hostFn 5 = false →
    let x := s.ctx (form (.slotreq f)) f
    let job := bits (x.uni f.a) 11 0
    let n := (x.uni f.b).toNat
    let ts := towerList (towersOf s.group.tower (mbits f 1 0))
    let ok : Prop := 0 < n ∧ n ≤ 8192 ∧ ∀ t ∈ ts, n ≤ (s.tower t).freeSlots.length
    (¬ok → ∃ u : State, effects (.slotreq f) f s u ∧ u.keepsAll s ∧ u.wave.keeps s.wave (destOf f.d 1) ∧ d f u 0) ∧
    (ok → ∃ u : State, effects (.slotreq f) f s u ∧ u.mem = s.mem ∧ u.locals = s.locals ∧ u.wave.keeps s.wave (destOf f.d 1) ∧
      u.wave.npc = s.wave.pc + 12 ∧ d f u (BitVec.ofNat 32 n) ∧
      ∀ t, u.tower t = if t ∈ ts then (s.tower t).setSlots (slotEntry job) ((s.tower t).freeSlots.take n) else s.tower t)) ∧
  (∀ (f : Fields) (s : State), s.Issues (.slotrel f) f → (s.tower s.group.tower).hostFn 5 = false →
    let x := s.ctx (form (.slotrel f)) f
    let job := bits (x.uni f.a) 11 0
    let n := if isNil f.b then 0 else (x.uni f.b).toNat
    let ts := towerList (towersOf s.group.tower (mbits f 1 0))
    let take (t : TowerId) : Nat := if n = 0 then (s.tower t).slotsOf job else min n ((s.tower t).slotsOf job)
    ((∃ t ∈ ts, take t ≠ 0 ∧ take t = (s.tower t).slotsOf job ∧ (s.tower t).queued job ≠ 0) →
      let tw := towersOf s.group.tower (mbits f 1 0)
      waits (.slotrel f) s (.slots job tw.1 tw.2)) ∧
    ((∀ t ∈ ts, take t = 0 ∨ take t ≠ (s.tower t).slotsOf job ∨ (s.tower t).queued job = 0) →
    ∃ u : State, effects (.slotrel f) f s u ∧ u.mem = s.mem ∧ u.locals = s.locals ∧ u.wave.keeps s.wave (destOf f.d 1) ∧
      u.wave.npc = s.wave.pc + 12 ∧ d f u (BitVec.ofNat 32 (ts.map take).sum) ∧
      ∀ t, u.tower t =
        if t ∈ ts then (s.tower t).setSlots freeEntry (((s.tower t).jobSlots job).reverse.take (take t)) else s.tower t)) ∧
  (∀ (f : Fields) (s : State), s.Issues (.layerps f) f →
    let x := s.ctx (form (.layerps f)) f
    let st := layerStOf (mbits f 1 0)
    let tw := towersOf s.group.tower (mbits f 3 2)
    let m := bits (x.uni f.a) 7 0
    let empty (t : TowerId) : Prop := ∀ l < 8, if m.testBit l then st ≠ .awake else (s.tower t).awake l = false
    let waiting : Prop := waits (.layerps f) s (.layers (if tw.1 then m else 0) (if tw.2 then m else 0))
    (s.powerNow ≠ none → waiting) ∧
    (s.powerNow = none → (∀ t ∈ towerList tw, ¬empty t) → (∃ t ∈ towerList tw, ∃ l ∈ maskLayers m, (s.tower t).busy l = true) →
      waiting) ∧
    (s.powerNow = none → (∃ t ∈ towerList tw, empty t) → ∃ u : State, u.keepsAll s ∧
      exec (.layerps f) s = .next (u.takeTrap (.plain .reconfig) s.wave.pairStart s.wave.pairStart (awaitOf (.layerps f) f))) ∧
    (s.powerNow = none → (∀ t ∈ towerList tw, ¬empty t) → (∀ t ∈ towerList tw, ∀ l ∈ maskLayers m, (s.tower t).busy l = false) →
      ∃ u v : State, effects (.layerps f) f s u ∧ u = v.writeS f.d .now
          (BitVec.ofNat 32 ((if tw.1 then s.tower0.alters m st else 0) + 256 * (if tw.2 then s.tower1.alters m st else 0))) ∧
        v = (towerList tw).foldl (fun s t => (maskLayers m).foldl (fun s l => s.layerTo t l st) s) x.s))

/-- A RUN_START of a free port of a core whose clock runs and whose firmware is loaded starts a run of the wave that
the port chooses, at its pc, with no temporaries and its registers as they are, and counts a pass of each other ready
wave; a port that is busy, or without a ready wave, changes nothing. The choice is a ready wave: an aged one where one
is aged, the one passed over most and of equals the lowest slot, else one that has not yielded where there is one, of
the highest class and priority among them, and of equals the lowest slot where none of them last started at the port.
TOKEN_CLEAR clears a set token of a wave whose operations are done, and lets the row port perform the wave's first
segment when that does not wait. ENGINE_COMPLETE takes a command whose sectors are all sent out of its class and skips
a parked one; of a resident group it runs the class's oldest command on, a ray query, a borrow or a command of
elements, as the statements of those say (O39, O48, O50), and of a saved group none that is not in flight.
SLEEP_TIMEOUT, where the counter of the core counts or stands at the deadline, TLB_SHOOTDOWN_DONE and
CTRWAIT_SATISFIED, once a write has found the counter at or below its threshold or it stands there, end their waits;
ROWWAIT_WAKE ends its wait with DSPLINE in the register; WATCHDOG brings the count to its limit. BORROW_LATE of a wave
that does not replay sets the late predicate and gives zeros in the lanes of the borrow. None of the waits' ends
changes memory. Which waves form the round of R143 (log 56), which tokens a pending command, row or wait holds (log
63), and whose moments sleep and row waits keep (log 76), are the model's choices. (R69, R143, R144, R157, R250, R327,
R368, R376, R389, R393, 06_issue_control_integer.md) -/
def Obligations.RunsStartTokensClearAndWaitsEnd : Prop :=
  let turns (i : Instr) (k : WaveKey) (s : State) (P : Wave → Wave → State → Prop) : Prop :=
    ∀ w, s.wave.inGroup s.group.key = true → s.findWave k = some w → w.alive = true → ∃ (t : State) (v : Wave), exec i s = .next t ∧ t.findWave k = some v ∧ P w v t
  let stays (s : State) (w : Wave) : Prop := w.inRun = true ∨ (w.live ≠ 0 ∧ (s.groupOf w).kill = false)
  (∀ (p : Place) (port : Fin 2) (s : State) (w : Wave) (g : Group), s.clockStop = false → (s.tower p.tower).booted = true →
    s.portBusy p port.val = false →
    chooseWave (Table.get [] (s.tower p.tower).ports (portIdx p port.val)) (s.readyOn p) = some (w, g) →
    (∀ v ∈ s.allWaves, v.key = w.key → v = w) → w.dogCount < 2 ^ 24 → (∀ a, w.wait ≠ .waitpred a) →
    ∃ t : State, exec (.runStart p port) s = .next t ∧ t.wave.key = w.key ∧ t.wave.inRun = true ∧ t.wave.port = port.val ∧
      t.wave.runLen = 0 ∧ t.wave.temps = [] ∧ t.wave.pc = w.pc ∧ t.wave.vregs = w.vregs ∧ t.wave.sregs = w.sregs ∧
      t.wave.preds = w.preds ∧ t.wave.tiles = w.tiles ∧ t.wave.em = w.em ∧ t.wave.tokens = w.tokens ∧ t.wave.passes = 0 ∧
      t.mem = s.mem ∧ t.locals = s.locals ∧
      ∀ q ∈ s.readyOn p, q.1.key ≠ w.key → (∀ v ∈ s.allWaves, v.key = q.1.key → v = q.1) → s.wave.gone = false →
        ∃ v, t.findWave q.1.key = some v ∧ q.1.passes < v.passes) ∧
  (∀ (p : Place) (port : Fin 2) (s : State), s.clockStop = true ∨ (s.tower p.tower).booted = false ∨ s.portBusy p port.val = true ∨
    s.readyOn p = [] → exec (.runStart p port) s = .next s) ∧
  (∀ (last : List WaveKey) (ws : List (Wave × Group)) (c : Wave × Group), chooseWave last ws = some c →
    let rank (q : Wave × Group) : Nat := q.2.cls * 8 + q.2.prio
    c ∈ ws ∧ ((∃ q ∈ ws, q.1.aged = true) → c.1.aged = true ∧ ∀ q ∈ ws, q.1.aged = true →
        q.1.passes ≤ c.1.passes ∧ (q.1.passes = c.1.passes → c.1.slot % 32 ≤ q.1.slot % 32)) ∧
      ((∀ q ∈ ws, q.1.aged = false) → ((∃ q ∈ ws, q.1.yielded = false) → c.1.yielded = false) ∧
        ∀ q ∈ ws, q.1.yielded = c.1.yielded → rank q ≤ rank c ∧
          (rank q = rank c → (∀ k ∈ last, ∀ r ∈ ws, r.1.yielded = c.1.yielded → rank r = rank c → r.1.key ≠ k) →
            c.1.slot ≤ q.1.slot))) ∧
  (∀ (k : WaveKey) (tok : Fin 6) (s : State) (w : Wave), s.findWave k = some w → w.tokens.getLsbD tok.val = false →
    exec (.tokenClear k tok) s = .next s) ∧
  (∀ (k : WaveKey) (tok : Fin 6) (s : State), turns (.tokenClear k tok) k s fun w v t =>
    w.tokens.getLsbD tok.val = true → w.scan = none → w.segs = [] → w.tokHeld tok.val = false → w.pendTrap = none → stays s w →
      v = w.clearTok tok.val ∧ t.mem = s.mem) ∧
  (∀ (k : WaveKey) (tok : Fin 6) (s : State) (g : RowSeg) (gs : List RowSeg), turns (.tokenClear k tok) k s fun w v t =>
    w.tokens.getLsbD tok.val = true → w.scan = none → w.segs = g :: gs → g.tok = tok.val → w.pendTrap = none → stays s w →
      let tw := (s.groupOf w).tower
      (s.tower tw).segWaits g = false →
        v.segs = gs ∧ t.tower tw = ((s.tower tw).lightDue.putRow g).1 ∧ t.mem = s.mem) ∧
  (∀ (k : WaveKey) (c : EngClass) (s : State) (w : Wave) (e : EngCmd), s.findWave k = some w →
    (w.cmds.find? fun x => x.cls = c) = some e → e.parked = true → exec (.engineComplete k c) s = .next s) ∧
  (∀ (k : WaveKey) (c : EngClass) (s : State) (e : EngCmd), turns (.engineComplete k c) k s fun w v t =>
    (w.cmds.find? fun x => x.cls = c) = some e → (w.cmds.find? fun x => x.num = e.num) = some e →
    e.parked = false → e.op = .sectors 0 → e.tok = none → e.ctr = none → e.err = [] → w.wait = .none → stays s w →
      v = { w with cmds := w.cmds.filter fun x => x.num ≠ e.num } ∧ t.mem = s.mem) ∧
  (∀ (k : WaveKey) (c : EngClass) (s : State) (w : Wave) (e : EngCmd), s.findWave k = some w →
    (w.cmds.find? fun x => x.cls = c) = some e → e.parked = false → (s.focusOn k).group.resident = true →
    let runs (f : State → State) : Prop := exec (.engineComplete k c) s = .next (s.as k fun s => (f s).boundaryNow)
    (∀ slot, e.op = .ray slot → runs fun s => s.rayRun e slot) ∧
    (∀ d pk pl m win dl r0, e.op = .eyebor d pk pl m win dl r0 → runs fun s => s.borrowRun e false) ∧
    ((∀ slot, e.op ≠ .ray slot) → (∀ d pk pl m win dl r0, e.op ≠ .eyebor d pk pl m win dl r0) → runs fun s => s.cmdRun e)) ∧
  (∀ (k : WaveKey) (c : EngClass) (s : State) (w : Wave) (e : EngCmd), s.findWave k = some w →
    (w.cmds.find? fun x => x.cls = c) = some e → (s.focusOn k).group.resident = false → e.op.inFlight = false →
    exec (.engineComplete k c) s = .next (if e.parked then s else s.as k id)) ∧
  (∀ (k : WaveKey) (s : State) (c : DWord), turns (.sleepTimeout k) k s fun w v t =>
    w.wait = .sleep (some c) → let g := (s.focusOn k).group
      t.mem = s.mem ∧ v = if s.clkRuns g || decide (c.toNat ≤ (s.clock g).toNat) then w.unwait else w) ∧
  (∀ (k : WaveKey) (s : State), turns (.tlbShootdownDone k) k s fun w v t =>
    w.wait = .shootdown → s.link.retraining = false → v = w.unwait ∧ t.mem = s.mem) ∧
  (∀ (k : WaveKey) (s : State) (d : Nat) (va : DWord) (thr : Int) (sc : Option Scope) (sw : Bool), turns (.ctrwaitSatisfied k) k s fun w v t =>
    w.wait = .counter d va thr sc sw →
      (thr < s.counterAt d → k ∉ s.ctrHits → t = s) ∧
      (s.counterAt d ≤ thr ∨ k ∈ s.ctrHits → s.relsOf (locGlobal d) 8 = [] → w.pendTrap = none → v = w.unwait ∧ t.mem = s.mem)) ∧
  (∀ (k : WaveKey) (s : State) (line : Int) (lead : Nat) (d : Opnd), turns (.rowwaitWake k) k s fun w v t =>
    w.wait = .row line lead d →
      let tw := t.tower (s.groupOf w).tower
      v = w.unwait.give d 0 0 (splat tw.rowValue) ∧ tw.rowReady line lead = true ∧ t.mem = s.mem) ∧
  (∀ (k : WaveKey) (s : State), turns (.watchdog k) k s fun w v t =>
    s.watched w = true →
      v = { w with dogCount := max w.dogCount (2 ^ 24) } ∧ t.mem = s.mem) ∧
  (∀ (k : WaveKey) (s : State) (e : EngCmd) (d pk pl : Nat) (m : Mask) (win : DWord) (dl r0 : Word), turns (.borrowLate k) k s fun w v _ =>
    (w.cmds.find? fun x => x.cls = .gt) = some e → e.op = .eyebor d pk pl m win dl r0 → e.parked = false →
    w.jctl.getLsbD 7 = false → stays s w → w.wait = .none → w.pendTrap = none →
      ∀ i < 32, laneOn m i = true → laneOn (v.pred pl) i = true ∧ ∀ j < 8, laneAt (v.vreg (d + j)).lanes i = 0)

/-- DEAL_TILE hands the first tile or unit in the order of R125 that its layer has room for and that is first of its
queue's: a tile becomes a queued unit, and its launch counts it as issued; a held unit becomes queued, one that no
core holds retires with its record, and a cancelled one retires unrun. CLUSTER_ENQUEUE moves the first unit that a
cluster fits to that cluster's queue, STEAL_REQUEST of a cluster with an empty queue takes the fitting unit of lowest
rank of the nearest other cluster that has one, and DONATION_REQUEST of an awake layer with an empty queue takes half
of the fitting units of the layer with the most, at most eight, those of highest rank. PLACE_UNIT places the first
unit that fits, or retires it when it is cancelled. GROUP_START starts a placed group, GROUP_SAVE takes the groups of
a unit that may be saved off their cores, and GROUP_RESTORE brings one back, or ends it where its image is refused.
UNIT_RETIRE retires a unit that is done and no other: it leaves the machine, and the steps that follow, each before
the next, decrement its successor block and then the completion counter with RETIRED counted, or the job. A decrement
takes one off a counter above zero, and else leaves it, with a CTRUNDER record; a block at zero submits its record, a
launch with all tiles retired ends and goes on to its graph or job and its block, and a graph or phase at zero goes on
to its parent and block, their records changed where they can be written. FETCHW_MAILBOX_WRITE gives a waiting group
the next tile of a live launch, or flag 2 and zeros. Choices of the model: only fitting units are shipped and what
counts as queued (log 50), the equal unit that a steal takes (log 99), the order within a queue (log 95), the job's
record by its DPA (log 75), the seating that decides a fit (log 120). (R17, R18, R19, R20, R123, R128, R130, R131,
R136, R373, R378, R379) -/
def Obligations.UnitsAreDealtPlacedAndRetired : Prop :=
  let first (s : State) (t : TowerId) : Option Deal :=
    (sortRank Deal.rank (s.served ((s.deals t).filter (s.dealOk t)))).head?
  let put (m : List Host.Cell) (d : Nat) (c : Int) : List Host.Cell := Mem.writeBytes m d (Mem.bytes (BitVec.ofInt 64 c : DWord).toNat 8)
  let under (s u : State) (t : TowerId) (job : Nat) : Prop := ((s.tower t).recs.filter fun r => r.job = job).length < 16 →
    ∃ r ∈ (u.tower t).recs, r.job = job ∧ taskBits r.bits 0 5 0 = causeCode .ctrunder
  let rank (u : WorkUnit) : Nat := u.cls * 8 + u.prio
  (∀ (t : TowerId) (s : State), first s t = none → exec (.dealTile t) s = .next s) ∧
  (∀ (t : TowerId) (s : State) (l : Launch) (lin : Nat), first s t = some (.tile l lin) → s.launchReq l = false →
    let n := (s.dealLayer (.tile l lin)).getD 0
    let u := s.tileUnit l lin (l.tileTower lin) (.queued n none) n
    u.placeable = true →
    ∃ v : State, exec (.dealTile t) s = .next v ∧ v.units = s.units ++ [u] ∧ v.seq = s.seq + 1 ∧
      (∀ j, s.findJob l.job = some j → ∃ k, v.findJob l.job = some k ∧ k.liveIn (l.tileTower lin) = true) ∧
      ∃ q ∈ v.launches, q.id = l.id ∧ q.next = lin + 1 ∧ q.issued = l.issued + 1 ∧
        q.state = (if l.issued + 1 = lnTiles l.image then 3 else 2)) ∧
  (∀ (t : TowerId) (s : State) (u : WorkUnit), first s t = some (.unit u) →
    (s.unitReq u = true → exec (.dealTile t) s = .next (s.finishUnit u)) ∧
    (s.unitReq u = false → s.lookMiss u = none → u.launch = none → u.placeable = false →
      (s.namedLaunch u = none → exec (.dealTile t) s = .next (((s.lookEcc u).gangRec u.tower u.job u.recVa u.src).finishUnit u)) ∧
      ∀ l, s.namedLaunch u = some l → ∃ v : State, exec (.dealTile t) s = .next v ∧ ∃ q ∈ v.launches, q.id = l.id ∧ q.req = true) ∧
    (s.unitReq u = false → s.lookMiss u = none → u.launch ≠ none ∨ u.placeable = true →
      let n := (s.dealLayer (.unit u)).getD 0
      ∃ v : State, exec (.dealTile t) s = .next v ∧ v.mem = s.mem ∧ v.units.length = s.units.length ∧
        ∀ x ∈ v.units, x.id = u.id → x.st = .queued n none ∧ x.layer = n)) ∧
  (∀ (t : TowerId) (l : LayerId) (s : State) (u : WorkUnit) (c : Nat),
    ((sortRank WorkUnit.rank (s.layerQueue t l.val)).findSome? fun u => ((s.clustersFor t l u).head?).map fun c => (u, c)) = some (u, c) →
    ∃ v : State, exec (.clusterEnqueue t l) s = .next v ∧ v.mem = s.mem ∧ (∀ x ∈ v.units, x.id ≠ u.id → x ∈ s.units) ∧
      ∀ x ∈ v.units, x.id = u.id → x.st = .queued l.val (some c) ∧ x.cluster = c) ∧
  (∀ (t : TowerId) (l : LayerId) (s : State), s.layerQueue t l.val = [] → exec (.clusterEnqueue t l) s = .next s) ∧
  (∀ (t : TowerId) (l : LayerId) (c : ClusterId) (s : State), (s.clusterQueue t l.val c.val).isEmpty = false →
    exec (.stealRequest t l c) s = .next s) ∧
  (∀ (t : TowerId) (l : LayerId) (c : ClusterId) (s : State), s.clusterQueue t l.val c.val = [] →
    let fits (k : Nat) : List WorkUnit := (s.clusterQueue t l.val ((c.val + k) % 4)).filter fun u => (s.fit u t l c.val).isSome
    ∀ k ∈ [1, 2, 3], fits k ≠ [] → (∀ j, 0 < j → j < k → fits j = []) →
      ∃ (v : State) (u : WorkUnit), u ∈ fits k ∧ exec (.stealRequest t l c) s = .next v ∧ v.mem = s.mem ∧
        (∀ x ∈ fits k, rank u ≤ rank x ∧ (rank x = rank u → u.lin < 2 ^ 28 → x.lin < 2 ^ 28 → x.lin ≤ u.lin)) ∧
        ∀ x ∈ v.units, x.id = u.id → x.st = .queued l.val (some c.val)) ∧
  (∀ (t : TowerId) (l : LayerId) (s : State),
    ((s.tower t).awake l.val = false ∨ s.layerQueue t l.val ≠ [] → exec (.donationRequest t l) s = .next s) ∧
    let room := s.coreRoom ⟨t, l, s.bestCore t l⟩
    let fits (n : Nat) : List WorkUnit := (s.queuedOn t n).filter fun u => decide (u.src ≠ 4) &&
      if u.tasks.length = 1 then room.covers (taskRoom u.task) && decide (s.poolUsed t + u.reservation ≤ (s.tower t).pool)
      else (s.fit u t l (s.bestCluster t l)).isSome
    ∀ n < 8, n ≠ l.val → (s.tower t).awake l.val = true → s.layerQueue t l.val = [] → fits n ≠ [] →
      (∀ k < 8, k ≠ l.val → (fits k).length ≤ (fits n).length ∧ ((fits k).length = (fits n).length → n ≤ k)) →
      ∃ ship : List WorkUnit, ship.length = min 8 (((fits n).length + 1) / 2) ∧ (∀ u ∈ ship, u ∈ fits n) ∧
        (∀ u ∈ ship, ∀ v ∈ fits n, v ∉ ship → rank v ≤ rank u ∧ (rank v = rank u → v.lin < 2 ^ 28 → v.lin ≤ u.lin)) ∧
        let move (u : WorkUnit) : WorkUnit :=
          if u.id ∈ ship.map WorkUnit.id then { u with st := .queued l.val none, layer := l.val } else u
        exec (.donationRequest t l) s = .next { s with units := s.units.map move }) ∧
  (∀ (t : TowerId) (l : LayerId) (c : ClusterId) (s : State), (s.tower t).awake l.val = false → exec (.placeUnit t l c) s = .next s) ∧
  (∀ (t : TowerId) (l : LayerId) (c : ClusterId) (s : State) (u : WorkUnit) (k : List CoreId), (s.tower t).awake l.val = true →
    let us := s.clusterQueue t l.val c.val ++ s.units.filter fun u => u.tower = t && s.offered u l
    ((sortRank WorkUnit.rank (us.filter fun u => !s.behind u)).findSome? fun u =>
      if !u.ran && s.unitReq u then some (u, none) else (s.fit u t l c.val).map fun k => (u, some k)) = some (u, some k) →
    ∃ v : State, exec (.placeUnit t l c) s = .next v ∧ v.mem = s.mem ∧ v.seq = s.seq + 1 ∧
      (∀ x ∈ v.units, x.id = u.id → x.st = .placed ∧ x.layer = l.val) ∧
      (u.ran = false → v.groups.length = s.groups.length + min u.tasks.length k.length)) ∧
  (∀ (k : GroupKey) (s : State) (g : Group) (u : WorkUnit), s.findGroup k = some g → s.findUnit g.unit = some u →
    g.started = false → g.resident = true → g.stopping = false → u.st.holds = true →
    (u.started = true ∨ s.unitReq u = false ∧ s.lookMiss u = none) →
    ∃ (v : State) (h : Group), exec (.groupStart k) s = .next v ∧ v.mem = s.mem ∧ v.findGroup k = some h ∧ h.started = true ∧
      ∀ x ∈ v.units, x.id = u.id → x.started = true ∧ x.st = .running) ∧
  (∀ (k : GroupKey) (s : State) (g : Group) (u : WorkUnit), s.findGroup k = some g → s.findUnit g.unit = some u →
    (s.saveReady u = false → exec (.groupSave k) s = .next s) ∧
    (s.saveReady u = true → ∃ v : State, exec (.groupSave k) s = .next v ∧ v.mem = s.mem ∧ v.wave = s.wave ∧ v.waves = s.waves ∧
      (∀ x ∈ v.units, x.id = u.id → x.st = .saved ∨ x.st = .swapped) ∧
      ∀ h ∈ s.groupsOf u, ∀ x ∈ v.allGroups, x.key = h.key → x.resident = false)) ∧
  (∀ (k : GroupKey) (s : State) (g : Group) (u : WorkUnit), s.findGroup k = some g → s.findUnit g.unit = some u →
    g.resident = false → u.st.holds = true →
    let bad := g.imgBad.or (if imageBad (g.image.getD []) then some (.resbits, 0) else none)
    (bad = none → ∃ (v : State) (h : Group), exec (.groupRestore k) s = .next v ∧ v.mem = s.mem ∧ v.findGroup k = some h ∧
      h.resident = true ∧ v.wave = s.wave ∧ v.waves = s.waves) ∧
    (∀ c a, bad = some (c, a) → ∃ (v : State) (h : Group), exec (.groupRestore k) s = .next v ∧ v.findGroup k = some h ∧ h.kill = true ∧
      (((s.tower g.tower).recs.filter fun r => r.job = g.job).length < 32 → ∃ r ∈ (v.tower g.tower).recs,
        r.job = g.job ∧ taskBits r.bits 0 5 0 = causeCode c ∧ taskBits r.bits 0 7 6 = 2 ∧
          taskBits r.bits 8 63 0 = a.toNat ∧ (c = .eccsram → taskBits r.bits 32 31 16 = 7)))) ∧
  (∀ (n : Nat) (s : State), ((∀ u, s.findUnit n = some u → s.unitDone u = false) → exec (.unitRetire n) s = .next s) ∧
    ∀ u, s.findUnit n = some u → s.unitDone u = true → exec (.unitRetire n) s = .next (s.finishUnit u)) ∧
  (∀ (s : State) (u : WorkUnit), (∀ x ∈ (s.dropUnit u).units, x.id ≠ u.id ∧ x ∈ s.units) ∧ (s.dropUnit u).localMem u.id = [] ∧
    (s.dropUnit u).mem = s.mem) ∧
  (∀ (s : State) (u : WorkUnit), ∃ v : State, (∀ x ∈ v.units, x.id ≠ u.id) ∧
    let succ : DWord := u.task.extractLsb' 192 64
    s.finishUnit u = v.hwSteps u.job u.tower u.depth ((if succ = 0 then [] else [.block succ u.recVa]) ++
      match u.launch.bind v.findLaunch with
      | some l => [.done (lnDonectr l.image) l.addr, .tile l.id]
      | none => [.job])) ∧
  (∀ (s : State) (job : Nat) (t : TowerId) (depth n : Nat) (q : Bool) (x : HwStep) (xs : List HwStep),
    (∀ u more, s.hwStep job t depth x = .go u more →
      s.hwGo job t depth (n + 1) q (x :: xs) = u.hwGo job t depth n false (more ++ xs)) ∧
    (∀ m va rec wr, s.hwStep job t depth x = .hold m va rec wr →
      (s.hwGo job t depth (n + 1) q (x :: xs)).held = s.held ++ [⟨job, t, depth, x :: xs, (s.tower t).now + 2500⟩])) ∧
  (∀ (s : State) (job : Nat) (t : TowerId) (depth : Nat) (va rec : DWord) (h : Hit), s.hwAt job t true 8 va = .at_ h →
    h.disc = false → let c := s.counterAt h.dpa
    (∀ n : Int, (s.addAt job t va n depth).mem = put s.mem h.dpa (c + n)) ∧
    (0 < c → ∃ u, s.hwStep job t depth (.done va rec) = .go u [] ∧ u.mem = put s.mem h.dpa (c - 1)) ∧
    (c ≤ 0 → ∃ u, s.hwStep job t depth (.done va rec) = .go u [] ∧ u.mem = s.mem ∧ under s u t job)) ∧
  (∀ (s : State) (job : Nat) (t : TowerId) (depth : Nat) (va rec : DWord) (h : Hit), s.hwAt job t true 16 va = .at_ h →
    h.disc = false → let c := s.counterAt h.dpa
    let a := s.read64 (h.dpa + 8)
    (0 < c → ∃ u, u.mem = put s.mem h.dpa (c - 1) ∧ s.hwStep job t depth (.block va rec) =
      .go u (if c = 1 ∧ a ≠ 0 then [.submit a va (dpaTower h.dpa)] else [])) ∧
    (c ≤ 0 → ∃ u, s.hwStep job t depth (.block va rec) = .go u [] ∧ u.mem = s.mem ∧ under s u t job)) ∧
  (∀ (s : State) (job : Nat) (t : TowerId) (depth n : Nat) (l : Launch), s.findLaunch n = some l →
    let l' := { l with retired := l.retired + 1 }
    let late : Prop := s.link.retraining = true ∧ dpaTower l.dpa ≠ l.tower
    (late → s.hwStep job t depth (.tile n) = .hold .link l.addr l.addr true) ∧
    (¬late → l.retired + 1 ≠ lnTiles l.image → s.hwStep job t depth (.tile n) = .go (s.putStatus l') []) ∧
    (¬late → l.retired + 1 = lnTiles l.image → ∃ u, (∀ x ∈ u.launches, x.id ≠ n) ∧
      (dpaTower (l.dpa + 120) = l.tower ∨ s.link.down = false ∧ s.link.retraining = false →
        s.hwDeny l.job l.tower true (l.dpa + 120) 8 = none →
        u.read64 (l.dpa + 120) = { l' with state := if s.launchReq l then 5 else 4 }.status) ∧
      s.hwStep job t depth (.tile n) = .go u
        ((if lnGraph l.image = 0 then [.job] else [.level (lnGraph l.image) l.addr 1]) ++
          if lnSucc l.image = 0 then [] else [.block (lnSucc l.image) l.addr]))) ∧
  (∀ (s : State) (job : Nat) (t : TowerId) (depth : Nat) (va rec : DWord) (h : Hit), ∀ kind ∈ [1, 2],
    s.hwAt job t true 64 va = .at_ h → h.disc = false → let c := s.counterAt h.dpa
    (1 < c → ∃ u, s.hwStep job t depth (.level va rec kind) = .go u [] ∧ u.mem = put s.mem h.dpa (c - 1)) ∧
    (c = 1 → ∃ u, (dpaTower (h.dpa + 32) = t ∨ s.link.down = false → s.hwDeny job t true (h.dpa + 32) 1 = none →
        u.recRetired h.dpa = true) ∧ u.counterAt h.dpa = 0 ∧
      s.hwStep job t depth (.level va rec kind) = .go u (.level (s.read64 (h.dpa + 16)) va (kind + 1) ::
        if s.read64 (h.dpa + 24) = 0 then [] else [.block (s.read64 (h.dpa + 24)) va]))) ∧
  (∀ (s : State) (job : Nat) (t : TowerId) (depth : Nat) (j : Job), s.findJob job = some j → s.jobFar job t = false →
    s.hwDeny job t true j.recAt 8 = none → let c := s.counterAt j.recAt
    (1 < c → ∃ u, s.hwStep job t depth .job = .go u [] ∧ u.mem = put s.mem j.recAt (c - 1) ∧ u.jobs = s.jobs) ∧
    (c = 1 → ∃ u more, s.hwStep job t depth .job = .go u more ∧ ∃ k ∈ u.jobs, k.id = job ∧ k.retired = true) ∧
    (c ≤ 0 → ∃ u, s.hwStep job t depth .job = .go u [] ∧ u.mem = s.mem ∧ under s u t job)) ∧
  (∀ (k : GroupKey) (s : State) (g : Group) (q : Fetch), s.findGroup k = some g → g.fetch = some q → q.pending = true → g.ended = false →
    ((∀ l, s.liveAt g.job q.launch = some l → s.launchReq l = true ∨ l.nextTile = none) → ∃ v : State, exec (.fetchwMailboxWrite k) s = .next v ∧ v.mem = s.mem ∧
      Mem.readNat (v.localMem g.unit) q.mailbox 8 = 2 ∧ ∀ i < 24, Mem.read (v.localMem g.unit) (q.mailbox + 8 + i) = 0) ∧
    (∀ l lin, s.liveAt g.job q.launch = some l → s.launchReq l = false → l.nextTile = some lin → s.linkHolds l = false →
      ∃ (v : State) (h : Group), exec (.fetchwMailboxWrite k) s = .next v ∧ Mem.readNat (v.localMem g.unit) q.mailbox 8 = 1 ∧
        Mem.readNat (v.localMem g.unit) (q.mailbox + 8) 8 =
          packBits [(0, 16, lin % lnGx l.image), (16, 16, lin / lnGx l.image % lnGy l.image), (32, 16, lin / (lnGx l.image * lnGy l.image))] ∧
        Mem.readNat (v.localMem g.unit) (q.mailbox + 16) 8 = launchBits l.image 8 63 0 ∧
        v.findGroup k = some h ∧ h.fetch = some { q with
          pending := false
          tile := some lin }))

/-- TRIGGER_CHANGE takes the oldest change: one without a live entry is dropped, one that is too deep, beyond the rate
or without room disables its entry, one that an open trigger covers joins its mask and depth, and any other opens a
trigger and accepts its task, or on a submission range keeps its slot. RATE_WINDOW brings time to the next multiple of
10 us. SUBMISSION_SLOT_SERVE frees the trigger of a slot and submits what its KIND names. HELD_USE_RETRY goes on with
the named use. DEADLINE_GUARD comes GUARD us before the deadline: where a waiting DSP unit fits nowhere it pre-empts
victims, lowest class, priority and latest placed first, until all fit or none is left, in host mode with a record
each; DEADLINE counts one miss for each DSP unit of its band that waits or is undealt, and steps on; PREEMPTTO records
a victim more than 4 us late. SECTOR_TRANSMIT carries the oldest sector of the job to the home image and needs a slot.
An Almanac commit applies; a transition and a rejoining copy end in their layer's state; a retraining holds the link,
its end serves what waited for it, and the fourth failure in succession leaves it down. A hot page that nothing holds
takes the frame the free queue gives, and the moved frame holds its bytes. THERMAL starts a step down by 100 MHz, not
below 0.8 GHz; LAYEROFF starts the way to off; GO is refused for mode 3, waits for a change in progress, and else
starts its mode's transitions, of a layer in one at that one's end, and then its clock step, whose end puts the clock
in force. Choices: how GO, LAYEROFF and THERMAL meet changes (log 53), what triggers do for the host and on slots (log
57), what DEADLINE and PREEMPTTO count (log 58), the next retraining at once (log 59), what a migration moves and
leaves alone (log 60), the victims of a pre-emption (log 100), the entry by which a change is judged (log 92), held
uses and waits on a link (logs 41, 42, 102), a read of a task (log 119) and of a denied slot (log 117). (R114, R116,
R141, R263, R268, R278, R279, R282, R284, R377, R421, R423) -/
def Obligations.DispatcherStackAndPowerSteps : Prop :=
  let tw (s : State) (t : TowerId) (f : Tower → Tower) : State := s.mapTower t f
  let off (v : State) (t : TowerId) (c : Change) : Prop :=
    ∃ e, (v.tower t).watch c.job c.entry = some e ∧ wBits e 15 1 1 = 1
  (∀ (t : TowerId) (s : State), (s.tower t).changes = [] → exec (.triggerChange t) s = .next s) ∧
  (∀ (t : TowerId) (s : State) (c : Change) (cs : List Change), (s.tower t).changes = c :: cs → s.changeWaits t c = true →
    exec (.triggerChange t) s = .next s) ∧
  (∀ (t : TowerId) (s : State) (c : Change) (cs : List Change), (s.tower t).changes = c :: cs → s.changeWaits t c = false →
    let s1 := tw s t fun w => { w.window with changes := cs }
    let x := s1.tower t
    ((∀ e, x.watch c.job c.entry = some e → wLive e = false) → exec (.triggerChange t) s = .next s1) ∧
    ∀ e, x.watch c.job c.entry = some e → wLive e = true →
      let op := x.triggers.find? fun r => r.isOpen && r.job = c.job && r.entry = c.entry && r.line = c.line
      (wDmax e < c.depth ∨ op = none ∧ (wRate e ≤ x.rated c.job c.entry ∨ 512 ≤ x.triggers.length) → ∃ v : State, exec (.triggerChange t) s = .next v ∧
        off v t c ∧ (v.tower t).triggers = x.triggers ∧ v.units = s.units ∧ v.mem = s.mem) ∧
      (c.depth ≤ wDmax e → ∀ r, op = some r → ∃ (v : State) (q : Trigger), exec (.triggerChange t) s = .next v ∧
        q ∈ (v.tower t).triggers ∧ q.num = r.num ∧ q.dirty = r.dirty ||| c.mask ∧ q.depth = max r.depth c.depth ∧
        q.isOpen = decide (r.changes + 1 < wCoal e) ∧ (v.tower t).triggers.length = x.triggers.length ∧ v.mem = s.mem) ∧
      (c.depth ≤ wDmax e → op = none → x.rated c.job c.entry < wRate e → x.triggers.length < 512 → wEntry e ≠ 0 →
        s1.jobOk c.job = true → s1.taskAddrBad c.job (triggerTask e c) = false → x.hostFn 1 = false → s.jobFar c.job t = false →
        ∃ (v : State) (u : WorkUnit), exec (.triggerChange t) s = .next v ∧ v.units = s.units ++ [u] ∧ u.job = c.job ∧
          u.trigger = some x.trigSeq ∧ u.src = 3 ∧ u.st = .held ∧
          (v.tower t).triggers = x.triggers ++ [⟨x.trigSeq, c.job, c.entry, c.line, c.mask, c.depth, 1, decide (1 < wCoal e), c.host, none⟩]) ∧
      (c.depth ≤ wDmax e → op = none → x.rated c.job c.entry < wRate e → x.triggers.length < 512 → wEntry e = 0 →
        ∃ v : State, exec (.triggerChange t) s = .next v ∧ v.units = s.units ∧ v.mem = s.mem ∧ (v.tower t).triggers =
          x.triggers ++ [⟨x.trigSeq, c.job, c.entry, c.line, c.mask, c.depth, 1, decide (1 < wCoal e), c.host, some (slotOf e c.line)⟩])) ∧
  (∀ (t : TowerId) (s : State), ∃ v : State, exec (.rateWindow t) s = .next v ∧ v.mem = s.mem ∧
    (v.tower t).now = ((s.tower t).now / 2500 + 1) * 2500 ∧ (v.tower t).rateWin = (s.tower t).now / 2500 + 1) ∧
  (∀ (t : TowerId) (s : State), ((s.tower t).triggers.find? fun r => r.slot.isSome) = none → exec (.submissionSlotServe t) s = .next s) ∧
  (∀ (t : TowerId) (s : State) (r : Trigger) (q : Bool × Nat × DWord), ((s.tower t).triggers.find? fun r => r.slot.isSome) = some r →
    r.slot = some q → s.slotFar t q = true → exec (.submissionSlotServe t) s = .next s) ∧
  (∀ (t : TowerId) (s : State) (r : Trigger) (q : Bool × Nat × DWord), ((s.tower t).triggers.find? fun r => r.slot.isSome) = some r →
    r.slot = some q → s.slotFar t q = false →
    let s1 := tw s t fun w => w.freeTrigger (some r.num)
    let s2 := if q.1 then s1 else (s1.walkEcc r.job t q.2.2).hwRead r.job t q.2.2 q.2.1 16
    let va : DWord := BitVec.ofNat 64 (s1.slotRead t q 0 8)
    let src := if r.host then 1 else 3
    let kind := if !q.1 && (s1.hwDeny r.job t false q.2.1 16).isSome then 0 else s1.slotRead t q 8 1
    (kind = 0 → exec (.submissionSlotServe t) s = .next s2) ∧
    (3 ≤ kind → exec (.submissionSlotServe t) s =
      .next ((s2.report t { cause := .taskbad, job := r.job, recAt := q.2.2, info := src }).slotDone t r.job q)) ∧
    (∀ h, kind = 1 → va.toNat % 64 = 0 → s2.hwAt r.job t false 64 va = .at_ h → h.disc = true → exec (.submissionSlotServe t) s =
      .next ((s2.report t { cause := .taskbad, job := r.job, recAt := va, info := src }).slotDone t r.job q)) ∧
    (∀ h u, kind = 1 → va.toNat % 64 = 0 → s2.hwAt r.job t false 64 va = .at_ h → h.disc = false →
      (s2.hwSee r.job t va h 64).submitTask r.job t va h.dpa (r.depth - 1) none src = .ok u →
      exec (.submissionSlotServe t) s = .next (u.slotDone t r.job q)) ∧
    (∀ h u, kind = 2 → va.toNat % 128 = 0 → s2.hwAt r.job t true 128 va = .at_ h →
      ((s2.hwSee r.job t va h 128).revive h).submitLaunch r.job t va h.dpa (r.depth - 1) none src = .ok u →
      exec (.submissionSlotServe t) s = .next (u.slotDone t r.job q))) ∧
  (∀ (n : Nat) (s : State), s.held.length ≤ n → exec (.heldUseRetry n) s = .next s) ∧
  (∀ (n : Nat) (s : State) (h : HeldUse), s.held[n]? = some h →
    exec (.heldUseRetry n) s = .next (State.hwGo h.job h.tower h.depth 64 true h.todo { s.until h.tower h.due with held := s.held.eraseIdx n })) ∧
  (∀ (t : TowerId) (s : State), ((s.tower t).dspOn = false → exec (.deadlineGuard t) s = .next s ∧ exec (.deadline t) s = .next s) ∧
    let guard := bits ((s.tower t).reg csrDspguard) 11 0
    (guard = 0 → exec (.deadlineGuard t) s = .next s) ∧
    ((s.tower t).dspOn = true → guard ≠ 0 →
      let s1 := s.until t ((s.tower t).bandTick (s.tower t).dspBand - 250 * guard)
      let ws := sortRank WorkUnit.rank (s1.units.filter fun u => u.waitsDsp t)
      let stuck := ws.filter fun u => (s1.somewhere t u).isNone
      (s.tower t).bandTick (s.tower t).dspBand - 250 * guard ≤ (s1.tower t).now ∧
      ((s.tower t).hostFn 4 = true → ∃ v : State, exec (.deadlineGuard t) s = .next v ∧ v.units = s.units ∧ v.groups = s.groups ∧
        v.mem = s.mem ∧ (v.tower t).seq = (s.tower t).seq + BitVec.ofNat 32 stuck.length) ∧
      ((s.tower t).hostFn 4 = false → (stuck = [] → exec (.deadlineGuard t) s = .next s1) ∧
        (stuck ≠ [] → exec (.deadlineGuard t) s = .next ((State.chosen t ws (s1.victims t) s1).foldl State.preempt s1))))) ∧
  (∀ (t : TowerId) (ws vs : List WorkUnit) (s : State), let c := State.chosen t ws vs s
    c <+: vs ∧ (State.allFit t ws (c.foldl State.asSaved s) = true ∨ c = vs) ∧
      ∀ p, p <+: c → p ≠ c → State.allFit t ws (p.foldl State.asSaved s) = false) ∧
  (∀ (t : TowerId) (s : State), (∀ u, u ∈ s.victims t ↔ u ∈ s.units ∧ u.tower = t ∧ u.st = .running ∧ u.cls < 3) ∧
    (s.victims t).Pairwise fun u v => u.cls * 8 + u.prio ≤ v.cls * 8 + v.prio ∧
      (u.cls * 8 + u.prio = v.cls * 8 + v.prio → u.placed < 2 ^ 64 → v.placed < 2 ^ 64 → v.placed ≤ u.placed)) ∧
  (∀ (s : State) (u : WorkUnit), (s.preempt u).mem = s.mem ∧ (s.preempt u).units = s.units ∧
    (∀ g ∈ (s.preempt u).allGroups, g.unit = u.id → g.ended = false → g.stop = true) ∧
    (∀ g ∈ s.allGroups, g.unit ≠ u.id → g ∈ (s.preempt u).allGroups) ∧
    bits (((s.preempt u).tower u.tower).reg csrPlacecnt) 31 16 = (bits ((s.tower u.tower).reg csrPlacecnt) 31 16 + 1) % 2 ^ 16) ∧
  (∀ (t : TowerId) (s : State), (s.tower t).dspOn = true →
    let undealt (l : Launch) : List Nat := ((List.range (lnTiles l.image - l.next)).map (l.next + ·)).filter fun n =>
      !l.taken.contains n && l.tileTower n = t
    let tiles := s.launches.filter fun l => lnClass l.image = 3 && (s.tower t).bandAfter l.since = (s.tower t).dspBand
    let late := s.units.filter fun u => u.tower = t && decide (u.cls = 3) && (u.st.isQueued || u.st = .saved || u.st = .held) &&
      (s.tower t).bandAfter u.since = (s.tower t).dspBand
    ∃ v : State, exec (.deadline t) s = .next v ∧ v.mem = s.mem ∧ v.units = s.units ∧ (v.tower t).dspBand = (s.tower t).dspBand + 1 ∧
      bits ((v.tower t).reg csrPlacecnt) 15 0 = (bits ((s.tower t).reg csrPlacecnt) 15 0 + late.length +
        (tiles.map fun l => (undealt l).length).sum) % 2 ^ 16) ∧
  (∀ (t : TowerId) (n : Nat) (s : State), (s.findUnit n = none → exec (.preemptto t n) s = .next s) ∧
    let tardy (g : Group) : Prop := g.tower = t ∧ g.stop = true ∧ g.ended = false ∧ ∃ d, g.stopAt = some d ∧ d + 1000 < (s.tower t).now
    (¬(∃ g ∈ s.allGroups, tardy g) → exec (.preemptto t n) s = .next s) ∧
    ∀ u, s.findUnit n = some u → u.waitsDsp t = true → (∃ g ∈ s.allGroups, tardy g) →
      ∃ v : State, exec (.preemptto t n) s = .next v ∧ v.mem = s.mem ∧ v.units = s.units ∧ (v.tower t).seq = (s.tower t).seq + 1 ∧
        (((s.tower t).recs.filter fun r => r.job = u.job).length < 32 → ∃ r ∈ (v.tower t).recs,
          r.job = u.job ∧ taskBits r.bits 0 5 0 = causeCode .preemptto ∧ taskBits r.bits 40 63 0 = u.recVa.toNat)) ∧
  (∀ (t : TowerId) (job : Nat) (s : State), (s.tower t).slotsOf job = 0 ∨ (∀ q ∈ (s.tower t).sectors, q.job ≠ job) →
    exec (.sectorTransmit t job) s = .next s) ∧
  (∀ (t : TowerId) (job : Nat) (s : State) (q : Sector), ((s.tower t).sectors.find? fun q => q.job = job) = some q →
    (s.tower t).slotsOf job ≠ 0 → (s.tower t).rejoin = [] →
    (q.max = false → q.final (s.tower t).bcast = q.bytes) ∧
    ∃ v : State, exec (.sectorTransmit t job) s = .next v ∧ v.mem = s.mem ∧
      (v.tower t).bcast = (q.final (s.tower t).bcast).foldl (fun m (b : Nat × Byte) => Mem.write m b.1 b.2) (s.tower t).bcast ∧
      (v.tower t).sectors = ((s.tower t).sectors.eraseP fun x => x.job = job) ∧
      (∀ n e, q.watch = some (n, some e) → (v.tower t).watch job n = some e) ∧
      (∀ n e, q.watch = some (n, none) → (v.tower t).watch job n = some e → wBits e 15 0 0 = 0)) ∧
  (∀ (t : TowerId) (s : State), ((s.tower t).almNext = none → exec (.almanacCommitApply t) s = .next (s.mapTower t id)) ∧
    ∀ im, (s.tower t).almNext = some im → (s.tower t).commitWaits im = false →
      exec (.almanacCommitApply t) s = .next (tw s t fun w => { w with almanac := im, almNext := none })) ∧
  (∀ (t : TowerId) (l : LayerId) (s : State), s.transReady t l.val = false → exec (.layerTransitionDone t l) s = .next s) ∧
  (∀ (t : TowerId) (l : LayerId) (s : State), (s.tower t).layers.length = 8 → s.powerNow = none →
    ((s.tower t).layer l.val = ⟨.doze, some .awake, none⟩ → ∃ v : State, exec (.layerTransitionDone t l) s = .next v ∧
      (v.tower t).layer l.val = ⟨.awake, none, none⟩ ∧ v.mem = s.mem ∧ v.units = s.units) ∧
    ((s.tower t).layer l.val = ⟨.awake, some .doze, none⟩ → (∀ u ∈ s.units, u.tower = t → u.st.holds = true → u.layer ≠ l.val) →
      ∃ v : State, exec (.layerTransitionDone t l) s = .next v ∧ (v.tower t).layer l.val = ⟨.doze, none, none⟩ ∧ v.mem = s.mem ∧
        v.units = s.units) ∧
    ((s.tower t).layer l.val = ⟨.doze, some .off, none⟩ → s.poolUsed t ≤ (s.tower t).pool →
      ∃ v : State, exec (.layerTransitionDone t l) s = .next v ∧ (v.tower t).layer l.val = ⟨.off, none, none⟩ ∧ v.mem = s.mem ∧
        v.units = s.units ∧ (∀ e ∈ (v.tower t).damask, e.1 / 131072 % 8 ≠ l.val) ∧ (∀ p ∈ (v.tower t).pins, p.1 ≠ l.val) ∧
        ∀ c ∈ (v.tower t).bstore, c.1 / 2 ^ 20 / 16 ≠ l.val) ∧
    ((s.tower t).layer l.val = ⟨.off, some .doze, none⟩ → ((s.tower t).rejoin.any fun r => r.layer = l.val) = true →
      ∃ v : State, exec (.rejoinDone t l) s = .next v ∧ (v.tower t).layer l.val = ⟨.doze, none, none⟩ ∧
        (∀ r ∈ (v.tower t).rejoin, r.layer ≠ l.val) ∧ v.mem = s.mem)) ∧
  (∀ (t : TowerId) (l : LayerId) (s : State), ((s.tower t).rejoin.any fun r => r.layer = l.val) = false →
    exec (.rejoinDone t l) s = .next s) ∧
  (∀ s : State, (s.link.down = true → exec .linkRetrain s = .next s) ∧
    (s.link.down = false → exec .linkRetrain s = .next { s with link := { s.link with retraining := true } }) ∧
    (s.link.retraining = false → ∀ ok, exec (.linkRetrainEnd ok) s = .next s) ∧
    let again (k : Bool × Nat × Bool) : State := { s with link := ⟨k.1, k.2.1, k.2.2⟩, held := retryNow (fun _ => true) s.held }
    (s.link.retraining = true → exec (.linkRetrainEnd true) s = .next (again (false, 0, false)).serveWaiting ∧
      (s.link.failures < 3 → exec (.linkRetrainEnd false) s = .next { s with link := { s.link with failures := s.link.failures + 1 } }) ∧
      (3 ≤ s.link.failures → let d := (again (false, s.link.failures + 1, true)).serveWaiting
        exec (.linkRetrainEnd false) s = .next (((d.jobsIn 0).filter fun j => (d.jobsIn 1).contains j).foldl (fun s j =>
          (s.report 0 { cause := .towerdown, job := j }).report 1 { cause := .towerdown, job := j }) d))) ∧
    ((∀ w ∈ s.allWaves, ∀ d va p m o is sc st, w.wait ≠ .queue d va p m o is sc st) → s.serveWaiting = s)) ∧
  (∀ (job : Nat) (va : DWord) (s : State), (bits (s.tower0.reg csrMigctl) 15 0 = 0 ∧ bits (s.tower1.reg csrMigctl) 15 0 = 0) ∨
    s.link.down = true ∨ s.link.retraining = true → exec (.pageMigration job va) s = .next s) ∧
  (∀ (job : Nat) (va : DWord) (s u : State) (h : Hit) (f : DWord) (fs : List DWord) (t0 n : Nat),
    walk s.mem (s.rootOf job) va = .ok h → h.lvl = 0 → s.link = ⟨false, s.link.failures, false⟩ →
    let old := h.dpa / 2 ^ 16 * 2 ^ 16
    let t := dpaTower old
    let far := otherTower t
    let thr := bits ((s.tower t).reg csrMigctl) 15 0
    thr ≠ 0 → Table.find s.remote (old / 2 ^ 16) = some (t0, n) → thr ≤ n → (s.tower t).now < t0 + 25000 → s.migHeld t job h old = false →
    (s.tower t).hostFn 6 = false → dpaOk ((s.tower far).migQueue csrMigfreeq) = true → dpaOk ((s.tower t).migQueue csrMigrelq) = true →
    s.hwQueue (migHome far) ((s.tower far).migQueue csrMigfreeq) false [] 1 [] = some (u, f :: fs) →
    f.toNat % 2 ^ 16 = 0 → dpaOk f.toNat = true → dpaTower f.toNat = far →
    exec (.pageMigration job va) s = .next ((u.migrate job va h old f.toNat).getD s)) ∧
  (∀ (s : State) (a b x : Nat), Mem.read (s.moveFrame a b).mem x =
    if b ≤ x ∧ x < b + 2 ^ 16 then Mem.read s.mem (x - b + a) else Mem.read s.mem x) ∧
  (∀ s : State, (s.clockStop = false → exec .clockStepEnd s = .next s) ∧
    (s.clockStop = true → ∃ v : State, exec .clockStepEnd s = .next v ∧ v.clkNow = s.clkGoal % 2 ^ 11 ∧
      (s.powerNow = none → v.powerNow = none ∧ v.clockStop = false ∧ v.mem = s.mem) ∧
      ∀ m, s.powerNow = some m → s.powerNext = [] → s.anyBusy = false →
        let goal := if s.hot then min (modeClk m) (s.clkGoal % 2 ^ 11) else modeClk m
        v.mem = s.mem ∧ (s.clkGoal % 2 ^ 11 = goal → v.powerNow = none ∧ v.clockStop = false) ∧
          (s.clkGoal % 2 ^ 11 ≠ goal → v.powerNow = some m ∧ v.clockStop = true ∧ v.clkGoal = goal))) ∧
  (∀ s : State, let c := if s.clockStop then min s.clkNow s.clkGoal else s.clkNow
    ∃ v : State, exec .thermal s = .next v ∧ v.mem = s.mem ∧ v.clkNow = s.clkNow ∧ v.clockStop = true ∧ v.hot = true ∧
      v.clkGoal = (if c < 90 then 80 else c - 10) ∧
      ∀ t, (v.tower t).seq = (s.tower t).seq + BitVec.ofNat 32 s.liveJobs.length) ∧
  (∀ (t : TowerId) (l : LayerId) (s : State), (s.tower t).layers.length = 8 → (s.tower t).layer l.val = ⟨.awake, none, none⟩ →
    ∃ v : State, exec (.layeroff t l) s = .next v ∧ (v.tower t).layer l.val = ⟨.awake, some .doze, some .off⟩) ∧
  (∀ (t : TowerId) (x : Word) (s : State),
    (x &&& 3 = 3 → exec (.pwrctlGo t x) s = .next (tw s 0 fun w => w.setBits csrPwrctl 5 5 1)) ∧
    (x &&& 3 ≠ 3 → ∀ m, s.powerNow = some m → ∃ v : State, exec (.pwrctlGo t x) s = .next v ∧ v.powerNow = some m ∧
      v.powerNext = s.powerNext ++ [(x.setWidth 2, x.getLsbD 2)] ∧ bits (v.tower0.reg csrPwrctl) 2 0 = bits x 2 0 ∧ v.mem = s.mem)) ∧
  (∀ (t : TowerId) (x : Word) (s : State), x &&& 3 ≠ 3 → s.powerNow = none → (∀ k, (s.tower k).layers.length = 8) →
    let m : BitVec 2 := x.setWidth 2
    let goal (l : Nat) : LayerSt := if l < modeLayers m then .awake else if x.getLsbD 2 then .off else .doze
    let st (k : TowerId) (l : Nat) : LayerSt := ((s.tower k).layer l).st
    ∃ v : State, exec (.pwrctlGo t x) s = .next v ∧ bits (v.tower0.reg csrPwrctl) 2 0 = bits x 2 0 ∧ v.hot = false ∧
      (∀ k, ∀ l < 8, (v.tower k).layer l = if (s.tower k).busy l then { (s.tower k).layer l with after := some (goal l) }
        else if st k l = goal l then (s.tower k).layer l
        else ⟨st k l, some (nextSt (st k l) (goal l)), if nextSt (st k l) (goal l) = goal l then none else some (goal l)⟩) ∧
      ((∃ k, ∃ l < 8, (s.tower k).busy l = true ∨ st k l ≠ goal l) ∨ s.clockStop = true → v.powerNow = some m ∧ v.clockStop = s.clockStop ∧ v.clkGoal = s.clkGoal) ∧
      ((∀ k, ∀ l < 8, (s.tower k).busy l = false ∧ st k l = goal l) → s.clockStop = false →
        (s.clkNow = modeClk m → v.powerNow = none ∧ v.clockStop = false) ∧
        (s.clkNow ≠ modeClk m → v.powerNow = some m ∧ v.clockStop = true ∧ v.clkGoal = modeClk m)))

/-- While EN is clear no sweep starts and no block leaves. A sweep start numbers the sweep, takes the pending register
writes and its start tick; the counts of a sweep with weights sum to its number of draws. A block that a Lantern
may emit leaves the list and becomes a queued sample task with its positions; an item that POP takes goes the same
way. LINE_LIT moves past a line that is due. The panel link is lost and found; the memory clock stalls, takes the
armed rate, and goes on, and ARM names the line. LNTCTL with EN on bad registers sets its error bit alone; display
registers change while EN is clear; DMKCTL without EN empties Damask. An uncorrectable error poisons the line that
it strikes, or the saved image, or traps the running wave; a corrected one is counted. MACHINE ends every group of
its core, and HOSTERR, HOST_ASSIST_TIMEOUT and FWFAULT leave one record for each live job. A record is pushed when
its queue takes it. A write of a display register while EN is set, or one that sets EN while RP is below 500, is
refused: REJ is set and nothing else changes; an accepted one clears REJ. The model's choices are: the places that
ECC codes 5 and 6 name (log 71), the records of MACHINE and HOST_ASSIST_TIMEOUT (log 67), the Lantern's snapshot
and its reads and drops (log 54), and the display while the panel link is down and the memory clock's stall (log
70). (R330, R331, R333, R335, R337, R359, R375, R377, R390, R392, 15_retirement_and_display.md) -/
def Obligations.LanternDisplayAndErrorSteps : Prop :=
  let tw (s : State) (t : TowerId) (f : Tower → Tower) : State := s.mapTower t f
  (∀ (t : TowerId) (s : State), (s.tower t).lntOn = false → exec (.lanternSweepStart t) s = .next s ∧ exec (.lanternEmitBlock t) s = .next s ∧
    ∀ l, exec (.lanternPopItem t l) s = .next s) ∧
  (∀ (t : TowerId) (s : State), (s.tower t).lntOn = true → ∃ v : State, exec (.lanternSweepStart t) s = .next v ∧ v.mem = s.mem ∧
    (v.tower t).sweep = (if (s.tower t).sweeping then (s.tower t).sweep + 1 else 0) ∧ (v.tower t).sweepAt = (s.tower t).nextSweep ∧
    (v.tower t).sweeping = true ∧ (v.tower t).lntNext = [] ∧ (s.tower t).nextSweep ≤ (v.tower t).now) ∧
  (∀ (t : Tower) (s : Word), t.weights.sum ≠ 0 → ((t.counts s).map Prod.snd).sum = bits (t.reg csrLntswp) 31 10) ∧
  (∀ (t : TowerId) (s : State), s.link.retraining = true → s.jobFar (s.tower t).lntJob t = true →
    exec (.lanternEmitBlock t) s = .next s ∧ ∀ l, exec (.lanternPopItem t l) s = .next s) ∧
  (∀ (t : TowerId) (s : State) (l b : Nat) (pos : List (BitVec 16 × BitVec 16 × Word)), (s.tower t).lntOn = true →
    (s.tower t).sweeping = true → (s.link.retraining = false ∨ s.jobFar (s.tower t).lntJob t = false) → s.nextBlock t = some (l, b, pos) →
    let s1 := tw s t fun w => { w with draws := w.draws.filter fun d => d.1 ≠ b }
    exec (.lanternEmitBlock t) s = .next (s1.emitBlock t l b (s.tower t).sweep pos)) ∧
  (∀ (s : State) (t : TowerId) (l x y : Nat) (pos : List (BitVec 16 × BitVec 16 × Word)),
    let w := s.tower t
    let a := s.acceptTask w.lntJob t (w.sampleTask x y pos.length) 0 0 4 none pos
    s.jobOk w.lntJob = true → s.jobFar w.lntJob t = false → (∀ u, a.1.findUnit a.2 = some u → a.1.unitReq u = false ∧ u.placeable = true) →
    ∃ u ∈ (s.emitBlock t l x y pos).units, u.src = 4 ∧ u.posblk = pos ∧ u.st = .queued l none ∧ u.layer = l ∧ u.job = w.lntJob) ∧
  (∀ (t : TowerId) (l : LayerId) (s : State) (h : Hit), (s.tower t).lntOn = true → (s.tower t).hostFn 3 = true →
    s.emitRoom t l.val = true → (s.link.retraining = false ∨ s.jobFar (s.tower t).lntJob t = false) →
    s.hwAt (s.tower t).lntJob t true 64 ((s.tower t).reg2 csrLnthq) = .at_ h →
    (h.disc = true → exec (.lanternPopItem t l) s = .next s) ∧
    (h.disc = false → h.mtype ≠ 1 → h.dpa % 64 = 0 → ∀ (u : State) (item : DWord),
      (s.hwReach (s.tower t).lntJob t ((s.tower t).reg2 csrLnthq) h).hwQueue ⟨(s.tower t).lntJob, dpaTower h.dpa, false⟩ h.dpa
        false [] 1 [] = some (u, [item]) →
      exec (.lanternPopItem t l) s = .next ((u.popBlock t l.val item).getD s))) ∧
  (∀ (t : TowerId) (s : State), ((s.tower t).dspOn = false → exec (.lineLit t) s = .next s) ∧
    ((s.tower t).dspOn = true → (s.tower t).dspRp ≠ 0 → ∃ v : State, exec (.lineLit t) s = .next v ∧ v.mem = s.mem ∧
      (s.tower t).dspNext < (v.tower t).dspNext)) ∧
  (∀ (t : TowerId) (s : State), ((s.tower t).panelLock = false → exec (.panelLockLoss t) s = .next s) ∧
    ((s.tower t).panelLock = true → ∃ v : State, exec (.panelLockLoss t) s = .next v ∧ (v.tower t).panelLock = false ∧ v.mem = s.mem) ∧
    ∃ v : State, exec (.panelLockReturn t) s = .next v ∧ (v.tower t).panelLock = true ∧ v.mem = s.mem) ∧
  (∀ (t : TowerId) (s : State), ((s.tower t).armLine = none → exec (.memclkChange t) s = .next s) ∧
    (∀ m, (s.tower t).armLine = some m → ∃ v : State, exec (.memclkChange t) s = .next v ∧ (v.tower t).memStall = true ∧
      (v.tower t).memRate = (s.tower t).armRate ∧ (v.tower t).armLine = none ∧ v.mem = s.mem ∧
      ((s.tower t).dspOn = true → (s.tower t).lineTick m ≤ (v.tower t).now)) ∧
    exec (.memclkStallEnd t) s = .next (tw s t fun w => { w with memStall := false })) ∧
  (∀ (t : TowerId) (x : Word) (s : State), ∃ v : State, exec (.memclkArm t x) s = .next v ∧ v.mem = s.mem ∧
    (v.tower t).armRate = x.setWidth 2 ∧ (v.tower t).reg csrMemclk = x &&& 3 ∧
    let w := s.tower t
    (v.tower t).armLine = some (if w.dspOn = true ∧ w.dspLine < w.lineNamed (w.reg csrMemline) then w.lineNamed (w.reg csrMemline)
      else w.dspLine + 1)) ∧
  (∀ (t : TowerId) (x : Word) (s : State),
    let bad : Prop := x.getLsbD 0 = true ∧ (s.tower t).lntOn = false ∧ (s.tower t).lntBad = true
    (bad → exec (.lntctlWrite t x) s = .next (tw s t fun w => w.setBits csrLntctl 1 1 1)) ∧
    (¬bad → ∃ v : State, exec (.lntctlWrite t x) s = .next v ∧ (v.tower t).reg csrLntctl = x &&& 0x007FFF01 ∧ v.mem = s.mem)) ∧
  (∀ (t : TowerId) (n : BitVec 12) (x : Word) (s : State), (n.toNat < 0x370 ∨ 0x373 < n.toNat → exec (.dspctlWrite t n x) s = .next s) ∧
    (n.toNat ∈ [0x371, 0x372, 0x373] → (s.tower t).dspOn = true → ∃ v : State, exec (.dspctlWrite t n x) s = .next v ∧
      (v.tower t).reg n.toNat = (s.tower t).reg n.toNat ∧ bits ((v.tower t).reg csrDspctl) 1 1 = 1 ∧ (v.tower t).dspOn = true ∧
      v.mem = s.mem) ∧
    (n = 0x370 → x.getLsbD 0 = true → (s.tower t).dspRp < 500 → ∃ v : State, exec (.dspctlWrite t n x) s = .next v ∧
      bits ((v.tower t).reg csrDspctl) 1 1 = 1 ∧ (v.tower t).dspOn = (s.tower t).dspOn ∧
      bits ((v.tower t).reg csrDspctl) 31 2 = bits ((s.tower t).reg csrDspctl) 31 2 ∧ v.mem = s.mem) ∧
    (n = 0x370 → x.getLsbD 0 = false ∨ 500 ≤ (s.tower t).dspRp → ∃ v : State, exec (.dspctlWrite t n x) s = .next v ∧
      (v.tower t).reg csrDspctl = x &&& 0x000FFF01 ∧ v.mem = s.mem ∧
      (x.getLsbD 0 = true → (s.tower t).dspOn = false → (v.tower t).dspNext = (s.tower t).dspLine + 1 ∧ (v.tower t).pixels = [])) ∧
    (n.toNat ∈ [0x371, 0x372, 0x373] → (s.tower t).dspOn = false → ∃ v : State, exec (.dspctlWrite t n x) s = .next v ∧
      (v.tower t).reg n.toNat = (if n.toNat = 0x371 then x &&& 0xFFFF else x) ∧
      bits ((v.tower t).reg csrDspctl) 1 1 = 0 ∧ v.mem = s.mem)) ∧
  (∀ (t : TowerId) (x : Word) (s : State), ∃ v : State, exec (.dmkctlWrite t x) s = .next v ∧ (v.tower t).reg csrDmkctl = x &&& 0x000FFF01 ∧
    v.mem = s.mem ∧ (x.getLsbD 0 = false → (v.tower t).damask = [])) ∧
  (∀ (k : WaveKey) (a : DWord) (s : State), exec (.eccUncorrectable 0 k a) s = .next s ∧
    (∀ c : Fin 9, (c = 4 ∨ c = 8) → dpaOk a.toNat = true → ∃ v : State, exec (.eccUncorrectable c k a) s = .next v ∧ v.mem = s.mem ∧
      v.poisoned a.toNat 1 = some c.val) ∧
    (∃ v : State, exec (.eccUncorrectable 5 k a) s = .next v ∧ v.mem = s.mem ∧
      Table.find v.poison (bPoison (dpaTower a.toNat) 0 (a.toNat % 2 ^ 27)) = some 5) ∧
    (∃ v : State, exec (.eccUncorrectable 6 k a) s = .next v ∧ v.mem = s.mem ∧
      Table.find v.poison (dmkPoison (dpaTower a.toNat) 0 (a.toNat % 2 ^ 23)) = some 6) ∧
    (∃ v : State, exec (.eccUncorrectable 7 k a) s = .next v ∧ v.mem = s.mem ∧
      ∀ g ∈ v.allGroups, g.key = ⟨k.job, k.gid⟩ → g.resident = false → g.imgBad = some (.eccsram, a)) ∧
    (∀ c : Fin 9, (c = 1 ∨ c = 2 ∨ c = 3) → k = s.wave.key → s.wave.inRun = true → s.wave.tvec ≠ 0 → s.wave.inh = false → s.wave.live ≠ 0 →
      s.wave.alive = true → s.group.kill = false → ∃ v : State, exec (.eccUncorrectable c k a) s = .next v ∧ v.wave.pc = s.wave.tvec ∧
        v.wave.cause = 0x1B ∧ v.wave.inRun = false ∧ v.wave.inh = true ∧ v.wave.taddr = a ∧ v.mem = s.mem)) ∧
  (∀ (t : TowerId) (s : State), exec (.eccCorrected t) s = .next (tw s t fun w => w.count csrFltcnt 16 1)) ∧
  (∀ (p : Place) (s : State), (s.onCore p = [] → exec (.machine p) s = .next s) ∧
    ∃ v : State, exec (.machine p) s = .next v ∧ ∀ g ∈ s.onCore p, ∀ x ∈ v.allGroups, x.key = g.key → x.kill = true) ∧
  (∀ i ∈ ([.hosterr, .hostAssistTimeout, .fwfault] : List (TowerId → Instr)), ∀ (t : TowerId) (s : State), ∃ v : State,
    exec (i t) s = .next v ∧ v.mem = s.mem ∧ (v.tower t).seq = (s.tower t).seq + BitVec.ofNat 32 s.liveJobs.length) ∧
  (∀ (t : TowerId) (job : Nat) (s : State), ((∀ r ∈ (s.tower t).recs, r.job ≠ job) → exec (.faultRecordPush t job) s = .next s) ∧
    (∀ r rs u, (s.tower t).firstRecs job = r :: rs → s.pushRec t r = some u → exec (.faultRecordPush t job) s = .next u) ∧
    ((s.tower t).recs = [] → exec (.hwqueueRetry t) s = .next s) ∧
    ((s.tower t).recs ≠ [] → (∀ r ∈ (s.tower t).recs, r.job = job) → exec (.hwqueueRetry t) s = exec (.faultRecordPush t job) s))

/-- While the link retrains a host access to the other tower's memory is kept, and nothing else happens. Else a host
read changes no memory; a host write that its port grants stores its bytes and no others, and a host atomic the
number that its operation gives; a denied one, or one that a link cut off, changes no memory. A write of the
register window reaches the control register of its offset, or the command that the offset names, and a stored
register takes its writable bits. FNMODE without a record queue is refused; CLSWAY beyond 24 ways is refused; a
commit of a bad shadow is refused and of a good one waits; JCTL changes the word of the live job that JOBSEL
selects. HTCOUNT for no live launch changes nothing. ATTCTL prepares 224 bytes, the report's body first, with BUSY
set, and is ignored while it is set; their write to ATTOUT clears it. A command on no live wave, or an abort of
one with nothing parked, answers 0; an abort of a parked wave ends its group, and TLBINV empties the translation
registers of its job's groups. GO of tower 0 verifies the image and sends it to tower 1, or STATE is 4 with the
error; the check of tower 1, of the image that it received, starts the firmware of both at its ENTRY, or leaves
error. Power-on gives the reset state with the fuses as they are. The model's choices: host accesses kept
during a retraining (log 102), GO in tower 1's window and STATE of tower 0 after a failure of tower 1 (log 68),
HTLNCH naming the oldest launch at its address (log 67), the report's layout and moment (log 69), a W1S bit reads 0
(log 106), the host's atomic codes and masters (log 66), memory after power-on (log 1), a commit over a pending one
(log 124). Whether an image verifies is an uninterpreted constant (log 11). (R133, R263, R351,
R412, R413, R414, R416, R417, R418, R419, 20_host_boot_power.md) -/
def Obligations.HostBootAndRegisterSteps : Prop :=
  let tw (s : State) (t : TowerId) (f : Tower → Tower) : State := s.mapTower t f
  (∀ (t : TowerId) (a : DWord) (s : State), s.hostWaits t a = true →
    (∀ n, exec (.hostRead t a n) s = .next { s with hostHeld := s.hostHeld ++ [.hostRead t a n] }) ∧
    (∀ bs rel, exec (.hostWrite t a bs rel) s = .next { s with hostHeld := s.hostHeld ++ [.hostWrite t a bs rel] }) ∧
    ∀ wide op x, exec (.hostAtomic t a wide op x) s = .next { s with hostHeld := s.hostHeld ++ [.hostAtomic t a wide op x] }) ∧
  (∀ (t : TowerId) (a : DWord) (s : State), s.hostWaits t a = false → s.hostCut t a = true →
    (∀ bs rel, exec (.hostWrite t a bs rel) s = .next { s with hostHeld := s.hostHeld.erase (.hostWrite t a bs rel) }) ∧
    ∀ wide op x, exec (.hostAtomic t a wide op x) s = .next { s with hostHeld := s.hostHeld.erase (.hostAtomic t a wide op x) }) ∧
  (∀ (t : TowerId) (a : DWord) (n : Nat) (s : State), ∃ v : State, exec (.hostRead t a n) s = .next v ∧ v.mem = s.mem ∧ v.locals = s.locals ∧
    v.wave = s.wave ∧ (s.hostWaits t a = false → s.hostOk t a.toNat n true false false = true → s.poisoned a.toNat n = none →
      v = { s with hostHeld := s.hostHeld.erase (.hostRead t a n) })) ∧
  (∀ (t : TowerId) (a : DWord) (bs : List Byte) (rel : Bool) (s : State), bs ≠ [] → s.hostWaits t a = false → s.hostCut t a = false →
    ∃ v : State, exec (.hostWrite t a bs rel) s = .next v ∧ v.wave = s.wave ∧
      v.mem = if s.hostOk t a.toNat bs.length false true false then Mem.writeBytes s.mem a.toNat bs else s.mem) ∧
  (∀ (t : TowerId) (a : DWord) (wide : Bool) (op : BitVec 4) (x : DWord) (s : State), s.hostWaits t a = false → s.hostCut t a = false →
    let n := if wide then 8 else 4
    s.poisoned a.toNat n = none → ∃ v : State, exec (.hostAtomic t a wide op x) s = .next v ∧ v.wave = s.wave ∧
      v.mem = if s.hostOk t a.toNat n true true true then
          Mem.writeBytes s.mem a.toNat (Mem.bytes (atomNew (if wide then 1 else 0) op.toNat (Mem.readNat s.mem a.toNat n) x.toNat) n)
        else s.mem) ∧
  (∀ (t : TowerId) (o : BitVec 16) (x : Word) (s : State),
    (o.toNat % 4 ≠ 0 ∨ o.toNat < 0x400 → exec (.registerWrite t o x) s = .next s) ∧
    (o.toNat % 4 = 0 → 0x400 ≤ o.toNat → o.toNat < 0x4000 → exec (.registerWrite t o x) s = .next (s.csrWrite t (o.toNat / 4) x)) ∧
    (o = 0x400C → exec (.registerWrite t o x) s = if x.getLsbD 0 then exec (.hbootgo t) s else .next s) ∧
    (o = 0x401C → exec (.registerWrite t o x) s = exec (.fnmodeWrite t x) s) ∧
    (o = 0x4034 → exec (.registerWrite t o x) s = exec (.htcountWrite t x) s) ∧
    (o = 0x406C → exec (.registerWrite t o x) s = if x.getLsbD 0 then exec (.attctlGo t) s else .next s) ∧
    (o = 0x4018 → (bits x 1 0 = 1 → exec (.registerWrite t o x) s = exec (.hwcmdResume t) s) ∧
      (bits x 1 0 = 2 → exec (.registerWrite t o x) s = exec (.hwcmdAbort t) s) ∧
      (bits x 1 0 = 3 → exec (.registerWrite t o x) s = exec (.hwcmdTlbinv t) s)) ∧
    (winMask o.toNat ≠ 0 → o.toNat % 4 = 0 → ∃ v : State, exec (.registerWrite t o x) s = .next v ∧
      (v.tower t).win o.toNat = x &&& winMask o.toNat ∧ v.mem = s.mem)) ∧
  (∀ (t : TowerId) (x : Word) (s : State),
    let w := s.tower t
    (x &&& 0x7F ≠ 0 ∧ w.hrecq = 0 → exec (.fnmodeWrite t x) s = .next (tw s t fun w => w.setBits csrFnmode 31 31 1)) ∧
    (x &&& 0x7F = 0 ∨ w.hrecq ≠ 0 → ∃ v : State, exec (.fnmodeWrite t x) s = .next v ∧ (v.tower t).reg csrFnmode = x &&& 0x7F) ∧
    let ways := bits x 4 0 + bits x 9 5 + bits x 14 10 + bits x 19 15 + bits x 24 20
    (24 < ways → exec (.clswayWrite t x) s = .next (tw s t fun w => w.setBits csrClsway 31 31 1)) ∧
    (ways ≤ 24 → ∃ v : State, exec (.clswayWrite t x) s = .next v ∧ (v.tower t).reg csrClsway = x &&& 0x01FFFFFF)) ∧
  (∀ (t : TowerId) (s : State), ∃ v : State, exec (.almctlCommit t) s = .next v ∧ v.mem = s.mem ∧ (v.tower t).almanac = (s.tower t).almanac ∧
    (almOk (s.tower t).shadow = true → (v.tower t).almNext = some (s.tower t).shadow ∧ bits ((v.tower t).reg csrAlmctl) 2 2 = 0) ∧
    (almOk (s.tower t).shadow = false → (v.tower t).almNext = (s.tower t).almNext ∧ bits ((v.tower t).reg csrAlmctl) 2 2 = 1)) ∧
  (∀ (t : TowerId) (hi : Bool) (x : Word) (s : State), (s.selJob t = none → exec (.jctlWrite t hi x) s = .next s) ∧
    ∀ j, s.selJob t = some j → ∃ v : State, exec (.jctlWrite t hi x) s = .next v ∧ v.wave = s.wave ∧
      ∀ k ∈ v.jobs, k.id = j.id → ∃ k0 ∈ s.jobs, k0.id = j.id ∧
        k.jctl0 = setHalf k0.jctl0 hi (x &&& if hi then 0x03FFFFFF else 0xFFFF0FFF) ∧
        k.jctl1 = setHalf k0.jctl1 hi (x &&& if hi then 0x03FFFFFF else 0xFFFF0FFF)) ∧
  (∀ (t : TowerId) (x : Word) (s : State),
    ((∀ l ∈ s.launches, l.addr ≠ (s.tower t).win64 0x4028) → exec (.htcountWrite t x) s = .next s) ∧
    ∀ l, (s.launches.find? fun l => l.addr = (s.tower t).win64 0x4028) = some l → (l.state = 1 ∨ l.state = 2) →
      let ls := (List.range (bits x 27 0)).map (((s.tower t).win 0x4030).toNat + ·)
      (∀ i ∈ ls, l.next ≤ i ∧ i ∉ l.taken) → ((s.tower t).win 0x4030).toNat + bits x 27 0 ≤ lnTiles l.image →
      exec (.htcountWrite t x) s = .next (ls.foldl (State.hostTile t l.id) s)) ∧
  (∀ (t : TowerId) (s : State),
    let d := ((s.tower t).win64 0x4064).toNat
    ((s.tower t).att ≠ none ∨ dpaOk d = false ∨ d % 256 ≠ 0 → exec (.attctlGo t) s = .next s) ∧
    ((s.tower t).att = none → dpaOk d = true → d % 256 = 0 → ∃ (v : State) (sig : List Byte), exec (.attctlGo t) s = .next v ∧
      sig.length = 64 ∧ (v.tower t).att = some (d, (s.attestEcc t).reportBody t ++ sig) ∧ v.winRead t 0x406C = 2 ∧ v.mem = s.mem) ∧
    ∀ a bs, (s.tower t).att = some (a, bs) → bs ≠ [] → ∃ v : State, s.reportDone t = some v ∧ v.mem = Mem.writeBytes s.mem a bs ∧
      v.winRead t 0x406C = 0) ∧
  (∀ (t : TowerId) (s : State), (s.reportBody t).length = 160) ∧
  (∀ (t : TowerId) (s : State),
    (s.tagged ((s.tower t).win 0x4010).toNat ((s.tower t).win 0x4014) = none → ∀ i ∈ ([.hwcmdResume, .hwcmdAbort] : List (TowerId → Instr)),
      ∃ v : State, exec (i t) s = .next v ∧ v.winRead t 0x4018 = 0x100 ∧ v.mem = s.mem ∧ v.wave = s.wave) ∧
    (∀ w, s.tagged ((s.tower t).win 0x4010).toNat ((s.tower t).win 0x4014) = some w → w.isParked = true →
      ∃ v : State, exec (.hwcmdResume t) s = .next v ∧ v.winRead t 0x4018 = 0x300 ∧ v.mem = s.mem ∧
        ∀ x ∈ v.allWaves, x.key = w.key → x.isParked = false) ∧
    (∀ w, s.tagged ((s.tower t).win 0x4010).toNat ((s.tower t).win 0x4014) = some w →
      (w.parkedOn = none → ∃ v : State, exec (.hwcmdAbort t) s = .next v ∧ v.winRead t 0x4018 = 0x100 ∧ v.waves = s.waves ∧
        v.groups = s.groups ∧ v.wave = s.wave ∧ v.group = s.group ∧ v.mem = s.mem) ∧
      (w.parkedOn ≠ none → ∃ v : State, exec (.hwcmdAbort t) s = .next v ∧ v.winRead t 0x4018 = 0x300 ∧
        ∀ g ∈ v.allGroups, g.key = ⟨w.job, w.gid⟩ → g.kill = true)) ∧
    ∃ v : State, exec (.hwcmdTlbinv t) s = .next v ∧ v.winRead t 0x4018 = 0x300 ∧ v.mem = s.mem ∧
      ∀ g ∈ v.allGroups, g.job = ((s.tower t).win 0x4010).toNat → g.trs = []) ∧
  (∀ s : State, exec (.hbootgo 1) s = .next s ∧
    let st := bits s.tower0.hstat 2 0
    (st ≠ 1 ∧ st ≠ 4 → exec (.hbootgo 0) s = .next s) ∧
    (st = 1 ∨ st = 4 → ∃ v : State, exec (.hbootgo 0) s = .next v ∧ v.mem = s.mem ∧ v.fuses = s.fuses ∧
      let im := s.imgBytes s.imgAt
      let e := if s.imgPlaceBad s.imgAt then 1 else s.imgError im
      (e = 0 → bits v.tower0.hstat 2 0 = 2 ∧ bits v.tower1.hstat 2 0 = 2 ∧ v.tower1.bootImg = im ∧ v.tower0.bootDigest = imgDigest im) ∧
      (e ≠ 0 → bits v.tower0.hstat 2 0 = 4 ∧ bits v.tower0.hstat 15 8 = e ∧ v.tower1 = s.tower1))) ∧
  (∀ s : State, (bits s.tower0.hstat 2 0 ≠ 2 ∨ bits s.tower1.hstat 2 0 ≠ 2 → exec .towerImageCheck s = .next s) ∧
    (bits s.tower0.hstat 2 0 = 2 → bits s.tower1.hstat 2 0 = 2 → ∃ v : State, exec .towerImageCheck s = .next v ∧ v.mem = s.mem ∧
      let im := s.tower1.bootImg
      (s.imgError im = 0 → imgDigest im = s.tower0.bootDigest →
        (∀ t, (v.tower t).booted = true ∧ (v.tower t).fwEntry = some (imgField im 16 8) ∧ (v.tower t).bootVersion = imgField im 4 4) ∧
        v.fuses.rollback = if imgField im 12 1 % 2 = 1 then max s.fuses.rollback (imgField im 4 4) else s.fuses.rollback) ∧
      (s.imgError im ≠ 0 ∨ imgDigest im ≠ s.tower0.bootDigest →
        bits v.tower0.hstat 2 0 = 1 ∧ bits v.tower1.hstat 2 0 = 4 ∧ v.fuses = s.fuses ∧
        bits v.tower1.hstat 15 8 = if s.imgError im ≠ 0 then s.imgError im else 5))) ∧
  (∀ s : State, ∃ v : State, exec .powerOn s = .next v ∧ v.fuses = s.fuses ∧ v.tower0 = Tower.reset ∧ v.tower1 = Tower.reset ∧ v.mem = [] ∧
    v.jobs = [] ∧ v.launches = [] ∧ v.units = [] ∧ v.waves = [] ∧ v.groups = [] ∧ v.wave = State.reset.wave ∧ v.link = State.reset.link)
end

