-- ==== Sys2Proof/Laws/Cells.lean ====
section
/-! SUPPORT. Tables and memories: what a read gives after a write, and that every operation keeps the canonical
form. -/

namespace Sys2Proof.Machine

variable {α : Type}

/-! ### Tables -/

@[simp] theorem Table.get_nil (d : α) (k : Nat) : Table.get d [] k = d := rfl
@[simp] theorem Table.find_nil (k : Nat) : Table.find ([] : Table α) k = none := rfl

theorem Table.get_erase_same (d : α) (k : Nat) : ∀ m : Table α, Table.get d (Table.erase m k) k = d
  | [] => rfl
  | (i, x) :: m => by
    have ih := Table.get_erase_same d k m
    by_cases h : i = k
    · simpa [Table.erase, h] using ih
    · have h' : ¬k = i := fun e => h e.symm
      simpa [Table.erase, h, Table.get, h'] using ih

theorem Table.get_erase_other (d : α) (k j : Nat) (hj : j ≠ k) :
    ∀ m : Table α, Table.get d (Table.erase m k) j = Table.get d m j
  | [] => rfl
  | (i, x) :: m => by
    have ih := Table.get_erase_other d k j hj m
    by_cases h : i = k
    · subst h; simpa [Table.erase, Table.get, hj] using ih
    · by_cases h2 : j = i
      · subst h2; simp [Table.erase, h, Table.get]
      · simpa [Table.erase, h, Table.get, h2] using ih

theorem Table.get_insert_same (d : α) (y : α) (k : Nat) :
    ∀ m : Table α, (∀ e ∈ m, e.1 ≠ k) → Table.get d (Table.insert m k y) k = y
  | [], _ => by simp [Table.insert, Table.get]
  | (i, x) :: m, h => by
    have hi : ¬k = i := fun e => h (i, x) (by simp) e.symm
    unfold Table.insert
    split
    · simp [Table.get]
    · simpa [Table.get, hi] using Table.get_insert_same d y k m fun e he => h e (by simp [he])

theorem Table.get_insert_other (d : α) (y : α) (k j : Nat) (hj : j ≠ k) :
    ∀ m : Table α, Table.get d (Table.insert m k y) j = Table.get d m j
  | [] => by simp [Table.insert, Table.get, hj]
  | (i, x) :: m => by
    unfold Table.insert
    split
    · simp [Table.get, hj]
    · simp [Table.get, Table.get_insert_other d y k j hj m]

/-- A key put reads as put, in any table. -/
theorem Table.get_put_same (d : α) (y : α) (m : Table α) (k : Nat) : Table.get d (Table.put m k y) k = y :=
  Table.get_insert_same d y k _ fun e he => by simpa [Table.erase] using (List.mem_filter.1 he).2

/-- Every other key reads as before, in any table. -/
theorem Table.get_put_other (d : α) (y : α) (m : Table α) (k j : Nat) (hj : j ≠ k) :
    Table.get d (Table.put m k y) j = Table.get d m j := by
  rw [Table.put, Table.get_insert_other d y k j hj, Table.get_erase_other d k j hj]

/-- `find` and `get` agree. -/
theorem Table.get_eq_find (d : α) (k : Nat) : ∀ m : Table α, Table.get d m k = (Table.find m k).getD d
  | [] => rfl
  | (i, x) :: m => by
    by_cases h : k = i
    · simp [Table.get, Table.find, h]
    · simpa [Table.get, Table.find, h] using Table.get_eq_find d k m

/-- A lower key lies under the table too. -/
theorem Table.above_mono : ∀ (m : Table α) (j k : Nat), Table.above k m = true → j ≤ k → Table.above j m = true
  | [], _, _, _, _ => rfl
  | (i, x) :: m, j, k, h, hk => by
    have hi : k < i := by simpa [Table.above] using h
    simpa [Table.above] using Nat.lt_of_le_of_lt hk hi

theorem Table.above_insert (y : α) (j k : Nat) (hk : j < k) :
    ∀ m : Table α, Table.above j m = true → Table.above j (Table.insert m k y) = true
  | [], _ => by simpa [Table.insert, Table.above] using hk
  | (i, x) :: m, h => by
    have hi : j < i := by simpa [Table.above] using h
    unfold Table.insert
    split
    · simpa [Table.above] using hk
    · simpa [Table.above] using hi

variable [DecidableEq α]

theorem Table.wf_cons (d : α) (i : Nat) (x : α) (m : Table α) :
    Table.wf d ((i, x) :: m) = true ↔ x ≠ d ∧ Table.above i m = true ∧ Table.wf d m = true := by
  simp [Table.wf, and_assoc]

/-- A key under a memory lies under every part of it. -/
theorem Table.above_filter (p : Nat × α → Bool) (d : α) :
    ∀ (m : Table α) (j : Nat), Table.wf d m = true → Table.above j m = true → Table.above j (m.filter p) = true
  | [], _, _, _ => rfl
  | (i, x) :: m, j, h, ha => by
    have hi : j < i := by simpa [Table.above] using ha
    obtain ⟨_, hm1, hm⟩ := (Table.wf_cons d i x m).1 h
    rw [List.filter_cons]
    split
    · simpa [Table.above] using hi
    · exact Table.above_filter p d m j hm (Table.above_mono m j i hm1 (by omega))

theorem Table.wf_filter (p : Nat × α → Bool) (d : α) :
    ∀ (m : Table α), Table.wf d m = true → Table.wf d (m.filter p) = true
  | [], h => h
  | (i, x) :: m, h => by
    obtain ⟨hx, ha, hm⟩ := (Table.wf_cons d i x m).1 h
    rw [List.filter_cons]
    split
    · exact (Table.wf_cons ..).2 ⟨hx, Table.above_filter p d m i hm ha, Table.wf_filter p d m hm⟩
    · exact Table.wf_filter p d m hm

theorem Table.wf_erase (d : α) (m : Table α) (k : Nat) (h : Table.wf d m = true) : Table.wf d (Table.erase m k) = true :=
  Table.wf_filter _ d m h

theorem Table.wf_insert (d : α) (y : α) (hy : y ≠ d) (k : Nat) :
    ∀ m : Table α, (∀ e ∈ m, e.1 ≠ k) → Table.wf d m = true → Table.wf d (Table.insert m k y) = true
  | [], _, _ => by simp [Table.insert, Table.wf, Table.above, hy]
  | (i, x) :: m, hk, h => by
    obtain ⟨hx, ha, hm⟩ := (Table.wf_cons d i x m).1 h
    have hi : i ≠ k := hk (i, x) (by simp)
    unfold Table.insert
    split
    · next h1 => exact (Table.wf_cons ..).2 ⟨hy, by simpa [Table.above] using h1, h⟩
    · next h1 =>
      exact (Table.wf_cons ..).2 ⟨hx, Table.above_insert y i k (by omega) m ha,
        Table.wf_insert d y hy k m (fun e he => hk e (by simp [he])) hm⟩

theorem Table.wf_put (d : α) (y : α) (hy : y ≠ d) (m : Table α) (k : Nat) (h : Table.wf d m = true) :
    Table.wf d (Table.put m k y) = true :=
  Table.wf_insert d y hy k _ (fun e he => by simpa [Table.erase] using (List.mem_filter.1 he).2) (Table.wf_erase d m k h)

/-- Writing a table keeps its canonical form. -/
theorem Table.wf_set (d : α) (m : Table α) (k : Nat) (y : α) (h : Table.wf d m = true) :
    Table.wf d (Table.set d m k y) = true := by
  unfold Table.set
  split
  · exact Table.wf_erase d m k h
  · next hy => exact Table.wf_put d y hy m k h

/-- A written key reads as written. -/
theorem Table.get_set_same (d : α) (m : Table α) (k : Nat) (y : α) :
    Table.get d (Table.set d m k y) k = y := by
  unfold Table.set
  split
  · next hy => rw [Table.get_erase_same d k m, hy]
  · exact Table.get_put_same d y m k

/-- Every other key reads as before. -/
theorem Table.get_set_other (d : α) (m : Table α) (k j : Nat) (y : α) (hj : j ≠ k) :
    Table.get d (Table.set d m k y) j = Table.get d m j := by
  unfold Table.set
  split
  · exact Table.get_erase_other d k j hj m
  · exact Table.get_put_other d y m k j hj

/-! ### Memories -/

theorem Mem.wf_write (m : List Host.Cell) (a : Nat) (x : Byte) (h : Mem.wf m = true) : Mem.wf (Mem.write m a x) = true :=
  Table.wf_set _ m a x h

theorem Mem.wf_writeBytes :
    ∀ (xs : List Byte) (m : List Host.Cell) (a : Nat), Mem.wf m = true → Mem.wf (Mem.writeBytes m a xs) = true
  | [], _, _, h => h
  | x :: xs, m, a, h => Mem.wf_writeBytes xs (Mem.write m a x) (a + 1) (Mem.wf_write m a x h)

theorem Mem.wf_writeNat (m : List Host.Cell) (a n x : Nat) (h : Mem.wf m = true) : Mem.wf (Mem.writeNat m a n x) = true :=
  Mem.wf_writeBytes _ m a h

theorem Mem.wf_write64 (m : List Host.Cell) (a : Nat) (x : DWord) (h : Mem.wf m = true) :
    Mem.wf (Mem.write64 m a x) = true := Mem.wf_writeNat m a 8 x.toNat h

theorem Mem.wf_blankRange (m : List Host.Cell) (a n : Nat) (h : Mem.wf m = true) : Mem.wf (Mem.blankRange m a n) = true :=
  Table.wf_filter _ _ m h

/-- A byte written reads as written. -/
theorem Mem.read_write_same (m : List Host.Cell) (a : Nat) (x : Byte) : Mem.read (Mem.write m a x) a = x :=
  Table.get_set_same _ m a x

/-- Every other byte reads as before. -/
theorem Mem.read_write_other (m : List Host.Cell) (a b : Nat) (x : Byte) (hb : b ≠ a) :
    Mem.read (Mem.write m a x) b = Mem.read m b := Table.get_set_other _ m a b x hb

/-- A byte outside the bytes stored reads as before. -/
theorem Mem.read_writeBytes_other :
    ∀ (xs : List Byte) (m : List Host.Cell) (a b : Nat), (b < a ∨ a + xs.length ≤ b) →
      Mem.read (Mem.writeBytes m a xs) b = Mem.read m b
  | [], _, _, _, _ => rfl
  | x :: xs, m, a, b, hb => by
    have hl : (x :: xs).length = xs.length + 1 := rfl
    rw [Mem.writeBytes, Mem.read_writeBytes_other xs (Mem.write m a x) (a + 1) b (by omega),
      Mem.read_write_other m a b x (by omega)]

/-- The bytes stored read back. -/
theorem Mem.read_writeBytes_same :
    ∀ (xs : List Byte) (m : List Host.Cell) (a k : Nat), (h : k < xs.length) →
      Mem.read (Mem.writeBytes m a xs) (a + k) = xs[k]
  | x :: xs, m, a, 0, _ => by
    rw [Mem.writeBytes, Mem.read_writeBytes_other xs _ (a + 1) (a + 0) (by omega)]
    exact Mem.read_write_same m a x
  | x :: xs, m, a, k + 1, hk => by
    have := Mem.read_writeBytes_same xs (Mem.write m a x) (a + 1) k (by simpa using hk)
    rw [Mem.writeBytes, show a + (k + 1) = a + 1 + k by omega, this]
    rfl

/-- A byte outside a range that goes back to the blank value reads as before. -/
theorem Mem.read_blankRange_other (a n b : Nat) (hb : b < a ∨ a + n ≤ b) :
    ∀ m : List Host.Cell, Mem.read (Mem.blankRange m a n) b = Mem.read m b
  | [] => rfl
  | (i, x) :: m => by
    have ih := Mem.read_blankRange_other a n b hb m
    unfold Mem.blankRange Mem.read at *
    rw [List.filter_cons]
    by_cases h : b = i
    · subst h; simp [Table.get, hb]
    · split <;> simpa [Table.get, h] using ih

/-- A byte within the range reads blank. -/
theorem Mem.read_blankRange_same (a n b : Nat) (h1 : a ≤ b) (h2 : b < a + n) :
    ∀ m : List Host.Cell, Mem.read (Mem.blankRange m a n) b = Mem.blank
  | [] => rfl
  | (i, x) :: m => by
    have ih := Mem.read_blankRange_same a n b h1 h2 m
    unfold Mem.blankRange Mem.read at *
    rw [List.filter_cons]
    split
    · next hc =>
      have : ¬b = i := by intro e; subst e; simp at hc; omega
      simpa [Table.get, this] using ih
    · exact ih

@[simp] theorem Mem.length_bytes : ∀ (n x : Nat), (Mem.bytes x n).length = n
  | 0, _ => rfl
  | n + 1, x => by simp [Mem.bytes, Mem.length_bytes n]

@[simp] theorem Mem.length_readBytes : ∀ (n : Nat) (m : List Host.Cell) (a : Nat), (Mem.readBytes m a n).length = n
  | 0, _, _ => rfl
  | n + 1, m, a => by simp [Mem.readBytes, Mem.length_readBytes n]

/-- The number of the bytes of a number is its low bytes. -/
theorem Mem.number_bytes : ∀ (n x : Nat), Mem.number (Mem.bytes x n) = x % 256 ^ n
  | 0, x => by simp [Mem.bytes, Mem.number, Nat.mod_one]
  | n + 1, x => by
    have h := Mem.number_bytes n (x / 256)
    simp only [Mem.bytes, Mem.number, h, BitVec.toNat_ofNat]
    rw [Nat.pow_succ' (n := n), Nat.mod_mul]

end Sys2Proof.Machine
end

