-- ==== Sys2Proof/Laws/State.lean ====
section
/-! SUPPORT. What each update of a state or of a wave leaves in each field, true by computation, so that no later
proof unfolds a record update. -/

namespace Sys2Proof.Machine

/-! ### State.goto -/

@[simp] theorem State.goto_group (s : State) (a : DWord) : (s.goto a).group = s.group := rfl
@[simp] theorem State.goto_waves (s : State) (a : DWord) : (s.goto a).waves = s.waves := rfl
@[simp] theorem State.goto_groups (s : State) (a : DWord) : (s.goto a).groups = s.groups := rfl
@[simp] theorem State.goto_units (s : State) (a : DWord) : (s.goto a).units = s.units := rfl
@[simp] theorem State.goto_launches (s : State) (a : DWord) : (s.goto a).launches = s.launches := rfl
@[simp] theorem State.goto_jobs (s : State) (a : DWord) : (s.goto a).jobs = s.jobs := rfl
@[simp] theorem State.goto_levels (s : State) (a : DWord) : (s.goto a).levels = s.levels := rfl
@[simp] theorem State.goto_plq (s : State) (a : DWord) : (s.goto a).plq = s.plq := rfl
@[simp] theorem State.goto_held (s : State) (a : DWord) : (s.goto a).held = s.held := rfl
@[simp] theorem State.goto_mem (s : State) (a : DWord) : (s.goto a).mem = s.mem := rfl
@[simp] theorem State.goto_locals (s : State) (a : DWord) : (s.goto a).locals = s.locals := rfl
@[simp] theorem State.goto_poison (s : State) (a : DWord) : (s.goto a).poison = s.poison := rfl
@[simp] theorem State.goto_opens (s : State) (a : DWord) : (s.goto a).opens = s.opens := rfl
@[simp] theorem State.goto_rels (s : State) (a : DWord) : (s.goto a).rels = s.rels := rfl
@[simp] theorem State.goto_tower0 (s : State) (a : DWord) : (s.goto a).tower0 = s.tower0 := rfl
@[simp] theorem State.goto_tower1 (s : State) (a : DWord) : (s.goto a).tower1 = s.tower1 := rfl
@[simp] theorem State.goto_link (s : State) (a : DWord) : (s.goto a).link = s.link := rfl
@[simp] theorem State.goto_fuses (s : State) (a : DWord) : (s.goto a).fuses = s.fuses := rfl
@[simp] theorem State.goto_remote (s : State) (a : DWord) : (s.goto a).remote = s.remote := rfl
@[simp] theorem State.goto_migs (s : State) (a : DWord) : (s.goto a).migs = s.migs := rfl
@[simp] theorem State.goto_powerNow (s : State) (a : DWord) : (s.goto a).powerNow = s.powerNow := rfl
@[simp] theorem State.goto_powerNext (s : State) (a : DWord) : (s.goto a).powerNext = s.powerNext := rfl
@[simp] theorem State.goto_clockStop (s : State) (a : DWord) : (s.goto a).clockStop = s.clockStop := rfl
@[simp] theorem State.goto_clkGoal (s : State) (a : DWord) : (s.goto a).clkGoal = s.clkGoal := rfl
@[simp] theorem State.goto_hot (s : State) (a : DWord) : (s.goto a).hot = s.hot := rfl
@[simp] theorem State.goto_hostHeld (s : State) (a : DWord) : (s.goto a).hostHeld = s.hostHeld := rfl
@[simp] theorem State.goto_inbox (s : State) (a : DWord) : (s.goto a).inbox = s.inbox := rfl
@[simp] theorem State.goto_turns (s : State) (a : DWord) : (s.goto a).turns = s.turns := rfl
@[simp] theorem State.goto_ctrHits (s : State) (a : DWord) : (s.goto a).ctrHits = s.ctrHits := rfl
@[simp] theorem State.goto_stalled (s : State) (a : DWord) : (s.goto a).stalled = s.stalled := rfl
@[simp] theorem State.goto_free (s : State) (a : DWord) : (s.goto a).free = s.free := rfl
@[simp] theorem State.goto_seq (s : State) (a : DWord) : (s.goto a).seq = s.seq := rfl
@[simp] theorem State.goto_wave (s : State) (a : DWord) : (s.goto a).wave = { s.wave with npc := a } := rfl

/-! ### State.post -/

@[simp] theorem State.post_group (s : State) (t : Option TrapInfo) : (s.post t).group = s.group := rfl
@[simp] theorem State.post_waves (s : State) (t : Option TrapInfo) : (s.post t).waves = s.waves := rfl
@[simp] theorem State.post_groups (s : State) (t : Option TrapInfo) : (s.post t).groups = s.groups := rfl
@[simp] theorem State.post_units (s : State) (t : Option TrapInfo) : (s.post t).units = s.units := rfl
@[simp] theorem State.post_launches (s : State) (t : Option TrapInfo) : (s.post t).launches = s.launches := rfl
@[simp] theorem State.post_jobs (s : State) (t : Option TrapInfo) : (s.post t).jobs = s.jobs := rfl
@[simp] theorem State.post_levels (s : State) (t : Option TrapInfo) : (s.post t).levels = s.levels := rfl
@[simp] theorem State.post_plq (s : State) (t : Option TrapInfo) : (s.post t).plq = s.plq := rfl
@[simp] theorem State.post_held (s : State) (t : Option TrapInfo) : (s.post t).held = s.held := rfl
@[simp] theorem State.post_mem (s : State) (t : Option TrapInfo) : (s.post t).mem = s.mem := rfl
@[simp] theorem State.post_locals (s : State) (t : Option TrapInfo) : (s.post t).locals = s.locals := rfl
@[simp] theorem State.post_poison (s : State) (t : Option TrapInfo) : (s.post t).poison = s.poison := rfl
@[simp] theorem State.post_opens (s : State) (t : Option TrapInfo) : (s.post t).opens = s.opens := rfl
@[simp] theorem State.post_rels (s : State) (t : Option TrapInfo) : (s.post t).rels = s.rels := rfl
@[simp] theorem State.post_tower0 (s : State) (t : Option TrapInfo) : (s.post t).tower0 = s.tower0 := rfl
@[simp] theorem State.post_tower1 (s : State) (t : Option TrapInfo) : (s.post t).tower1 = s.tower1 := rfl
@[simp] theorem State.post_link (s : State) (t : Option TrapInfo) : (s.post t).link = s.link := rfl
@[simp] theorem State.post_fuses (s : State) (t : Option TrapInfo) : (s.post t).fuses = s.fuses := rfl
@[simp] theorem State.post_remote (s : State) (t : Option TrapInfo) : (s.post t).remote = s.remote := rfl
@[simp] theorem State.post_migs (s : State) (t : Option TrapInfo) : (s.post t).migs = s.migs := rfl
@[simp] theorem State.post_powerNow (s : State) (t : Option TrapInfo) : (s.post t).powerNow = s.powerNow := rfl
@[simp] theorem State.post_powerNext (s : State) (t : Option TrapInfo) : (s.post t).powerNext = s.powerNext := rfl
@[simp] theorem State.post_clockStop (s : State) (t : Option TrapInfo) : (s.post t).clockStop = s.clockStop := rfl
@[simp] theorem State.post_clkGoal (s : State) (t : Option TrapInfo) : (s.post t).clkGoal = s.clkGoal := rfl
@[simp] theorem State.post_hot (s : State) (t : Option TrapInfo) : (s.post t).hot = s.hot := rfl
@[simp] theorem State.post_hostHeld (s : State) (t : Option TrapInfo) : (s.post t).hostHeld = s.hostHeld := rfl
@[simp] theorem State.post_inbox (s : State) (t : Option TrapInfo) : (s.post t).inbox = s.inbox := rfl
@[simp] theorem State.post_turns (s : State) (t : Option TrapInfo) : (s.post t).turns = s.turns := rfl
@[simp] theorem State.post_ctrHits (s : State) (t : Option TrapInfo) : (s.post t).ctrHits = s.ctrHits := rfl
@[simp] theorem State.post_stalled (s : State) (t : Option TrapInfo) : (s.post t).stalled = s.stalled := rfl
@[simp] theorem State.post_free (s : State) (t : Option TrapInfo) : (s.post t).free = s.free := rfl
@[simp] theorem State.post_seq (s : State) (t : Option TrapInfo) : (s.post t).seq = s.seq := rfl
@[simp] theorem State.post_wave (s : State) (t : Option TrapInfo) : (s.post t).wave = { s.wave with pendTrap := s.wave.pendTrap.or t } := rfl

/-! ### State.raise -/

@[simp] theorem State.raise_group (s : State) (fl : Flags) : (s.raise fl).group = s.group := rfl
@[simp] theorem State.raise_waves (s : State) (fl : Flags) : (s.raise fl).waves = s.waves := rfl
@[simp] theorem State.raise_groups (s : State) (fl : Flags) : (s.raise fl).groups = s.groups := rfl
@[simp] theorem State.raise_units (s : State) (fl : Flags) : (s.raise fl).units = s.units := rfl
@[simp] theorem State.raise_launches (s : State) (fl : Flags) : (s.raise fl).launches = s.launches := rfl
@[simp] theorem State.raise_jobs (s : State) (fl : Flags) : (s.raise fl).jobs = s.jobs := rfl
@[simp] theorem State.raise_levels (s : State) (fl : Flags) : (s.raise fl).levels = s.levels := rfl
@[simp] theorem State.raise_plq (s : State) (fl : Flags) : (s.raise fl).plq = s.plq := rfl
@[simp] theorem State.raise_held (s : State) (fl : Flags) : (s.raise fl).held = s.held := rfl
@[simp] theorem State.raise_mem (s : State) (fl : Flags) : (s.raise fl).mem = s.mem := rfl
@[simp] theorem State.raise_locals (s : State) (fl : Flags) : (s.raise fl).locals = s.locals := rfl
@[simp] theorem State.raise_poison (s : State) (fl : Flags) : (s.raise fl).poison = s.poison := rfl
@[simp] theorem State.raise_opens (s : State) (fl : Flags) : (s.raise fl).opens = s.opens := rfl
@[simp] theorem State.raise_rels (s : State) (fl : Flags) : (s.raise fl).rels = s.rels := rfl
@[simp] theorem State.raise_tower0 (s : State) (fl : Flags) : (s.raise fl).tower0 = s.tower0 := rfl
@[simp] theorem State.raise_tower1 (s : State) (fl : Flags) : (s.raise fl).tower1 = s.tower1 := rfl
@[simp] theorem State.raise_link (s : State) (fl : Flags) : (s.raise fl).link = s.link := rfl
@[simp] theorem State.raise_fuses (s : State) (fl : Flags) : (s.raise fl).fuses = s.fuses := rfl
@[simp] theorem State.raise_remote (s : State) (fl : Flags) : (s.raise fl).remote = s.remote := rfl
@[simp] theorem State.raise_migs (s : State) (fl : Flags) : (s.raise fl).migs = s.migs := rfl
@[simp] theorem State.raise_powerNow (s : State) (fl : Flags) : (s.raise fl).powerNow = s.powerNow := rfl
@[simp] theorem State.raise_powerNext (s : State) (fl : Flags) : (s.raise fl).powerNext = s.powerNext := rfl
@[simp] theorem State.raise_clockStop (s : State) (fl : Flags) : (s.raise fl).clockStop = s.clockStop := rfl
@[simp] theorem State.raise_clkGoal (s : State) (fl : Flags) : (s.raise fl).clkGoal = s.clkGoal := rfl
@[simp] theorem State.raise_hot (s : State) (fl : Flags) : (s.raise fl).hot = s.hot := rfl
@[simp] theorem State.raise_hostHeld (s : State) (fl : Flags) : (s.raise fl).hostHeld = s.hostHeld := rfl
@[simp] theorem State.raise_inbox (s : State) (fl : Flags) : (s.raise fl).inbox = s.inbox := rfl
@[simp] theorem State.raise_turns (s : State) (fl : Flags) : (s.raise fl).turns = s.turns := rfl
@[simp] theorem State.raise_ctrHits (s : State) (fl : Flags) : (s.raise fl).ctrHits = s.ctrHits := rfl
@[simp] theorem State.raise_stalled (s : State) (fl : Flags) : (s.raise fl).stalled = s.stalled := rfl
@[simp] theorem State.raise_free (s : State) (fl : Flags) : (s.raise fl).free = s.free := rfl
@[simp] theorem State.raise_seq (s : State) (fl : Flags) : (s.raise fl).seq = s.seq := rfl
@[simp] theorem State.raise_wave (s : State) (fl : Flags) : (s.raise fl).wave = { s.wave with wflags := s.wave.wflags ||| fl, pendTrap := s.wave.pendTrap.or (flagTrap s.wave.jctl fl) } := rfl

/-! ### State.lapse -/

@[simp] theorem State.lapse_group (s : State) (own n : Nat) : (s.lapse own n).group = s.group := rfl
@[simp] theorem State.lapse_groups (s : State) (own n : Nat) : (s.lapse own n).groups = s.groups := rfl
@[simp] theorem State.lapse_units (s : State) (own n : Nat) : (s.lapse own n).units = s.units := rfl
@[simp] theorem State.lapse_launches (s : State) (own n : Nat) : (s.lapse own n).launches = s.launches := rfl
@[simp] theorem State.lapse_jobs (s : State) (own n : Nat) : (s.lapse own n).jobs = s.jobs := rfl
@[simp] theorem State.lapse_levels (s : State) (own n : Nat) : (s.lapse own n).levels = s.levels := rfl
@[simp] theorem State.lapse_plq (s : State) (own n : Nat) : (s.lapse own n).plq = s.plq := rfl
@[simp] theorem State.lapse_held (s : State) (own n : Nat) : (s.lapse own n).held = s.held := rfl
@[simp] theorem State.lapse_mem (s : State) (own n : Nat) : (s.lapse own n).mem = s.mem := rfl
@[simp] theorem State.lapse_locals (s : State) (own n : Nat) : (s.lapse own n).locals = s.locals := rfl
@[simp] theorem State.lapse_poison (s : State) (own n : Nat) : (s.lapse own n).poison = s.poison := rfl
@[simp] theorem State.lapse_opens (s : State) (own n : Nat) : (s.lapse own n).opens = s.opens := rfl
@[simp] theorem State.lapse_rels (s : State) (own n : Nat) : (s.lapse own n).rels = s.rels := rfl
@[simp] theorem State.lapse_link (s : State) (own n : Nat) : (s.lapse own n).link = s.link := rfl
@[simp] theorem State.lapse_fuses (s : State) (own n : Nat) : (s.lapse own n).fuses = s.fuses := rfl
@[simp] theorem State.lapse_remote (s : State) (own n : Nat) : (s.lapse own n).remote = s.remote := rfl
@[simp] theorem State.lapse_migs (s : State) (own n : Nat) : (s.lapse own n).migs = s.migs := rfl
@[simp] theorem State.lapse_powerNow (s : State) (own n : Nat) : (s.lapse own n).powerNow = s.powerNow := rfl
@[simp] theorem State.lapse_powerNext (s : State) (own n : Nat) : (s.lapse own n).powerNext = s.powerNext := rfl
@[simp] theorem State.lapse_clockStop (s : State) (own n : Nat) : (s.lapse own n).clockStop = s.clockStop := rfl
@[simp] theorem State.lapse_clkGoal (s : State) (own n : Nat) : (s.lapse own n).clkGoal = s.clkGoal := rfl
@[simp] theorem State.lapse_hot (s : State) (own n : Nat) : (s.lapse own n).hot = s.hot := rfl
@[simp] theorem State.lapse_hostHeld (s : State) (own n : Nat) : (s.lapse own n).hostHeld = s.hostHeld := rfl
@[simp] theorem State.lapse_inbox (s : State) (own n : Nat) : (s.lapse own n).inbox = s.inbox := rfl
@[simp] theorem State.lapse_turns (s : State) (own n : Nat) : (s.lapse own n).turns = s.turns := rfl
@[simp] theorem State.lapse_ctrHits (s : State) (own n : Nat) : (s.lapse own n).ctrHits = s.ctrHits := rfl
@[simp] theorem State.lapse_stalled (s : State) (own n : Nat) : (s.lapse own n).stalled = s.stalled := rfl
@[simp] theorem State.lapse_seq (s : State) (own n : Nat) : (s.lapse own n).seq = s.seq := rfl
@[simp] theorem State.lapse_free (s : State) (own n : Nat) : (s.lapse own n).free = s.free + 1 := rfl

/-! ### Wave.setV -/

@[simp] theorem Wave.setV_job (w : Wave) (n : Nat) (x : VReg) : (w.setV n x).job = w.job := rfl
@[simp] theorem Wave.setV_gid (w : Wave) (n : Nat) (x : VReg) : (w.setV n x).gid = w.gid := rfl
@[simp] theorem Wave.setV_idx (w : Wave) (n : Nat) (x : VReg) : (w.setV n x).idx = w.idx := rfl
@[simp] theorem Wave.setV_alive (w : Wave) (n : Nat) (x : VReg) : (w.setV n x).alive = w.alive := rfl
@[simp] theorem Wave.setV_pc (w : Wave) (n : Nat) (x : VReg) : (w.setV n x).pc = w.pc := rfl
@[simp] theorem Wave.setV_npc (w : Wave) (n : Nat) (x : VReg) : (w.setV n x).npc = w.npc := rfl
@[simp] theorem Wave.setV_em (w : Wave) (n : Nat) (x : VReg) : (w.setV n x).em = w.em := rfl
@[simp] theorem Wave.setV_live (w : Wave) (n : Nat) (x : VReg) : (w.setV n x).live = w.live := rfl
@[simp] theorem Wave.setV_stack (w : Wave) (n : Nat) (x : VReg) : (w.setV n x).stack = w.stack := rfl
@[simp] theorem Wave.setV_sregs (w : Wave) (n : Nat) (x : VReg) : (w.setV n x).sregs = w.sregs := rfl
@[simp] theorem Wave.setV_temps (w : Wave) (n : Nat) (x : VReg) : (w.setV n x).temps = w.temps := rfl
@[simp] theorem Wave.setV_preds (w : Wave) (n : Nat) (x : VReg) : (w.setV n x).preds = w.preds := rfl
@[simp] theorem Wave.setV_tiles (w : Wave) (n : Nat) (x : VReg) : (w.setV n x).tiles = w.tiles := rfl
@[simp] theorem Wave.setV_tokens (w : Wave) (n : Nat) (x : VReg) : (w.setV n x).tokens = w.tokens := rfl
@[simp] theorem Wave.setV_pend (w : Wave) (n : Nat) (x : VReg) : (w.setV n x).pend = w.pend := rfl
@[simp] theorem Wave.setV_port (w : Wave) (n : Nat) (x : VReg) : (w.setV n x).port = w.port := rfl
@[simp] theorem Wave.setV_jctl (w : Wave) (n : Nat) (x : VReg) : (w.setV n x).jctl = w.jctl := rfl
@[simp] theorem Wave.setV_inRun (w : Wave) (n : Nat) (x : VReg) : (w.setV n x).inRun = w.inRun := rfl
@[simp] theorem Wave.setV_runLen (w : Wave) (n : Nat) (x : VReg) : (w.setV n x).runLen = w.runLen := rfl
@[simp] theorem Wave.setV_time (w : Wave) (n : Nat) (x : VReg) : (w.setV n x).time = w.time := rfl
@[simp] theorem Wave.setV_late (w : Wave) (n : Nat) (x : VReg) : (w.setV n x).late = w.late := rfl
@[simp] theorem Wave.setV_pfx (w : Wave) (n : Nat) (x : VReg) : (w.setV n x).pfx = w.pfx := rfl
@[simp] theorem Wave.setV_await (w : Wave) (n : Nat) (x : VReg) : (w.setV n x).await = w.await := rfl
@[simp] theorem Wave.setV_yielded (w : Wave) (n : Nat) (x : VReg) : (w.setV n x).yielded = w.yielded := rfl
@[simp] theorem Wave.setV_passes (w : Wave) (n : Nat) (x : VReg) : (w.setV n x).passes = w.passes := rfl
@[simp] theorem Wave.setV_wflags (w : Wave) (n : Nat) (x : VReg) : (w.setV n x).wflags = w.wflags := rfl
@[simp] theorem Wave.setV_sbchk (w : Wave) (n : Nat) (x : VReg) : (w.setV n x).sbchk = w.sbchk := rfl
@[simp] theorem Wave.setV_tvec (w : Wave) (n : Nat) (x : VReg) : (w.setV n x).tvec = w.tvec := rfl
@[simp] theorem Wave.setV_tepc (w : Wave) (n : Nat) (x : VReg) : (w.setV n x).tepc = w.tepc := rfl
@[simp] theorem Wave.setV_cause (w : Wave) (n : Nat) (x : VReg) : (w.setV n x).cause = w.cause := rfl
@[simp] theorem Wave.setV_after (w : Wave) (n : Nat) (x : VReg) : (w.setV n x).after = w.after := rfl
@[simp] theorem Wave.setV_inh (w : Wave) (n : Nat) (x : VReg) : (w.setV n x).inh = w.inh := rfl
@[simp] theorem Wave.setV_info (w : Wave) (n : Nat) (x : VReg) : (w.setV n x).info = w.info := rfl
@[simp] theorem Wave.setV_taddr (w : Wave) (n : Nat) (x : VReg) : (w.setV n x).taddr = w.taddr := rfl
@[simp] theorem Wave.setV_tmask (w : Wave) (n : Nat) (x : VReg) : (w.setV n x).tmask = w.tmask := rfl
@[simp] theorem Wave.setV_tem (w : Wave) (n : Nat) (x : VReg) : (w.setV n x).tem = w.tem := rfl
@[simp] theorem Wave.setV_mmScope (w : Wave) (n : Nat) (x : VReg) : (w.setV n x).mmScope = w.mmScope := rfl
@[simp] theorem Wave.setV_fenceRel (w : Wave) (n : Nat) (x : VReg) : (w.setV n x).fenceRel = w.fenceRel := rfl
@[simp] theorem Wave.setV_relReads (w : Wave) (n : Nat) (x : VReg) : (w.setV n x).relReads = w.relReads := rfl
@[simp] theorem Wave.setV_openLost (w : Wave) (n : Nat) (x : VReg) : (w.setV n x).openLost = w.openLost := rfl
@[simp] theorem Wave.setV_mismatch (w : Wave) (n : Nat) (x : VReg) : (w.setV n x).mismatch = w.mismatch := rfl
@[simp] theorem Wave.setV_arrival (w : Wave) (n : Nat) (x : VReg) : (w.setV n x).arrival = w.arrival := rfl
@[simp] theorem Wave.setV_wait (w : Wave) (n : Nat) (x : VReg) : (w.setV n x).wait = w.wait := rfl
@[simp] theorem Wave.setV_waited (w : Wave) (n : Nat) (x : VReg) : (w.setV n x).waited = w.waited := rfl
@[simp] theorem Wave.setV_link (w : Wave) (n : Nat) (x : VReg) : (w.setV n x).link = w.link := rfl
@[simp] theorem Wave.setV_parkedMask (w : Wave) (n : Nat) (x : VReg) : (w.setV n x).parkedMask = w.parkedMask := rfl
@[simp] theorem Wave.setV_parkTok (w : Wave) (n : Nat) (x : VReg) : (w.setV n x).parkTok = w.parkTok := rfl
@[simp] theorem Wave.setV_wakePend (w : Wave) (n : Nat) (x : VReg) : (w.setV n x).wakePend = w.wakePend := rfl
@[simp] theorem Wave.setV_cmds (w : Wave) (n : Nat) (x : VReg) : (w.setV n x).cmds = w.cmds := rfl
@[simp] theorem Wave.setV_engErr (w : Wave) (n : Nat) (x : VReg) : (w.setV n x).engErr = w.engErr := rfl
@[simp] theorem Wave.setV_rays (w : Wave) (n : Nat) (x : VReg) : (w.setV n x).rays = w.rays := rfl
@[simp] theorem Wave.setV_segs (w : Wave) (n : Nat) (x : VReg) : (w.setV n x).segs = w.segs := rfl
@[simp] theorem Wave.setV_scan (w : Wave) (n : Nat) (x : VReg) : (w.setV n x).scan = w.scan := rfl
@[simp] theorem Wave.setV_dogCount (w : Wave) (n : Nat) (x : VReg) : (w.setV n x).dogCount = w.dogCount := rfl
@[simp] theorem Wave.setV_slot (w : Wave) (n : Nat) (x : VReg) : (w.setV n x).slot = w.slot := rfl
@[simp] theorem Wave.setV_claim (w : Wave) (n : Nat) (x : VReg) : (w.setV n x).claim = w.claim := rfl
@[simp] theorem Wave.setV_pendTrap (w : Wave) (n : Nat) (x : VReg) : (w.setV n x).pendTrap = w.pendTrap := rfl
@[simp] theorem Wave.setV_vregs (w : Wave) (n : Nat) (x : VReg) : (w.setV n x).vregs = Table.set VReg.zero w.vregs n x := rfl

/-! ### Wave.setS -/

@[simp] theorem Wave.setS_job (w : Wave) (n : Nat) (x : Word) : (w.setS n x).job = w.job := rfl
@[simp] theorem Wave.setS_gid (w : Wave) (n : Nat) (x : Word) : (w.setS n x).gid = w.gid := rfl
@[simp] theorem Wave.setS_idx (w : Wave) (n : Nat) (x : Word) : (w.setS n x).idx = w.idx := rfl
@[simp] theorem Wave.setS_alive (w : Wave) (n : Nat) (x : Word) : (w.setS n x).alive = w.alive := rfl
@[simp] theorem Wave.setS_pc (w : Wave) (n : Nat) (x : Word) : (w.setS n x).pc = w.pc := rfl
@[simp] theorem Wave.setS_npc (w : Wave) (n : Nat) (x : Word) : (w.setS n x).npc = w.npc := rfl
@[simp] theorem Wave.setS_em (w : Wave) (n : Nat) (x : Word) : (w.setS n x).em = w.em := rfl
@[simp] theorem Wave.setS_live (w : Wave) (n : Nat) (x : Word) : (w.setS n x).live = w.live := rfl
@[simp] theorem Wave.setS_stack (w : Wave) (n : Nat) (x : Word) : (w.setS n x).stack = w.stack := rfl
@[simp] theorem Wave.setS_vregs (w : Wave) (n : Nat) (x : Word) : (w.setS n x).vregs = w.vregs := rfl
@[simp] theorem Wave.setS_temps (w : Wave) (n : Nat) (x : Word) : (w.setS n x).temps = w.temps := rfl
@[simp] theorem Wave.setS_preds (w : Wave) (n : Nat) (x : Word) : (w.setS n x).preds = w.preds := rfl
@[simp] theorem Wave.setS_tiles (w : Wave) (n : Nat) (x : Word) : (w.setS n x).tiles = w.tiles := rfl
@[simp] theorem Wave.setS_tokens (w : Wave) (n : Nat) (x : Word) : (w.setS n x).tokens = w.tokens := rfl
@[simp] theorem Wave.setS_pend (w : Wave) (n : Nat) (x : Word) : (w.setS n x).pend = w.pend := rfl
@[simp] theorem Wave.setS_port (w : Wave) (n : Nat) (x : Word) : (w.setS n x).port = w.port := rfl
@[simp] theorem Wave.setS_jctl (w : Wave) (n : Nat) (x : Word) : (w.setS n x).jctl = w.jctl := rfl
@[simp] theorem Wave.setS_inRun (w : Wave) (n : Nat) (x : Word) : (w.setS n x).inRun = w.inRun := rfl
@[simp] theorem Wave.setS_runLen (w : Wave) (n : Nat) (x : Word) : (w.setS n x).runLen = w.runLen := rfl
@[simp] theorem Wave.setS_time (w : Wave) (n : Nat) (x : Word) : (w.setS n x).time = w.time := rfl
@[simp] theorem Wave.setS_late (w : Wave) (n : Nat) (x : Word) : (w.setS n x).late = w.late := rfl
@[simp] theorem Wave.setS_pfx (w : Wave) (n : Nat) (x : Word) : (w.setS n x).pfx = w.pfx := rfl
@[simp] theorem Wave.setS_await (w : Wave) (n : Nat) (x : Word) : (w.setS n x).await = w.await := rfl
@[simp] theorem Wave.setS_yielded (w : Wave) (n : Nat) (x : Word) : (w.setS n x).yielded = w.yielded := rfl
@[simp] theorem Wave.setS_passes (w : Wave) (n : Nat) (x : Word) : (w.setS n x).passes = w.passes := rfl
@[simp] theorem Wave.setS_wflags (w : Wave) (n : Nat) (x : Word) : (w.setS n x).wflags = w.wflags := rfl
@[simp] theorem Wave.setS_sbchk (w : Wave) (n : Nat) (x : Word) : (w.setS n x).sbchk = w.sbchk := rfl
@[simp] theorem Wave.setS_tvec (w : Wave) (n : Nat) (x : Word) : (w.setS n x).tvec = w.tvec := rfl
@[simp] theorem Wave.setS_tepc (w : Wave) (n : Nat) (x : Word) : (w.setS n x).tepc = w.tepc := rfl
@[simp] theorem Wave.setS_cause (w : Wave) (n : Nat) (x : Word) : (w.setS n x).cause = w.cause := rfl
@[simp] theorem Wave.setS_after (w : Wave) (n : Nat) (x : Word) : (w.setS n x).after = w.after := rfl
@[simp] theorem Wave.setS_inh (w : Wave) (n : Nat) (x : Word) : (w.setS n x).inh = w.inh := rfl
@[simp] theorem Wave.setS_info (w : Wave) (n : Nat) (x : Word) : (w.setS n x).info = w.info := rfl
@[simp] theorem Wave.setS_taddr (w : Wave) (n : Nat) (x : Word) : (w.setS n x).taddr = w.taddr := rfl
@[simp] theorem Wave.setS_tmask (w : Wave) (n : Nat) (x : Word) : (w.setS n x).tmask = w.tmask := rfl
@[simp] theorem Wave.setS_tem (w : Wave) (n : Nat) (x : Word) : (w.setS n x).tem = w.tem := rfl
@[simp] theorem Wave.setS_mmScope (w : Wave) (n : Nat) (x : Word) : (w.setS n x).mmScope = w.mmScope := rfl
@[simp] theorem Wave.setS_fenceRel (w : Wave) (n : Nat) (x : Word) : (w.setS n x).fenceRel = w.fenceRel := rfl
@[simp] theorem Wave.setS_relReads (w : Wave) (n : Nat) (x : Word) : (w.setS n x).relReads = w.relReads := rfl
@[simp] theorem Wave.setS_openLost (w : Wave) (n : Nat) (x : Word) : (w.setS n x).openLost = w.openLost := rfl
@[simp] theorem Wave.setS_mismatch (w : Wave) (n : Nat) (x : Word) : (w.setS n x).mismatch = w.mismatch := rfl
@[simp] theorem Wave.setS_arrival (w : Wave) (n : Nat) (x : Word) : (w.setS n x).arrival = w.arrival := rfl
@[simp] theorem Wave.setS_wait (w : Wave) (n : Nat) (x : Word) : (w.setS n x).wait = w.wait := rfl
@[simp] theorem Wave.setS_waited (w : Wave) (n : Nat) (x : Word) : (w.setS n x).waited = w.waited := rfl
@[simp] theorem Wave.setS_link (w : Wave) (n : Nat) (x : Word) : (w.setS n x).link = w.link := rfl
@[simp] theorem Wave.setS_parkedMask (w : Wave) (n : Nat) (x : Word) : (w.setS n x).parkedMask = w.parkedMask := rfl
@[simp] theorem Wave.setS_parkTok (w : Wave) (n : Nat) (x : Word) : (w.setS n x).parkTok = w.parkTok := rfl
@[simp] theorem Wave.setS_wakePend (w : Wave) (n : Nat) (x : Word) : (w.setS n x).wakePend = w.wakePend := rfl
@[simp] theorem Wave.setS_cmds (w : Wave) (n : Nat) (x : Word) : (w.setS n x).cmds = w.cmds := rfl
@[simp] theorem Wave.setS_engErr (w : Wave) (n : Nat) (x : Word) : (w.setS n x).engErr = w.engErr := rfl
@[simp] theorem Wave.setS_rays (w : Wave) (n : Nat) (x : Word) : (w.setS n x).rays = w.rays := rfl
@[simp] theorem Wave.setS_segs (w : Wave) (n : Nat) (x : Word) : (w.setS n x).segs = w.segs := rfl
@[simp] theorem Wave.setS_scan (w : Wave) (n : Nat) (x : Word) : (w.setS n x).scan = w.scan := rfl
@[simp] theorem Wave.setS_dogCount (w : Wave) (n : Nat) (x : Word) : (w.setS n x).dogCount = w.dogCount := rfl
@[simp] theorem Wave.setS_slot (w : Wave) (n : Nat) (x : Word) : (w.setS n x).slot = w.slot := rfl
@[simp] theorem Wave.setS_claim (w : Wave) (n : Nat) (x : Word) : (w.setS n x).claim = w.claim := rfl
@[simp] theorem Wave.setS_pendTrap (w : Wave) (n : Nat) (x : Word) : (w.setS n x).pendTrap = w.pendTrap := rfl
@[simp] theorem Wave.setS_sregs (w : Wave) (n : Nat) (x : Word) : (w.setS n x).sregs = Table.set 0 w.sregs n x := rfl

/-! ### Wave.setP -/

@[simp] theorem Wave.setP_job (w : Wave) (n : Nat) (x : Mask) : (w.setP n x).job = w.job := rfl
@[simp] theorem Wave.setP_gid (w : Wave) (n : Nat) (x : Mask) : (w.setP n x).gid = w.gid := rfl
@[simp] theorem Wave.setP_idx (w : Wave) (n : Nat) (x : Mask) : (w.setP n x).idx = w.idx := rfl
@[simp] theorem Wave.setP_alive (w : Wave) (n : Nat) (x : Mask) : (w.setP n x).alive = w.alive := rfl
@[simp] theorem Wave.setP_pc (w : Wave) (n : Nat) (x : Mask) : (w.setP n x).pc = w.pc := rfl
@[simp] theorem Wave.setP_npc (w : Wave) (n : Nat) (x : Mask) : (w.setP n x).npc = w.npc := rfl
@[simp] theorem Wave.setP_em (w : Wave) (n : Nat) (x : Mask) : (w.setP n x).em = w.em := rfl
@[simp] theorem Wave.setP_live (w : Wave) (n : Nat) (x : Mask) : (w.setP n x).live = w.live := rfl
@[simp] theorem Wave.setP_stack (w : Wave) (n : Nat) (x : Mask) : (w.setP n x).stack = w.stack := rfl
@[simp] theorem Wave.setP_sregs (w : Wave) (n : Nat) (x : Mask) : (w.setP n x).sregs = w.sregs := rfl
@[simp] theorem Wave.setP_vregs (w : Wave) (n : Nat) (x : Mask) : (w.setP n x).vregs = w.vregs := rfl
@[simp] theorem Wave.setP_temps (w : Wave) (n : Nat) (x : Mask) : (w.setP n x).temps = w.temps := rfl
@[simp] theorem Wave.setP_tiles (w : Wave) (n : Nat) (x : Mask) : (w.setP n x).tiles = w.tiles := rfl
@[simp] theorem Wave.setP_tokens (w : Wave) (n : Nat) (x : Mask) : (w.setP n x).tokens = w.tokens := rfl
@[simp] theorem Wave.setP_pend (w : Wave) (n : Nat) (x : Mask) : (w.setP n x).pend = w.pend := rfl
@[simp] theorem Wave.setP_port (w : Wave) (n : Nat) (x : Mask) : (w.setP n x).port = w.port := rfl
@[simp] theorem Wave.setP_jctl (w : Wave) (n : Nat) (x : Mask) : (w.setP n x).jctl = w.jctl := rfl
@[simp] theorem Wave.setP_inRun (w : Wave) (n : Nat) (x : Mask) : (w.setP n x).inRun = w.inRun := rfl
@[simp] theorem Wave.setP_runLen (w : Wave) (n : Nat) (x : Mask) : (w.setP n x).runLen = w.runLen := rfl
@[simp] theorem Wave.setP_time (w : Wave) (n : Nat) (x : Mask) : (w.setP n x).time = w.time := rfl
@[simp] theorem Wave.setP_late (w : Wave) (n : Nat) (x : Mask) : (w.setP n x).late = w.late := rfl
@[simp] theorem Wave.setP_pfx (w : Wave) (n : Nat) (x : Mask) : (w.setP n x).pfx = w.pfx := rfl
@[simp] theorem Wave.setP_await (w : Wave) (n : Nat) (x : Mask) : (w.setP n x).await = w.await := rfl
@[simp] theorem Wave.setP_yielded (w : Wave) (n : Nat) (x : Mask) : (w.setP n x).yielded = w.yielded := rfl
@[simp] theorem Wave.setP_passes (w : Wave) (n : Nat) (x : Mask) : (w.setP n x).passes = w.passes := rfl
@[simp] theorem Wave.setP_wflags (w : Wave) (n : Nat) (x : Mask) : (w.setP n x).wflags = w.wflags := rfl
@[simp] theorem Wave.setP_sbchk (w : Wave) (n : Nat) (x : Mask) : (w.setP n x).sbchk = w.sbchk := rfl
@[simp] theorem Wave.setP_tvec (w : Wave) (n : Nat) (x : Mask) : (w.setP n x).tvec = w.tvec := rfl
@[simp] theorem Wave.setP_tepc (w : Wave) (n : Nat) (x : Mask) : (w.setP n x).tepc = w.tepc := rfl
@[simp] theorem Wave.setP_cause (w : Wave) (n : Nat) (x : Mask) : (w.setP n x).cause = w.cause := rfl
@[simp] theorem Wave.setP_after (w : Wave) (n : Nat) (x : Mask) : (w.setP n x).after = w.after := rfl
@[simp] theorem Wave.setP_inh (w : Wave) (n : Nat) (x : Mask) : (w.setP n x).inh = w.inh := rfl
@[simp] theorem Wave.setP_info (w : Wave) (n : Nat) (x : Mask) : (w.setP n x).info = w.info := rfl
@[simp] theorem Wave.setP_taddr (w : Wave) (n : Nat) (x : Mask) : (w.setP n x).taddr = w.taddr := rfl
@[simp] theorem Wave.setP_tmask (w : Wave) (n : Nat) (x : Mask) : (w.setP n x).tmask = w.tmask := rfl
@[simp] theorem Wave.setP_tem (w : Wave) (n : Nat) (x : Mask) : (w.setP n x).tem = w.tem := rfl
@[simp] theorem Wave.setP_mmScope (w : Wave) (n : Nat) (x : Mask) : (w.setP n x).mmScope = w.mmScope := rfl
@[simp] theorem Wave.setP_fenceRel (w : Wave) (n : Nat) (x : Mask) : (w.setP n x).fenceRel = w.fenceRel := rfl
@[simp] theorem Wave.setP_relReads (w : Wave) (n : Nat) (x : Mask) : (w.setP n x).relReads = w.relReads := rfl
@[simp] theorem Wave.setP_openLost (w : Wave) (n : Nat) (x : Mask) : (w.setP n x).openLost = w.openLost := rfl
@[simp] theorem Wave.setP_mismatch (w : Wave) (n : Nat) (x : Mask) : (w.setP n x).mismatch = w.mismatch := rfl
@[simp] theorem Wave.setP_arrival (w : Wave) (n : Nat) (x : Mask) : (w.setP n x).arrival = w.arrival := rfl
@[simp] theorem Wave.setP_wait (w : Wave) (n : Nat) (x : Mask) : (w.setP n x).wait = w.wait := rfl
@[simp] theorem Wave.setP_waited (w : Wave) (n : Nat) (x : Mask) : (w.setP n x).waited = w.waited := rfl
@[simp] theorem Wave.setP_link (w : Wave) (n : Nat) (x : Mask) : (w.setP n x).link = w.link := rfl
@[simp] theorem Wave.setP_parkedMask (w : Wave) (n : Nat) (x : Mask) : (w.setP n x).parkedMask = w.parkedMask := rfl
@[simp] theorem Wave.setP_parkTok (w : Wave) (n : Nat) (x : Mask) : (w.setP n x).parkTok = w.parkTok := rfl
@[simp] theorem Wave.setP_wakePend (w : Wave) (n : Nat) (x : Mask) : (w.setP n x).wakePend = w.wakePend := rfl
@[simp] theorem Wave.setP_cmds (w : Wave) (n : Nat) (x : Mask) : (w.setP n x).cmds = w.cmds := rfl
@[simp] theorem Wave.setP_engErr (w : Wave) (n : Nat) (x : Mask) : (w.setP n x).engErr = w.engErr := rfl
@[simp] theorem Wave.setP_rays (w : Wave) (n : Nat) (x : Mask) : (w.setP n x).rays = w.rays := rfl
@[simp] theorem Wave.setP_segs (w : Wave) (n : Nat) (x : Mask) : (w.setP n x).segs = w.segs := rfl
@[simp] theorem Wave.setP_scan (w : Wave) (n : Nat) (x : Mask) : (w.setP n x).scan = w.scan := rfl
@[simp] theorem Wave.setP_dogCount (w : Wave) (n : Nat) (x : Mask) : (w.setP n x).dogCount = w.dogCount := rfl
@[simp] theorem Wave.setP_slot (w : Wave) (n : Nat) (x : Mask) : (w.setP n x).slot = w.slot := rfl
@[simp] theorem Wave.setP_claim (w : Wave) (n : Nat) (x : Mask) : (w.setP n x).claim = w.claim := rfl
@[simp] theorem Wave.setP_pendTrap (w : Wave) (n : Nat) (x : Mask) : (w.setP n x).pendTrap = w.pendTrap := rfl
@[simp] theorem Wave.setP_preds (w : Wave) (n : Nat) (x : Mask) : (w.setP n x).preds = Table.set 0 w.preds n x := rfl

/-! ### Wave.setZ -/

@[simp] theorem Wave.setZ_job (w : Wave) (n : Nat) (x : Tile) : (w.setZ n x).job = w.job := rfl
@[simp] theorem Wave.setZ_gid (w : Wave) (n : Nat) (x : Tile) : (w.setZ n x).gid = w.gid := rfl
@[simp] theorem Wave.setZ_idx (w : Wave) (n : Nat) (x : Tile) : (w.setZ n x).idx = w.idx := rfl
@[simp] theorem Wave.setZ_alive (w : Wave) (n : Nat) (x : Tile) : (w.setZ n x).alive = w.alive := rfl
@[simp] theorem Wave.setZ_pc (w : Wave) (n : Nat) (x : Tile) : (w.setZ n x).pc = w.pc := rfl
@[simp] theorem Wave.setZ_npc (w : Wave) (n : Nat) (x : Tile) : (w.setZ n x).npc = w.npc := rfl
@[simp] theorem Wave.setZ_em (w : Wave) (n : Nat) (x : Tile) : (w.setZ n x).em = w.em := rfl
@[simp] theorem Wave.setZ_live (w : Wave) (n : Nat) (x : Tile) : (w.setZ n x).live = w.live := rfl
@[simp] theorem Wave.setZ_stack (w : Wave) (n : Nat) (x : Tile) : (w.setZ n x).stack = w.stack := rfl
@[simp] theorem Wave.setZ_sregs (w : Wave) (n : Nat) (x : Tile) : (w.setZ n x).sregs = w.sregs := rfl
@[simp] theorem Wave.setZ_vregs (w : Wave) (n : Nat) (x : Tile) : (w.setZ n x).vregs = w.vregs := rfl
@[simp] theorem Wave.setZ_temps (w : Wave) (n : Nat) (x : Tile) : (w.setZ n x).temps = w.temps := rfl
@[simp] theorem Wave.setZ_preds (w : Wave) (n : Nat) (x : Tile) : (w.setZ n x).preds = w.preds := rfl
@[simp] theorem Wave.setZ_tokens (w : Wave) (n : Nat) (x : Tile) : (w.setZ n x).tokens = w.tokens := rfl
@[simp] theorem Wave.setZ_pend (w : Wave) (n : Nat) (x : Tile) : (w.setZ n x).pend = w.pend := rfl
@[simp] theorem Wave.setZ_port (w : Wave) (n : Nat) (x : Tile) : (w.setZ n x).port = w.port := rfl
@[simp] theorem Wave.setZ_jctl (w : Wave) (n : Nat) (x : Tile) : (w.setZ n x).jctl = w.jctl := rfl
@[simp] theorem Wave.setZ_inRun (w : Wave) (n : Nat) (x : Tile) : (w.setZ n x).inRun = w.inRun := rfl
@[simp] theorem Wave.setZ_runLen (w : Wave) (n : Nat) (x : Tile) : (w.setZ n x).runLen = w.runLen := rfl
@[simp] theorem Wave.setZ_time (w : Wave) (n : Nat) (x : Tile) : (w.setZ n x).time = w.time := rfl
@[simp] theorem Wave.setZ_late (w : Wave) (n : Nat) (x : Tile) : (w.setZ n x).late = w.late := rfl
@[simp] theorem Wave.setZ_pfx (w : Wave) (n : Nat) (x : Tile) : (w.setZ n x).pfx = w.pfx := rfl
@[simp] theorem Wave.setZ_await (w : Wave) (n : Nat) (x : Tile) : (w.setZ n x).await = w.await := rfl
@[simp] theorem Wave.setZ_yielded (w : Wave) (n : Nat) (x : Tile) : (w.setZ n x).yielded = w.yielded := rfl
@[simp] theorem Wave.setZ_passes (w : Wave) (n : Nat) (x : Tile) : (w.setZ n x).passes = w.passes := rfl
@[simp] theorem Wave.setZ_wflags (w : Wave) (n : Nat) (x : Tile) : (w.setZ n x).wflags = w.wflags := rfl
@[simp] theorem Wave.setZ_sbchk (w : Wave) (n : Nat) (x : Tile) : (w.setZ n x).sbchk = w.sbchk := rfl
@[simp] theorem Wave.setZ_tvec (w : Wave) (n : Nat) (x : Tile) : (w.setZ n x).tvec = w.tvec := rfl
@[simp] theorem Wave.setZ_tepc (w : Wave) (n : Nat) (x : Tile) : (w.setZ n x).tepc = w.tepc := rfl
@[simp] theorem Wave.setZ_cause (w : Wave) (n : Nat) (x : Tile) : (w.setZ n x).cause = w.cause := rfl
@[simp] theorem Wave.setZ_after (w : Wave) (n : Nat) (x : Tile) : (w.setZ n x).after = w.after := rfl
@[simp] theorem Wave.setZ_inh (w : Wave) (n : Nat) (x : Tile) : (w.setZ n x).inh = w.inh := rfl
@[simp] theorem Wave.setZ_info (w : Wave) (n : Nat) (x : Tile) : (w.setZ n x).info = w.info := rfl
@[simp] theorem Wave.setZ_taddr (w : Wave) (n : Nat) (x : Tile) : (w.setZ n x).taddr = w.taddr := rfl
@[simp] theorem Wave.setZ_tmask (w : Wave) (n : Nat) (x : Tile) : (w.setZ n x).tmask = w.tmask := rfl
@[simp] theorem Wave.setZ_tem (w : Wave) (n : Nat) (x : Tile) : (w.setZ n x).tem = w.tem := rfl
@[simp] theorem Wave.setZ_mmScope (w : Wave) (n : Nat) (x : Tile) : (w.setZ n x).mmScope = w.mmScope := rfl
@[simp] theorem Wave.setZ_fenceRel (w : Wave) (n : Nat) (x : Tile) : (w.setZ n x).fenceRel = w.fenceRel := rfl
@[simp] theorem Wave.setZ_relReads (w : Wave) (n : Nat) (x : Tile) : (w.setZ n x).relReads = w.relReads := rfl
@[simp] theorem Wave.setZ_openLost (w : Wave) (n : Nat) (x : Tile) : (w.setZ n x).openLost = w.openLost := rfl
@[simp] theorem Wave.setZ_mismatch (w : Wave) (n : Nat) (x : Tile) : (w.setZ n x).mismatch = w.mismatch := rfl
@[simp] theorem Wave.setZ_arrival (w : Wave) (n : Nat) (x : Tile) : (w.setZ n x).arrival = w.arrival := rfl
@[simp] theorem Wave.setZ_wait (w : Wave) (n : Nat) (x : Tile) : (w.setZ n x).wait = w.wait := rfl
@[simp] theorem Wave.setZ_waited (w : Wave) (n : Nat) (x : Tile) : (w.setZ n x).waited = w.waited := rfl
@[simp] theorem Wave.setZ_link (w : Wave) (n : Nat) (x : Tile) : (w.setZ n x).link = w.link := rfl
@[simp] theorem Wave.setZ_parkedMask (w : Wave) (n : Nat) (x : Tile) : (w.setZ n x).parkedMask = w.parkedMask := rfl
@[simp] theorem Wave.setZ_parkTok (w : Wave) (n : Nat) (x : Tile) : (w.setZ n x).parkTok = w.parkTok := rfl
@[simp] theorem Wave.setZ_wakePend (w : Wave) (n : Nat) (x : Tile) : (w.setZ n x).wakePend = w.wakePend := rfl
@[simp] theorem Wave.setZ_cmds (w : Wave) (n : Nat) (x : Tile) : (w.setZ n x).cmds = w.cmds := rfl
@[simp] theorem Wave.setZ_engErr (w : Wave) (n : Nat) (x : Tile) : (w.setZ n x).engErr = w.engErr := rfl
@[simp] theorem Wave.setZ_rays (w : Wave) (n : Nat) (x : Tile) : (w.setZ n x).rays = w.rays := rfl
@[simp] theorem Wave.setZ_segs (w : Wave) (n : Nat) (x : Tile) : (w.setZ n x).segs = w.segs := rfl
@[simp] theorem Wave.setZ_scan (w : Wave) (n : Nat) (x : Tile) : (w.setZ n x).scan = w.scan := rfl
@[simp] theorem Wave.setZ_dogCount (w : Wave) (n : Nat) (x : Tile) : (w.setZ n x).dogCount = w.dogCount := rfl
@[simp] theorem Wave.setZ_slot (w : Wave) (n : Nat) (x : Tile) : (w.setZ n x).slot = w.slot := rfl
@[simp] theorem Wave.setZ_claim (w : Wave) (n : Nat) (x : Tile) : (w.setZ n x).claim = w.claim := rfl
@[simp] theorem Wave.setZ_pendTrap (w : Wave) (n : Nat) (x : Tile) : (w.setZ n x).pendTrap = w.pendTrap := rfl
@[simp] theorem Wave.setZ_tiles (w : Wave) (n : Nat) (x : Tile) : (w.setZ n x).tiles = Table.set Tile.zero w.tiles n x := rfl

/-! ### Wave.setT -/

@[simp] theorem Wave.setT_job (w : Wave) (n : Nat) (x : Option VReg) : (w.setT n x).job = w.job := rfl
@[simp] theorem Wave.setT_gid (w : Wave) (n : Nat) (x : Option VReg) : (w.setT n x).gid = w.gid := rfl
@[simp] theorem Wave.setT_idx (w : Wave) (n : Nat) (x : Option VReg) : (w.setT n x).idx = w.idx := rfl
@[simp] theorem Wave.setT_alive (w : Wave) (n : Nat) (x : Option VReg) : (w.setT n x).alive = w.alive := rfl
@[simp] theorem Wave.setT_pc (w : Wave) (n : Nat) (x : Option VReg) : (w.setT n x).pc = w.pc := rfl
@[simp] theorem Wave.setT_npc (w : Wave) (n : Nat) (x : Option VReg) : (w.setT n x).npc = w.npc := rfl
@[simp] theorem Wave.setT_em (w : Wave) (n : Nat) (x : Option VReg) : (w.setT n x).em = w.em := rfl
@[simp] theorem Wave.setT_live (w : Wave) (n : Nat) (x : Option VReg) : (w.setT n x).live = w.live := rfl
@[simp] theorem Wave.setT_stack (w : Wave) (n : Nat) (x : Option VReg) : (w.setT n x).stack = w.stack := rfl
@[simp] theorem Wave.setT_sregs (w : Wave) (n : Nat) (x : Option VReg) : (w.setT n x).sregs = w.sregs := rfl
@[simp] theorem Wave.setT_vregs (w : Wave) (n : Nat) (x : Option VReg) : (w.setT n x).vregs = w.vregs := rfl
@[simp] theorem Wave.setT_preds (w : Wave) (n : Nat) (x : Option VReg) : (w.setT n x).preds = w.preds := rfl
@[simp] theorem Wave.setT_tiles (w : Wave) (n : Nat) (x : Option VReg) : (w.setT n x).tiles = w.tiles := rfl
@[simp] theorem Wave.setT_tokens (w : Wave) (n : Nat) (x : Option VReg) : (w.setT n x).tokens = w.tokens := rfl
@[simp] theorem Wave.setT_pend (w : Wave) (n : Nat) (x : Option VReg) : (w.setT n x).pend = w.pend := rfl
@[simp] theorem Wave.setT_port (w : Wave) (n : Nat) (x : Option VReg) : (w.setT n x).port = w.port := rfl
@[simp] theorem Wave.setT_jctl (w : Wave) (n : Nat) (x : Option VReg) : (w.setT n x).jctl = w.jctl := rfl
@[simp] theorem Wave.setT_inRun (w : Wave) (n : Nat) (x : Option VReg) : (w.setT n x).inRun = w.inRun := rfl
@[simp] theorem Wave.setT_runLen (w : Wave) (n : Nat) (x : Option VReg) : (w.setT n x).runLen = w.runLen := rfl
@[simp] theorem Wave.setT_time (w : Wave) (n : Nat) (x : Option VReg) : (w.setT n x).time = w.time := rfl
@[simp] theorem Wave.setT_late (w : Wave) (n : Nat) (x : Option VReg) : (w.setT n x).late = w.late := rfl
@[simp] theorem Wave.setT_pfx (w : Wave) (n : Nat) (x : Option VReg) : (w.setT n x).pfx = w.pfx := rfl
@[simp] theorem Wave.setT_await (w : Wave) (n : Nat) (x : Option VReg) : (w.setT n x).await = w.await := rfl
@[simp] theorem Wave.setT_yielded (w : Wave) (n : Nat) (x : Option VReg) : (w.setT n x).yielded = w.yielded := rfl
@[simp] theorem Wave.setT_passes (w : Wave) (n : Nat) (x : Option VReg) : (w.setT n x).passes = w.passes := rfl
@[simp] theorem Wave.setT_wflags (w : Wave) (n : Nat) (x : Option VReg) : (w.setT n x).wflags = w.wflags := rfl
@[simp] theorem Wave.setT_sbchk (w : Wave) (n : Nat) (x : Option VReg) : (w.setT n x).sbchk = w.sbchk := rfl
@[simp] theorem Wave.setT_tvec (w : Wave) (n : Nat) (x : Option VReg) : (w.setT n x).tvec = w.tvec := rfl
@[simp] theorem Wave.setT_tepc (w : Wave) (n : Nat) (x : Option VReg) : (w.setT n x).tepc = w.tepc := rfl
@[simp] theorem Wave.setT_cause (w : Wave) (n : Nat) (x : Option VReg) : (w.setT n x).cause = w.cause := rfl
@[simp] theorem Wave.setT_after (w : Wave) (n : Nat) (x : Option VReg) : (w.setT n x).after = w.after := rfl
@[simp] theorem Wave.setT_inh (w : Wave) (n : Nat) (x : Option VReg) : (w.setT n x).inh = w.inh := rfl
@[simp] theorem Wave.setT_info (w : Wave) (n : Nat) (x : Option VReg) : (w.setT n x).info = w.info := rfl
@[simp] theorem Wave.setT_taddr (w : Wave) (n : Nat) (x : Option VReg) : (w.setT n x).taddr = w.taddr := rfl
@[simp] theorem Wave.setT_tmask (w : Wave) (n : Nat) (x : Option VReg) : (w.setT n x).tmask = w.tmask := rfl
@[simp] theorem Wave.setT_tem (w : Wave) (n : Nat) (x : Option VReg) : (w.setT n x).tem = w.tem := rfl
@[simp] theorem Wave.setT_mmScope (w : Wave) (n : Nat) (x : Option VReg) : (w.setT n x).mmScope = w.mmScope := rfl
@[simp] theorem Wave.setT_fenceRel (w : Wave) (n : Nat) (x : Option VReg) : (w.setT n x).fenceRel = w.fenceRel := rfl
@[simp] theorem Wave.setT_relReads (w : Wave) (n : Nat) (x : Option VReg) : (w.setT n x).relReads = w.relReads := rfl
@[simp] theorem Wave.setT_openLost (w : Wave) (n : Nat) (x : Option VReg) : (w.setT n x).openLost = w.openLost := rfl
@[simp] theorem Wave.setT_mismatch (w : Wave) (n : Nat) (x : Option VReg) : (w.setT n x).mismatch = w.mismatch := rfl
@[simp] theorem Wave.setT_arrival (w : Wave) (n : Nat) (x : Option VReg) : (w.setT n x).arrival = w.arrival := rfl
@[simp] theorem Wave.setT_wait (w : Wave) (n : Nat) (x : Option VReg) : (w.setT n x).wait = w.wait := rfl
@[simp] theorem Wave.setT_waited (w : Wave) (n : Nat) (x : Option VReg) : (w.setT n x).waited = w.waited := rfl
@[simp] theorem Wave.setT_link (w : Wave) (n : Nat) (x : Option VReg) : (w.setT n x).link = w.link := rfl
@[simp] theorem Wave.setT_parkedMask (w : Wave) (n : Nat) (x : Option VReg) : (w.setT n x).parkedMask = w.parkedMask := rfl
@[simp] theorem Wave.setT_parkTok (w : Wave) (n : Nat) (x : Option VReg) : (w.setT n x).parkTok = w.parkTok := rfl
@[simp] theorem Wave.setT_wakePend (w : Wave) (n : Nat) (x : Option VReg) : (w.setT n x).wakePend = w.wakePend := rfl
@[simp] theorem Wave.setT_cmds (w : Wave) (n : Nat) (x : Option VReg) : (w.setT n x).cmds = w.cmds := rfl
@[simp] theorem Wave.setT_engErr (w : Wave) (n : Nat) (x : Option VReg) : (w.setT n x).engErr = w.engErr := rfl
@[simp] theorem Wave.setT_rays (w : Wave) (n : Nat) (x : Option VReg) : (w.setT n x).rays = w.rays := rfl
@[simp] theorem Wave.setT_segs (w : Wave) (n : Nat) (x : Option VReg) : (w.setT n x).segs = w.segs := rfl
@[simp] theorem Wave.setT_scan (w : Wave) (n : Nat) (x : Option VReg) : (w.setT n x).scan = w.scan := rfl
@[simp] theorem Wave.setT_dogCount (w : Wave) (n : Nat) (x : Option VReg) : (w.setT n x).dogCount = w.dogCount := rfl
@[simp] theorem Wave.setT_slot (w : Wave) (n : Nat) (x : Option VReg) : (w.setT n x).slot = w.slot := rfl
@[simp] theorem Wave.setT_claim (w : Wave) (n : Nat) (x : Option VReg) : (w.setT n x).claim = w.claim := rfl
@[simp] theorem Wave.setT_pendTrap (w : Wave) (n : Nat) (x : Option VReg) : (w.setT n x).pendTrap = w.pendTrap := rfl

/-! ### Wave.log -/

@[simp] theorem Wave.log_job (w : Wave) (o : Opnd) (old : OldVal) (l : Lat) : (w.log o old l).job = w.job := rfl
@[simp] theorem Wave.log_gid (w : Wave) (o : Opnd) (old : OldVal) (l : Lat) : (w.log o old l).gid = w.gid := rfl
@[simp] theorem Wave.log_idx (w : Wave) (o : Opnd) (old : OldVal) (l : Lat) : (w.log o old l).idx = w.idx := rfl
@[simp] theorem Wave.log_alive (w : Wave) (o : Opnd) (old : OldVal) (l : Lat) : (w.log o old l).alive = w.alive := rfl
@[simp] theorem Wave.log_pc (w : Wave) (o : Opnd) (old : OldVal) (l : Lat) : (w.log o old l).pc = w.pc := rfl
@[simp] theorem Wave.log_npc (w : Wave) (o : Opnd) (old : OldVal) (l : Lat) : (w.log o old l).npc = w.npc := rfl
@[simp] theorem Wave.log_em (w : Wave) (o : Opnd) (old : OldVal) (l : Lat) : (w.log o old l).em = w.em := rfl
@[simp] theorem Wave.log_live (w : Wave) (o : Opnd) (old : OldVal) (l : Lat) : (w.log o old l).live = w.live := rfl
@[simp] theorem Wave.log_stack (w : Wave) (o : Opnd) (old : OldVal) (l : Lat) : (w.log o old l).stack = w.stack := rfl
@[simp] theorem Wave.log_sregs (w : Wave) (o : Opnd) (old : OldVal) (l : Lat) : (w.log o old l).sregs = w.sregs := rfl
@[simp] theorem Wave.log_vregs (w : Wave) (o : Opnd) (old : OldVal) (l : Lat) : (w.log o old l).vregs = w.vregs := rfl
@[simp] theorem Wave.log_temps (w : Wave) (o : Opnd) (old : OldVal) (l : Lat) : (w.log o old l).temps = w.temps := rfl
@[simp] theorem Wave.log_preds (w : Wave) (o : Opnd) (old : OldVal) (l : Lat) : (w.log o old l).preds = w.preds := rfl
@[simp] theorem Wave.log_tiles (w : Wave) (o : Opnd) (old : OldVal) (l : Lat) : (w.log o old l).tiles = w.tiles := rfl
@[simp] theorem Wave.log_tokens (w : Wave) (o : Opnd) (old : OldVal) (l : Lat) : (w.log o old l).tokens = w.tokens := rfl
@[simp] theorem Wave.log_pend (w : Wave) (o : Opnd) (old : OldVal) (l : Lat) : (w.log o old l).pend = w.pend := rfl
@[simp] theorem Wave.log_port (w : Wave) (o : Opnd) (old : OldVal) (l : Lat) : (w.log o old l).port = w.port := rfl
@[simp] theorem Wave.log_jctl (w : Wave) (o : Opnd) (old : OldVal) (l : Lat) : (w.log o old l).jctl = w.jctl := rfl
@[simp] theorem Wave.log_inRun (w : Wave) (o : Opnd) (old : OldVal) (l : Lat) : (w.log o old l).inRun = w.inRun := rfl
@[simp] theorem Wave.log_runLen (w : Wave) (o : Opnd) (old : OldVal) (l : Lat) : (w.log o old l).runLen = w.runLen := rfl
@[simp] theorem Wave.log_time (w : Wave) (o : Opnd) (old : OldVal) (l : Lat) : (w.log o old l).time = w.time := rfl
@[simp] theorem Wave.log_pfx (w : Wave) (o : Opnd) (old : OldVal) (l : Lat) : (w.log o old l).pfx = w.pfx := rfl
@[simp] theorem Wave.log_await (w : Wave) (o : Opnd) (old : OldVal) (l : Lat) : (w.log o old l).await = w.await := rfl
@[simp] theorem Wave.log_yielded (w : Wave) (o : Opnd) (old : OldVal) (l : Lat) : (w.log o old l).yielded = w.yielded := rfl
@[simp] theorem Wave.log_passes (w : Wave) (o : Opnd) (old : OldVal) (l : Lat) : (w.log o old l).passes = w.passes := rfl
@[simp] theorem Wave.log_wflags (w : Wave) (o : Opnd) (old : OldVal) (l : Lat) : (w.log o old l).wflags = w.wflags := rfl
@[simp] theorem Wave.log_sbchk (w : Wave) (o : Opnd) (old : OldVal) (l : Lat) : (w.log o old l).sbchk = w.sbchk := rfl
@[simp] theorem Wave.log_tvec (w : Wave) (o : Opnd) (old : OldVal) (l : Lat) : (w.log o old l).tvec = w.tvec := rfl
@[simp] theorem Wave.log_tepc (w : Wave) (o : Opnd) (old : OldVal) (l : Lat) : (w.log o old l).tepc = w.tepc := rfl
@[simp] theorem Wave.log_cause (w : Wave) (o : Opnd) (old : OldVal) (l : Lat) : (w.log o old l).cause = w.cause := rfl
@[simp] theorem Wave.log_after (w : Wave) (o : Opnd) (old : OldVal) (l : Lat) : (w.log o old l).after = w.after := rfl
@[simp] theorem Wave.log_inh (w : Wave) (o : Opnd) (old : OldVal) (l : Lat) : (w.log o old l).inh = w.inh := rfl
@[simp] theorem Wave.log_info (w : Wave) (o : Opnd) (old : OldVal) (l : Lat) : (w.log o old l).info = w.info := rfl
@[simp] theorem Wave.log_taddr (w : Wave) (o : Opnd) (old : OldVal) (l : Lat) : (w.log o old l).taddr = w.taddr := rfl
@[simp] theorem Wave.log_tmask (w : Wave) (o : Opnd) (old : OldVal) (l : Lat) : (w.log o old l).tmask = w.tmask := rfl
@[simp] theorem Wave.log_tem (w : Wave) (o : Opnd) (old : OldVal) (l : Lat) : (w.log o old l).tem = w.tem := rfl
@[simp] theorem Wave.log_mmScope (w : Wave) (o : Opnd) (old : OldVal) (l : Lat) : (w.log o old l).mmScope = w.mmScope := rfl
@[simp] theorem Wave.log_fenceRel (w : Wave) (o : Opnd) (old : OldVal) (l : Lat) : (w.log o old l).fenceRel = w.fenceRel := rfl
@[simp] theorem Wave.log_relReads (w : Wave) (o : Opnd) (old : OldVal) (l : Lat) : (w.log o old l).relReads = w.relReads := rfl
@[simp] theorem Wave.log_openLost (w : Wave) (o : Opnd) (old : OldVal) (l : Lat) : (w.log o old l).openLost = w.openLost := rfl
@[simp] theorem Wave.log_mismatch (w : Wave) (o : Opnd) (old : OldVal) (l : Lat) : (w.log o old l).mismatch = w.mismatch := rfl
@[simp] theorem Wave.log_arrival (w : Wave) (o : Opnd) (old : OldVal) (l : Lat) : (w.log o old l).arrival = w.arrival := rfl
@[simp] theorem Wave.log_wait (w : Wave) (o : Opnd) (old : OldVal) (l : Lat) : (w.log o old l).wait = w.wait := rfl
@[simp] theorem Wave.log_waited (w : Wave) (o : Opnd) (old : OldVal) (l : Lat) : (w.log o old l).waited = w.waited := rfl
@[simp] theorem Wave.log_link (w : Wave) (o : Opnd) (old : OldVal) (l : Lat) : (w.log o old l).link = w.link := rfl
@[simp] theorem Wave.log_parkedMask (w : Wave) (o : Opnd) (old : OldVal) (l : Lat) : (w.log o old l).parkedMask = w.parkedMask := rfl
@[simp] theorem Wave.log_parkTok (w : Wave) (o : Opnd) (old : OldVal) (l : Lat) : (w.log o old l).parkTok = w.parkTok := rfl
@[simp] theorem Wave.log_wakePend (w : Wave) (o : Opnd) (old : OldVal) (l : Lat) : (w.log o old l).wakePend = w.wakePend := rfl
@[simp] theorem Wave.log_cmds (w : Wave) (o : Opnd) (old : OldVal) (l : Lat) : (w.log o old l).cmds = w.cmds := rfl
@[simp] theorem Wave.log_engErr (w : Wave) (o : Opnd) (old : OldVal) (l : Lat) : (w.log o old l).engErr = w.engErr := rfl
@[simp] theorem Wave.log_rays (w : Wave) (o : Opnd) (old : OldVal) (l : Lat) : (w.log o old l).rays = w.rays := rfl
@[simp] theorem Wave.log_segs (w : Wave) (o : Opnd) (old : OldVal) (l : Lat) : (w.log o old l).segs = w.segs := rfl
@[simp] theorem Wave.log_scan (w : Wave) (o : Opnd) (old : OldVal) (l : Lat) : (w.log o old l).scan = w.scan := rfl
@[simp] theorem Wave.log_dogCount (w : Wave) (o : Opnd) (old : OldVal) (l : Lat) : (w.log o old l).dogCount = w.dogCount := rfl
@[simp] theorem Wave.log_slot (w : Wave) (o : Opnd) (old : OldVal) (l : Lat) : (w.log o old l).slot = w.slot := rfl
@[simp] theorem Wave.log_claim (w : Wave) (o : Opnd) (old : OldVal) (l : Lat) : (w.log o old l).claim = w.claim := rfl
@[simp] theorem Wave.log_pendTrap (w : Wave) (o : Opnd) (old : OldVal) (l : Lat) : (w.log o old l).pendTrap = w.pendTrap := rfl

/-! ### Wave.writeV -/

@[simp] theorem Wave.writeV_job (w : Wave) (n : Fin 320) (m : Mask) (l : Lat) (tag : BitVec 4) (x : Lanes) : (w.writeV n m l tag x).job = w.job := rfl
@[simp] theorem Wave.writeV_gid (w : Wave) (n : Fin 320) (m : Mask) (l : Lat) (tag : BitVec 4) (x : Lanes) : (w.writeV n m l tag x).gid = w.gid := rfl
@[simp] theorem Wave.writeV_idx (w : Wave) (n : Fin 320) (m : Mask) (l : Lat) (tag : BitVec 4) (x : Lanes) : (w.writeV n m l tag x).idx = w.idx := rfl
@[simp] theorem Wave.writeV_alive (w : Wave) (n : Fin 320) (m : Mask) (l : Lat) (tag : BitVec 4) (x : Lanes) : (w.writeV n m l tag x).alive = w.alive := rfl
@[simp] theorem Wave.writeV_pc (w : Wave) (n : Fin 320) (m : Mask) (l : Lat) (tag : BitVec 4) (x : Lanes) : (w.writeV n m l tag x).pc = w.pc := rfl
@[simp] theorem Wave.writeV_npc (w : Wave) (n : Fin 320) (m : Mask) (l : Lat) (tag : BitVec 4) (x : Lanes) : (w.writeV n m l tag x).npc = w.npc := rfl
@[simp] theorem Wave.writeV_em (w : Wave) (n : Fin 320) (m : Mask) (l : Lat) (tag : BitVec 4) (x : Lanes) : (w.writeV n m l tag x).em = w.em := rfl
@[simp] theorem Wave.writeV_live (w : Wave) (n : Fin 320) (m : Mask) (l : Lat) (tag : BitVec 4) (x : Lanes) : (w.writeV n m l tag x).live = w.live := rfl
@[simp] theorem Wave.writeV_stack (w : Wave) (n : Fin 320) (m : Mask) (l : Lat) (tag : BitVec 4) (x : Lanes) : (w.writeV n m l tag x).stack = w.stack := rfl
@[simp] theorem Wave.writeV_sregs (w : Wave) (n : Fin 320) (m : Mask) (l : Lat) (tag : BitVec 4) (x : Lanes) : (w.writeV n m l tag x).sregs = w.sregs := rfl
@[simp] theorem Wave.writeV_temps (w : Wave) (n : Fin 320) (m : Mask) (l : Lat) (tag : BitVec 4) (x : Lanes) : (w.writeV n m l tag x).temps = w.temps := rfl
@[simp] theorem Wave.writeV_preds (w : Wave) (n : Fin 320) (m : Mask) (l : Lat) (tag : BitVec 4) (x : Lanes) : (w.writeV n m l tag x).preds = w.preds := rfl
@[simp] theorem Wave.writeV_tiles (w : Wave) (n : Fin 320) (m : Mask) (l : Lat) (tag : BitVec 4) (x : Lanes) : (w.writeV n m l tag x).tiles = w.tiles := rfl
@[simp] theorem Wave.writeV_tokens (w : Wave) (n : Fin 320) (m : Mask) (l : Lat) (tag : BitVec 4) (x : Lanes) : (w.writeV n m l tag x).tokens = w.tokens := rfl
@[simp] theorem Wave.writeV_pend (w : Wave) (n : Fin 320) (m : Mask) (l : Lat) (tag : BitVec 4) (x : Lanes) : (w.writeV n m l tag x).pend = w.pend := rfl
@[simp] theorem Wave.writeV_port (w : Wave) (n : Fin 320) (m : Mask) (l : Lat) (tag : BitVec 4) (x : Lanes) : (w.writeV n m l tag x).port = w.port := rfl
@[simp] theorem Wave.writeV_jctl (w : Wave) (n : Fin 320) (m : Mask) (l : Lat) (tag : BitVec 4) (x : Lanes) : (w.writeV n m l tag x).jctl = w.jctl := rfl
@[simp] theorem Wave.writeV_inRun (w : Wave) (n : Fin 320) (m : Mask) (l : Lat) (tag : BitVec 4) (x : Lanes) : (w.writeV n m l tag x).inRun = w.inRun := rfl
@[simp] theorem Wave.writeV_runLen (w : Wave) (n : Fin 320) (m : Mask) (l : Lat) (tag : BitVec 4) (x : Lanes) : (w.writeV n m l tag x).runLen = w.runLen := rfl
@[simp] theorem Wave.writeV_time (w : Wave) (n : Fin 320) (m : Mask) (l : Lat) (tag : BitVec 4) (x : Lanes) : (w.writeV n m l tag x).time = w.time := rfl
@[simp] theorem Wave.writeV_pfx (w : Wave) (n : Fin 320) (m : Mask) (l : Lat) (tag : BitVec 4) (x : Lanes) : (w.writeV n m l tag x).pfx = w.pfx := rfl
@[simp] theorem Wave.writeV_await (w : Wave) (n : Fin 320) (m : Mask) (l : Lat) (tag : BitVec 4) (x : Lanes) : (w.writeV n m l tag x).await = w.await := rfl
@[simp] theorem Wave.writeV_yielded (w : Wave) (n : Fin 320) (m : Mask) (l : Lat) (tag : BitVec 4) (x : Lanes) : (w.writeV n m l tag x).yielded = w.yielded := rfl
@[simp] theorem Wave.writeV_passes (w : Wave) (n : Fin 320) (m : Mask) (l : Lat) (tag : BitVec 4) (x : Lanes) : (w.writeV n m l tag x).passes = w.passes := rfl
@[simp] theorem Wave.writeV_wflags (w : Wave) (n : Fin 320) (m : Mask) (l : Lat) (tag : BitVec 4) (x : Lanes) : (w.writeV n m l tag x).wflags = w.wflags := rfl
@[simp] theorem Wave.writeV_sbchk (w : Wave) (n : Fin 320) (m : Mask) (l : Lat) (tag : BitVec 4) (x : Lanes) : (w.writeV n m l tag x).sbchk = w.sbchk := rfl
@[simp] theorem Wave.writeV_tvec (w : Wave) (n : Fin 320) (m : Mask) (l : Lat) (tag : BitVec 4) (x : Lanes) : (w.writeV n m l tag x).tvec = w.tvec := rfl
@[simp] theorem Wave.writeV_tepc (w : Wave) (n : Fin 320) (m : Mask) (l : Lat) (tag : BitVec 4) (x : Lanes) : (w.writeV n m l tag x).tepc = w.tepc := rfl
@[simp] theorem Wave.writeV_cause (w : Wave) (n : Fin 320) (m : Mask) (l : Lat) (tag : BitVec 4) (x : Lanes) : (w.writeV n m l tag x).cause = w.cause := rfl
@[simp] theorem Wave.writeV_after (w : Wave) (n : Fin 320) (m : Mask) (l : Lat) (tag : BitVec 4) (x : Lanes) : (w.writeV n m l tag x).after = w.after := rfl
@[simp] theorem Wave.writeV_inh (w : Wave) (n : Fin 320) (m : Mask) (l : Lat) (tag : BitVec 4) (x : Lanes) : (w.writeV n m l tag x).inh = w.inh := rfl
@[simp] theorem Wave.writeV_info (w : Wave) (n : Fin 320) (m : Mask) (l : Lat) (tag : BitVec 4) (x : Lanes) : (w.writeV n m l tag x).info = w.info := rfl
@[simp] theorem Wave.writeV_taddr (w : Wave) (n : Fin 320) (m : Mask) (l : Lat) (tag : BitVec 4) (x : Lanes) : (w.writeV n m l tag x).taddr = w.taddr := rfl
@[simp] theorem Wave.writeV_tmask (w : Wave) (n : Fin 320) (m : Mask) (l : Lat) (tag : BitVec 4) (x : Lanes) : (w.writeV n m l tag x).tmask = w.tmask := rfl
@[simp] theorem Wave.writeV_tem (w : Wave) (n : Fin 320) (m : Mask) (l : Lat) (tag : BitVec 4) (x : Lanes) : (w.writeV n m l tag x).tem = w.tem := rfl
@[simp] theorem Wave.writeV_mmScope (w : Wave) (n : Fin 320) (m : Mask) (l : Lat) (tag : BitVec 4) (x : Lanes) : (w.writeV n m l tag x).mmScope = w.mmScope := rfl
@[simp] theorem Wave.writeV_fenceRel (w : Wave) (n : Fin 320) (m : Mask) (l : Lat) (tag : BitVec 4) (x : Lanes) : (w.writeV n m l tag x).fenceRel = w.fenceRel := rfl
@[simp] theorem Wave.writeV_relReads (w : Wave) (n : Fin 320) (m : Mask) (l : Lat) (tag : BitVec 4) (x : Lanes) : (w.writeV n m l tag x).relReads = w.relReads := rfl
@[simp] theorem Wave.writeV_openLost (w : Wave) (n : Fin 320) (m : Mask) (l : Lat) (tag : BitVec 4) (x : Lanes) : (w.writeV n m l tag x).openLost = w.openLost := rfl
@[simp] theorem Wave.writeV_mismatch (w : Wave) (n : Fin 320) (m : Mask) (l : Lat) (tag : BitVec 4) (x : Lanes) : (w.writeV n m l tag x).mismatch = w.mismatch := rfl
@[simp] theorem Wave.writeV_arrival (w : Wave) (n : Fin 320) (m : Mask) (l : Lat) (tag : BitVec 4) (x : Lanes) : (w.writeV n m l tag x).arrival = w.arrival := rfl
@[simp] theorem Wave.writeV_wait (w : Wave) (n : Fin 320) (m : Mask) (l : Lat) (tag : BitVec 4) (x : Lanes) : (w.writeV n m l tag x).wait = w.wait := rfl
@[simp] theorem Wave.writeV_waited (w : Wave) (n : Fin 320) (m : Mask) (l : Lat) (tag : BitVec 4) (x : Lanes) : (w.writeV n m l tag x).waited = w.waited := rfl
@[simp] theorem Wave.writeV_link (w : Wave) (n : Fin 320) (m : Mask) (l : Lat) (tag : BitVec 4) (x : Lanes) : (w.writeV n m l tag x).link = w.link := rfl
@[simp] theorem Wave.writeV_parkedMask (w : Wave) (n : Fin 320) (m : Mask) (l : Lat) (tag : BitVec 4) (x : Lanes) : (w.writeV n m l tag x).parkedMask = w.parkedMask := rfl
@[simp] theorem Wave.writeV_parkTok (w : Wave) (n : Fin 320) (m : Mask) (l : Lat) (tag : BitVec 4) (x : Lanes) : (w.writeV n m l tag x).parkTok = w.parkTok := rfl
@[simp] theorem Wave.writeV_wakePend (w : Wave) (n : Fin 320) (m : Mask) (l : Lat) (tag : BitVec 4) (x : Lanes) : (w.writeV n m l tag x).wakePend = w.wakePend := rfl
@[simp] theorem Wave.writeV_cmds (w : Wave) (n : Fin 320) (m : Mask) (l : Lat) (tag : BitVec 4) (x : Lanes) : (w.writeV n m l tag x).cmds = w.cmds := rfl
@[simp] theorem Wave.writeV_engErr (w : Wave) (n : Fin 320) (m : Mask) (l : Lat) (tag : BitVec 4) (x : Lanes) : (w.writeV n m l tag x).engErr = w.engErr := rfl
@[simp] theorem Wave.writeV_rays (w : Wave) (n : Fin 320) (m : Mask) (l : Lat) (tag : BitVec 4) (x : Lanes) : (w.writeV n m l tag x).rays = w.rays := rfl
@[simp] theorem Wave.writeV_segs (w : Wave) (n : Fin 320) (m : Mask) (l : Lat) (tag : BitVec 4) (x : Lanes) : (w.writeV n m l tag x).segs = w.segs := rfl
@[simp] theorem Wave.writeV_scan (w : Wave) (n : Fin 320) (m : Mask) (l : Lat) (tag : BitVec 4) (x : Lanes) : (w.writeV n m l tag x).scan = w.scan := rfl
@[simp] theorem Wave.writeV_dogCount (w : Wave) (n : Fin 320) (m : Mask) (l : Lat) (tag : BitVec 4) (x : Lanes) : (w.writeV n m l tag x).dogCount = w.dogCount := rfl
@[simp] theorem Wave.writeV_slot (w : Wave) (n : Fin 320) (m : Mask) (l : Lat) (tag : BitVec 4) (x : Lanes) : (w.writeV n m l tag x).slot = w.slot := rfl
@[simp] theorem Wave.writeV_claim (w : Wave) (n : Fin 320) (m : Mask) (l : Lat) (tag : BitVec 4) (x : Lanes) : (w.writeV n m l tag x).claim = w.claim := rfl
@[simp] theorem Wave.writeV_pendTrap (w : Wave) (n : Fin 320) (m : Mask) (l : Lat) (tag : BitVec 4) (x : Lanes) : (w.writeV n m l tag x).pendTrap = w.pendTrap := rfl

/-! ### Wave.writeT -/

@[simp] theorem Wave.writeT_job (w : Wave) (n : Fin 8) (m : Mask) (l : Lat) (tag : BitVec 4) (x b : Lanes) : (w.writeT n m l tag x b).job = w.job := rfl
@[simp] theorem Wave.writeT_gid (w : Wave) (n : Fin 8) (m : Mask) (l : Lat) (tag : BitVec 4) (x b : Lanes) : (w.writeT n m l tag x b).gid = w.gid := rfl
@[simp] theorem Wave.writeT_idx (w : Wave) (n : Fin 8) (m : Mask) (l : Lat) (tag : BitVec 4) (x b : Lanes) : (w.writeT n m l tag x b).idx = w.idx := rfl
@[simp] theorem Wave.writeT_alive (w : Wave) (n : Fin 8) (m : Mask) (l : Lat) (tag : BitVec 4) (x b : Lanes) : (w.writeT n m l tag x b).alive = w.alive := rfl
@[simp] theorem Wave.writeT_pc (w : Wave) (n : Fin 8) (m : Mask) (l : Lat) (tag : BitVec 4) (x b : Lanes) : (w.writeT n m l tag x b).pc = w.pc := rfl
@[simp] theorem Wave.writeT_npc (w : Wave) (n : Fin 8) (m : Mask) (l : Lat) (tag : BitVec 4) (x b : Lanes) : (w.writeT n m l tag x b).npc = w.npc := rfl
@[simp] theorem Wave.writeT_em (w : Wave) (n : Fin 8) (m : Mask) (l : Lat) (tag : BitVec 4) (x b : Lanes) : (w.writeT n m l tag x b).em = w.em := rfl
@[simp] theorem Wave.writeT_live (w : Wave) (n : Fin 8) (m : Mask) (l : Lat) (tag : BitVec 4) (x b : Lanes) : (w.writeT n m l tag x b).live = w.live := rfl
@[simp] theorem Wave.writeT_stack (w : Wave) (n : Fin 8) (m : Mask) (l : Lat) (tag : BitVec 4) (x b : Lanes) : (w.writeT n m l tag x b).stack = w.stack := rfl
@[simp] theorem Wave.writeT_sregs (w : Wave) (n : Fin 8) (m : Mask) (l : Lat) (tag : BitVec 4) (x b : Lanes) : (w.writeT n m l tag x b).sregs = w.sregs := rfl
@[simp] theorem Wave.writeT_vregs (w : Wave) (n : Fin 8) (m : Mask) (l : Lat) (tag : BitVec 4) (x b : Lanes) : (w.writeT n m l tag x b).vregs = w.vregs := rfl
@[simp] theorem Wave.writeT_preds (w : Wave) (n : Fin 8) (m : Mask) (l : Lat) (tag : BitVec 4) (x b : Lanes) : (w.writeT n m l tag x b).preds = w.preds := rfl
@[simp] theorem Wave.writeT_tiles (w : Wave) (n : Fin 8) (m : Mask) (l : Lat) (tag : BitVec 4) (x b : Lanes) : (w.writeT n m l tag x b).tiles = w.tiles := rfl
@[simp] theorem Wave.writeT_tokens (w : Wave) (n : Fin 8) (m : Mask) (l : Lat) (tag : BitVec 4) (x b : Lanes) : (w.writeT n m l tag x b).tokens = w.tokens := rfl
@[simp] theorem Wave.writeT_pend (w : Wave) (n : Fin 8) (m : Mask) (l : Lat) (tag : BitVec 4) (x b : Lanes) : (w.writeT n m l tag x b).pend = w.pend := rfl
@[simp] theorem Wave.writeT_port (w : Wave) (n : Fin 8) (m : Mask) (l : Lat) (tag : BitVec 4) (x b : Lanes) : (w.writeT n m l tag x b).port = w.port := rfl
@[simp] theorem Wave.writeT_jctl (w : Wave) (n : Fin 8) (m : Mask) (l : Lat) (tag : BitVec 4) (x b : Lanes) : (w.writeT n m l tag x b).jctl = w.jctl := rfl
@[simp] theorem Wave.writeT_inRun (w : Wave) (n : Fin 8) (m : Mask) (l : Lat) (tag : BitVec 4) (x b : Lanes) : (w.writeT n m l tag x b).inRun = w.inRun := rfl
@[simp] theorem Wave.writeT_runLen (w : Wave) (n : Fin 8) (m : Mask) (l : Lat) (tag : BitVec 4) (x b : Lanes) : (w.writeT n m l tag x b).runLen = w.runLen := rfl
@[simp] theorem Wave.writeT_time (w : Wave) (n : Fin 8) (m : Mask) (l : Lat) (tag : BitVec 4) (x b : Lanes) : (w.writeT n m l tag x b).time = w.time := rfl
@[simp] theorem Wave.writeT_pfx (w : Wave) (n : Fin 8) (m : Mask) (l : Lat) (tag : BitVec 4) (x b : Lanes) : (w.writeT n m l tag x b).pfx = w.pfx := rfl
@[simp] theorem Wave.writeT_await (w : Wave) (n : Fin 8) (m : Mask) (l : Lat) (tag : BitVec 4) (x b : Lanes) : (w.writeT n m l tag x b).await = w.await := rfl
@[simp] theorem Wave.writeT_yielded (w : Wave) (n : Fin 8) (m : Mask) (l : Lat) (tag : BitVec 4) (x b : Lanes) : (w.writeT n m l tag x b).yielded = w.yielded := rfl
@[simp] theorem Wave.writeT_passes (w : Wave) (n : Fin 8) (m : Mask) (l : Lat) (tag : BitVec 4) (x b : Lanes) : (w.writeT n m l tag x b).passes = w.passes := rfl
@[simp] theorem Wave.writeT_wflags (w : Wave) (n : Fin 8) (m : Mask) (l : Lat) (tag : BitVec 4) (x b : Lanes) : (w.writeT n m l tag x b).wflags = w.wflags := rfl
@[simp] theorem Wave.writeT_sbchk (w : Wave) (n : Fin 8) (m : Mask) (l : Lat) (tag : BitVec 4) (x b : Lanes) : (w.writeT n m l tag x b).sbchk = w.sbchk := rfl
@[simp] theorem Wave.writeT_tvec (w : Wave) (n : Fin 8) (m : Mask) (l : Lat) (tag : BitVec 4) (x b : Lanes) : (w.writeT n m l tag x b).tvec = w.tvec := rfl
@[simp] theorem Wave.writeT_tepc (w : Wave) (n : Fin 8) (m : Mask) (l : Lat) (tag : BitVec 4) (x b : Lanes) : (w.writeT n m l tag x b).tepc = w.tepc := rfl
@[simp] theorem Wave.writeT_cause (w : Wave) (n : Fin 8) (m : Mask) (l : Lat) (tag : BitVec 4) (x b : Lanes) : (w.writeT n m l tag x b).cause = w.cause := rfl
@[simp] theorem Wave.writeT_after (w : Wave) (n : Fin 8) (m : Mask) (l : Lat) (tag : BitVec 4) (x b : Lanes) : (w.writeT n m l tag x b).after = w.after := rfl
@[simp] theorem Wave.writeT_inh (w : Wave) (n : Fin 8) (m : Mask) (l : Lat) (tag : BitVec 4) (x b : Lanes) : (w.writeT n m l tag x b).inh = w.inh := rfl
@[simp] theorem Wave.writeT_info (w : Wave) (n : Fin 8) (m : Mask) (l : Lat) (tag : BitVec 4) (x b : Lanes) : (w.writeT n m l tag x b).info = w.info := rfl
@[simp] theorem Wave.writeT_taddr (w : Wave) (n : Fin 8) (m : Mask) (l : Lat) (tag : BitVec 4) (x b : Lanes) : (w.writeT n m l tag x b).taddr = w.taddr := rfl
@[simp] theorem Wave.writeT_tmask (w : Wave) (n : Fin 8) (m : Mask) (l : Lat) (tag : BitVec 4) (x b : Lanes) : (w.writeT n m l tag x b).tmask = w.tmask := rfl
@[simp] theorem Wave.writeT_tem (w : Wave) (n : Fin 8) (m : Mask) (l : Lat) (tag : BitVec 4) (x b : Lanes) : (w.writeT n m l tag x b).tem = w.tem := rfl
@[simp] theorem Wave.writeT_mmScope (w : Wave) (n : Fin 8) (m : Mask) (l : Lat) (tag : BitVec 4) (x b : Lanes) : (w.writeT n m l tag x b).mmScope = w.mmScope := rfl
@[simp] theorem Wave.writeT_fenceRel (w : Wave) (n : Fin 8) (m : Mask) (l : Lat) (tag : BitVec 4) (x b : Lanes) : (w.writeT n m l tag x b).fenceRel = w.fenceRel := rfl
@[simp] theorem Wave.writeT_relReads (w : Wave) (n : Fin 8) (m : Mask) (l : Lat) (tag : BitVec 4) (x b : Lanes) : (w.writeT n m l tag x b).relReads = w.relReads := rfl
@[simp] theorem Wave.writeT_openLost (w : Wave) (n : Fin 8) (m : Mask) (l : Lat) (tag : BitVec 4) (x b : Lanes) : (w.writeT n m l tag x b).openLost = w.openLost := rfl
@[simp] theorem Wave.writeT_mismatch (w : Wave) (n : Fin 8) (m : Mask) (l : Lat) (tag : BitVec 4) (x b : Lanes) : (w.writeT n m l tag x b).mismatch = w.mismatch := rfl
@[simp] theorem Wave.writeT_arrival (w : Wave) (n : Fin 8) (m : Mask) (l : Lat) (tag : BitVec 4) (x b : Lanes) : (w.writeT n m l tag x b).arrival = w.arrival := rfl
@[simp] theorem Wave.writeT_wait (w : Wave) (n : Fin 8) (m : Mask) (l : Lat) (tag : BitVec 4) (x b : Lanes) : (w.writeT n m l tag x b).wait = w.wait := rfl
@[simp] theorem Wave.writeT_waited (w : Wave) (n : Fin 8) (m : Mask) (l : Lat) (tag : BitVec 4) (x b : Lanes) : (w.writeT n m l tag x b).waited = w.waited := rfl
@[simp] theorem Wave.writeT_link (w : Wave) (n : Fin 8) (m : Mask) (l : Lat) (tag : BitVec 4) (x b : Lanes) : (w.writeT n m l tag x b).link = w.link := rfl
@[simp] theorem Wave.writeT_parkedMask (w : Wave) (n : Fin 8) (m : Mask) (l : Lat) (tag : BitVec 4) (x b : Lanes) : (w.writeT n m l tag x b).parkedMask = w.parkedMask := rfl
@[simp] theorem Wave.writeT_parkTok (w : Wave) (n : Fin 8) (m : Mask) (l : Lat) (tag : BitVec 4) (x b : Lanes) : (w.writeT n m l tag x b).parkTok = w.parkTok := rfl
@[simp] theorem Wave.writeT_wakePend (w : Wave) (n : Fin 8) (m : Mask) (l : Lat) (tag : BitVec 4) (x b : Lanes) : (w.writeT n m l tag x b).wakePend = w.wakePend := rfl
@[simp] theorem Wave.writeT_cmds (w : Wave) (n : Fin 8) (m : Mask) (l : Lat) (tag : BitVec 4) (x b : Lanes) : (w.writeT n m l tag x b).cmds = w.cmds := rfl
@[simp] theorem Wave.writeT_engErr (w : Wave) (n : Fin 8) (m : Mask) (l : Lat) (tag : BitVec 4) (x b : Lanes) : (w.writeT n m l tag x b).engErr = w.engErr := rfl
@[simp] theorem Wave.writeT_rays (w : Wave) (n : Fin 8) (m : Mask) (l : Lat) (tag : BitVec 4) (x b : Lanes) : (w.writeT n m l tag x b).rays = w.rays := rfl
@[simp] theorem Wave.writeT_segs (w : Wave) (n : Fin 8) (m : Mask) (l : Lat) (tag : BitVec 4) (x b : Lanes) : (w.writeT n m l tag x b).segs = w.segs := rfl
@[simp] theorem Wave.writeT_scan (w : Wave) (n : Fin 8) (m : Mask) (l : Lat) (tag : BitVec 4) (x b : Lanes) : (w.writeT n m l tag x b).scan = w.scan := rfl
@[simp] theorem Wave.writeT_dogCount (w : Wave) (n : Fin 8) (m : Mask) (l : Lat) (tag : BitVec 4) (x b : Lanes) : (w.writeT n m l tag x b).dogCount = w.dogCount := rfl
@[simp] theorem Wave.writeT_slot (w : Wave) (n : Fin 8) (m : Mask) (l : Lat) (tag : BitVec 4) (x b : Lanes) : (w.writeT n m l tag x b).slot = w.slot := rfl
@[simp] theorem Wave.writeT_claim (w : Wave) (n : Fin 8) (m : Mask) (l : Lat) (tag : BitVec 4) (x b : Lanes) : (w.writeT n m l tag x b).claim = w.claim := rfl
@[simp] theorem Wave.writeT_pendTrap (w : Wave) (n : Fin 8) (m : Mask) (l : Lat) (tag : BitVec 4) (x b : Lanes) : (w.writeT n m l tag x b).pendTrap = w.pendTrap := rfl

/-! ### Wave.writeS -/

@[simp] theorem Wave.writeS_job (w : Wave) (n : Fin 128) (l : Lat) (x : Word) : (w.writeS n l x).job = w.job := rfl
@[simp] theorem Wave.writeS_gid (w : Wave) (n : Fin 128) (l : Lat) (x : Word) : (w.writeS n l x).gid = w.gid := rfl
@[simp] theorem Wave.writeS_idx (w : Wave) (n : Fin 128) (l : Lat) (x : Word) : (w.writeS n l x).idx = w.idx := rfl
@[simp] theorem Wave.writeS_alive (w : Wave) (n : Fin 128) (l : Lat) (x : Word) : (w.writeS n l x).alive = w.alive := rfl
@[simp] theorem Wave.writeS_pc (w : Wave) (n : Fin 128) (l : Lat) (x : Word) : (w.writeS n l x).pc = w.pc := rfl
@[simp] theorem Wave.writeS_npc (w : Wave) (n : Fin 128) (l : Lat) (x : Word) : (w.writeS n l x).npc = w.npc := rfl
@[simp] theorem Wave.writeS_em (w : Wave) (n : Fin 128) (l : Lat) (x : Word) : (w.writeS n l x).em = w.em := rfl
@[simp] theorem Wave.writeS_live (w : Wave) (n : Fin 128) (l : Lat) (x : Word) : (w.writeS n l x).live = w.live := rfl
@[simp] theorem Wave.writeS_stack (w : Wave) (n : Fin 128) (l : Lat) (x : Word) : (w.writeS n l x).stack = w.stack := rfl
@[simp] theorem Wave.writeS_vregs (w : Wave) (n : Fin 128) (l : Lat) (x : Word) : (w.writeS n l x).vregs = w.vregs := rfl
@[simp] theorem Wave.writeS_temps (w : Wave) (n : Fin 128) (l : Lat) (x : Word) : (w.writeS n l x).temps = w.temps := rfl
@[simp] theorem Wave.writeS_preds (w : Wave) (n : Fin 128) (l : Lat) (x : Word) : (w.writeS n l x).preds = w.preds := rfl
@[simp] theorem Wave.writeS_tiles (w : Wave) (n : Fin 128) (l : Lat) (x : Word) : (w.writeS n l x).tiles = w.tiles := rfl
@[simp] theorem Wave.writeS_tokens (w : Wave) (n : Fin 128) (l : Lat) (x : Word) : (w.writeS n l x).tokens = w.tokens := rfl
@[simp] theorem Wave.writeS_pend (w : Wave) (n : Fin 128) (l : Lat) (x : Word) : (w.writeS n l x).pend = w.pend := rfl
@[simp] theorem Wave.writeS_port (w : Wave) (n : Fin 128) (l : Lat) (x : Word) : (w.writeS n l x).port = w.port := rfl
@[simp] theorem Wave.writeS_jctl (w : Wave) (n : Fin 128) (l : Lat) (x : Word) : (w.writeS n l x).jctl = w.jctl := rfl
@[simp] theorem Wave.writeS_inRun (w : Wave) (n : Fin 128) (l : Lat) (x : Word) : (w.writeS n l x).inRun = w.inRun := rfl
@[simp] theorem Wave.writeS_runLen (w : Wave) (n : Fin 128) (l : Lat) (x : Word) : (w.writeS n l x).runLen = w.runLen := rfl
@[simp] theorem Wave.writeS_time (w : Wave) (n : Fin 128) (l : Lat) (x : Word) : (w.writeS n l x).time = w.time := rfl
@[simp] theorem Wave.writeS_pfx (w : Wave) (n : Fin 128) (l : Lat) (x : Word) : (w.writeS n l x).pfx = w.pfx := rfl
@[simp] theorem Wave.writeS_await (w : Wave) (n : Fin 128) (l : Lat) (x : Word) : (w.writeS n l x).await = w.await := rfl
@[simp] theorem Wave.writeS_yielded (w : Wave) (n : Fin 128) (l : Lat) (x : Word) : (w.writeS n l x).yielded = w.yielded := rfl
@[simp] theorem Wave.writeS_passes (w : Wave) (n : Fin 128) (l : Lat) (x : Word) : (w.writeS n l x).passes = w.passes := rfl
@[simp] theorem Wave.writeS_wflags (w : Wave) (n : Fin 128) (l : Lat) (x : Word) : (w.writeS n l x).wflags = w.wflags := rfl
@[simp] theorem Wave.writeS_sbchk (w : Wave) (n : Fin 128) (l : Lat) (x : Word) : (w.writeS n l x).sbchk = w.sbchk := rfl
@[simp] theorem Wave.writeS_tvec (w : Wave) (n : Fin 128) (l : Lat) (x : Word) : (w.writeS n l x).tvec = w.tvec := rfl
@[simp] theorem Wave.writeS_tepc (w : Wave) (n : Fin 128) (l : Lat) (x : Word) : (w.writeS n l x).tepc = w.tepc := rfl
@[simp] theorem Wave.writeS_cause (w : Wave) (n : Fin 128) (l : Lat) (x : Word) : (w.writeS n l x).cause = w.cause := rfl
@[simp] theorem Wave.writeS_after (w : Wave) (n : Fin 128) (l : Lat) (x : Word) : (w.writeS n l x).after = w.after := rfl
@[simp] theorem Wave.writeS_inh (w : Wave) (n : Fin 128) (l : Lat) (x : Word) : (w.writeS n l x).inh = w.inh := rfl
@[simp] theorem Wave.writeS_info (w : Wave) (n : Fin 128) (l : Lat) (x : Word) : (w.writeS n l x).info = w.info := rfl
@[simp] theorem Wave.writeS_taddr (w : Wave) (n : Fin 128) (l : Lat) (x : Word) : (w.writeS n l x).taddr = w.taddr := rfl
@[simp] theorem Wave.writeS_tmask (w : Wave) (n : Fin 128) (l : Lat) (x : Word) : (w.writeS n l x).tmask = w.tmask := rfl
@[simp] theorem Wave.writeS_tem (w : Wave) (n : Fin 128) (l : Lat) (x : Word) : (w.writeS n l x).tem = w.tem := rfl
@[simp] theorem Wave.writeS_mmScope (w : Wave) (n : Fin 128) (l : Lat) (x : Word) : (w.writeS n l x).mmScope = w.mmScope := rfl
@[simp] theorem Wave.writeS_fenceRel (w : Wave) (n : Fin 128) (l : Lat) (x : Word) : (w.writeS n l x).fenceRel = w.fenceRel := rfl
@[simp] theorem Wave.writeS_relReads (w : Wave) (n : Fin 128) (l : Lat) (x : Word) : (w.writeS n l x).relReads = w.relReads := rfl
@[simp] theorem Wave.writeS_openLost (w : Wave) (n : Fin 128) (l : Lat) (x : Word) : (w.writeS n l x).openLost = w.openLost := rfl
@[simp] theorem Wave.writeS_mismatch (w : Wave) (n : Fin 128) (l : Lat) (x : Word) : (w.writeS n l x).mismatch = w.mismatch := rfl
@[simp] theorem Wave.writeS_arrival (w : Wave) (n : Fin 128) (l : Lat) (x : Word) : (w.writeS n l x).arrival = w.arrival := rfl
@[simp] theorem Wave.writeS_wait (w : Wave) (n : Fin 128) (l : Lat) (x : Word) : (w.writeS n l x).wait = w.wait := rfl
@[simp] theorem Wave.writeS_waited (w : Wave) (n : Fin 128) (l : Lat) (x : Word) : (w.writeS n l x).waited = w.waited := rfl
@[simp] theorem Wave.writeS_link (w : Wave) (n : Fin 128) (l : Lat) (x : Word) : (w.writeS n l x).link = w.link := rfl
@[simp] theorem Wave.writeS_parkedMask (w : Wave) (n : Fin 128) (l : Lat) (x : Word) : (w.writeS n l x).parkedMask = w.parkedMask := rfl
@[simp] theorem Wave.writeS_parkTok (w : Wave) (n : Fin 128) (l : Lat) (x : Word) : (w.writeS n l x).parkTok = w.parkTok := rfl
@[simp] theorem Wave.writeS_wakePend (w : Wave) (n : Fin 128) (l : Lat) (x : Word) : (w.writeS n l x).wakePend = w.wakePend := rfl
@[simp] theorem Wave.writeS_cmds (w : Wave) (n : Fin 128) (l : Lat) (x : Word) : (w.writeS n l x).cmds = w.cmds := rfl
@[simp] theorem Wave.writeS_engErr (w : Wave) (n : Fin 128) (l : Lat) (x : Word) : (w.writeS n l x).engErr = w.engErr := rfl
@[simp] theorem Wave.writeS_rays (w : Wave) (n : Fin 128) (l : Lat) (x : Word) : (w.writeS n l x).rays = w.rays := rfl
@[simp] theorem Wave.writeS_segs (w : Wave) (n : Fin 128) (l : Lat) (x : Word) : (w.writeS n l x).segs = w.segs := rfl
@[simp] theorem Wave.writeS_scan (w : Wave) (n : Fin 128) (l : Lat) (x : Word) : (w.writeS n l x).scan = w.scan := rfl
@[simp] theorem Wave.writeS_dogCount (w : Wave) (n : Fin 128) (l : Lat) (x : Word) : (w.writeS n l x).dogCount = w.dogCount := rfl
@[simp] theorem Wave.writeS_slot (w : Wave) (n : Fin 128) (l : Lat) (x : Word) : (w.writeS n l x).slot = w.slot := rfl
@[simp] theorem Wave.writeS_claim (w : Wave) (n : Fin 128) (l : Lat) (x : Word) : (w.writeS n l x).claim = w.claim := rfl
@[simp] theorem Wave.writeS_pendTrap (w : Wave) (n : Fin 128) (l : Lat) (x : Word) : (w.writeS n l x).pendTrap = w.pendTrap := rfl

/-! ### Wave.writeP -/

@[simp] theorem Wave.writeP_job (w : Wave) (n : Fin 16) (m : Mask) (l : Lat) (x : Mask) : (w.writeP n m l x).job = w.job := rfl
@[simp] theorem Wave.writeP_gid (w : Wave) (n : Fin 16) (m : Mask) (l : Lat) (x : Mask) : (w.writeP n m l x).gid = w.gid := rfl
@[simp] theorem Wave.writeP_idx (w : Wave) (n : Fin 16) (m : Mask) (l : Lat) (x : Mask) : (w.writeP n m l x).idx = w.idx := rfl
@[simp] theorem Wave.writeP_alive (w : Wave) (n : Fin 16) (m : Mask) (l : Lat) (x : Mask) : (w.writeP n m l x).alive = w.alive := rfl
@[simp] theorem Wave.writeP_pc (w : Wave) (n : Fin 16) (m : Mask) (l : Lat) (x : Mask) : (w.writeP n m l x).pc = w.pc := rfl
@[simp] theorem Wave.writeP_npc (w : Wave) (n : Fin 16) (m : Mask) (l : Lat) (x : Mask) : (w.writeP n m l x).npc = w.npc := rfl
@[simp] theorem Wave.writeP_em (w : Wave) (n : Fin 16) (m : Mask) (l : Lat) (x : Mask) : (w.writeP n m l x).em = w.em := rfl
@[simp] theorem Wave.writeP_live (w : Wave) (n : Fin 16) (m : Mask) (l : Lat) (x : Mask) : (w.writeP n m l x).live = w.live := rfl
@[simp] theorem Wave.writeP_stack (w : Wave) (n : Fin 16) (m : Mask) (l : Lat) (x : Mask) : (w.writeP n m l x).stack = w.stack := rfl
@[simp] theorem Wave.writeP_sregs (w : Wave) (n : Fin 16) (m : Mask) (l : Lat) (x : Mask) : (w.writeP n m l x).sregs = w.sregs := rfl
@[simp] theorem Wave.writeP_vregs (w : Wave) (n : Fin 16) (m : Mask) (l : Lat) (x : Mask) : (w.writeP n m l x).vregs = w.vregs := rfl
@[simp] theorem Wave.writeP_temps (w : Wave) (n : Fin 16) (m : Mask) (l : Lat) (x : Mask) : (w.writeP n m l x).temps = w.temps := rfl
@[simp] theorem Wave.writeP_tiles (w : Wave) (n : Fin 16) (m : Mask) (l : Lat) (x : Mask) : (w.writeP n m l x).tiles = w.tiles := rfl
@[simp] theorem Wave.writeP_tokens (w : Wave) (n : Fin 16) (m : Mask) (l : Lat) (x : Mask) : (w.writeP n m l x).tokens = w.tokens := rfl
@[simp] theorem Wave.writeP_pend (w : Wave) (n : Fin 16) (m : Mask) (l : Lat) (x : Mask) : (w.writeP n m l x).pend = w.pend := rfl
@[simp] theorem Wave.writeP_port (w : Wave) (n : Fin 16) (m : Mask) (l : Lat) (x : Mask) : (w.writeP n m l x).port = w.port := rfl
@[simp] theorem Wave.writeP_jctl (w : Wave) (n : Fin 16) (m : Mask) (l : Lat) (x : Mask) : (w.writeP n m l x).jctl = w.jctl := rfl
@[simp] theorem Wave.writeP_inRun (w : Wave) (n : Fin 16) (m : Mask) (l : Lat) (x : Mask) : (w.writeP n m l x).inRun = w.inRun := rfl
@[simp] theorem Wave.writeP_runLen (w : Wave) (n : Fin 16) (m : Mask) (l : Lat) (x : Mask) : (w.writeP n m l x).runLen = w.runLen := rfl
@[simp] theorem Wave.writeP_time (w : Wave) (n : Fin 16) (m : Mask) (l : Lat) (x : Mask) : (w.writeP n m l x).time = w.time := rfl
@[simp] theorem Wave.writeP_pfx (w : Wave) (n : Fin 16) (m : Mask) (l : Lat) (x : Mask) : (w.writeP n m l x).pfx = w.pfx := rfl
@[simp] theorem Wave.writeP_await (w : Wave) (n : Fin 16) (m : Mask) (l : Lat) (x : Mask) : (w.writeP n m l x).await = w.await := rfl
@[simp] theorem Wave.writeP_yielded (w : Wave) (n : Fin 16) (m : Mask) (l : Lat) (x : Mask) : (w.writeP n m l x).yielded = w.yielded := rfl
@[simp] theorem Wave.writeP_passes (w : Wave) (n : Fin 16) (m : Mask) (l : Lat) (x : Mask) : (w.writeP n m l x).passes = w.passes := rfl
@[simp] theorem Wave.writeP_wflags (w : Wave) (n : Fin 16) (m : Mask) (l : Lat) (x : Mask) : (w.writeP n m l x).wflags = w.wflags := rfl
@[simp] theorem Wave.writeP_sbchk (w : Wave) (n : Fin 16) (m : Mask) (l : Lat) (x : Mask) : (w.writeP n m l x).sbchk = w.sbchk := rfl
@[simp] theorem Wave.writeP_tvec (w : Wave) (n : Fin 16) (m : Mask) (l : Lat) (x : Mask) : (w.writeP n m l x).tvec = w.tvec := rfl
@[simp] theorem Wave.writeP_tepc (w : Wave) (n : Fin 16) (m : Mask) (l : Lat) (x : Mask) : (w.writeP n m l x).tepc = w.tepc := rfl
@[simp] theorem Wave.writeP_cause (w : Wave) (n : Fin 16) (m : Mask) (l : Lat) (x : Mask) : (w.writeP n m l x).cause = w.cause := rfl
@[simp] theorem Wave.writeP_after (w : Wave) (n : Fin 16) (m : Mask) (l : Lat) (x : Mask) : (w.writeP n m l x).after = w.after := rfl
@[simp] theorem Wave.writeP_inh (w : Wave) (n : Fin 16) (m : Mask) (l : Lat) (x : Mask) : (w.writeP n m l x).inh = w.inh := rfl
@[simp] theorem Wave.writeP_info (w : Wave) (n : Fin 16) (m : Mask) (l : Lat) (x : Mask) : (w.writeP n m l x).info = w.info := rfl
@[simp] theorem Wave.writeP_taddr (w : Wave) (n : Fin 16) (m : Mask) (l : Lat) (x : Mask) : (w.writeP n m l x).taddr = w.taddr := rfl
@[simp] theorem Wave.writeP_tmask (w : Wave) (n : Fin 16) (m : Mask) (l : Lat) (x : Mask) : (w.writeP n m l x).tmask = w.tmask := rfl
@[simp] theorem Wave.writeP_tem (w : Wave) (n : Fin 16) (m : Mask) (l : Lat) (x : Mask) : (w.writeP n m l x).tem = w.tem := rfl
@[simp] theorem Wave.writeP_mmScope (w : Wave) (n : Fin 16) (m : Mask) (l : Lat) (x : Mask) : (w.writeP n m l x).mmScope = w.mmScope := rfl
@[simp] theorem Wave.writeP_fenceRel (w : Wave) (n : Fin 16) (m : Mask) (l : Lat) (x : Mask) : (w.writeP n m l x).fenceRel = w.fenceRel := rfl
@[simp] theorem Wave.writeP_relReads (w : Wave) (n : Fin 16) (m : Mask) (l : Lat) (x : Mask) : (w.writeP n m l x).relReads = w.relReads := rfl
@[simp] theorem Wave.writeP_openLost (w : Wave) (n : Fin 16) (m : Mask) (l : Lat) (x : Mask) : (w.writeP n m l x).openLost = w.openLost := rfl
@[simp] theorem Wave.writeP_mismatch (w : Wave) (n : Fin 16) (m : Mask) (l : Lat) (x : Mask) : (w.writeP n m l x).mismatch = w.mismatch := rfl
@[simp] theorem Wave.writeP_arrival (w : Wave) (n : Fin 16) (m : Mask) (l : Lat) (x : Mask) : (w.writeP n m l x).arrival = w.arrival := rfl
@[simp] theorem Wave.writeP_wait (w : Wave) (n : Fin 16) (m : Mask) (l : Lat) (x : Mask) : (w.writeP n m l x).wait = w.wait := rfl
@[simp] theorem Wave.writeP_waited (w : Wave) (n : Fin 16) (m : Mask) (l : Lat) (x : Mask) : (w.writeP n m l x).waited = w.waited := rfl
@[simp] theorem Wave.writeP_link (w : Wave) (n : Fin 16) (m : Mask) (l : Lat) (x : Mask) : (w.writeP n m l x).link = w.link := rfl
@[simp] theorem Wave.writeP_parkedMask (w : Wave) (n : Fin 16) (m : Mask) (l : Lat) (x : Mask) : (w.writeP n m l x).parkedMask = w.parkedMask := rfl
@[simp] theorem Wave.writeP_parkTok (w : Wave) (n : Fin 16) (m : Mask) (l : Lat) (x : Mask) : (w.writeP n m l x).parkTok = w.parkTok := rfl
@[simp] theorem Wave.writeP_wakePend (w : Wave) (n : Fin 16) (m : Mask) (l : Lat) (x : Mask) : (w.writeP n m l x).wakePend = w.wakePend := rfl
@[simp] theorem Wave.writeP_cmds (w : Wave) (n : Fin 16) (m : Mask) (l : Lat) (x : Mask) : (w.writeP n m l x).cmds = w.cmds := rfl
@[simp] theorem Wave.writeP_engErr (w : Wave) (n : Fin 16) (m : Mask) (l : Lat) (x : Mask) : (w.writeP n m l x).engErr = w.engErr := rfl
@[simp] theorem Wave.writeP_rays (w : Wave) (n : Fin 16) (m : Mask) (l : Lat) (x : Mask) : (w.writeP n m l x).rays = w.rays := rfl
@[simp] theorem Wave.writeP_segs (w : Wave) (n : Fin 16) (m : Mask) (l : Lat) (x : Mask) : (w.writeP n m l x).segs = w.segs := rfl
@[simp] theorem Wave.writeP_scan (w : Wave) (n : Fin 16) (m : Mask) (l : Lat) (x : Mask) : (w.writeP n m l x).scan = w.scan := rfl
@[simp] theorem Wave.writeP_dogCount (w : Wave) (n : Fin 16) (m : Mask) (l : Lat) (x : Mask) : (w.writeP n m l x).dogCount = w.dogCount := rfl
@[simp] theorem Wave.writeP_slot (w : Wave) (n : Fin 16) (m : Mask) (l : Lat) (x : Mask) : (w.writeP n m l x).slot = w.slot := rfl
@[simp] theorem Wave.writeP_claim (w : Wave) (n : Fin 16) (m : Mask) (l : Lat) (x : Mask) : (w.writeP n m l x).claim = w.claim := rfl
@[simp] theorem Wave.writeP_pendTrap (w : Wave) (n : Fin 16) (m : Mask) (l : Lat) (x : Mask) : (w.writeP n m l x).pendTrap = w.pendTrap := rfl

/-! ### Wave.closeRun -/

@[simp] theorem Wave.closeRun_job (w : Wave) (a : BitVec 6) (y : Bool) : (w.closeRun a y).job = w.job := rfl
@[simp] theorem Wave.closeRun_gid (w : Wave) (a : BitVec 6) (y : Bool) : (w.closeRun a y).gid = w.gid := rfl
@[simp] theorem Wave.closeRun_idx (w : Wave) (a : BitVec 6) (y : Bool) : (w.closeRun a y).idx = w.idx := rfl
@[simp] theorem Wave.closeRun_alive (w : Wave) (a : BitVec 6) (y : Bool) : (w.closeRun a y).alive = w.alive := rfl
@[simp] theorem Wave.closeRun_pc (w : Wave) (a : BitVec 6) (y : Bool) : (w.closeRun a y).pc = w.pc := rfl
@[simp] theorem Wave.closeRun_npc (w : Wave) (a : BitVec 6) (y : Bool) : (w.closeRun a y).npc = w.npc := rfl
@[simp] theorem Wave.closeRun_em (w : Wave) (a : BitVec 6) (y : Bool) : (w.closeRun a y).em = w.em := rfl
@[simp] theorem Wave.closeRun_live (w : Wave) (a : BitVec 6) (y : Bool) : (w.closeRun a y).live = w.live := rfl
@[simp] theorem Wave.closeRun_stack (w : Wave) (a : BitVec 6) (y : Bool) : (w.closeRun a y).stack = w.stack := rfl
@[simp] theorem Wave.closeRun_sregs (w : Wave) (a : BitVec 6) (y : Bool) : (w.closeRun a y).sregs = w.sregs := rfl
@[simp] theorem Wave.closeRun_vregs (w : Wave) (a : BitVec 6) (y : Bool) : (w.closeRun a y).vregs = w.vregs := rfl
@[simp] theorem Wave.closeRun_preds (w : Wave) (a : BitVec 6) (y : Bool) : (w.closeRun a y).preds = w.preds := rfl
@[simp] theorem Wave.closeRun_tiles (w : Wave) (a : BitVec 6) (y : Bool) : (w.closeRun a y).tiles = w.tiles := rfl
@[simp] theorem Wave.closeRun_tokens (w : Wave) (a : BitVec 6) (y : Bool) : (w.closeRun a y).tokens = w.tokens := rfl
@[simp] theorem Wave.closeRun_pend (w : Wave) (a : BitVec 6) (y : Bool) : (w.closeRun a y).pend = w.pend := rfl
@[simp] theorem Wave.closeRun_port (w : Wave) (a : BitVec 6) (y : Bool) : (w.closeRun a y).port = w.port := rfl
@[simp] theorem Wave.closeRun_jctl (w : Wave) (a : BitVec 6) (y : Bool) : (w.closeRun a y).jctl = w.jctl := rfl
@[simp] theorem Wave.closeRun_passes (w : Wave) (a : BitVec 6) (y : Bool) : (w.closeRun a y).passes = w.passes := rfl
@[simp] theorem Wave.closeRun_wflags (w : Wave) (a : BitVec 6) (y : Bool) : (w.closeRun a y).wflags = w.wflags := rfl
@[simp] theorem Wave.closeRun_sbchk (w : Wave) (a : BitVec 6) (y : Bool) : (w.closeRun a y).sbchk = w.sbchk := rfl
@[simp] theorem Wave.closeRun_tvec (w : Wave) (a : BitVec 6) (y : Bool) : (w.closeRun a y).tvec = w.tvec := rfl
@[simp] theorem Wave.closeRun_tepc (w : Wave) (a : BitVec 6) (y : Bool) : (w.closeRun a y).tepc = w.tepc := rfl
@[simp] theorem Wave.closeRun_cause (w : Wave) (a : BitVec 6) (y : Bool) : (w.closeRun a y).cause = w.cause := rfl
@[simp] theorem Wave.closeRun_after (w : Wave) (a : BitVec 6) (y : Bool) : (w.closeRun a y).after = w.after := rfl
@[simp] theorem Wave.closeRun_inh (w : Wave) (a : BitVec 6) (y : Bool) : (w.closeRun a y).inh = w.inh := rfl
@[simp] theorem Wave.closeRun_info (w : Wave) (a : BitVec 6) (y : Bool) : (w.closeRun a y).info = w.info := rfl
@[simp] theorem Wave.closeRun_taddr (w : Wave) (a : BitVec 6) (y : Bool) : (w.closeRun a y).taddr = w.taddr := rfl
@[simp] theorem Wave.closeRun_tmask (w : Wave) (a : BitVec 6) (y : Bool) : (w.closeRun a y).tmask = w.tmask := rfl
@[simp] theorem Wave.closeRun_tem (w : Wave) (a : BitVec 6) (y : Bool) : (w.closeRun a y).tem = w.tem := rfl
@[simp] theorem Wave.closeRun_mmScope (w : Wave) (a : BitVec 6) (y : Bool) : (w.closeRun a y).mmScope = w.mmScope := rfl
@[simp] theorem Wave.closeRun_fenceRel (w : Wave) (a : BitVec 6) (y : Bool) : (w.closeRun a y).fenceRel = w.fenceRel := rfl
@[simp] theorem Wave.closeRun_relReads (w : Wave) (a : BitVec 6) (y : Bool) : (w.closeRun a y).relReads = w.relReads := rfl
@[simp] theorem Wave.closeRun_openLost (w : Wave) (a : BitVec 6) (y : Bool) : (w.closeRun a y).openLost = w.openLost := rfl
@[simp] theorem Wave.closeRun_mismatch (w : Wave) (a : BitVec 6) (y : Bool) : (w.closeRun a y).mismatch = w.mismatch := rfl
@[simp] theorem Wave.closeRun_arrival (w : Wave) (a : BitVec 6) (y : Bool) : (w.closeRun a y).arrival = w.arrival := rfl
@[simp] theorem Wave.closeRun_wait (w : Wave) (a : BitVec 6) (y : Bool) : (w.closeRun a y).wait = w.wait := rfl
@[simp] theorem Wave.closeRun_link (w : Wave) (a : BitVec 6) (y : Bool) : (w.closeRun a y).link = w.link := rfl
@[simp] theorem Wave.closeRun_parkedMask (w : Wave) (a : BitVec 6) (y : Bool) : (w.closeRun a y).parkedMask = w.parkedMask := rfl
@[simp] theorem Wave.closeRun_parkTok (w : Wave) (a : BitVec 6) (y : Bool) : (w.closeRun a y).parkTok = w.parkTok := rfl
@[simp] theorem Wave.closeRun_wakePend (w : Wave) (a : BitVec 6) (y : Bool) : (w.closeRun a y).wakePend = w.wakePend := rfl
@[simp] theorem Wave.closeRun_cmds (w : Wave) (a : BitVec 6) (y : Bool) : (w.closeRun a y).cmds = w.cmds := rfl
@[simp] theorem Wave.closeRun_engErr (w : Wave) (a : BitVec 6) (y : Bool) : (w.closeRun a y).engErr = w.engErr := rfl
@[simp] theorem Wave.closeRun_rays (w : Wave) (a : BitVec 6) (y : Bool) : (w.closeRun a y).rays = w.rays := rfl
@[simp] theorem Wave.closeRun_segs (w : Wave) (a : BitVec 6) (y : Bool) : (w.closeRun a y).segs = w.segs := rfl
@[simp] theorem Wave.closeRun_scan (w : Wave) (a : BitVec 6) (y : Bool) : (w.closeRun a y).scan = w.scan := rfl
@[simp] theorem Wave.closeRun_slot (w : Wave) (a : BitVec 6) (y : Bool) : (w.closeRun a y).slot = w.slot := rfl
@[simp] theorem Wave.closeRun_claim (w : Wave) (a : BitVec 6) (y : Bool) : (w.closeRun a y).claim = w.claim := rfl
@[simp] theorem Wave.closeRun_pendTrap (w : Wave) (a : BitVec 6) (y : Bool) : (w.closeRun a y).pendTrap = w.pendTrap := rfl
@[simp] theorem Wave.closeRun_inRun (w : Wave) (a : BitVec 6) (y : Bool) : (w.closeRun a y).inRun = false := rfl
@[simp] theorem Wave.closeRun_late (w : Wave) (a : BitVec 6) (y : Bool) : (w.closeRun a y).late = [] := rfl
@[simp] theorem Wave.closeRun_temps (w : Wave) (a : BitVec 6) (y : Bool) : (w.closeRun a y).temps = [] := rfl
@[simp] theorem Wave.closeRun_runLen (w : Wave) (a : BitVec 6) (y : Bool) : (w.closeRun a y).runLen = 0 := rfl
@[simp] theorem Wave.closeRun_time (w : Wave) (a : BitVec 6) (y : Bool) : (w.closeRun a y).time = 0 := rfl
@[simp] theorem Wave.closeRun_await (w : Wave) (a : BitVec 6) (y : Bool) : (w.closeRun a y).await = a := rfl
@[simp] theorem Wave.closeRun_yielded (w : Wave) (a : BitVec 6) (y : Bool) : (w.closeRun a y).yielded = (y || (!w.inRun && w.yielded)) := rfl

/-! ### State.setTower -/

@[simp] theorem State.setTower_wave (s : State) (t : TowerId) (x : Tower) : (s.setTower t x).wave = s.wave := by unfold State.setTower; split <;> rfl
@[simp] theorem State.setTower_group (s : State) (t : TowerId) (x : Tower) : (s.setTower t x).group = s.group := by unfold State.setTower; split <;> rfl
@[simp] theorem State.setTower_waves (s : State) (t : TowerId) (x : Tower) : (s.setTower t x).waves = s.waves := by unfold State.setTower; split <;> rfl
@[simp] theorem State.setTower_groups (s : State) (t : TowerId) (x : Tower) : (s.setTower t x).groups = s.groups := by unfold State.setTower; split <;> rfl
@[simp] theorem State.setTower_units (s : State) (t : TowerId) (x : Tower) : (s.setTower t x).units = s.units := by unfold State.setTower; split <;> rfl
@[simp] theorem State.setTower_launches (s : State) (t : TowerId) (x : Tower) : (s.setTower t x).launches = s.launches := by unfold State.setTower; split <;> rfl
@[simp] theorem State.setTower_jobs (s : State) (t : TowerId) (x : Tower) : (s.setTower t x).jobs = s.jobs := by unfold State.setTower; split <;> rfl
@[simp] theorem State.setTower_levels (s : State) (t : TowerId) (x : Tower) : (s.setTower t x).levels = s.levels := by unfold State.setTower; split <;> rfl
@[simp] theorem State.setTower_plq (s : State) (t : TowerId) (x : Tower) : (s.setTower t x).plq = s.plq := by unfold State.setTower; split <;> rfl
@[simp] theorem State.setTower_held (s : State) (t : TowerId) (x : Tower) : (s.setTower t x).held = s.held := by unfold State.setTower; split <;> rfl
@[simp] theorem State.setTower_mem (s : State) (t : TowerId) (x : Tower) : (s.setTower t x).mem = s.mem := by unfold State.setTower; split <;> rfl
@[simp] theorem State.setTower_locals (s : State) (t : TowerId) (x : Tower) : (s.setTower t x).locals = s.locals := by unfold State.setTower; split <;> rfl
@[simp] theorem State.setTower_poison (s : State) (t : TowerId) (x : Tower) : (s.setTower t x).poison = s.poison := by unfold State.setTower; split <;> rfl
@[simp] theorem State.setTower_opens (s : State) (t : TowerId) (x : Tower) : (s.setTower t x).opens = s.opens := by unfold State.setTower; split <;> rfl
@[simp] theorem State.setTower_rels (s : State) (t : TowerId) (x : Tower) : (s.setTower t x).rels = s.rels := by unfold State.setTower; split <;> rfl
@[simp] theorem State.setTower_link (s : State) (t : TowerId) (x : Tower) : (s.setTower t x).link = s.link := by unfold State.setTower; split <;> rfl
@[simp] theorem State.setTower_fuses (s : State) (t : TowerId) (x : Tower) : (s.setTower t x).fuses = s.fuses := by unfold State.setTower; split <;> rfl
@[simp] theorem State.setTower_remote (s : State) (t : TowerId) (x : Tower) : (s.setTower t x).remote = s.remote := by unfold State.setTower; split <;> rfl
@[simp] theorem State.setTower_migs (s : State) (t : TowerId) (x : Tower) : (s.setTower t x).migs = s.migs := by unfold State.setTower; split <;> rfl
@[simp] theorem State.setTower_powerNow (s : State) (t : TowerId) (x : Tower) : (s.setTower t x).powerNow = s.powerNow := by unfold State.setTower; split <;> rfl
@[simp] theorem State.setTower_powerNext (s : State) (t : TowerId) (x : Tower) : (s.setTower t x).powerNext = s.powerNext := by unfold State.setTower; split <;> rfl
@[simp] theorem State.setTower_clockStop (s : State) (t : TowerId) (x : Tower) : (s.setTower t x).clockStop = s.clockStop := by unfold State.setTower; split <;> rfl
@[simp] theorem State.setTower_clkGoal (s : State) (t : TowerId) (x : Tower) : (s.setTower t x).clkGoal = s.clkGoal := by unfold State.setTower; split <;> rfl
@[simp] theorem State.setTower_hot (s : State) (t : TowerId) (x : Tower) : (s.setTower t x).hot = s.hot := by unfold State.setTower; split <;> rfl
@[simp] theorem State.setTower_hostHeld (s : State) (t : TowerId) (x : Tower) : (s.setTower t x).hostHeld = s.hostHeld := by unfold State.setTower; split <;> rfl
@[simp] theorem State.setTower_inbox (s : State) (t : TowerId) (x : Tower) : (s.setTower t x).inbox = s.inbox := by unfold State.setTower; split <;> rfl
@[simp] theorem State.setTower_turns (s : State) (t : TowerId) (x : Tower) : (s.setTower t x).turns = s.turns := by unfold State.setTower; split <;> rfl
@[simp] theorem State.setTower_ctrHits (s : State) (t : TowerId) (x : Tower) : (s.setTower t x).ctrHits = s.ctrHits := by unfold State.setTower; split <;> rfl
@[simp] theorem State.setTower_stalled (s : State) (t : TowerId) (x : Tower) : (s.setTower t x).stalled = s.stalled := by unfold State.setTower; split <;> rfl
@[simp] theorem State.setTower_free (s : State) (t : TowerId) (x : Tower) : (s.setTower t x).free = s.free := by unfold State.setTower; split <;> rfl
@[simp] theorem State.setTower_seq (s : State) (t : TowerId) (x : Tower) : (s.setTower t x).seq = s.seq := by unfold State.setTower; split <;> rfl

/-! ### State.mapTower -/

@[simp] theorem State.mapTower_wave (s : State) (t : TowerId) (g : Tower → Tower) : (s.mapTower t g).wave = s.wave := by simp [State.mapTower]
@[simp] theorem State.mapTower_group (s : State) (t : TowerId) (g : Tower → Tower) : (s.mapTower t g).group = s.group := by simp [State.mapTower]
@[simp] theorem State.mapTower_waves (s : State) (t : TowerId) (g : Tower → Tower) : (s.mapTower t g).waves = s.waves := by simp [State.mapTower]
@[simp] theorem State.mapTower_groups (s : State) (t : TowerId) (g : Tower → Tower) : (s.mapTower t g).groups = s.groups := by simp [State.mapTower]
@[simp] theorem State.mapTower_units (s : State) (t : TowerId) (g : Tower → Tower) : (s.mapTower t g).units = s.units := by simp [State.mapTower]
@[simp] theorem State.mapTower_launches (s : State) (t : TowerId) (g : Tower → Tower) : (s.mapTower t g).launches = s.launches := by simp [State.mapTower]
@[simp] theorem State.mapTower_jobs (s : State) (t : TowerId) (g : Tower → Tower) : (s.mapTower t g).jobs = s.jobs := by simp [State.mapTower]
@[simp] theorem State.mapTower_levels (s : State) (t : TowerId) (g : Tower → Tower) : (s.mapTower t g).levels = s.levels := by simp [State.mapTower]
@[simp] theorem State.mapTower_plq (s : State) (t : TowerId) (g : Tower → Tower) : (s.mapTower t g).plq = s.plq := by simp [State.mapTower]
@[simp] theorem State.mapTower_held (s : State) (t : TowerId) (g : Tower → Tower) : (s.mapTower t g).held = s.held := by simp [State.mapTower]
@[simp] theorem State.mapTower_mem (s : State) (t : TowerId) (g : Tower → Tower) : (s.mapTower t g).mem = s.mem := by simp [State.mapTower]
@[simp] theorem State.mapTower_locals (s : State) (t : TowerId) (g : Tower → Tower) : (s.mapTower t g).locals = s.locals := by simp [State.mapTower]
@[simp] theorem State.mapTower_poison (s : State) (t : TowerId) (g : Tower → Tower) : (s.mapTower t g).poison = s.poison := by simp [State.mapTower]
@[simp] theorem State.mapTower_opens (s : State) (t : TowerId) (g : Tower → Tower) : (s.mapTower t g).opens = s.opens := by simp [State.mapTower]
@[simp] theorem State.mapTower_rels (s : State) (t : TowerId) (g : Tower → Tower) : (s.mapTower t g).rels = s.rels := by simp [State.mapTower]
@[simp] theorem State.mapTower_link (s : State) (t : TowerId) (g : Tower → Tower) : (s.mapTower t g).link = s.link := by simp [State.mapTower]
@[simp] theorem State.mapTower_fuses (s : State) (t : TowerId) (g : Tower → Tower) : (s.mapTower t g).fuses = s.fuses := by simp [State.mapTower]
@[simp] theorem State.mapTower_remote (s : State) (t : TowerId) (g : Tower → Tower) : (s.mapTower t g).remote = s.remote := by simp [State.mapTower]
@[simp] theorem State.mapTower_migs (s : State) (t : TowerId) (g : Tower → Tower) : (s.mapTower t g).migs = s.migs := by simp [State.mapTower]
@[simp] theorem State.mapTower_powerNow (s : State) (t : TowerId) (g : Tower → Tower) : (s.mapTower t g).powerNow = s.powerNow := by simp [State.mapTower]
@[simp] theorem State.mapTower_powerNext (s : State) (t : TowerId) (g : Tower → Tower) : (s.mapTower t g).powerNext = s.powerNext := by simp [State.mapTower]
@[simp] theorem State.mapTower_clockStop (s : State) (t : TowerId) (g : Tower → Tower) : (s.mapTower t g).clockStop = s.clockStop := by simp [State.mapTower]
@[simp] theorem State.mapTower_clkGoal (s : State) (t : TowerId) (g : Tower → Tower) : (s.mapTower t g).clkGoal = s.clkGoal := by simp [State.mapTower]
@[simp] theorem State.mapTower_hot (s : State) (t : TowerId) (g : Tower → Tower) : (s.mapTower t g).hot = s.hot := by simp [State.mapTower]
@[simp] theorem State.mapTower_hostHeld (s : State) (t : TowerId) (g : Tower → Tower) : (s.mapTower t g).hostHeld = s.hostHeld := by simp [State.mapTower]
@[simp] theorem State.mapTower_inbox (s : State) (t : TowerId) (g : Tower → Tower) : (s.mapTower t g).inbox = s.inbox := by simp [State.mapTower]
@[simp] theorem State.mapTower_turns (s : State) (t : TowerId) (g : Tower → Tower) : (s.mapTower t g).turns = s.turns := by simp [State.mapTower]
@[simp] theorem State.mapTower_ctrHits (s : State) (t : TowerId) (g : Tower → Tower) : (s.mapTower t g).ctrHits = s.ctrHits := by simp [State.mapTower]
@[simp] theorem State.mapTower_stalled (s : State) (t : TowerId) (g : Tower → Tower) : (s.mapTower t g).stalled = s.stalled := by simp [State.mapTower]
@[simp] theorem State.mapTower_free (s : State) (t : TowerId) (g : Tower → Tower) : (s.mapTower t g).free = s.free := by simp [State.mapTower]
@[simp] theorem State.mapTower_seq (s : State) (t : TowerId) (g : Tower → Tower) : (s.mapTower t g).seq = s.seq := by simp [State.mapTower]

/-! ### State.write -/

@[simp] theorem State.write_group (s : State) (o : Opnd) (m : Mask) (l : Lat) (tag : BitVec 4) (x : Lanes) : (s.write o m l tag x).group = s.group := by cases o with | sp k => cases k <;> rfl | _ => rfl
@[simp] theorem State.write_waves (s : State) (o : Opnd) (m : Mask) (l : Lat) (tag : BitVec 4) (x : Lanes) : (s.write o m l tag x).waves = s.waves := by cases o with | sp k => cases k <;> rfl | _ => rfl
@[simp] theorem State.write_groups (s : State) (o : Opnd) (m : Mask) (l : Lat) (tag : BitVec 4) (x : Lanes) : (s.write o m l tag x).groups = s.groups := by cases o with | sp k => cases k <;> rfl | _ => rfl
@[simp] theorem State.write_units (s : State) (o : Opnd) (m : Mask) (l : Lat) (tag : BitVec 4) (x : Lanes) : (s.write o m l tag x).units = s.units := by cases o with | sp k => cases k <;> rfl | _ => rfl
@[simp] theorem State.write_launches (s : State) (o : Opnd) (m : Mask) (l : Lat) (tag : BitVec 4) (x : Lanes) : (s.write o m l tag x).launches = s.launches := by cases o with | sp k => cases k <;> rfl | _ => rfl
@[simp] theorem State.write_jobs (s : State) (o : Opnd) (m : Mask) (l : Lat) (tag : BitVec 4) (x : Lanes) : (s.write o m l tag x).jobs = s.jobs := by cases o with | sp k => cases k <;> rfl | _ => rfl
@[simp] theorem State.write_levels (s : State) (o : Opnd) (m : Mask) (l : Lat) (tag : BitVec 4) (x : Lanes) : (s.write o m l tag x).levels = s.levels := by cases o with | sp k => cases k <;> rfl | _ => rfl
@[simp] theorem State.write_plq (s : State) (o : Opnd) (m : Mask) (l : Lat) (tag : BitVec 4) (x : Lanes) : (s.write o m l tag x).plq = s.plq := by cases o with | sp k => cases k <;> rfl | _ => rfl
@[simp] theorem State.write_held (s : State) (o : Opnd) (m : Mask) (l : Lat) (tag : BitVec 4) (x : Lanes) : (s.write o m l tag x).held = s.held := by cases o with | sp k => cases k <;> rfl | _ => rfl
@[simp] theorem State.write_mem (s : State) (o : Opnd) (m : Mask) (l : Lat) (tag : BitVec 4) (x : Lanes) : (s.write o m l tag x).mem = s.mem := by cases o with | sp k => cases k <;> rfl | _ => rfl
@[simp] theorem State.write_locals (s : State) (o : Opnd) (m : Mask) (l : Lat) (tag : BitVec 4) (x : Lanes) : (s.write o m l tag x).locals = s.locals := by cases o with | sp k => cases k <;> rfl | _ => rfl
@[simp] theorem State.write_poison (s : State) (o : Opnd) (m : Mask) (l : Lat) (tag : BitVec 4) (x : Lanes) : (s.write o m l tag x).poison = s.poison := by cases o with | sp k => cases k <;> rfl | _ => rfl
@[simp] theorem State.write_opens (s : State) (o : Opnd) (m : Mask) (l : Lat) (tag : BitVec 4) (x : Lanes) : (s.write o m l tag x).opens = s.opens := by cases o with | sp k => cases k <;> rfl | _ => rfl
@[simp] theorem State.write_rels (s : State) (o : Opnd) (m : Mask) (l : Lat) (tag : BitVec 4) (x : Lanes) : (s.write o m l tag x).rels = s.rels := by cases o with | sp k => cases k <;> rfl | _ => rfl
@[simp] theorem State.write_tower0 (s : State) (o : Opnd) (m : Mask) (l : Lat) (tag : BitVec 4) (x : Lanes) : (s.write o m l tag x).tower0 = s.tower0 := by cases o with | sp k => cases k <;> rfl | _ => rfl
@[simp] theorem State.write_tower1 (s : State) (o : Opnd) (m : Mask) (l : Lat) (tag : BitVec 4) (x : Lanes) : (s.write o m l tag x).tower1 = s.tower1 := by cases o with | sp k => cases k <;> rfl | _ => rfl
@[simp] theorem State.write_link (s : State) (o : Opnd) (m : Mask) (l : Lat) (tag : BitVec 4) (x : Lanes) : (s.write o m l tag x).link = s.link := by cases o with | sp k => cases k <;> rfl | _ => rfl
@[simp] theorem State.write_fuses (s : State) (o : Opnd) (m : Mask) (l : Lat) (tag : BitVec 4) (x : Lanes) : (s.write o m l tag x).fuses = s.fuses := by cases o with | sp k => cases k <;> rfl | _ => rfl
@[simp] theorem State.write_remote (s : State) (o : Opnd) (m : Mask) (l : Lat) (tag : BitVec 4) (x : Lanes) : (s.write o m l tag x).remote = s.remote := by cases o with | sp k => cases k <;> rfl | _ => rfl
@[simp] theorem State.write_migs (s : State) (o : Opnd) (m : Mask) (l : Lat) (tag : BitVec 4) (x : Lanes) : (s.write o m l tag x).migs = s.migs := by cases o with | sp k => cases k <;> rfl | _ => rfl
@[simp] theorem State.write_powerNow (s : State) (o : Opnd) (m : Mask) (l : Lat) (tag : BitVec 4) (x : Lanes) : (s.write o m l tag x).powerNow = s.powerNow := by cases o with | sp k => cases k <;> rfl | _ => rfl
@[simp] theorem State.write_powerNext (s : State) (o : Opnd) (m : Mask) (l : Lat) (tag : BitVec 4) (x : Lanes) : (s.write o m l tag x).powerNext = s.powerNext := by cases o with | sp k => cases k <;> rfl | _ => rfl
@[simp] theorem State.write_clockStop (s : State) (o : Opnd) (m : Mask) (l : Lat) (tag : BitVec 4) (x : Lanes) : (s.write o m l tag x).clockStop = s.clockStop := by cases o with | sp k => cases k <;> rfl | _ => rfl
@[simp] theorem State.write_clkGoal (s : State) (o : Opnd) (m : Mask) (l : Lat) (tag : BitVec 4) (x : Lanes) : (s.write o m l tag x).clkGoal = s.clkGoal := by cases o with | sp k => cases k <;> rfl | _ => rfl
@[simp] theorem State.write_hot (s : State) (o : Opnd) (m : Mask) (l : Lat) (tag : BitVec 4) (x : Lanes) : (s.write o m l tag x).hot = s.hot := by cases o with | sp k => cases k <;> rfl | _ => rfl
@[simp] theorem State.write_hostHeld (s : State) (o : Opnd) (m : Mask) (l : Lat) (tag : BitVec 4) (x : Lanes) : (s.write o m l tag x).hostHeld = s.hostHeld := by cases o with | sp k => cases k <;> rfl | _ => rfl
@[simp] theorem State.write_inbox (s : State) (o : Opnd) (m : Mask) (l : Lat) (tag : BitVec 4) (x : Lanes) : (s.write o m l tag x).inbox = s.inbox := by cases o with | sp k => cases k <;> rfl | _ => rfl
@[simp] theorem State.write_turns (s : State) (o : Opnd) (m : Mask) (l : Lat) (tag : BitVec 4) (x : Lanes) : (s.write o m l tag x).turns = s.turns := by cases o with | sp k => cases k <;> rfl | _ => rfl
@[simp] theorem State.write_ctrHits (s : State) (o : Opnd) (m : Mask) (l : Lat) (tag : BitVec 4) (x : Lanes) : (s.write o m l tag x).ctrHits = s.ctrHits := by cases o with | sp k => cases k <;> rfl | _ => rfl
@[simp] theorem State.write_stalled (s : State) (o : Opnd) (m : Mask) (l : Lat) (tag : BitVec 4) (x : Lanes) : (s.write o m l tag x).stalled = s.stalled := by cases o with | sp k => cases k <;> rfl | _ => rfl
@[simp] theorem State.write_seq (s : State) (o : Opnd) (m : Mask) (l : Lat) (tag : BitVec 4) (x : Lanes) : (s.write o m l tag x).seq = s.seq := by cases o with | sp k => cases k <;> rfl | _ => rfl

/-! ### State.writePred -/

@[simp] theorem State.writePred_group (s : State) (o : Opnd) (m : Mask) (l : Lat) (x : Mask) : (s.writePred o m l x).group = s.group := by cases o <;> rfl
@[simp] theorem State.writePred_waves (s : State) (o : Opnd) (m : Mask) (l : Lat) (x : Mask) : (s.writePred o m l x).waves = s.waves := by cases o <;> rfl
@[simp] theorem State.writePred_groups (s : State) (o : Opnd) (m : Mask) (l : Lat) (x : Mask) : (s.writePred o m l x).groups = s.groups := by cases o <;> rfl
@[simp] theorem State.writePred_units (s : State) (o : Opnd) (m : Mask) (l : Lat) (x : Mask) : (s.writePred o m l x).units = s.units := by cases o <;> rfl
@[simp] theorem State.writePred_launches (s : State) (o : Opnd) (m : Mask) (l : Lat) (x : Mask) : (s.writePred o m l x).launches = s.launches := by cases o <;> rfl
@[simp] theorem State.writePred_jobs (s : State) (o : Opnd) (m : Mask) (l : Lat) (x : Mask) : (s.writePred o m l x).jobs = s.jobs := by cases o <;> rfl
@[simp] theorem State.writePred_levels (s : State) (o : Opnd) (m : Mask) (l : Lat) (x : Mask) : (s.writePred o m l x).levels = s.levels := by cases o <;> rfl
@[simp] theorem State.writePred_plq (s : State) (o : Opnd) (m : Mask) (l : Lat) (x : Mask) : (s.writePred o m l x).plq = s.plq := by cases o <;> rfl
@[simp] theorem State.writePred_held (s : State) (o : Opnd) (m : Mask) (l : Lat) (x : Mask) : (s.writePred o m l x).held = s.held := by cases o <;> rfl
@[simp] theorem State.writePred_mem (s : State) (o : Opnd) (m : Mask) (l : Lat) (x : Mask) : (s.writePred o m l x).mem = s.mem := by cases o <;> rfl
@[simp] theorem State.writePred_locals (s : State) (o : Opnd) (m : Mask) (l : Lat) (x : Mask) : (s.writePred o m l x).locals = s.locals := by cases o <;> rfl
@[simp] theorem State.writePred_poison (s : State) (o : Opnd) (m : Mask) (l : Lat) (x : Mask) : (s.writePred o m l x).poison = s.poison := by cases o <;> rfl
@[simp] theorem State.writePred_opens (s : State) (o : Opnd) (m : Mask) (l : Lat) (x : Mask) : (s.writePred o m l x).opens = s.opens := by cases o <;> rfl
@[simp] theorem State.writePred_rels (s : State) (o : Opnd) (m : Mask) (l : Lat) (x : Mask) : (s.writePred o m l x).rels = s.rels := by cases o <;> rfl
@[simp] theorem State.writePred_tower0 (s : State) (o : Opnd) (m : Mask) (l : Lat) (x : Mask) : (s.writePred o m l x).tower0 = s.tower0 := by cases o <;> rfl
@[simp] theorem State.writePred_tower1 (s : State) (o : Opnd) (m : Mask) (l : Lat) (x : Mask) : (s.writePred o m l x).tower1 = s.tower1 := by cases o <;> rfl
@[simp] theorem State.writePred_link (s : State) (o : Opnd) (m : Mask) (l : Lat) (x : Mask) : (s.writePred o m l x).link = s.link := by cases o <;> rfl
@[simp] theorem State.writePred_fuses (s : State) (o : Opnd) (m : Mask) (l : Lat) (x : Mask) : (s.writePred o m l x).fuses = s.fuses := by cases o <;> rfl
@[simp] theorem State.writePred_remote (s : State) (o : Opnd) (m : Mask) (l : Lat) (x : Mask) : (s.writePred o m l x).remote = s.remote := by cases o <;> rfl
@[simp] theorem State.writePred_migs (s : State) (o : Opnd) (m : Mask) (l : Lat) (x : Mask) : (s.writePred o m l x).migs = s.migs := by cases o <;> rfl
@[simp] theorem State.writePred_powerNow (s : State) (o : Opnd) (m : Mask) (l : Lat) (x : Mask) : (s.writePred o m l x).powerNow = s.powerNow := by cases o <;> rfl
@[simp] theorem State.writePred_powerNext (s : State) (o : Opnd) (m : Mask) (l : Lat) (x : Mask) : (s.writePred o m l x).powerNext = s.powerNext := by cases o <;> rfl
@[simp] theorem State.writePred_clockStop (s : State) (o : Opnd) (m : Mask) (l : Lat) (x : Mask) : (s.writePred o m l x).clockStop = s.clockStop := by cases o <;> rfl
@[simp] theorem State.writePred_clkGoal (s : State) (o : Opnd) (m : Mask) (l : Lat) (x : Mask) : (s.writePred o m l x).clkGoal = s.clkGoal := by cases o <;> rfl
@[simp] theorem State.writePred_hot (s : State) (o : Opnd) (m : Mask) (l : Lat) (x : Mask) : (s.writePred o m l x).hot = s.hot := by cases o <;> rfl
@[simp] theorem State.writePred_hostHeld (s : State) (o : Opnd) (m : Mask) (l : Lat) (x : Mask) : (s.writePred o m l x).hostHeld = s.hostHeld := by cases o <;> rfl
@[simp] theorem State.writePred_inbox (s : State) (o : Opnd) (m : Mask) (l : Lat) (x : Mask) : (s.writePred o m l x).inbox = s.inbox := by cases o <;> rfl
@[simp] theorem State.writePred_turns (s : State) (o : Opnd) (m : Mask) (l : Lat) (x : Mask) : (s.writePred o m l x).turns = s.turns := by cases o <;> rfl
@[simp] theorem State.writePred_ctrHits (s : State) (o : Opnd) (m : Mask) (l : Lat) (x : Mask) : (s.writePred o m l x).ctrHits = s.ctrHits := by cases o <;> rfl
@[simp] theorem State.writePred_stalled (s : State) (o : Opnd) (m : Mask) (l : Lat) (x : Mask) : (s.writePred o m l x).stalled = s.stalled := by cases o <;> rfl
@[simp] theorem State.writePred_free (s : State) (o : Opnd) (m : Mask) (l : Lat) (x : Mask) : (s.writePred o m l x).free = s.free := by cases o <;> rfl
@[simp] theorem State.writePred_seq (s : State) (o : Opnd) (m : Mask) (l : Lat) (x : Mask) : (s.writePred o m l x).seq = s.seq := by cases o <;> rfl

/-! ### State.writeS -/

@[simp] theorem State.writeS_group (s : State) (o : Opnd) (l : Lat) (x : Word) : (s.writeS o l x).group = s.group := by cases o <;> rfl
@[simp] theorem State.writeS_waves (s : State) (o : Opnd) (l : Lat) (x : Word) : (s.writeS o l x).waves = s.waves := by cases o <;> rfl
@[simp] theorem State.writeS_groups (s : State) (o : Opnd) (l : Lat) (x : Word) : (s.writeS o l x).groups = s.groups := by cases o <;> rfl
@[simp] theorem State.writeS_units (s : State) (o : Opnd) (l : Lat) (x : Word) : (s.writeS o l x).units = s.units := by cases o <;> rfl
@[simp] theorem State.writeS_launches (s : State) (o : Opnd) (l : Lat) (x : Word) : (s.writeS o l x).launches = s.launches := by cases o <;> rfl
@[simp] theorem State.writeS_jobs (s : State) (o : Opnd) (l : Lat) (x : Word) : (s.writeS o l x).jobs = s.jobs := by cases o <;> rfl
@[simp] theorem State.writeS_levels (s : State) (o : Opnd) (l : Lat) (x : Word) : (s.writeS o l x).levels = s.levels := by cases o <;> rfl
@[simp] theorem State.writeS_plq (s : State) (o : Opnd) (l : Lat) (x : Word) : (s.writeS o l x).plq = s.plq := by cases o <;> rfl
@[simp] theorem State.writeS_held (s : State) (o : Opnd) (l : Lat) (x : Word) : (s.writeS o l x).held = s.held := by cases o <;> rfl
@[simp] theorem State.writeS_mem (s : State) (o : Opnd) (l : Lat) (x : Word) : (s.writeS o l x).mem = s.mem := by cases o <;> rfl
@[simp] theorem State.writeS_locals (s : State) (o : Opnd) (l : Lat) (x : Word) : (s.writeS o l x).locals = s.locals := by cases o <;> rfl
@[simp] theorem State.writeS_poison (s : State) (o : Opnd) (l : Lat) (x : Word) : (s.writeS o l x).poison = s.poison := by cases o <;> rfl
@[simp] theorem State.writeS_opens (s : State) (o : Opnd) (l : Lat) (x : Word) : (s.writeS o l x).opens = s.opens := by cases o <;> rfl
@[simp] theorem State.writeS_rels (s : State) (o : Opnd) (l : Lat) (x : Word) : (s.writeS o l x).rels = s.rels := by cases o <;> rfl
@[simp] theorem State.writeS_tower0 (s : State) (o : Opnd) (l : Lat) (x : Word) : (s.writeS o l x).tower0 = s.tower0 := by cases o <;> rfl
@[simp] theorem State.writeS_tower1 (s : State) (o : Opnd) (l : Lat) (x : Word) : (s.writeS o l x).tower1 = s.tower1 := by cases o <;> rfl
@[simp] theorem State.writeS_link (s : State) (o : Opnd) (l : Lat) (x : Word) : (s.writeS o l x).link = s.link := by cases o <;> rfl
@[simp] theorem State.writeS_fuses (s : State) (o : Opnd) (l : Lat) (x : Word) : (s.writeS o l x).fuses = s.fuses := by cases o <;> rfl
@[simp] theorem State.writeS_remote (s : State) (o : Opnd) (l : Lat) (x : Word) : (s.writeS o l x).remote = s.remote := by cases o <;> rfl
@[simp] theorem State.writeS_migs (s : State) (o : Opnd) (l : Lat) (x : Word) : (s.writeS o l x).migs = s.migs := by cases o <;> rfl
@[simp] theorem State.writeS_powerNow (s : State) (o : Opnd) (l : Lat) (x : Word) : (s.writeS o l x).powerNow = s.powerNow := by cases o <;> rfl
@[simp] theorem State.writeS_powerNext (s : State) (o : Opnd) (l : Lat) (x : Word) : (s.writeS o l x).powerNext = s.powerNext := by cases o <;> rfl
@[simp] theorem State.writeS_clockStop (s : State) (o : Opnd) (l : Lat) (x : Word) : (s.writeS o l x).clockStop = s.clockStop := by cases o <;> rfl
@[simp] theorem State.writeS_clkGoal (s : State) (o : Opnd) (l : Lat) (x : Word) : (s.writeS o l x).clkGoal = s.clkGoal := by cases o <;> rfl
@[simp] theorem State.writeS_hot (s : State) (o : Opnd) (l : Lat) (x : Word) : (s.writeS o l x).hot = s.hot := by cases o <;> rfl
@[simp] theorem State.writeS_hostHeld (s : State) (o : Opnd) (l : Lat) (x : Word) : (s.writeS o l x).hostHeld = s.hostHeld := by cases o <;> rfl
@[simp] theorem State.writeS_inbox (s : State) (o : Opnd) (l : Lat) (x : Word) : (s.writeS o l x).inbox = s.inbox := by cases o <;> rfl
@[simp] theorem State.writeS_turns (s : State) (o : Opnd) (l : Lat) (x : Word) : (s.writeS o l x).turns = s.turns := by cases o <;> rfl
@[simp] theorem State.writeS_ctrHits (s : State) (o : Opnd) (l : Lat) (x : Word) : (s.writeS o l x).ctrHits = s.ctrHits := by cases o <;> rfl
@[simp] theorem State.writeS_stalled (s : State) (o : Opnd) (l : Lat) (x : Word) : (s.writeS o l x).stalled = s.stalled := by cases o <;> rfl
@[simp] theorem State.writeS_free (s : State) (o : Opnd) (l : Lat) (x : Word) : (s.writeS o l x).free = s.free := by cases o <;> rfl
@[simp] theorem State.writeS_seq (s : State) (o : Opnd) (l : Lat) (x : Word) : (s.writeS o l x).seq = s.seq := by cases o <;> rfl

/-! ### State.writeS64 -/

@[simp] theorem State.writeS64_group (s : State) (o : Opnd) (l : Lat) (x : DWord) : (s.writeS64 o l x).group = s.group := by simp [State.writeS64]
@[simp] theorem State.writeS64_waves (s : State) (o : Opnd) (l : Lat) (x : DWord) : (s.writeS64 o l x).waves = s.waves := by simp [State.writeS64]
@[simp] theorem State.writeS64_groups (s : State) (o : Opnd) (l : Lat) (x : DWord) : (s.writeS64 o l x).groups = s.groups := by simp [State.writeS64]
@[simp] theorem State.writeS64_units (s : State) (o : Opnd) (l : Lat) (x : DWord) : (s.writeS64 o l x).units = s.units := by simp [State.writeS64]
@[simp] theorem State.writeS64_launches (s : State) (o : Opnd) (l : Lat) (x : DWord) : (s.writeS64 o l x).launches = s.launches := by simp [State.writeS64]
@[simp] theorem State.writeS64_jobs (s : State) (o : Opnd) (l : Lat) (x : DWord) : (s.writeS64 o l x).jobs = s.jobs := by simp [State.writeS64]
@[simp] theorem State.writeS64_levels (s : State) (o : Opnd) (l : Lat) (x : DWord) : (s.writeS64 o l x).levels = s.levels := by simp [State.writeS64]
@[simp] theorem State.writeS64_plq (s : State) (o : Opnd) (l : Lat) (x : DWord) : (s.writeS64 o l x).plq = s.plq := by simp [State.writeS64]
@[simp] theorem State.writeS64_held (s : State) (o : Opnd) (l : Lat) (x : DWord) : (s.writeS64 o l x).held = s.held := by simp [State.writeS64]
@[simp] theorem State.writeS64_mem (s : State) (o : Opnd) (l : Lat) (x : DWord) : (s.writeS64 o l x).mem = s.mem := by simp [State.writeS64]
@[simp] theorem State.writeS64_locals (s : State) (o : Opnd) (l : Lat) (x : DWord) : (s.writeS64 o l x).locals = s.locals := by simp [State.writeS64]
@[simp] theorem State.writeS64_poison (s : State) (o : Opnd) (l : Lat) (x : DWord) : (s.writeS64 o l x).poison = s.poison := by simp [State.writeS64]
@[simp] theorem State.writeS64_opens (s : State) (o : Opnd) (l : Lat) (x : DWord) : (s.writeS64 o l x).opens = s.opens := by simp [State.writeS64]
@[simp] theorem State.writeS64_rels (s : State) (o : Opnd) (l : Lat) (x : DWord) : (s.writeS64 o l x).rels = s.rels := by simp [State.writeS64]
@[simp] theorem State.writeS64_tower0 (s : State) (o : Opnd) (l : Lat) (x : DWord) : (s.writeS64 o l x).tower0 = s.tower0 := by simp [State.writeS64]
@[simp] theorem State.writeS64_tower1 (s : State) (o : Opnd) (l : Lat) (x : DWord) : (s.writeS64 o l x).tower1 = s.tower1 := by simp [State.writeS64]
@[simp] theorem State.writeS64_link (s : State) (o : Opnd) (l : Lat) (x : DWord) : (s.writeS64 o l x).link = s.link := by simp [State.writeS64]
@[simp] theorem State.writeS64_fuses (s : State) (o : Opnd) (l : Lat) (x : DWord) : (s.writeS64 o l x).fuses = s.fuses := by simp [State.writeS64]
@[simp] theorem State.writeS64_remote (s : State) (o : Opnd) (l : Lat) (x : DWord) : (s.writeS64 o l x).remote = s.remote := by simp [State.writeS64]
@[simp] theorem State.writeS64_migs (s : State) (o : Opnd) (l : Lat) (x : DWord) : (s.writeS64 o l x).migs = s.migs := by simp [State.writeS64]
@[simp] theorem State.writeS64_powerNow (s : State) (o : Opnd) (l : Lat) (x : DWord) : (s.writeS64 o l x).powerNow = s.powerNow := by simp [State.writeS64]
@[simp] theorem State.writeS64_powerNext (s : State) (o : Opnd) (l : Lat) (x : DWord) : (s.writeS64 o l x).powerNext = s.powerNext := by simp [State.writeS64]
@[simp] theorem State.writeS64_clockStop (s : State) (o : Opnd) (l : Lat) (x : DWord) : (s.writeS64 o l x).clockStop = s.clockStop := by simp [State.writeS64]
@[simp] theorem State.writeS64_clkGoal (s : State) (o : Opnd) (l : Lat) (x : DWord) : (s.writeS64 o l x).clkGoal = s.clkGoal := by simp [State.writeS64]
@[simp] theorem State.writeS64_hot (s : State) (o : Opnd) (l : Lat) (x : DWord) : (s.writeS64 o l x).hot = s.hot := by simp [State.writeS64]
@[simp] theorem State.writeS64_hostHeld (s : State) (o : Opnd) (l : Lat) (x : DWord) : (s.writeS64 o l x).hostHeld = s.hostHeld := by simp [State.writeS64]
@[simp] theorem State.writeS64_inbox (s : State) (o : Opnd) (l : Lat) (x : DWord) : (s.writeS64 o l x).inbox = s.inbox := by simp [State.writeS64]
@[simp] theorem State.writeS64_turns (s : State) (o : Opnd) (l : Lat) (x : DWord) : (s.writeS64 o l x).turns = s.turns := by simp [State.writeS64]
@[simp] theorem State.writeS64_ctrHits (s : State) (o : Opnd) (l : Lat) (x : DWord) : (s.writeS64 o l x).ctrHits = s.ctrHits := by simp [State.writeS64]
@[simp] theorem State.writeS64_stalled (s : State) (o : Opnd) (l : Lat) (x : DWord) : (s.writeS64 o l x).stalled = s.stalled := by simp [State.writeS64]
@[simp] theorem State.writeS64_free (s : State) (o : Opnd) (l : Lat) (x : DWord) : (s.writeS64 o l x).free = s.free := by simp [State.writeS64]
@[simp] theorem State.writeS64_seq (s : State) (o : Opnd) (l : Lat) (x : DWord) : (s.writeS64 o l x).seq = s.seq := by simp [State.writeS64]

/-! ### State.write64 -/

@[simp] theorem State.write64_group (s : State) (o : Opnd) (m : Mask) (l : Lat) (tag : BitVec 4) (x : Nat → DWord) : (s.write64 o m l tag x).group = s.group := by simp [State.write64]
@[simp] theorem State.write64_waves (s : State) (o : Opnd) (m : Mask) (l : Lat) (tag : BitVec 4) (x : Nat → DWord) : (s.write64 o m l tag x).waves = s.waves := by simp [State.write64]
@[simp] theorem State.write64_groups (s : State) (o : Opnd) (m : Mask) (l : Lat) (tag : BitVec 4) (x : Nat → DWord) : (s.write64 o m l tag x).groups = s.groups := by simp [State.write64]
@[simp] theorem State.write64_units (s : State) (o : Opnd) (m : Mask) (l : Lat) (tag : BitVec 4) (x : Nat → DWord) : (s.write64 o m l tag x).units = s.units := by simp [State.write64]
@[simp] theorem State.write64_launches (s : State) (o : Opnd) (m : Mask) (l : Lat) (tag : BitVec 4) (x : Nat → DWord) : (s.write64 o m l tag x).launches = s.launches := by simp [State.write64]
@[simp] theorem State.write64_jobs (s : State) (o : Opnd) (m : Mask) (l : Lat) (tag : BitVec 4) (x : Nat → DWord) : (s.write64 o m l tag x).jobs = s.jobs := by simp [State.write64]
@[simp] theorem State.write64_levels (s : State) (o : Opnd) (m : Mask) (l : Lat) (tag : BitVec 4) (x : Nat → DWord) : (s.write64 o m l tag x).levels = s.levels := by simp [State.write64]
@[simp] theorem State.write64_plq (s : State) (o : Opnd) (m : Mask) (l : Lat) (tag : BitVec 4) (x : Nat → DWord) : (s.write64 o m l tag x).plq = s.plq := by simp [State.write64]
@[simp] theorem State.write64_held (s : State) (o : Opnd) (m : Mask) (l : Lat) (tag : BitVec 4) (x : Nat → DWord) : (s.write64 o m l tag x).held = s.held := by simp [State.write64]
@[simp] theorem State.write64_mem (s : State) (o : Opnd) (m : Mask) (l : Lat) (tag : BitVec 4) (x : Nat → DWord) : (s.write64 o m l tag x).mem = s.mem := by simp [State.write64]
@[simp] theorem State.write64_locals (s : State) (o : Opnd) (m : Mask) (l : Lat) (tag : BitVec 4) (x : Nat → DWord) : (s.write64 o m l tag x).locals = s.locals := by simp [State.write64]
@[simp] theorem State.write64_poison (s : State) (o : Opnd) (m : Mask) (l : Lat) (tag : BitVec 4) (x : Nat → DWord) : (s.write64 o m l tag x).poison = s.poison := by simp [State.write64]
@[simp] theorem State.write64_opens (s : State) (o : Opnd) (m : Mask) (l : Lat) (tag : BitVec 4) (x : Nat → DWord) : (s.write64 o m l tag x).opens = s.opens := by simp [State.write64]
@[simp] theorem State.write64_rels (s : State) (o : Opnd) (m : Mask) (l : Lat) (tag : BitVec 4) (x : Nat → DWord) : (s.write64 o m l tag x).rels = s.rels := by simp [State.write64]
@[simp] theorem State.write64_tower0 (s : State) (o : Opnd) (m : Mask) (l : Lat) (tag : BitVec 4) (x : Nat → DWord) : (s.write64 o m l tag x).tower0 = s.tower0 := by simp [State.write64]
@[simp] theorem State.write64_tower1 (s : State) (o : Opnd) (m : Mask) (l : Lat) (tag : BitVec 4) (x : Nat → DWord) : (s.write64 o m l tag x).tower1 = s.tower1 := by simp [State.write64]
@[simp] theorem State.write64_link (s : State) (o : Opnd) (m : Mask) (l : Lat) (tag : BitVec 4) (x : Nat → DWord) : (s.write64 o m l tag x).link = s.link := by simp [State.write64]
@[simp] theorem State.write64_fuses (s : State) (o : Opnd) (m : Mask) (l : Lat) (tag : BitVec 4) (x : Nat → DWord) : (s.write64 o m l tag x).fuses = s.fuses := by simp [State.write64]
@[simp] theorem State.write64_remote (s : State) (o : Opnd) (m : Mask) (l : Lat) (tag : BitVec 4) (x : Nat → DWord) : (s.write64 o m l tag x).remote = s.remote := by simp [State.write64]
@[simp] theorem State.write64_migs (s : State) (o : Opnd) (m : Mask) (l : Lat) (tag : BitVec 4) (x : Nat → DWord) : (s.write64 o m l tag x).migs = s.migs := by simp [State.write64]
@[simp] theorem State.write64_powerNow (s : State) (o : Opnd) (m : Mask) (l : Lat) (tag : BitVec 4) (x : Nat → DWord) : (s.write64 o m l tag x).powerNow = s.powerNow := by simp [State.write64]
@[simp] theorem State.write64_powerNext (s : State) (o : Opnd) (m : Mask) (l : Lat) (tag : BitVec 4) (x : Nat → DWord) : (s.write64 o m l tag x).powerNext = s.powerNext := by simp [State.write64]
@[simp] theorem State.write64_clockStop (s : State) (o : Opnd) (m : Mask) (l : Lat) (tag : BitVec 4) (x : Nat → DWord) : (s.write64 o m l tag x).clockStop = s.clockStop := by simp [State.write64]
@[simp] theorem State.write64_clkGoal (s : State) (o : Opnd) (m : Mask) (l : Lat) (tag : BitVec 4) (x : Nat → DWord) : (s.write64 o m l tag x).clkGoal = s.clkGoal := by simp [State.write64]
@[simp] theorem State.write64_hot (s : State) (o : Opnd) (m : Mask) (l : Lat) (tag : BitVec 4) (x : Nat → DWord) : (s.write64 o m l tag x).hot = s.hot := by simp [State.write64]
@[simp] theorem State.write64_hostHeld (s : State) (o : Opnd) (m : Mask) (l : Lat) (tag : BitVec 4) (x : Nat → DWord) : (s.write64 o m l tag x).hostHeld = s.hostHeld := by simp [State.write64]
@[simp] theorem State.write64_inbox (s : State) (o : Opnd) (m : Mask) (l : Lat) (tag : BitVec 4) (x : Nat → DWord) : (s.write64 o m l tag x).inbox = s.inbox := by simp [State.write64]
@[simp] theorem State.write64_turns (s : State) (o : Opnd) (m : Mask) (l : Lat) (tag : BitVec 4) (x : Nat → DWord) : (s.write64 o m l tag x).turns = s.turns := by simp [State.write64]
@[simp] theorem State.write64_ctrHits (s : State) (o : Opnd) (m : Mask) (l : Lat) (tag : BitVec 4) (x : Nat → DWord) : (s.write64 o m l tag x).ctrHits = s.ctrHits := by simp [State.write64]
@[simp] theorem State.write64_stalled (s : State) (o : Opnd) (m : Mask) (l : Lat) (tag : BitVec 4) (x : Nat → DWord) : (s.write64 o m l tag x).stalled = s.stalled := by simp [State.write64]
@[simp] theorem State.write64_seq (s : State) (o : Opnd) (m : Mask) (l : Lat) (tag : BitVec 4) (x : Nat → DWord) : (s.write64 o m l tag x).seq = s.seq := by simp [State.write64]

/-! ### State.pass -/

@[simp] theorem State.pass_group (s : State) (n : Nat) : (s.pass n).group = s.group := by simp [State.pass]
@[simp] theorem State.pass_groups (s : State) (n : Nat) : (s.pass n).groups = s.groups := by simp [State.pass]
@[simp] theorem State.pass_units (s : State) (n : Nat) : (s.pass n).units = s.units := by simp [State.pass]
@[simp] theorem State.pass_launches (s : State) (n : Nat) : (s.pass n).launches = s.launches := by simp [State.pass]
@[simp] theorem State.pass_jobs (s : State) (n : Nat) : (s.pass n).jobs = s.jobs := by simp [State.pass]
@[simp] theorem State.pass_levels (s : State) (n : Nat) : (s.pass n).levels = s.levels := by simp [State.pass]
@[simp] theorem State.pass_plq (s : State) (n : Nat) : (s.pass n).plq = s.plq := by simp [State.pass]
@[simp] theorem State.pass_held (s : State) (n : Nat) : (s.pass n).held = s.held := by simp [State.pass]
@[simp] theorem State.pass_mem (s : State) (n : Nat) : (s.pass n).mem = s.mem := by simp [State.pass]
@[simp] theorem State.pass_locals (s : State) (n : Nat) : (s.pass n).locals = s.locals := by simp [State.pass]
@[simp] theorem State.pass_poison (s : State) (n : Nat) : (s.pass n).poison = s.poison := by simp [State.pass]
@[simp] theorem State.pass_opens (s : State) (n : Nat) : (s.pass n).opens = s.opens := by simp [State.pass]
@[simp] theorem State.pass_rels (s : State) (n : Nat) : (s.pass n).rels = s.rels := by simp [State.pass]
@[simp] theorem State.pass_link (s : State) (n : Nat) : (s.pass n).link = s.link := by simp [State.pass]
@[simp] theorem State.pass_fuses (s : State) (n : Nat) : (s.pass n).fuses = s.fuses := by simp [State.pass]
@[simp] theorem State.pass_remote (s : State) (n : Nat) : (s.pass n).remote = s.remote := by simp [State.pass]
@[simp] theorem State.pass_migs (s : State) (n : Nat) : (s.pass n).migs = s.migs := by simp [State.pass]
@[simp] theorem State.pass_powerNow (s : State) (n : Nat) : (s.pass n).powerNow = s.powerNow := by simp [State.pass]
@[simp] theorem State.pass_powerNext (s : State) (n : Nat) : (s.pass n).powerNext = s.powerNext := by simp [State.pass]
@[simp] theorem State.pass_clockStop (s : State) (n : Nat) : (s.pass n).clockStop = s.clockStop := by simp [State.pass]
@[simp] theorem State.pass_clkGoal (s : State) (n : Nat) : (s.pass n).clkGoal = s.clkGoal := by simp [State.pass]
@[simp] theorem State.pass_hot (s : State) (n : Nat) : (s.pass n).hot = s.hot := by simp [State.pass]
@[simp] theorem State.pass_hostHeld (s : State) (n : Nat) : (s.pass n).hostHeld = s.hostHeld := by simp [State.pass]
@[simp] theorem State.pass_inbox (s : State) (n : Nat) : (s.pass n).inbox = s.inbox := by simp [State.pass]
@[simp] theorem State.pass_turns (s : State) (n : Nat) : (s.pass n).turns = s.turns := by simp [State.pass]
@[simp] theorem State.pass_ctrHits (s : State) (n : Nat) : (s.pass n).ctrHits = s.ctrHits := by simp [State.pass]
@[simp] theorem State.pass_stalled (s : State) (n : Nat) : (s.pass n).stalled = s.stalled := by simp [State.pass]
@[simp] theorem State.pass_seq (s : State) (n : Nat) : (s.pass n).seq = s.seq := by simp [State.pass]

/-! ### State.ticks -/

@[simp] theorem State.ticks_group (s : State) (n : Nat) : (s.ticks n).group = s.group := by unfold State.ticks; split <;> simp
@[simp] theorem State.ticks_groups (s : State) (n : Nat) : (s.ticks n).groups = s.groups := by unfold State.ticks; split <;> simp
@[simp] theorem State.ticks_units (s : State) (n : Nat) : (s.ticks n).units = s.units := by unfold State.ticks; split <;> simp
@[simp] theorem State.ticks_launches (s : State) (n : Nat) : (s.ticks n).launches = s.launches := by unfold State.ticks; split <;> simp
@[simp] theorem State.ticks_jobs (s : State) (n : Nat) : (s.ticks n).jobs = s.jobs := by unfold State.ticks; split <;> simp
@[simp] theorem State.ticks_levels (s : State) (n : Nat) : (s.ticks n).levels = s.levels := by unfold State.ticks; split <;> simp
@[simp] theorem State.ticks_plq (s : State) (n : Nat) : (s.ticks n).plq = s.plq := by unfold State.ticks; split <;> simp
@[simp] theorem State.ticks_held (s : State) (n : Nat) : (s.ticks n).held = s.held := by unfold State.ticks; split <;> simp
@[simp] theorem State.ticks_mem (s : State) (n : Nat) : (s.ticks n).mem = s.mem := by unfold State.ticks; split <;> simp
@[simp] theorem State.ticks_locals (s : State) (n : Nat) : (s.ticks n).locals = s.locals := by unfold State.ticks; split <;> simp
@[simp] theorem State.ticks_poison (s : State) (n : Nat) : (s.ticks n).poison = s.poison := by unfold State.ticks; split <;> simp
@[simp] theorem State.ticks_opens (s : State) (n : Nat) : (s.ticks n).opens = s.opens := by unfold State.ticks; split <;> simp
@[simp] theorem State.ticks_rels (s : State) (n : Nat) : (s.ticks n).rels = s.rels := by unfold State.ticks; split <;> simp
@[simp] theorem State.ticks_link (s : State) (n : Nat) : (s.ticks n).link = s.link := by unfold State.ticks; split <;> simp
@[simp] theorem State.ticks_fuses (s : State) (n : Nat) : (s.ticks n).fuses = s.fuses := by unfold State.ticks; split <;> simp
@[simp] theorem State.ticks_remote (s : State) (n : Nat) : (s.ticks n).remote = s.remote := by unfold State.ticks; split <;> simp
@[simp] theorem State.ticks_migs (s : State) (n : Nat) : (s.ticks n).migs = s.migs := by unfold State.ticks; split <;> simp
@[simp] theorem State.ticks_powerNow (s : State) (n : Nat) : (s.ticks n).powerNow = s.powerNow := by unfold State.ticks; split <;> simp
@[simp] theorem State.ticks_powerNext (s : State) (n : Nat) : (s.ticks n).powerNext = s.powerNext := by unfold State.ticks; split <;> simp
@[simp] theorem State.ticks_clockStop (s : State) (n : Nat) : (s.ticks n).clockStop = s.clockStop := by unfold State.ticks; split <;> simp
@[simp] theorem State.ticks_clkGoal (s : State) (n : Nat) : (s.ticks n).clkGoal = s.clkGoal := by unfold State.ticks; split <;> simp
@[simp] theorem State.ticks_hot (s : State) (n : Nat) : (s.ticks n).hot = s.hot := by unfold State.ticks; split <;> simp
@[simp] theorem State.ticks_hostHeld (s : State) (n : Nat) : (s.ticks n).hostHeld = s.hostHeld := by unfold State.ticks; split <;> simp
@[simp] theorem State.ticks_inbox (s : State) (n : Nat) : (s.ticks n).inbox = s.inbox := by unfold State.ticks; split <;> simp
@[simp] theorem State.ticks_turns (s : State) (n : Nat) : (s.ticks n).turns = s.turns := by unfold State.ticks; split <;> simp
@[simp] theorem State.ticks_ctrHits (s : State) (n : Nat) : (s.ticks n).ctrHits = s.ctrHits := by unfold State.ticks; split <;> simp
@[simp] theorem State.ticks_stalled (s : State) (n : Nat) : (s.ticks n).stalled = s.stalled := by unfold State.ticks; split <;> simp
@[simp] theorem State.ticks_seq (s : State) (n : Nat) : (s.ticks n).seq = s.seq := by unfold State.ticks; split <;> simp

@[simp] theorem State.setTower_self (s : State) (t : TowerId) (x : Tower) : (s.setTower t x).tower t = x := by
  unfold State.setTower State.tower; split <;> simp_all
@[simp] theorem State.mapTower_self (s : State) (t : TowerId) (g : Tower → Tower) : (s.mapTower t g).tower t = g (s.tower t) := by
  simp [State.mapTower]

end Sys2Proof.Machine
end

