-- ==== Sys2Proof/Laws/Issue.lean ====
section
/-! SUPPORT. What `issue`, `finish` and `retire` do: a word that issues ends as its body says. -/

namespace Sys2Proof.Machine

/-- A word that issues ends as its body says. -/
theorem issue_of_issues {i : Instr} {f : Fields} {s : State} (body : Ctx → Out) (h : s.Issues i f) :
    issue i f body s = finish i (form i) f ((body (s.ctx (form i) f)).fresh s) := by
  obtain ⟨h1, h2, h3⟩ := h
  simp [issue, h1, h2, h3]

/-- A word with a static fault takes it as a trap, and changes nothing before. -/
theorem issue_of_static {i : Instr} {f : Fields} {s : State} {c : Cause} (body : Ctx → Out) (h : staticFault i = some c) :
    issue i f body s = s.takeTrap (.plain c) s.wave.pairStart s.wave.pairStart (awaitOf i f) := by
  simp [issue, h]

/-- A word that an interlock holds back changes nothing but the note that it is held. -/
theorem issue_of_interlock {i : Instr} {f : Fields} {s : State} (body : Ctx → Out) (h : staticFault i = none)
    (hl : interlocked (form i) f s.wave = true) : issue i f body s = { s with stalled := true } := by
  simp [issue, h, hl]

/-- A word that meets a fault of orders 6 to 11 takes it at the address that the fault reports. -/
theorem issue_of_dynamic {i : Instr} {f : Fields} {s : State} {t : TrapInfo} {p : DWord} (body : Ctx → Out)
    (h : staticFault i = none) (hl : interlocked (form i) f s.wave = false)
    (hd : dynFault i (form i) f s = some (t, p)) : issue i f body s = s.takeTrap t p p (awaitOf i f) := by
  simp [issue, h, hl, hd]

/-- A meaning that is an `issue` has the effect that its body answers. -/
theorem effects_of_done {i : Instr} {f : Fields} {s e : State} {body : Ctx → Out}
    (hx : exec i s = .next (issue i f body s)) (h : s.Issues i f) (hb : body (s.ctx (form i) f) = .done e) :
    effects i f s e := by
  simp [effects, hx, issue_of_issues body h, hb, finish, Out.fresh]

/-- A meaning that is an `issue` whose body traps takes that trap. -/
theorem exec_of_trap {i : Instr} {f : Fields} {s e : State} {t : TrapInfo} {body : Ctx → Out}
    (hx : exec i s = .next (issue i f body s)) (h : s.Issues i f) (hb : body (s.ctx (form i) f) = .trap t e) :
    exec i s = .next ({ e with stalled := false }.takeTrap t e.wave.pairStart e.wave.pairStart (awaitOf i f)) := by
  simp [hx, issue_of_issues body h, hb, finish, Out.fresh]

/-! ### What a context reads -/

@[simp] theorem State.ctx_s (s : State) (m : Form) (f : Fields) : (s.ctx m f).s = s.goto (s.wave.pc + 12) := rfl
@[simp] theorem State.ctx_f (s : State) (m : Form) (f : Fields) : (s.ctx m f).f = f := rfl
@[simp] theorem State.ctx_w (s : State) (m : Form) (f : Fields) : (s.ctx m f).w = s.wave.seen (m.scalar f) := rfl
@[simp] theorem State.ctx_m (s : State) (m : Form) (f : Fields) :
    (s.ctx m f).m = maskFor f s.wave (s.wave.seen (m.scalar f)) := rfl

end Sys2Proof.Machine
end

