-- ==== Sys2Proof/Laws/Memory.lean ====
section
/-! SUPPORT. What the shared operations leave of the device's memory: the same bytes, or a memory in canonical
form. -/

namespace Sys2Proof.Machine

/-! ### Operations that touch no byte of memory -/

@[simp] theorem State.mapWave_mem (s : State) (k : WaveKey) (f : Wave → Wave) : (s.mapWave k f).mem = s.mem := rfl
@[simp] theorem State.mapGroup_mem (s : State) (k : GroupKey) (f : Group → Group) : (s.mapGroup k f).mem = s.mem := rfl
@[simp] theorem State.mapGroupWaves_mem (s : State) (k : GroupKey) (f : Wave → Wave) :
    (s.mapGroupWaves k f).mem = s.mem := rfl
@[simp] theorem State.mapUnit_mem (s : State) (n : Nat) (f : WorkUnit → WorkUnit) : (s.mapUnit n f).mem = s.mem := rfl
@[simp] theorem State.mapLaunch_mem (s : State) (n : Nat) (f : Launch → Launch) : (s.mapLaunch n f).mem = s.mem := rfl
@[simp] theorem State.mapJob_mem (s : State) (n : Nat) (f : Job → Job) : (s.mapJob n f).mem = s.mem := rfl
@[simp] theorem State.setRel_mem (s : State) (loc n : Nat) (r : List RelInfo) : (s.setRel loc n r).mem = s.mem := rfl
@[simp] theorem State.evalCounters_mem (s : State) (a n : Nat) : (s.evalCounters a n).mem = s.mem := rfl
@[simp] theorem State.heal_mem (s : State) (a n : Nat) : (s.heal a n).mem = s.mem := rfl
@[simp] theorem State.report_mem (s : State) (t : TowerId) (r : RecArgs) : (s.report t r).mem = s.mem :=
  State.mapTower_mem ..
@[simp] theorem State.sideReport_mem (s : State) (t : TrapInfo) (pc : DWord) : (s.sideReport t pc).mem = s.mem := by
  unfold State.sideReport; split <;> simp
@[simp] theorem State.fed_mem (s : State) : s.fed.mem = s.mem := rfl
@[simp] theorem State.until_mem (s : State) (t : TowerId) (n : Int) : (s.until t n).mem = s.mem := by
  simp [State.until]
@[simp] theorem State.groupEnd_mem (s : State) (g : GroupKey) : (s.groupEnd g).mem = s.mem := by
  unfold State.groupEnd; split <;> simp
@[simp] theorem State.extendRel_mem (s : State) (loc n : Nat) (r : List RelInfo) : (s.extendRel loc n r).mem = s.mem := rfl
@[simp] theorem State.touchDpa_mem (s : State) (t : TowerId) (d : Nat) : (s.touchDpa t d).mem = s.mem := by
  unfold State.touchDpa; split <;> rfl
@[simp] theorem State.touchFrom_mem (s : State) (t : TowerId) (h : Hit) : (s.touchFrom t h).mem = s.mem := by
  unfold State.touchFrom; split <;> simp
@[simp] theorem State.touch_mem (s : State) (h : Hit) : (s.touch h).mem = s.mem := s.touchFrom_mem ..
@[simp] theorem State.hwEcc_mem (s : State) (j : Nat) (t : TowerId) (va : DWord) (a n : Nat) :
    (s.hwEcc j t va a n).mem = s.mem := by
  unfold State.hwEcc; split <;> simp
/-- A fold of steps that touch no byte of memory touches none. -/
theorem foldl_mem {α : Type} (f : State → α → State) (hf : ∀ s x, (f s x).mem = s.mem) :
    ∀ (l : List α) (s : State), (l.foldl f s).mem = s.mem
  | [], _ => rfl
  | x :: l, s => (foldl_mem f hf l (f s x)).trans (hf s x)
@[simp] theorem State.walkEcc_mem (s : State) (j : Nat) (t : TowerId) (va : DWord) : (s.walkEcc j t va).mem = s.mem := by
  unfold State.walkEcc; split
  · rfl
  · exact foldl_mem _ (fun s x => s.hwEcc_mem ..) _ s
@[simp] theorem State.seeWalks_mem (s : State) (l : List DWord) : (s.seeWalks l).mem = s.mem := by
  unfold State.seeWalks; split
  · rfl
  · exact foldl_mem _ (fun s x => s.walkEcc_mem ..) _ s
@[simp] theorem State.focusOn_mem (s : State) (k : WaveKey) : (s.focusOn k).mem = s.mem := by
  unfold State.focusOn; split
  · rfl
  · split
    · rfl
    · dsimp only; split <;> rfl

/-! ### Operations that store -/

/-- A store leaves the memory with its bytes written, and nothing else of it. -/
theorem State.putBytes_mem (s : State) (a : Nat) (bs : List Byte) (d : Nat) (h : Bool) :
    (s.putBytes a bs d h).mem = Mem.writeBytes s.mem a bs := by
  cases bs <;> simp [State.putBytes, Mem.writeBytes]
theorem State.store_mem (s : State) (a : Nat) (bs : List Byte) (d : Nat) (h : Bool) (r : List RelInfo) :
    (s.store a bs d h r).mem = Mem.writeBytes s.mem a bs := s.putBytes_mem ..
theorem State.update_mem (s : State) (a : Nat) (bs : List Byte) (d : Nat) (h : Bool) (r : List RelInfo) :
    (s.update a bs d h r).mem = Mem.writeBytes s.mem a bs := s.putBytes_mem ..

/-- A store keeps the canonical form. -/
theorem State.store_memOk {s : State} (a : Nat) (bs : List Byte) (d : Nat) (h : Bool) (r : List RelInfo) (hs : MemOk s) :
    MemOk (s.store a bs d h r) := by
  rw [MemOk, State.store_mem]; exact Mem.wf_writeBytes bs s.mem a hs
theorem State.update_memOk {s : State} (a : Nat) (bs : List Byte) (d : Nat) (h : Bool) (r : List RelInfo) (hs : MemOk s) :
    MemOk (s.update a bs d h r) := by
  rw [MemOk, State.update_mem]; exact Mem.wf_writeBytes bs s.mem a hs

/-- So does a write of the hardware. -/
theorem State.hwStore_memOk {s : State} (a : Nat) (bs : List Byte) (d : Nat) (hs : MemOk s) : MemOk (s.hwStore a bs d) :=
  State.store_memOk a bs d _ _ hs
theorem State.hw64_memOk {s : State} (a : Nat) (x : DWord) (d : Nat) (hs : MemOk s) : MemOk (s.hw64 a x d) :=
  State.hwStore_memOk a _ d hs
theorem State.hwCount_memOk {s : State} (a : Nat) (x : DWord) (d : Nat) (hs : MemOk s) : MemOk (s.hwCount a x d) :=
  State.update_memOk a _ d _ _ hs

/-- So does the revival of a discarded page. -/
theorem State.revive_memOk {s : State} (h : Hit) (hs : MemOk s) : MemOk (s.revive h) := by
  cases hd : (h.disc && (Mem.read64 s.mem h.at_).getLsbD 4)
  · simpa only [State.revive, hd, Bool.false_eq_true, if_false] using hs
  · simp only [State.revive, hd, if_true]
    exact Mem.wf_blankRange _ _ _ (Mem.wf_write64 _ _ _ hs)

/-- A fold of steps that keep the canonical form keeps it. -/
theorem memOk_foldl {α : Type} (f : State → α → State) (hf : ∀ s x, MemOk s → MemOk (f s x)) :
    ∀ (l : List α) (s : State), MemOk s → MemOk (l.foldl f s)
  | [], _, h => h
  | x :: l, s, h => memOk_foldl f hf l (f s x) (hf s x h)

end Sys2Proof.Machine
end

