-- ==== Sys2Proof/Laws/Operands.lean ====
section
/-! SUPPORT. Indices of operands (Table 3.4), and what a write of a register gives when it is read. -/

namespace Sys2Proof

/-- Every operand has the index that names it. -/
theorem Opnd.ofIndex_index (o : Opnd) : Opnd.ofIndex (Opnd.index o) = some o := by
  cases o with
  | v n => exact dif_pos n.isLt
  | s n =>
    have h1 : ¬(320 + n.val < 320) := by omega
    have h2 : 320 + n.val - 320 < 128 := by omega
    unfold Opnd.index Opnd.ofIndex
    rw [dif_neg h1, dif_pos h2]
    exact congrArg (fun k => some (Opnd.s k)) (Fin.ext (Nat.add_sub_cancel_left ..))
  | t n => revert n; decide
  | p n => revert n; decide
  | sp k => cases k <;> decide
  | z n => revert n; decide

/-- No two indices name one operand. -/
theorem Opnd.index_ofIndex (n : Nat) (o : Opnd) (h : Opnd.ofIndex n = some o) : Opnd.index o = n := by
  unfold Opnd.ofIndex at h
  split at h
  · cases h; rfl
  split at h
  · cases h; simp only [Opnd.index]; omega
  split at h
  · cases h; simp only [Opnd.index]; omega
  split at h
  · cases h; simp only [Opnd.index]; omega
  split at h
  · cases h
    obtain rfl | rfl | rfl | rfl | rfl | rfl | rfl | rfl :
      n = 472 ∨ n = 473 ∨ n = 474 ∨ n = 475 ∨ n = 476 ∨ n = 477 ∨ n = 478 ∨ n = 479 := by omega
    all_goals rfl
  split at h
  · cases h
  split at h
  · cases h; simp only [Opnd.index]; omega
  · cases h

end Sys2Proof
end

