-- ==== Sys2Proof/Laws/PerInstr.lean ====
section
/-! SUPPORT. Facts about every instruction, one lemma per constructor. -/

namespace Sys2Proof.Laws

/-- An instruction that has a word stands in the opcode map at its opcode, and the map gives it back from its
fields; a step of the hardware has no word. -/
def Opcode.Statement (i : Instr) : Prop :=
  ∀ op f, opOf i = some (op, f) → op < 1024 ∧ ∃ k : Fields → Instr, ofOp op = some k ∧ k f = i

theorem Opcode.bra (f : Fields) : Opcode.Statement (.bra f) :=
  fun _ _ h => by cases h; exact ⟨by decide, _, rfl, rfl⟩
theorem Opcode.brc (f : Fields) : Opcode.Statement (.brc f) :=
  fun _ _ h => by cases h; exact ⟨by decide, _, rfl, rfl⟩
theorem Opcode.brany (f : Fields) : Opcode.Statement (.brany f) :=
  fun _ _ h => by cases h; exact ⟨by decide, _, rfl, rfl⟩
theorem Opcode.brall (f : Fields) : Opcode.Statement (.brall f) :=
  fun _ _ h => by cases h; exact ⟨by decide, _, rfl, rfl⟩
theorem Opcode.call (f : Fields) : Opcode.Statement (.call f) :=
  fun _ _ h => by cases h; exact ⟨by decide, _, rfl, rfl⟩
theorem Opcode.ret (f : Fields) : Opcode.Statement (.ret f) :=
  fun _ _ h => by cases h; exact ⟨by decide, _, rfl, rfl⟩
theorem Opcode.jmpi (f : Fields) : Opcode.Statement (.jmpi f) :=
  fun _ _ h => by cases h; exact ⟨by decide, _, rfl, rfl⟩
theorem Opcode.loop (f : Fields) : Opcode.Statement (.loop f) :=
  fun _ _ h => by cases h; exact ⟨by decide, _, rfl, rfl⟩
theorem Opcode.emset (f : Fields) : Opcode.Statement (.emset f) :=
  fun _ _ h => by cases h; exact ⟨by decide, _, rfl, rfl⟩
theorem Opcode.empush (f : Fields) : Opcode.Statement (.empush f) :=
  fun _ _ h => by cases h; exact ⟨by decide, _, rfl, rfl⟩
theorem Opcode.empop (f : Fields) : Opcode.Statement (.empop f) :=
  fun _ _ h => by cases h; exact ⟨by decide, _, rfl, rfl⟩
theorem Opcode.emand (f : Fields) : Opcode.Statement (.emand f) :=
  fun _ _ h => by cases h; exact ⟨by decide, _, rfl, rfl⟩
theorem Opcode.nop (f : Fields) : Opcode.Statement (.nop f) :=
  fun _ _ h => by cases h; exact ⟨by decide, _, rfl, rfl⟩
theorem Opcode.yield (f : Fields) : Opcode.Statement (.yield f) :=
  fun _ _ h => by cases h; exact ⟨by decide, _, rfl, rfl⟩
theorem Opcode.exit (f : Fields) : Opcode.Statement (.exit f) :=
  fun _ _ h => by cases h; exact ⟨by decide, _, rfl, rfl⟩
theorem Opcode.waittok (f : Fields) : Opcode.Statement (.waittok f) :=
  fun _ _ h => by cases h; exact ⟨by decide, _, rfl, rfl⟩
theorem Opcode.sleepw (f : Fields) : Opcode.Statement (.sleepw f) :=
  fun _ _ h => by cases h; exact ⟨by decide, _, rfl, rfl⟩
theorem Opcode.iadd (f : Fields) : Opcode.Statement (.iadd f) :=
  fun _ _ h => by cases h; exact ⟨by decide, _, rfl, rfl⟩
theorem Opcode.isub (f : Fields) : Opcode.Statement (.isub f) :=
  fun _ _ h => by cases h; exact ⟨by decide, _, rfl, rfl⟩
theorem Opcode.iaddc (f : Fields) : Opcode.Statement (.iaddc f) :=
  fun _ _ h => by cases h; exact ⟨by decide, _, rfl, rfl⟩
theorem Opcode.isubb (f : Fields) : Opcode.Statement (.isubb f) :=
  fun _ _ h => by cases h; exact ⟨by decide, _, rfl, rfl⟩
theorem Opcode.imul (f : Fields) : Opcode.Statement (.imul f) :=
  fun _ _ h => by cases h; exact ⟨by decide, _, rfl, rfl⟩
theorem Opcode.imulhi (f : Fields) : Opcode.Statement (.imulhi f) :=
  fun _ _ h => by cases h; exact ⟨by decide, _, rfl, rfl⟩
theorem Opcode.imad (f : Fields) : Opcode.Statement (.imad f) :=
  fun _ _ h => by cases h; exact ⟨by decide, _, rfl, rfl⟩
theorem Opcode.iadd64 (f : Fields) : Opcode.Statement (.iadd64 f) :=
  fun _ _ h => by cases h; exact ⟨by decide, _, rfl, rfl⟩
theorem Opcode.imul64 (f : Fields) : Opcode.Statement (.imul64 f) :=
  fun _ _ h => by cases h; exact ⟨by decide, _, rfl, rfl⟩
theorem Opcode.idiv (f : Fields) : Opcode.Statement (.idiv f) :=
  fun _ _ h => by cases h; exact ⟨by decide, _, rfl, rfl⟩
theorem Opcode.irem (f : Fields) : Opcode.Statement (.irem f) :=
  fun _ _ h => by cases h; exact ⟨by decide, _, rfl, rfl⟩
theorem Opcode.imin (f : Fields) : Opcode.Statement (.imin f) :=
  fun _ _ h => by cases h; exact ⟨by decide, _, rfl, rfl⟩
theorem Opcode.imax (f : Fields) : Opcode.Statement (.imax f) :=
  fun _ _ h => by cases h; exact ⟨by decide, _, rfl, rfl⟩
theorem Opcode.iabs (f : Fields) : Opcode.Statement (.iabs f) :=
  fun _ _ h => by cases h; exact ⟨by decide, _, rfl, rfl⟩
theorem Opcode.ineg (f : Fields) : Opcode.Statement (.ineg f) :=
  fun _ _ h => by cases h; exact ⟨by decide, _, rfl, rfl⟩
theorem Opcode.and (f : Fields) : Opcode.Statement (.and f) :=
  fun _ _ h => by cases h; exact ⟨by decide, _, rfl, rfl⟩
theorem Opcode.or (f : Fields) : Opcode.Statement (.or f) :=
  fun _ _ h => by cases h; exact ⟨by decide, _, rfl, rfl⟩
theorem Opcode.xor (f : Fields) : Opcode.Statement (.xor f) :=
  fun _ _ h => by cases h; exact ⟨by decide, _, rfl, rfl⟩
theorem Opcode.andn (f : Fields) : Opcode.Statement (.andn f) :=
  fun _ _ h => by cases h; exact ⟨by decide, _, rfl, rfl⟩
theorem Opcode.not (f : Fields) : Opcode.Statement (.not f) :=
  fun _ _ h => by cases h; exact ⟨by decide, _, rfl, rfl⟩
theorem Opcode.shl (f : Fields) : Opcode.Statement (.shl f) :=
  fun _ _ h => by cases h; exact ⟨by decide, _, rfl, rfl⟩
theorem Opcode.shr (f : Fields) : Opcode.Statement (.shr f) :=
  fun _ _ h => by cases h; exact ⟨by decide, _, rfl, rfl⟩
theorem Opcode.sar (f : Fields) : Opcode.Statement (.sar f) :=
  fun _ _ h => by cases h; exact ⟨by decide, _, rfl, rfl⟩
theorem Opcode.rol (f : Fields) : Opcode.Statement (.rol f) :=
  fun _ _ h => by cases h; exact ⟨by decide, _, rfl, rfl⟩
theorem Opcode.shl64 (f : Fields) : Opcode.Statement (.shl64 f) :=
  fun _ _ h => by cases h; exact ⟨by decide, _, rfl, rfl⟩
theorem Opcode.shr64 (f : Fields) : Opcode.Statement (.shr64 f) :=
  fun _ _ h => by cases h; exact ⟨by decide, _, rfl, rfl⟩
theorem Opcode.bfe (f : Fields) : Opcode.Statement (.bfe f) :=
  fun _ _ h => by cases h; exact ⟨by decide, _, rfl, rfl⟩
theorem Opcode.bfi (f : Fields) : Opcode.Statement (.bfi f) :=
  fun _ _ h => by cases h; exact ⟨by decide, _, rfl, rfl⟩
theorem Opcode.popc (f : Fields) : Opcode.Statement (.popc f) :=
  fun _ _ h => by cases h; exact ⟨by decide, _, rfl, rfl⟩
theorem Opcode.clz (f : Fields) : Opcode.Statement (.clz f) :=
  fun _ _ h => by cases h; exact ⟨by decide, _, rfl, rfl⟩
theorem Opcode.ctz (f : Fields) : Opcode.Statement (.ctz f) :=
  fun _ _ h => by cases h; exact ⟨by decide, _, rfl, rfl⟩
theorem Opcode.brev (f : Fields) : Opcode.Statement (.brev f) :=
  fun _ _ h => by cases h; exact ⟨by decide, _, rfl, rfl⟩
theorem Opcode.lea (f : Fields) : Opcode.Statement (.lea f) :=
  fun _ _ h => by cases h; exact ⟨by decide, _, rfl, rfl⟩
theorem Opcode.mov (f : Fields) : Opcode.Statement (.mov f) :=
  fun _ _ h => by cases h; exact ⟨by decide, _, rfl, rfl⟩
theorem Opcode.movi (f : Fields) : Opcode.Statement (.movi f) :=
  fun _ _ h => by cases h; exact ⟨by decide, _, rfl, rfl⟩
theorem Opcode.icmp (f : Fields) : Opcode.Statement (.icmp f) :=
  fun _ _ h => by cases h; exact ⟨by decide, _, rfl, rfl⟩
theorem Opcode.fcmp (f : Fields) : Opcode.Statement (.fcmp f) :=
  fun _ _ h => by cases h; exact ⟨by decide, _, rfl, rfl⟩
theorem Opcode.sel (f : Fields) : Opcode.Statement (.sel f) :=
  fun _ _ h => by cases h; exact ⟨by decide, _, rfl, rfl⟩
theorem Opcode.pand (f : Fields) : Opcode.Statement (.pand f) :=
  fun _ _ h => by cases h; exact ⟨by decide, _, rfl, rfl⟩
theorem Opcode.por (f : Fields) : Opcode.Statement (.por f) :=
  fun _ _ h => by cases h; exact ⟨by decide, _, rfl, rfl⟩
theorem Opcode.pxor (f : Fields) : Opcode.Statement (.pxor f) :=
  fun _ _ h => by cases h; exact ⟨by decide, _, rfl, rfl⟩
theorem Opcode.pnot (f : Fields) : Opcode.Statement (.pnot f) :=
  fun _ _ h => by cases h; exact ⟨by decide, _, rfl, rfl⟩
theorem Opcode.p2v (f : Fields) : Opcode.Statement (.p2v f) :=
  fun _ _ h => by cases h; exact ⟨by decide, _, rfl, rfl⟩
theorem Opcode.v2p (f : Fields) : Opcode.Statement (.v2p f) :=
  fun _ _ h => by cases h; exact ⟨by decide, _, rfl, rfl⟩
theorem Opcode.pmov (f : Fields) : Opcode.Statement (.pmov f) :=
  fun _ _ h => by cases h; exact ⟨by decide, _, rfl, rfl⟩
theorem Opcode.fadd (f : Fields) : Opcode.Statement (.fadd f) :=
  fun _ _ h => by cases h; exact ⟨by decide, _, rfl, rfl⟩
theorem Opcode.fsub (f : Fields) : Opcode.Statement (.fsub f) :=
  fun _ _ h => by cases h; exact ⟨by decide, _, rfl, rfl⟩
theorem Opcode.fmul (f : Fields) : Opcode.Statement (.fmul f) :=
  fun _ _ h => by cases h; exact ⟨by decide, _, rfl, rfl⟩
theorem Opcode.ffma (f : Fields) : Opcode.Statement (.ffma f) :=
  fun _ _ h => by cases h; exact ⟨by decide, _, rfl, rfl⟩
theorem Opcode.fdiv (f : Fields) : Opcode.Statement (.fdiv f) :=
  fun _ _ h => by cases h; exact ⟨by decide, _, rfl, rfl⟩
theorem Opcode.fmin (f : Fields) : Opcode.Statement (.fmin f) :=
  fun _ _ h => by cases h; exact ⟨by decide, _, rfl, rfl⟩
theorem Opcode.fmax (f : Fields) : Opcode.Statement (.fmax f) :=
  fun _ _ h => by cases h; exact ⟨by decide, _, rfl, rfl⟩
theorem Opcode.fabs (f : Fields) : Opcode.Statement (.fabs f) :=
  fun _ _ h => by cases h; exact ⟨by decide, _, rfl, rfl⟩
theorem Opcode.fneg (f : Fields) : Opcode.Statement (.fneg f) :=
  fun _ _ h => by cases h; exact ⟨by decide, _, rfl, rfl⟩
theorem Opcode.fclass (f : Fields) : Opcode.Statement (.fclass f) :=
  fun _ _ h => by cases h; exact ⟨by decide, _, rfl, rfl⟩
theorem Opcode.ffloor (f : Fields) : Opcode.Statement (.ffloor f) :=
  fun _ _ h => by cases h; exact ⟨by decide, _, rfl, rfl⟩
theorem Opcode.fceil (f : Fields) : Opcode.Statement (.fceil f) :=
  fun _ _ h => by cases h; exact ⟨by decide, _, rfl, rfl⟩
theorem Opcode.ftrunc (f : Fields) : Opcode.Statement (.ftrunc f) :=
  fun _ _ h => by cases h; exact ⟨by decide, _, rfl, rfl⟩
theorem Opcode.frint (f : Fields) : Opcode.Statement (.frint f) :=
  fun _ _ h => by cases h; exact ⟨by decide, _, rfl, rfl⟩
theorem Opcode.ffract (f : Fields) : Opcode.Statement (.ffract f) :=
  fun _ _ h => by cases h; exact ⟨by decide, _, rfl, rfl⟩
theorem Opcode.dadd (f : Fields) : Opcode.Statement (.dadd f) :=
  fun _ _ h => by cases h; exact ⟨by decide, _, rfl, rfl⟩
theorem Opcode.dmul (f : Fields) : Opcode.Statement (.dmul f) :=
  fun _ _ h => by cases h; exact ⟨by decide, _, rfl, rfl⟩
theorem Opcode.dfma (f : Fields) : Opcode.Statement (.dfma f) :=
  fun _ _ h => by cases h; exact ⟨by decide, _, rfl, rfl⟩
theorem Opcode.dcvt (f : Fields) : Opcode.Statement (.dcvt f) :=
  fun _ _ h => by cases h; exact ⟨by decide, _, rfl, rfl⟩
theorem Opcode.hadd2 (f : Fields) : Opcode.Statement (.hadd2 f) :=
  fun _ _ h => by cases h; exact ⟨by decide, _, rfl, rfl⟩
theorem Opcode.hmul2 (f : Fields) : Opcode.Statement (.hmul2 f) :=
  fun _ _ h => by cases h; exact ⟨by decide, _, rfl, rfl⟩
theorem Opcode.hfma2 (f : Fields) : Opcode.Statement (.hfma2 f) :=
  fun _ _ h => by cases h; exact ⟨by decide, _, rfl, rfl⟩
theorem Opcode.hmin2 (f : Fields) : Opcode.Statement (.hmin2 f) :=
  fun _ _ h => by cases h; exact ⟨by decide, _, rfl, rfl⟩
theorem Opcode.hmax2 (f : Fields) : Opcode.Statement (.hmax2 f) :=
  fun _ _ h => by cases h; exact ⟨by decide, _, rfl, rfl⟩
theorem Opcode.fdot2 (f : Fields) : Opcode.Statement (.fdot2 f) :=
  fun _ _ h => by cases h; exact ⟨by decide, _, rfl, rfl⟩
theorem Opcode.cvt (f : Fields) : Opcode.Statement (.cvt f) :=
  fun _ _ h => by cases h; exact ⟨by decide, _, rfl, rfl⟩
theorem Opcode.pack2 (f : Fields) : Opcode.Statement (.pack2 f) :=
  fun _ _ h => by cases h; exact ⟨by decide, _, rfl, rfl⟩
theorem Opcode.unpk (f : Fields) : Opcode.Statement (.unpk f) :=
  fun _ _ h => by cases h; exact ⟨by decide, _, rfl, rfl⟩
theorem Opcode.cvtq (f : Fields) : Opcode.Statement (.cvtq f) :=
  fun _ _ h => by cases h; exact ⟨by decide, _, rfl, rfl⟩
theorem Opcode.cvtdq (f : Fields) : Opcode.Statement (.cvtdq f) :=
  fun _ _ h => by cases h; exact ⟨by decide, _, rfl, rfl⟩
theorem Opcode.frcp (f : Fields) : Opcode.Statement (.frcp f) :=
  fun _ _ h => by cases h; exact ⟨by decide, _, rfl, rfl⟩
theorem Opcode.frsq (f : Fields) : Opcode.Statement (.frsq f) :=
  fun _ _ h => by cases h; exact ⟨by decide, _, rfl, rfl⟩
theorem Opcode.fsqrt (f : Fields) : Opcode.Statement (.fsqrt f) :=
  fun _ _ h => by cases h; exact ⟨by decide, _, rfl, rfl⟩
theorem Opcode.fexp2 (f : Fields) : Opcode.Statement (.fexp2 f) :=
  fun _ _ h => by cases h; exact ⟨by decide, _, rfl, rfl⟩
theorem Opcode.flog2 (f : Fields) : Opcode.Statement (.flog2 f) :=
  fun _ _ h => by cases h; exact ⟨by decide, _, rfl, rfl⟩
theorem Opcode.fsin (f : Fields) : Opcode.Statement (.fsin f) :=
  fun _ _ h => by cases h; exact ⟨by decide, _, rfl, rfl⟩
theorem Opcode.fcos (f : Fields) : Opcode.Statement (.fcos f) :=
  fun _ _ h => by cases h; exact ⟨by decide, _, rfl, rfl⟩
theorem Opcode.ftanh (f : Fields) : Opcode.Statement (.ftanh f) :=
  fun _ _ h => by cases h; exact ⟨by decide, _, rfl, rfl⟩
theorem Opcode.fsigm (f : Fields) : Opcode.Statement (.fsigm f) :=
  fun _ _ h => by cases h; exact ⟨by decide, _, rfl, rfl⟩
theorem Opcode.shfl (f : Fields) : Opcode.Statement (.shfl f) :=
  fun _ _ h => by cases h; exact ⟨by decide, _, rfl, rfl⟩
theorem Opcode.shflup (f : Fields) : Opcode.Statement (.shflup f) :=
  fun _ _ h => by cases h; exact ⟨by decide, _, rfl, rfl⟩
theorem Opcode.shfldn (f : Fields) : Opcode.Statement (.shfldn f) :=
  fun _ _ h => by cases h; exact ⟨by decide, _, rfl, rfl⟩
theorem Opcode.shflx (f : Fields) : Opcode.Statement (.shflx f) :=
  fun _ _ h => by cases h; exact ⟨by decide, _, rfl, rfl⟩
theorem Opcode.voteany (f : Fields) : Opcode.Statement (.voteany f) :=
  fun _ _ h => by cases h; exact ⟨by decide, _, rfl, rfl⟩
theorem Opcode.voteall (f : Fields) : Opcode.Statement (.voteall f) :=
  fun _ _ h => by cases h; exact ⟨by decide, _, rfl, rfl⟩
theorem Opcode.ballot (f : Fields) : Opcode.Statement (.ballot f) :=
  fun _ _ h => by cases h; exact ⟨by decide, _, rfl, rfl⟩
theorem Opcode.match_ (f : Fields) : Opcode.Statement (.match_ f) :=
  fun _ _ h => by cases h; exact ⟨by decide, _, rfl, rfl⟩
theorem Opcode.redadd (f : Fields) : Opcode.Statement (.redadd f) :=
  fun _ _ h => by cases h; exact ⟨by decide, _, rfl, rfl⟩
theorem Opcode.redmin (f : Fields) : Opcode.Statement (.redmin f) :=
  fun _ _ h => by cases h; exact ⟨by decide, _, rfl, rfl⟩
theorem Opcode.redmax (f : Fields) : Opcode.Statement (.redmax f) :=
  fun _ _ h => by cases h; exact ⟨by decide, _, rfl, rfl⟩
theorem Opcode.redand (f : Fields) : Opcode.Statement (.redand f) :=
  fun _ _ h => by cases h; exact ⟨by decide, _, rfl, rfl⟩
theorem Opcode.redor (f : Fields) : Opcode.Statement (.redor f) :=
  fun _ _ h => by cases h; exact ⟨by decide, _, rfl, rfl⟩
theorem Opcode.scanadd (f : Fields) : Opcode.Statement (.scanadd f) :=
  fun _ _ h => by cases h; exact ⟨by decide, _, rfl, rfl⟩
theorem Opcode.permq (f : Fields) : Opcode.Statement (.permq f) :=
  fun _ _ h => by cases h; exact ⟨by decide, _, rfl, rfl⟩
theorem Opcode.ld (f : Fields) : Opcode.Statement (.ld f) :=
  fun _ _ h => by cases h; exact ⟨by decide, _, rfl, rfl⟩
theorem Opcode.st (f : Fields) : Opcode.Statement (.st f) :=
  fun _ _ h => by cases h; exact ⟨by decide, _, rfl, rfl⟩
theorem Opcode.ldl (f : Fields) : Opcode.Statement (.ldl f) :=
  fun _ _ h => by cases h; exact ⟨by decide, _, rfl, rfl⟩
theorem Opcode.stl (f : Fields) : Opcode.Statement (.stl f) :=
  fun _ _ h => by cases h; exact ⟨by decide, _, rfl, rfl⟩
theorem Opcode.lds (f : Fields) : Opcode.Statement (.lds f) :=
  fun _ _ h => by cases h; exact ⟨by decide, _, rfl, rfl⟩
theorem Opcode.sts (f : Fields) : Opcode.Statement (.sts f) :=
  fun _ _ h => by cases h; exact ⟨by decide, _, rfl, rfl⟩
theorem Opcode.stb (f : Fields) : Opcode.Statement (.stb f) :=
  fun _ _ h => by cases h; exact ⟨by decide, _, rfl, rfl⟩
theorem Opcode.ldb (f : Fields) : Opcode.Statement (.ldb f) :=
  fun _ _ h => by cases h; exact ⟨by decide, _, rfl, rfl⟩
theorem Opcode.pref (f : Fields) : Opcode.Statement (.pref f) :=
  fun _ _ h => by cases h; exact ⟨by decide, _, rfl, rfl⟩
theorem Opcode.cinv (f : Fields) : Opcode.Statement (.cinv f) :=
  fun _ _ h => by cases h; exact ⟨by decide, _, rfl, rfl⟩
theorem Opcode.cwb (f : Fields) : Opcode.Statement (.cwb f) :=
  fun _ _ h => by cases h; exact ⟨by decide, _, rfl, rfl⟩
theorem Opcode.pin (f : Fields) : Opcode.Statement (.pin f) :=
  fun _ _ h => by cases h; exact ⟨by decide, _, rfl, rfl⟩
theorem Opcode.unpin (f : Fields) : Opcode.Statement (.unpin f) :=
  fun _ _ h => by cases h; exact ⟨by decide, _, rfl, rfl⟩
theorem Opcode.hset (f : Fields) : Opcode.Statement (.hset f) :=
  fun _ _ h => by cases h; exact ⟨by decide, _, rfl, rfl⟩
theorem Opcode.hget (f : Fields) : Opcode.Statement (.hget f) :=
  fun _ _ h => by cases h; exact ⟨by decide, _, rfl, rfl⟩
theorem Opcode.xlat (f : Fields) : Opcode.Statement (.xlat f) :=
  fun _ _ h => by cases h; exact ⟨by decide, _, rfl, rfl⟩
theorem Opcode.atom (f : Fields) : Opcode.Statement (.atom f) :=
  fun _ _ h => by cases h; exact ⟨by decide, _, rfl, rfl⟩
theorem Opcode.cas (f : Fields) : Opcode.Statement (.cas f) :=
  fun _ _ h => by cases h; exact ⟨by decide, _, rfl, rfl⟩
theorem Opcode.red (f : Fields) : Opcode.Statement (.red f) :=
  fun _ _ h => by cases h; exact ⟨by decide, _, rfl, rfl⟩
theorem Opcode.fence (f : Fields) : Opcode.Statement (.fence f) :=
  fun _ _ h => by cases h; exact ⟨by decide, _, rfl, rfl⟩
theorem Opcode.bar (f : Fields) : Opcode.Statement (.bar f) :=
  fun _ _ h => by cases h; exact ⟨by decide, _, rfl, rfl⟩
theorem Opcode.bararv (f : Fields) : Opcode.Statement (.bararv f) :=
  fun _ _ h => by cases h; exact ⟨by decide, _, rfl, rfl⟩
theorem Opcode.barwt (f : Fields) : Opcode.Statement (.barwt f) :=
  fun _ _ h => by cases h; exact ⟨by decide, _, rfl, rfl⟩
theorem Opcode.qlock (f : Fields) : Opcode.Statement (.qlock f) :=
  fun _ _ h => by cases h; exact ⟨by decide, _, rfl, rfl⟩
theorem Opcode.qunlock (f : Fields) : Opcode.Statement (.qunlock f) :=
  fun _ _ h => by cases h; exact ⟨by decide, _, rfl, rfl⟩
theorem Opcode.qpush (f : Fields) : Opcode.Statement (.qpush f) :=
  fun _ _ h => by cases h; exact ⟨by decide, _, rfl, rfl⟩
theorem Opcode.qpop (f : Fields) : Opcode.Statement (.qpop f) :=
  fun _ _ h => by cases h; exact ⟨by decide, _, rfl, rfl⟩
theorem Opcode.qtry (f : Fields) : Opcode.Statement (.qtry f) :=
  fun _ _ h => by cases h; exact ⟨by decide, _, rfl, rfl⟩
theorem Opcode.ctradd (f : Fields) : Opcode.Statement (.ctradd f) :=
  fun _ _ h => by cases h; exact ⟨by decide, _, rfl, rfl⟩
theorem Opcode.ctrwait (f : Fields) : Opcode.Statement (.ctrwait f) :=
  fun _ _ h => by cases h; exact ⟨by decide, _, rfl, rfl⟩
theorem Opcode.mmstat (f : Fields) : Opcode.Statement (.mmstat f) :=
  fun _ _ h => by cases h; exact ⟨by decide, _, rfl, rfl⟩
theorem Opcode.cpy (f : Fields) : Opcode.Statement (.cpy f) :=
  fun _ _ h => by cases h; exact ⟨by decide, _, rfl, rfl⟩
theorem Opcode.cpyb (f : Fields) : Opcode.Statement (.cpyb f) :=
  fun _ _ h => by cases h; exact ⟨by decide, _, rfl, rfl⟩
theorem Opcode.gthr (f : Fields) : Opcode.Statement (.gthr f) :=
  fun _ _ h => by cases h; exact ⟨by decide, _, rfl, rfl⟩
theorem Opcode.sctr (f : Fields) : Opcode.Statement (.sctr f) :=
  fun _ _ h => by cases h; exact ⟨by decide, _, rfl, rfl⟩
theorem Opcode.bcast (f : Fields) : Opcode.Statement (.bcast f) :=
  fun _ _ h => by cases h; exact ⟨by decide, _, rfl, rfl⟩
theorem Opcode.cntwait (f : Fields) : Opcode.Statement (.cntwait f) :=
  fun _ _ h => by cases h; exact ⟨by decide, _, rfl, rfl⟩
theorem Opcode.cntrd (f : Fields) : Opcode.Statement (.cntrd f) :=
  fun _ _ h => by cases h; exact ⟨by decide, _, rfl, rfl⟩
theorem Opcode.mmq (f : Fields) : Opcode.Statement (.mmq f) :=
  fun _ _ h => by cases h; exact ⟨by decide, _, rfl, rfl⟩
theorem Opcode.mzero (f : Fields) : Opcode.Statement (.mzero f) :=
  fun _ _ h => by cases h; exact ⟨by decide, _, rfl, rfl⟩
theorem Opcode.mzld (f : Fields) : Opcode.Statement (.mzld f) :=
  fun _ _ h => by cases h; exact ⟨by decide, _, rfl, rfl⟩
theorem Opcode.mzmv (f : Fields) : Opcode.Statement (.mzmv f) :=
  fun _ _ h => by cases h; exact ⟨by decide, _, rfl, rfl⟩
theorem Opcode.mzst (f : Fields) : Opcode.Statement (.mzst f) :=
  fun _ _ h => by cases h; exact ⟨by decide, _, rfl, rfl⟩
theorem Opcode.mbsel (f : Fields) : Opcode.Statement (.mbsel f) :=
  fun _ _ h => by cases h; exact ⟨by decide, _, rfl, rfl⟩
theorem Opcode.scan (f : Fields) : Opcode.Statement (.scan f) :=
  fun _ _ h => by cases h; exact ⟨by decide, _, rfl, rfl⟩
theorem Opcode.scanst (f : Fields) : Opcode.Statement (.scanst f) :=
  fun _ _ h => by cases h; exact ⟨by decide, _, rfl, rfl⟩
theorem Opcode.lnch (f : Fields) : Opcode.Statement (.lnch f) :=
  fun _ _ h => by cases h; exact ⟨by decide, _, rfl, rfl⟩
theorem Opcode.taskq (f : Fields) : Opcode.Statement (.taskq f) :=
  fun _ _ h => by cases h; exact ⟨by decide, _, rfl, rfl⟩
theorem Opcode.succhint (f : Fields) : Opcode.Statement (.succhint f) :=
  fun _ _ h => by cases h; exact ⟨by decide, _, rfl, rfl⟩
theorem Opcode.waitpred (f : Fields) : Opcode.Statement (.waitpred f) :=
  fun _ _ h => by cases h; exact ⟨by decide, _, rfl, rfl⟩
theorem Opcode.fetchw (f : Fields) : Opcode.Statement (.fetchw f) :=
  fun _ _ h => by cases h; exact ⟨by decide, _, rfl, rfl⟩
theorem Opcode.cancel (f : Fields) : Opcode.Statement (.cancel f) :=
  fun _ _ h => by cases h; exact ⟨by decide, _, rfl, rfl⟩
theorem Opcode.ctrget (f : Fields) : Opcode.Statement (.ctrget f) :=
  fun _ _ h => by cases h; exact ⟨by decide, _, rfl, rfl⟩
theorem Opcode.watch (f : Fields) : Opcode.Statement (.watch f) :=
  fun _ _ h => by cases h; exact ⟨by decide, _, rfl, rfl⟩
theorem Opcode.unwatch (f : Fields) : Opcode.Statement (.unwatch f) :=
  fun _ _ h => by cases h; exact ⟨by decide, _, rfl, rfl⟩
theorem Opcode.watchq (f : Fields) : Opcode.Statement (.watchq f) :=
  fun _ _ h => by cases h; exact ⟨by decide, _, rfl, rfl⟩
theorem Opcode.smpget (f : Fields) : Opcode.Statement (.smpget f) :=
  fun _ _ h => by cases h; exact ⟨by decide, _, rfl, rfl⟩
theorem Opcode.smpput (f : Fields) : Opcode.Statement (.smpput f) :=
  fun _ _ h => by cases h; exact ⟨by decide, _, rfl, rfl⟩
theorem Opcode.smprd (f : Fields) : Opcode.Statement (.smprd f) :=
  fun _ _ h => by cases h; exact ⟨by decide, _, rfl, rfl⟩
theorem Opcode.pmapwr (f : Fields) : Opcode.Statement (.pmapwr f) :=
  fun _ _ h => by cases h; exact ⟨by decide, _, rfl, rfl⟩
theorem Opcode.rayq (f : Fields) : Opcode.Statement (.rayq f) :=
  fun _ _ h => by cases h; exact ⟨by decide, _, rfl, rfl⟩
theorem Opcode.rayrd (f : Fields) : Opcode.Statement (.rayrd f) :=
  fun _ _ h => by cases h; exact ⟨by decide, _, rfl, rfl⟩
theorem Opcode.tricls (f : Fields) : Opcode.Statement (.tricls f) :=
  fun _ _ h => by cases h; exact ⟨by decide, _, rfl, rfl⟩
theorem Opcode.triras (f : Fields) : Opcode.Statement (.triras f) :=
  fun _ _ h => by cases h; exact ⟨by decide, _, rfl, rfl⟩
theorem Opcode.eyebor (f : Fields) : Opcode.Statement (.eyebor f) :=
  fun _ _ h => by cases h; exact ⟨by decide, _, rfl, rfl⟩
theorem Opcode.rowwait (f : Fields) : Opcode.Statement (.rowwait f) :=
  fun _ _ h => by cases h; exact ⟨by decide, _, rfl, rfl⟩
theorem Opcode.rowput (f : Fields) : Opcode.Statement (.rowput f) :=
  fun _ _ h => by cases h; exact ⟨by decide, _, rfl, rfl⟩
theorem Opcode.trap (f : Fields) : Opcode.Statement (.trap f) :=
  fun _ _ h => by cases h; exact ⟨by decide, _, rfl, rfl⟩
theorem Opcode.eret (f : Fields) : Opcode.Statement (.eret f) :=
  fun _ _ h => by cases h; exact ⟨by decide, _, rfl, rfl⟩
theorem Opcode.csrr (f : Fields) : Opcode.Statement (.csrr f) :=
  fun _ _ h => by cases h; exact ⟨by decide, _, rfl, rfl⟩
theorem Opcode.csrw (f : Fields) : Opcode.Statement (.csrw f) :=
  fun _ _ h => by cases h; exact ⟨by decide, _, rfl, rfl⟩
theorem Opcode.brkpt (f : Fields) : Opcode.Statement (.brkpt f) :=
  fun _ _ h => by cases h; exact ⟨by decide, _, rfl, rfl⟩
theorem Opcode.tlbinv (f : Fields) : Opcode.Statement (.tlbinv f) :=
  fun _ _ h => by cases h; exact ⟨by decide, _, rfl, rfl⟩
theorem Opcode.pagemap (f : Fields) : Opcode.Statement (.pagemap f) :=
  fun _ _ h => by cases h; exact ⟨by decide, _, rfl, rfl⟩
theorem Opcode.wakew (f : Fields) : Opcode.Statement (.wakew f) :=
  fun _ _ h => by cases h; exact ⟨by decide, _, rfl, rfl⟩
theorem Opcode.slotreq (f : Fields) : Opcode.Statement (.slotreq f) :=
  fun _ _ h => by cases h; exact ⟨by decide, _, rfl, rfl⟩
theorem Opcode.slotrel (f : Fields) : Opcode.Statement (.slotrel f) :=
  fun _ _ h => by cases h; exact ⟨by decide, _, rfl, rfl⟩
theorem Opcode.layerps (f : Fields) : Opcode.Statement (.layerps f) :=
  fun _ _ h => by cases h; exact ⟨by decide, _, rfl, rfl⟩
theorem Opcode.ximm (f : Fields) : Opcode.Statement (.ximm f) :=
  fun _ _ h => by cases h; exact ⟨by decide, _, rfl, rfl⟩
theorem Opcode.xfmt (f : Fields) : Opcode.Statement (.xfmt f) :=
  fun _ _ h => by cases h; exact ⟨by decide, _, rfl, rfl⟩
theorem Opcode.runStart (p : Place) (port : Fin 2) : Opcode.Statement (.runStart p port) :=
  fun _ _ h => by cases h
theorem Opcode.tokenClear (w : WaveKey) (tok : Fin 6) : Opcode.Statement (.tokenClear w tok) :=
  fun _ _ h => by cases h
theorem Opcode.dealTile (t : TowerId) : Opcode.Statement (.dealTile t) :=
  fun _ _ h => by cases h
theorem Opcode.clusterEnqueue (t : TowerId) (l : LayerId) : Opcode.Statement (.clusterEnqueue t l) :=
  fun _ _ h => by cases h
theorem Opcode.placeUnit (t : TowerId) (l : LayerId) (c : ClusterId) : Opcode.Statement (.placeUnit t l c) :=
  fun _ _ h => by cases h
theorem Opcode.groupStart (g : GroupKey) : Opcode.Statement (.groupStart g) :=
  fun _ _ h => by cases h
theorem Opcode.stealRequest (t : TowerId) (l : LayerId) (c : ClusterId) : Opcode.Statement (.stealRequest t l c) :=
  fun _ _ h => by cases h
theorem Opcode.donationRequest (t : TowerId) (l : LayerId) : Opcode.Statement (.donationRequest t l) :=
  fun _ _ h => by cases h
theorem Opcode.unitRetire (u : Nat) : Opcode.Statement (.unitRetire u) :=
  fun _ _ h => by cases h
theorem Opcode.groupSave (g : GroupKey) : Opcode.Statement (.groupSave g) :=
  fun _ _ h => by cases h
theorem Opcode.groupRestore (g : GroupKey) : Opcode.Statement (.groupRestore g) :=
  fun _ _ h => by cases h
theorem Opcode.engineComplete (w : WaveKey) (c : EngClass) : Opcode.Statement (.engineComplete w c) :=
  fun _ _ h => by cases h
theorem Opcode.fetchwMailboxWrite (g : GroupKey) : Opcode.Statement (.fetchwMailboxWrite g) :=
  fun _ _ h => by cases h
theorem Opcode.triggerChange (t : TowerId) : Opcode.Statement (.triggerChange t) :=
  fun _ _ h => by cases h
theorem Opcode.rateWindow (t : TowerId) : Opcode.Statement (.rateWindow t) :=
  fun _ _ h => by cases h
theorem Opcode.submissionSlotServe (t : TowerId) : Opcode.Statement (.submissionSlotServe t) :=
  fun _ _ h => by cases h
theorem Opcode.heldUseRetry (n : Nat) : Opcode.Statement (.heldUseRetry n) :=
  fun _ _ h => by cases h
theorem Opcode.deadlineGuard (t : TowerId) : Opcode.Statement (.deadlineGuard t) :=
  fun _ _ h => by cases h
theorem Opcode.deadline (t : TowerId) : Opcode.Statement (.deadline t) :=
  fun _ _ h => by cases h
theorem Opcode.preemptto (t : TowerId) (u : Nat) : Opcode.Statement (.preemptto t u) :=
  fun _ _ h => by cases h
theorem Opcode.sleepTimeout (w : WaveKey) : Opcode.Statement (.sleepTimeout w) :=
  fun _ _ h => by cases h
theorem Opcode.watchdog (w : WaveKey) : Opcode.Statement (.watchdog w) :=
  fun _ _ h => by cases h
theorem Opcode.ctrwaitSatisfied (w : WaveKey) : Opcode.Statement (.ctrwaitSatisfied w) :=
  fun _ _ h => by cases h
theorem Opcode.tlbShootdownDone (w : WaveKey) : Opcode.Statement (.tlbShootdownDone w) :=
  fun _ _ h => by cases h
theorem Opcode.sectorTransmit (t : TowerId) (job : Nat) : Opcode.Statement (.sectorTransmit t job) :=
  fun _ _ h => by cases h
theorem Opcode.almanacCommitApply (t : TowerId) : Opcode.Statement (.almanacCommitApply t) :=
  fun _ _ h => by cases h
theorem Opcode.layerTransitionDone (t : TowerId) (l : LayerId) : Opcode.Statement (.layerTransitionDone t l) :=
  fun _ _ h => by cases h
theorem Opcode.rejoinDone (t : TowerId) (l : LayerId) : Opcode.Statement (.rejoinDone t l) :=
  fun _ _ h => by cases h
theorem Opcode.linkRetrain : Opcode.Statement .linkRetrain :=
  fun _ _ h => by cases h
theorem Opcode.linkRetrainEnd (ok : Bool) : Opcode.Statement (.linkRetrainEnd ok) :=
  fun _ _ h => by cases h
theorem Opcode.pageMigration (job : Nat) (va : DWord) : Opcode.Statement (.pageMigration job va) :=
  fun _ _ h => by cases h
theorem Opcode.lanternSweepStart (t : TowerId) : Opcode.Statement (.lanternSweepStart t) :=
  fun _ _ h => by cases h
theorem Opcode.lanternEmitBlock (t : TowerId) : Opcode.Statement (.lanternEmitBlock t) :=
  fun _ _ h => by cases h
theorem Opcode.lanternPopItem (t : TowerId) (l : LayerId) : Opcode.Statement (.lanternPopItem t l) :=
  fun _ _ h => by cases h
theorem Opcode.lineLit (t : TowerId) : Opcode.Statement (.lineLit t) :=
  fun _ _ h => by cases h
theorem Opcode.rowwaitWake (w : WaveKey) : Opcode.Statement (.rowwaitWake w) :=
  fun _ _ h => by cases h
theorem Opcode.panelLockLoss (t : TowerId) : Opcode.Statement (.panelLockLoss t) :=
  fun _ _ h => by cases h
theorem Opcode.panelLockReturn (t : TowerId) : Opcode.Statement (.panelLockReturn t) :=
  fun _ _ h => by cases h
theorem Opcode.memclkChange (t : TowerId) : Opcode.Statement (.memclkChange t) :=
  fun _ _ h => by cases h
theorem Opcode.memclkStallEnd (t : TowerId) : Opcode.Statement (.memclkStallEnd t) :=
  fun _ _ h => by cases h
theorem Opcode.borrowLate (w : WaveKey) : Opcode.Statement (.borrowLate w) :=
  fun _ _ h => by cases h
theorem Opcode.faultRecordPush (t : TowerId) (job : Nat) : Opcode.Statement (.faultRecordPush t job) :=
  fun _ _ h => by cases h
theorem Opcode.hwqueueRetry (t : TowerId) : Opcode.Statement (.hwqueueRetry t) :=
  fun _ _ h => by cases h
theorem Opcode.hostRead (t : TowerId) (dpa : DWord) (n : Nat) : Opcode.Statement (.hostRead t dpa n) :=
  fun _ _ h => by cases h
theorem Opcode.hostWrite (t : TowerId) (dpa : DWord) (data : List Byte) (rel : Bool) : Opcode.Statement (.hostWrite t dpa data rel) :=
  fun _ _ h => by cases h
theorem Opcode.hostAtomic (t : TowerId) (dpa : DWord) (wide : Bool) (op : BitVec 4) (x : DWord) : Opcode.Statement (.hostAtomic t dpa wide op x) :=
  fun _ _ h => by cases h
theorem Opcode.powerOn : Opcode.Statement .powerOn :=
  fun _ _ h => by cases h
theorem Opcode.towerImageCheck : Opcode.Statement .towerImageCheck :=
  fun _ _ h => by cases h
theorem Opcode.thermal : Opcode.Statement .thermal :=
  fun _ _ h => by cases h
theorem Opcode.eccUncorrectable (code : Fin 9) (w : WaveKey) (addr : DWord) : Opcode.Statement (.eccUncorrectable code w addr) :=
  fun _ _ h => by cases h
theorem Opcode.eccCorrected (t : TowerId) : Opcode.Statement (.eccCorrected t) :=
  fun _ _ h => by cases h
theorem Opcode.layeroff (t : TowerId) (l : LayerId) : Opcode.Statement (.layeroff t l) :=
  fun _ _ h => by cases h
theorem Opcode.machine (p : Place) : Opcode.Statement (.machine p) :=
  fun _ _ h => by cases h
theorem Opcode.hosterr (t : TowerId) : Opcode.Statement (.hosterr t) :=
  fun _ _ h => by cases h
theorem Opcode.hostAssistTimeout (t : TowerId) : Opcode.Statement (.hostAssistTimeout t) :=
  fun _ _ h => by cases h
theorem Opcode.fwfault (t : TowerId) : Opcode.Statement (.fwfault t) :=
  fun _ _ h => by cases h
theorem Opcode.clswayWrite (t : TowerId) (x : Word) : Opcode.Statement (.clswayWrite t x) :=
  fun _ _ h => by cases h
theorem Opcode.almctlCommit (t : TowerId) : Opcode.Statement (.almctlCommit t) :=
  fun _ _ h => by cases h
theorem Opcode.lntctlWrite (t : TowerId) (x : Word) : Opcode.Statement (.lntctlWrite t x) :=
  fun _ _ h => by cases h
theorem Opcode.dspctlWrite (t : TowerId) (n : BitVec 12) (x : Word) : Opcode.Statement (.dspctlWrite t n x) :=
  fun _ _ h => by cases h
theorem Opcode.memclkArm (t : TowerId) (x : Word) : Opcode.Statement (.memclkArm t x) :=
  fun _ _ h => by cases h
theorem Opcode.pwrctlGo (t : TowerId) (x : Word) : Opcode.Statement (.pwrctlGo t x) :=
  fun _ _ h => by cases h
theorem Opcode.fnmodeWrite (t : TowerId) (x : Word) : Opcode.Statement (.fnmodeWrite t x) :=
  fun _ _ h => by cases h
theorem Opcode.hbootgo (t : TowerId) : Opcode.Statement (.hbootgo t) :=
  fun _ _ h => by cases h
theorem Opcode.hwcmdResume (t : TowerId) : Opcode.Statement (.hwcmdResume t) :=
  fun _ _ h => by cases h
theorem Opcode.hwcmdAbort (t : TowerId) : Opcode.Statement (.hwcmdAbort t) :=
  fun _ _ h => by cases h
theorem Opcode.hwcmdTlbinv (t : TowerId) : Opcode.Statement (.hwcmdTlbinv t) :=
  fun _ _ h => by cases h
theorem Opcode.htcountWrite (t : TowerId) (x : Word) : Opcode.Statement (.htcountWrite t x) :=
  fun _ _ h => by cases h
theorem Opcode.attctlGo (t : TowerId) : Opcode.Statement (.attctlGo t) :=
  fun _ _ h => by cases h
theorem Opcode.dmkctlWrite (t : TowerId) (x : Word) : Opcode.Statement (.dmkctlWrite t x) :=
  fun _ _ h => by cases h
theorem Opcode.jctlWrite (t : TowerId) (hi : Bool) (x : Word) : Opcode.Statement (.jctlWrite t hi x) :=
  fun _ _ h => by cases h
theorem Opcode.registerWrite (t : TowerId) (off : BitVec 16) (x : Word) : Opcode.Statement (.registerWrite t off x) :=
  fun _ _ h => by cases h
theorem Opcode.clockStepEnd : Opcode.Statement .clockStepEnd :=
  fun _ _ h => by cases h

end Sys2Proof.Laws
end

