-- ==== Sys2Proof/Tests/Slice0.lean ====
section
/-! SUPPORT. Tests: words of the manual's encodings and what they decode to, ill-formed terms that the checks
refuse, a small state in which every word of the opcode map issues, results that the manual gives, and for
the hypotheses of the statements states and operands that meet them. -/

namespace Sys2Proof.Tests

open Machine

set_option maxRecDepth 100000

/-- A word without guard: mod, d, a, b, hint and ext. -/
def w (m : Nat) (d a b : Opnd) (h : Hint) (e : Nat) : Fields := ⟨BitVec.ofNat 7 m, d, a, b, ⟨false, 0⟩, h, BitVec.ofNat 32 e⟩
/-- No hint; token 1; END; END with token 1; END with token 1 in AWAIT as well. -/
def h0 : Hint := ⟨0, false, false, false, 0, 0⟩
def hT : Hint := ⟨0, false, false, true, 1, 0⟩
def hE : Hint := ⟨0, true, false, false, 0, 0⟩
def hET : Hint := ⟨0, true, false, true, 1, 0⟩
def hO : Hint := ⟨0, true, false, true, 1, 2⟩

/-- Page tables that map the low 2 GiB to themselves (L4 at 0x4000, L3, a large leaf in L2), and four handle entries of
job 5: global bytes from 0x100000, local bytes, window bytes and Damask (Tables 9.1 to 9.3). -/
def cells : List Host.Cell :=
  [(0x4000, 0x01), (0x4001, 0x80), (0x8000, 0x01), (0x8001, 0xC0), (0xC000, 0x0F),
   (0x10002, 0x10), (0x1000A, 0x01), (0x10010, 1), (0x10012, 7),
   (0x10029, 0x10), (0x10030, 2), (0x10032, 3), (0x1004A, 1), (0x10050, 3), (0x10052, 3), (0x1006B, 4), (0x10070, 4), (0x10072, 3)]

/-- Job 5. -/
def job5 : Job := ⟨5, 0x20000, 0x20000, 0x4000, 0x10000, 1, 1, true, true, false, false, 0⟩

/-- A privileged wave of job 5 in a run, with lanes 0 and 5 active, 320 vector registers and 4 KiB of local space; job 5
owns both towers' slots 0 and 1. -/
def world : State :=
  { State.reset with
    jobs := [job5]
    mem := cells
    wave := { State.reset.wave with
      job := 5
      gid := 1
      alive := true
      inRun := true
      jctl := 1
      pc := 0x200000
      em := 0x21 }
    group := { State.reset.group with
      job := 5
      gid := 1
      unit := 7
      task := 40 <<< 256
      waves := 1
      space := 0x1000
      resident := true
      started := true
      ended := false } }

/-! ### One word of every instruction, which passes its checks in `world` -/

def controlWords : List ((Fields → Instr) × Fields) :=
  [(.bra, w 0 (.v 0) (.v 0) (.v 0) hE 0),
   (.brc, w 0 (.v 0) (.s 16) (.v 0) hE 0),
   (.brany, w 0 (.v 0) (.v 0) (.v 0) hE 0),
   (.brall, w 0 (.v 0) (.v 0) (.v 0) hE 0),
   (.call, w 0 (.s 8) (.v 0) (.v 0) hE 0),
   (.ret, w 0 (.v 0) (.s 16) (.v 0) hE 0),
   (.jmpi, w 0 (.v 0) (.s 16) (.v 0) hE 0),
   (.loop, w 0 (.s 8) (.v 0) (.v 0) hE 0),
   (.emset, w 0 (.v 0) (.s 16) (.v 0) h0 0),
   (.empush, w 0 (.v 0) (.v 0) (.v 0) h0 0),
   (.empop, w 0 (.v 0) (.v 0) (.v 0) h0 0),
   (.emand, w 0 (.v 0) (.p 3) (.v 0) h0 0),
   (.nop, w 0 (.v 0) (.v 0) (.v 0) h0 0),
   (.yield, w 0 (.v 0) (.v 0) (.v 0) hE 0),
   (.exit, w 0 (.v 0) (.v 0) (.v 0) hE 0),
   (.waittok, w 0 (.v 0) (.v 0) (.v 0) hE 0),
   (.sleepw, w 0 (.v 0) (.s 16) (.v 0) hE 0)]
def integer0Words : List ((Fields → Instr) × Fields) :=
  [(.iadd, w 0 (.v 8) (.v 16) (.v 24) h0 0),
   (.isub, w 0 (.v 8) (.v 16) (.v 24) h0 0),
   (.iaddc, w 0 (.v 8) (.v 16) (.v 24) h0 459),
   (.isubb, w 0 (.v 8) (.v 16) (.v 24) h0 459),
   (.imul, w 0 (.v 8) (.v 16) (.v 24) h0 0),
   (.imulhi, w 0 (.v 8) (.v 16) (.v 24) h0 0),
   (.imad, w 0 (.v 8) (.v 16) (.v 24) h0 0),
   (.iadd64, w 0 (.v 8) (.v 16) (.v 24) h0 0),
   (.imul64, w 0 (.v 8) (.v 16) (.v 24) h0 0),
   (.idiv, w 0 (.v 8) (.v 16) (.v 24) hT 0),
   (.irem, w 0 (.v 8) (.v 16) (.v 24) hT 0),
   (.imin, w 0 (.v 8) (.v 16) (.v 24) h0 0),
   (.imax, w 0 (.v 8) (.v 16) (.v 24) h0 0),
   (.iabs, w 0 (.v 8) (.v 16) (.v 0) h0 0),
   (.ineg, w 0 (.v 8) (.v 16) (.v 0) h0 0),
   (.and, w 0 (.v 8) (.v 16) (.v 24) h0 0),
   (.or, w 0 (.v 8) (.v 16) (.v 24) h0 0)]
def integer1Words : List ((Fields → Instr) × Fields) :=
  [(.xor, w 0 (.v 8) (.v 16) (.v 24) h0 0),
   (.andn, w 0 (.v 8) (.v 16) (.v 24) h0 0),
   (.not, w 0 (.v 8) (.v 16) (.v 0) h0 0),
   (.shl, w 0 (.v 8) (.v 16) (.v 24) h0 0),
   (.shr, w 0 (.v 8) (.v 16) (.v 24) h0 0),
   (.sar, w 0 (.v 8) (.v 16) (.v 24) h0 0),
   (.rol, w 0 (.v 8) (.v 16) (.v 24) h0 0),
   (.shl64, w 0 (.v 8) (.v 16) (.v 24) h0 0),
   (.shr64, w 0 (.v 8) (.v 16) (.v 24) h0 0),
   (.bfe, w 0 (.v 8) (.v 16) (.v 24) h0 0),
   (.bfi, w 0 (.v 8) (.v 16) (.v 24) h0 0),
   (.popc, w 0 (.v 8) (.v 16) (.v 0) h0 0),
   (.clz, w 0 (.v 8) (.v 16) (.v 0) h0 0),
   (.ctz, w 0 (.v 8) (.v 16) (.v 0) h0 0),
   (.brev, w 0 (.v 8) (.v 16) (.v 0) h0 0),
   (.lea, w 0 (.v 8) (.v 16) (.v 24) h0 0),
   (.mov, w 0 (.v 8) (.v 16) (.v 0) h0 0),
   (.movi, w 64 (.v 8) (.v 0) (.v 0) h0 0)]
def selectWords : List ((Fields → Instr) × Fields) :=
  [(.icmp, w 0 (.p 2) (.v 16) (.v 24) h0 0),
   (.fcmp, w 0 (.p 2) (.v 16) (.v 24) h0 0),
   (.sel, w 0 (.v 8) (.p 3) (.v 24) h0 0),
   (.pand, w 0 (.p 2) (.p 3) (.p 4) h0 0),
   (.por, w 0 (.p 2) (.p 3) (.p 4) h0 0),
   (.pxor, w 0 (.p 2) (.p 3) (.p 4) h0 0),
   (.pnot, w 0 (.p 2) (.p 3) (.v 0) h0 0),
   (.p2v, w 0 (.v 8) (.p 3) (.v 0) h0 0),
   (.v2p, w 0 (.p 2) (.v 16) (.v 0) h0 0),
   (.pmov, w 0 (.p 2) (.s 16) (.v 0) h0 0)]
def floatWords : List ((Fields → Instr) × Fields) :=
  [(.fadd, w 0 (.v 8) (.v 16) (.v 24) h0 0),
   (.fsub, w 0 (.v 8) (.v 16) (.v 24) h0 0),
   (.fmul, w 0 (.v 8) (.v 16) (.v 24) h0 0),
   (.ffma, w 0 (.v 8) (.v 16) (.v 24) h0 0),
   (.fdiv, w 0 (.v 8) (.v 16) (.v 24) hT 0),
   (.fmin, w 0 (.v 8) (.v 16) (.v 24) h0 0),
   (.fmax, w 0 (.v 8) (.v 16) (.v 24) h0 0),
   (.fabs, w 0 (.v 8) (.v 16) (.v 0) h0 0),
   (.fneg, w 0 (.v 8) (.v 16) (.v 0) h0 0),
   (.fclass, w 0 (.v 8) (.v 16) (.v 0) h0 0),
   (.ffloor, w 0 (.v 8) (.v 16) (.v 0) h0 0),
   (.fceil, w 0 (.v 8) (.v 16) (.v 0) h0 0),
   (.ftrunc, w 0 (.v 8) (.v 16) (.v 0) h0 0),
   (.frint, w 0 (.v 8) (.v 16) (.v 0) h0 0),
   (.ffract, w 0 (.v 8) (.v 16) (.v 0) h0 0)]
def doubleWords : List ((Fields → Instr) × Fields) :=
  [(.dadd, w 0 (.s 8) (.s 16) (.s 24) h0 0),
   (.dmul, w 0 (.s 8) (.s 16) (.s 24) h0 0),
   (.dfma, w 64 (.s 8) (.s 16) (.s 24) h0 0),
   (.dcvt, w 0 (.s 8) (.s 16) (.v 0) h0 0)]
def halfWords : List ((Fields → Instr) × Fields) :=
  [(.hadd2, w 0 (.v 8) (.v 16) (.v 24) h0 0),
   (.hmul2, w 0 (.v 8) (.v 16) (.v 24) h0 0),
   (.hfma2, w 0 (.v 8) (.v 16) (.v 24) h0 0),
   (.hmin2, w 0 (.v 8) (.v 16) (.v 24) h0 0),
   (.hmax2, w 0 (.v 8) (.v 16) (.v 24) h0 0),
   (.fdot2, w 0 (.v 8) (.v 16) (.v 24) h0 0)]
def convertWords : List ((Fields → Instr) × Fields) :=
  [(.cvt, w 0 (.v 8) (.v 16) (.v 0) h0 0),
   (.pack2, w 0 (.v 8) (.v 16) (.v 24) h0 0),
   (.unpk, w 0 (.v 8) (.v 16) (.v 0) h0 0),
   (.cvtq, w 0 (.v 8) (.v 16) (.v 0) hT 0),
   (.cvtdq, w 0 (.v 8) (.v 16) (.v 0) hT 0),
   (.frcp, w 0 (.v 8) (.v 16) (.v 0) hT 0),
   (.frsq, w 0 (.v 8) (.v 16) (.v 0) hT 0),
   (.fsqrt, w 0 (.v 8) (.v 16) (.v 0) hT 0),
   (.fexp2, w 0 (.v 8) (.v 16) (.v 0) hT 0),
   (.flog2, w 0 (.v 8) (.v 16) (.v 0) hT 0),
   (.fsin, w 0 (.v 8) (.v 16) (.v 0) hT 0),
   (.fcos, w 0 (.v 8) (.v 16) (.v 0) hT 0),
   (.ftanh, w 0 (.v 8) (.v 16) (.v 0) hT 0),
   (.fsigm, w 0 (.v 8) (.v 16) (.v 0) hT 0)]
def lanesWords : List ((Fields → Instr) × Fields) :=
  [(.shfl, w 0 (.v 8) (.v 16) (.v 24) h0 0),
   (.shflup, w 0 (.v 8) (.v 16) (.v 24) h0 0),
   (.shfldn, w 0 (.v 8) (.v 16) (.v 24) h0 0),
   (.shflx, w 0 (.v 8) (.v 16) (.v 24) h0 0),
   (.voteany, w 0 (.p 2) (.p 3) (.v 0) h0 0),
   (.voteall, w 0 (.p 2) (.p 3) (.v 0) h0 0),
   (.ballot, w 0 (.v 8) (.p 3) (.v 0) h0 0),
   (.match_, w 0 (.v 8) (.v 16) (.v 0) h0 0),
   (.redadd, w 0 (.v 8) (.v 16) (.v 0) h0 0),
   (.redmin, w 0 (.v 8) (.v 16) (.v 0) h0 0),
   (.redmax, w 0 (.v 8) (.v 16) (.v 0) h0 0),
   (.redand, w 3 (.v 8) (.v 16) (.v 0) h0 0),
   (.redor, w 3 (.v 8) (.v 16) (.v 0) h0 0),
   (.scanadd, w 0 (.v 8) (.v 16) (.v 0) h0 0),
   (.permq, w 0 (.v 8) (.v 16) (.s 24) h0 0)]
def memoryWords : List ((Fields → Instr) × Fields) :=
  [(.ld, w 0 (.v 8) (.v 0) (.v 24) hT 0),
   (.st, w 0 (.v 0) (.v 16) (.v 24) h0 0),
   (.ldl, w 0 (.v 8) (.v 0) (.v 24) hT 0),
   (.stl, w 0 (.v 0) (.v 16) (.v 24) h0 0),
   (.lds, w 2 (.s 8) (.v 0) (.s 24) hT 0),
   (.sts, w 2 (.v 0) (.s 16) (.s 24) h0 0),
   (.stb, w 0 (.v 0) (.v 16) (.v 24) h0 0),
   (.ldb, w 0 (.v 8) (.v 0) (.v 24) hT 0),
   (.pref, w 0 (.v 0) (.v 0) (.v 24) h0 0),
   (.cinv, w 0 (.v 0) (.s 16) (.s 24) h0 0),
   (.cwb, w 0 (.v 0) (.s 16) (.s 24) h0 0),
   (.pin, w 0 (.v 0) (.s 16) (.s 24) h0 0),
   (.unpin, w 0 (.v 0) (.s 16) (.s 24) h0 0),
   (.hset, w 0 (.v 0) (.v 0) (.v 0) h0 0),
   (.hget, w 0 (.s 8) (.v 0) (.v 0) hT 0),
   (.xlat, w 0 (.v 8) (.v 0) (.v 24) hT 0)]
def syncWords : List ((Fields → Instr) × Fields) :=
  [(.atom, w 0 (.v 8) (.v 0) (.v 24) hT 0),
   (.cas, w 0 (.v 8) (.v 16) (.v 24) hT 0),
   (.red, w 0 (.v 8) (.v 0) (.v 24) h0 0),
   (.fence, w 1 (.v 0) (.v 0) (.v 0) h0 0),
   (.bar, w 0 (.s 8) (.s 16) (.s 24) hO 0),
   (.bararv, w 0 (.v 0) (.v 16) (.s 24) h0 0),
   (.barwt, w 0 (.s 8) (.v 0) (.s 24) hO 0),
   (.qlock, w 1 (.v 0) (.v 0) (.s 24) hE 0),
   (.qunlock, w 1 (.v 0) (.v 0) (.s 24) h0 0),
   (.qpush, w 0 (.v 8) (.v 0) (.s 24) hE 0),
   (.qpop, w 0 (.v 8) (.v 0) (.s 24) hO 0),
   (.qtry, w 0 (.v 8) (.p 3) (.s 24) hT 0),
   (.ctradd, w 0 (.v 0) (.s 16) (.s 24) h0 0),
   (.ctrwait, w 0 (.v 0) (.s 16) (.s 24) hE 0),
   (.mmstat, w 0 (.s 8) (.v 0) (.v 0) hT 0)]
def engineWords : List ((Fields → Instr) × Fields) :=
  [(.cpy, w 0 (.s 8) (.s 16) (.s 24) hT 0),
   (.cpyb, w 0 (.s 8) (.s 16) (.s 24) hT 0),
   (.gthr, w 0 (.v 8) (.s 16) (.v 24) hT 0),
   (.sctr, w 0 (.v 8) (.s 16) (.v 24) hT 0),
   (.bcast, w 0 (.s 8) (.s 16) (.s 24) hT 0),
   (.cntwait, w 0 (.v 0) (.v 0) (.v 0) hE 0),
   (.cntrd, w 0 (.s 8) (.v 0) (.v 0) hT 0)]
def matrixWords : List ((Fields → Instr) × Fields) :=
  [(.mmq, w 0 (.z 1) (.v 16) (.v 24) h0 0),
   (.mzero, w 0 (.z 1) (.v 0) (.v 0) h0 0),
   (.mzld, w 0 (.z 1) (.s 16) (.v 24) h0 0),
   (.mzmv, w 0 (.v 8) (.z 2) (.v 0) hT 0),
   (.mzst, w 0 (.z 1) (.s 16) (.v 24) hT 0),
   (.mbsel, w 0 (.v 0) (.s 16) (.s 24) h0 0),
   (.scan, w 0 (.s 8) (.v 0) (.s 24) hT 0),
   (.scanst, w 0 (.s 8) (.s 16) (.s 24) h0 0)]
def tasksWords : List ((Fields → Instr) × Fields) :=
  [(.lnch, w 0 (.v 0) (.v 0) (.s 24) hO 0),
   (.taskq, w 0 (.v 0) (.v 0) (.s 24) hO 0),
   (.succhint, w 0 (.v 0) (.v 0) (.v 0) h0 0),
   (.waitpred, w 0 (.v 0) (.v 0) (.v 0) hE 0),
   (.fetchw, w 0 (.v 0) (.s 16) (.s 24) hO 0),
   (.cancel, w 0 (.v 0) (.s 16) (.v 0) h0 0),
   (.ctrget, w 0 (.s 8) (.v 0) (.s 24) hT 0),
   (.watch, w 0 (.v 0) (.s 16) (.s 24) h0 0),
   (.unwatch, w 0 (.v 0) (.s 16) (.v 0) h0 0),
   (.watchq, w 0 (.s 8) (.s 16) (.s 24) hT 0)]
def renderWords : List ((Fields → Instr) × Fields) :=
  [(.smpget, w 0 (.v 8) (.p 3) (.v 0) hT 0),
   (.smpput, w 0 (.p 2) (.v 16) (.v 0) hT 0),
   (.smprd, w 0 (.v 8) (.s 16) (.s 24) hT 0),
   (.pmapwr, w 0 (.v 0) (.v 16) (.v 24) h0 0),
   (.rayq, w 0 (.v 0) (.v 16) (.v 0) hT 0),
   (.rayrd, w 0 (.v 8) (.p 3) (.v 0) hT 0),
   (.tricls, w 0 (.p 2) (.v 16) (.v 0) hT 0),
   (.triras, w 0 (.v 8) (.v 16) (.s 24) hT 0),
   (.eyebor, w 0 (.v 8) (.s 16) (.s 24) hT 64),
   (.rowwait, w 0 (.s 8) (.s 16) (.s 24) hE 0),
   (.rowput, w 0 (.s 8) (.v 16) (.s 24) hT 0)]
def systemWords : List ((Fields → Instr) × Fields) :=
  [(.trap, w 0 (.v 0) (.v 0) (.v 0) hE 0),
   (.eret, w 0 (.v 0) (.v 0) (.v 0) hE 0),
   (.csrr, w 0 (.s 8) (.v 0) (.v 0) h0 0),
   (.csrw, w 0 (.s 8) (.s 16) (.v 0) h0 0),
   (.brkpt, w 0 (.v 0) (.v 0) (.v 0) hE 0),
   (.tlbinv, w 0 (.v 0) (.s 16) (.s 24) hE 0),
   (.pagemap, w 0 (.s 8) (.s 16) (.s 24) hE 0),
   (.wakew, w 0 (.s 8) (.s 16) (.s 24) hE 0),
   (.slotreq, w 0 (.s 8) (.s 16) (.s 24) hE 0),
   (.slotrel, w 0 (.s 8) (.s 16) (.s 24) hE 0),
   (.layerps, w 0 (.s 8) (.s 16) (.v 0) hE 0)]
def prefixWords : List ((Fields → Instr) × Fields) :=
  [(.ximm, w 0 (.v 0) (.v 0) (.v 0) h0 0),
   (.xfmt, w 0 (.v 0) (.v 0) (.v 0) h0 0)]

theorem witness_control_issue : ∀ p ∈ controlWords, world.Issues (p.1 p.2) p.2 := by simp only [State.Issues]; decide
theorem witness_integer0_issue : ∀ p ∈ integer0Words, world.Issues (p.1 p.2) p.2 := by simp only [State.Issues]; decide
theorem witness_integer1_issue : ∀ p ∈ integer1Words, world.Issues (p.1 p.2) p.2 := by simp only [State.Issues]; decide
theorem witness_select_issue : ∀ p ∈ selectWords, world.Issues (p.1 p.2) p.2 := by simp only [State.Issues]; decide
theorem witness_float_issue : ∀ p ∈ floatWords, world.Issues (p.1 p.2) p.2 := by simp only [State.Issues]; decide
theorem witness_double_issue : ∀ p ∈ doubleWords, world.Issues (p.1 p.2) p.2 := by simp only [State.Issues]; decide
theorem witness_half_issue : ∀ p ∈ halfWords, world.Issues (p.1 p.2) p.2 := by simp only [State.Issues]; decide
theorem witness_convert_issue : ∀ p ∈ convertWords, world.Issues (p.1 p.2) p.2 := by simp only [State.Issues]; decide
theorem witness_lanes_issue : ∀ p ∈ lanesWords, world.Issues (p.1 p.2) p.2 := by simp only [State.Issues]; decide
theorem witness_memory_issue : ∀ p ∈ memoryWords, world.Issues (p.1 p.2) p.2 := by simp only [State.Issues]; decide
theorem witness_sync_issue : ∀ p ∈ syncWords, world.Issues (p.1 p.2) p.2 := by simp only [State.Issues]; decide
theorem witness_engine_issue : ∀ p ∈ engineWords, world.Issues (p.1 p.2) p.2 := by simp only [State.Issues]; decide
theorem witness_matrix_issue : ∀ p ∈ matrixWords, world.Issues (p.1 p.2) p.2 := by simp only [State.Issues]; decide
theorem witness_tasks_issue : ∀ p ∈ tasksWords, world.Issues (p.1 p.2) p.2 := by simp only [State.Issues]; decide
theorem witness_render_issue : ∀ p ∈ renderWords, world.Issues (p.1 p.2) p.2 := by simp only [State.Issues]; decide
theorem witness_system_issue : ∀ p ∈ systemWords, world.Issues (p.1 p.2) p.2 := by simp only [State.Issues]; decide
theorem witness_prefix_issue : ∀ p ∈ prefixWords, world.Issues (p.1 p.2) p.2 := by simp only [State.Issues]; decide

/-! ### Their encodings, written out from Tables 3.1, 3.2, 3.4 and 3.8 -/

def controlHex : List Nat :=
  [0x00000000_00100000_00000000,
   0x00000000_00100005_40000001,
   0x00000000_00100000_00000002,
   0x00000000_00100000_00000003,
   0x00000000_00100000_02900004,
   0x00000000_00100005_40000005,
   0x00000000_00100005_40000006,
   0x00000000_00100000_02900007,
   0x00000000_00000005_40000008,
   0x00000000_00000000_00000009,
   0x00000000_00000000_0000000A,
   0x00000000_00000007_2C00000B,
   0x00000000_00000000_0000000C,
   0x00000000_00100000_0000000D,
   0x00000000_00100000_0000000E,
   0x00000000_00100000_0000000F,
   0x00000000_00100005_40000010]
theorem test_decode_control : controlHex.map (decodeTableWord 96) = controlWords.map (fun p => some (p.1 p.2)) := by decide
def integer0Hex : List Nat :=
  [0x00000000_000000C0_40100040,
   0x00000000_000000C0_40100041,
   0x000001CB_000000C0_40100042,
   0x000001CB_000000C0_40100043,
   0x00000000_000000C0_40100044,
   0x00000000_000000C0_40100045,
   0x00000000_000000C0_40100046,
   0x00000000_000000C0_40100047,
   0x00000000_000000C0_40100048,
   0x00000000_00C000C0_40100049,
   0x00000000_00C000C0_4010004A,
   0x00000000_000000C0_4010004B,
   0x00000000_000000C0_4010004C,
   0x00000000_00000000_4010004D,
   0x00000000_00000000_4010004E,
   0x00000000_000000C0_4010004F,
   0x00000000_000000C0_40100050]
theorem test_decode_integer0 : integer0Hex.map (decodeTableWord 96) = integer0Words.map (fun p => some (p.1 p.2)) := by decide
def integer1Hex : List Nat :=
  [0x00000000_000000C0_40100051,
   0x00000000_000000C0_40100052,
   0x00000000_00000000_40100053,
   0x00000000_000000C0_40100054,
   0x00000000_000000C0_40100055,
   0x00000000_000000C0_40100056,
   0x00000000_000000C0_40100057,
   0x00000000_000000C0_40100058,
   0x00000000_000000C0_40100059,
   0x00000000_000000C0_4010005A,
   0x00000000_000000C0_4010005B,
   0x00000000_00000000_4010005C,
   0x00000000_00000000_4010005D,
   0x00000000_00000000_4010005E,
   0x00000000_00000000_4010005F,
   0x00000000_000000C0_40100060,
   0x00000000_00000000_40100061,
   0x00000000_00000000_00110062]
theorem test_decode_integer1 : integer1Hex.map (decodeTableWord 96) = integer1Words.map (fun p => some (p.1 p.2)) := by decide
def selectHex : List Nat :=
  [0x00000000_000000C0_439400C0,
   0x00000000_000000C0_439400C1,
   0x00000000_000000C7_2C1000C2,
   0x00000000_00000E67_2F9400C3,
   0x00000000_00000E67_2F9400C4,
   0x00000000_00000E67_2F9400C5,
   0x00000000_00000007_2F9400C6,
   0x00000000_00000007_2C1000C7,
   0x00000000_00000000_439400C8,
   0x00000000_00000005_439400C9]
theorem test_decode_select : selectHex.map (decodeTableWord 96) = selectWords.map (fun p => some (p.1 p.2)) := by decide
def floatHex : List Nat :=
  [0x00000000_000000C0_40100100,
   0x00000000_000000C0_40100101,
   0x00000000_000000C0_40100102,
   0x00000000_000000C0_40100103,
   0x00000000_00C000C0_40100104,
   0x00000000_000000C0_40100105,
   0x00000000_000000C0_40100106,
   0x00000000_00000000_40100107,
   0x00000000_00000000_40100108,
   0x00000000_00000000_40100109,
   0x00000000_00000000_4010010A,
   0x00000000_00000000_4010010B,
   0x00000000_00000000_4010010C,
   0x00000000_00000000_4010010D,
   0x00000000_00000000_4010010E]
theorem test_decode_float : floatHex.map (decodeTableWord 96) = floatWords.map (fun p => some (p.1 p.2)) := by decide
def doubleHex : List Nat :=
  [0x00000000_00000AC5_42900140,
   0x00000000_00000AC5_42900141,
   0x00000000_00000AC5_42910142,
   0x00000000_00000005_42900143]
theorem test_decode_double : doubleHex.map (decodeTableWord 96) = doubleWords.map (fun p => some (p.1 p.2)) := by decide
def halfHex : List Nat :=
  [0x00000000_000000C0_40100180,
   0x00000000_000000C0_40100181,
   0x00000000_000000C0_40100182,
   0x00000000_000000C0_40100183,
   0x00000000_000000C0_40100184,
   0x00000000_000000C0_40100185]
theorem test_decode_half : halfHex.map (decodeTableWord 96) = halfWords.map (fun p => some (p.1 p.2)) := by decide
def convertHex : List Nat :=
  [0x00000000_00000000_401001C0,
   0x00000000_000000C0_401001C1,
   0x00000000_00000000_401001C2,
   0x00000000_00C00000_401001C3,
   0x00000000_00C00000_401001C4,
   0x00000000_00C00000_401001C5,
   0x00000000_00C00000_401001C6,
   0x00000000_00C00000_401001C7,
   0x00000000_00C00000_401001C8,
   0x00000000_00C00000_401001C9,
   0x00000000_00C00000_401001CA,
   0x00000000_00C00000_401001CB,
   0x00000000_00C00000_401001CC,
   0x00000000_00C00000_401001CD]
theorem test_decode_convert : convertHex.map (decodeTableWord 96) = convertWords.map (fun p => some (p.1 p.2)) := by decide
def lanesHex : List Nat :=
  [0x00000000_000000C0_40100200,
   0x00000000_000000C0_40100201,
   0x00000000_000000C0_40100202,
   0x00000000_000000C0_40100203,
   0x00000000_00000007_2F940204,
   0x00000000_00000007_2F940205,
   0x00000000_00000007_2C100206,
   0x00000000_00000000_40100207,
   0x00000000_00000000_40100208,
   0x00000000_00000000_40100209,
   0x00000000_00000000_4010020A,
   0x00000000_00000000_40100E0B,
   0x00000000_00000000_40100E0C,
   0x00000000_00000000_4010020D,
   0x00000000_00000AC0_4010020E]
theorem test_decode_lanes : lanesHex.map (decodeTableWord 96) = lanesWords.map (fun p => some (p.1 p.2)) := by decide
def memoryHex : List Nat :=
  [0x00000000_00C000C0_00100240,
   0x00000000_000000C0_40000241,
   0x00000000_00C000C0_00100242,
   0x00000000_000000C0_40000243,
   0x00000000_00C00AC0_02900A44,
   0x00000000_00000AC5_40000A45,
   0x00000000_000000C0_40000246,
   0x00000000_00C000C0_00100247,
   0x00000000_000000C0_00000248,
   0x00000000_00000AC5_40000249,
   0x00000000_00000AC5_4000024A,
   0x00000000_00000AC5_4000024B,
   0x00000000_00000AC5_4000024C,
   0x00000000_00000000_0000024D,
   0x00000000_00C00000_0290024E,
   0x00000000_00C000C0_0010024F]
theorem test_decode_memory : memoryHex.map (decodeTableWord 96) = memoryWords.map (fun p => some (p.1 p.2)) := by decide
def syncHex : List Nat :=
  [0x00000000_00C000C0_00100280,
   0x00000000_00C000C0_40100281,
   0x00000000_000000C0_00100282,
   0x00000000_00000000_00000683,
   0x00000000_08D00AC5_42900284,
   0x00000000_00000AC0_40000285,
   0x00000000_08D00AC0_02900286,
   0x00000000_00100AC0_00000687,
   0x00000000_00000AC0_00000688,
   0x00000000_00100AC0_00100289,
   0x00000000_08D00AC0_0010028A,
   0x00000000_00C00AC7_2C10028B,
   0x00000000_00000AC5_4000028C,
   0x00000000_00100AC5_4000028D,
   0x00000000_00C00000_0290028E]
theorem test_decode_sync : syncHex.map (decodeTableWord 96) = syncWords.map (fun p => some (p.1 p.2)) := by decide
def engineHex : List Nat :=
  [0x00000000_00C00AC5_429002C0,
   0x00000000_00C00AC5_429002C1,
   0x00000000_00C000C5_401002C2,
   0x00000000_00C000C5_401002C3,
   0x00000000_00C00AC5_429002C4,
   0x00000000_00100000_000002C5,
   0x00000000_00C00000_029002C6]
theorem test_decode_engine : engineHex.map (decodeTableWord 96) = engineWords.map (fun p => some (p.1 p.2)) := by decide
def matrixHex : List Nat :=
  [0x00000000_000000C0_43E20300,
   0x00000000_00000000_03E20301,
   0x00000000_000000C5_43E20302,
   0x00000000_00C00007_C8100303,
   0x00000000_00C000C5_43E20304,
   0x00000000_00000AC5_40000305,
   0x00000000_00C00AC0_02900306,
   0x00000000_00000AC5_42900307]
theorem test_decode_matrix : matrixHex.map (decodeTableWord 96) = matrixWords.map (fun p => some (p.1 p.2)) := by decide
def tasksHex : List Nat :=
  [0x00000000_08D00AC0_00000340,
   0x00000000_08D00AC0_00000341,
   0x00000000_00000000_00000342,
   0x00000000_00100000_00000343,
   0x00000000_08D00AC5_40000344,
   0x00000000_00000005_40000345,
   0x00000000_00C00AC0_02900346,
   0x00000000_00000AC5_40000347,
   0x00000000_00000005_40000348,
   0x00000000_00C00AC5_42900349]
theorem test_decode_tasks : tasksHex.map (decodeTableWord 96) = tasksWords.map (fun p => some (p.1 p.2)) := by decide
def renderHex : List Nat :=
  [0x00000000_00C00007_2C100380,
   0x00000000_00C00000_43940381,
   0x00000000_00C00AC5_40100382,
   0x00000000_000000C0_40000383,
   0x00000000_00C00000_40000384,
   0x00000000_00C00007_2C100385,
   0x00000000_00C00000_43940386,
   0x00000000_00C00AC0_40100387,
   0x00000040_00C00AC5_40100388,
   0x00000000_00100AC5_42900389,
   0x00000000_00C00AC0_4290038A]
theorem test_decode_render : renderHex.map (decodeTableWord 96) = renderWords.map (fun p => some (p.1 p.2)) := by decide
def systemHex : List Nat :=
  [0x00000000_00100000_000003C0,
   0x00000000_00100000_000003C1,
   0x00000000_00000000_029003C2,
   0x00000000_00000005_429003C3,
   0x00000000_00100000_000003C4,
   0x00000000_00100AC5_400003C5,
   0x00000000_00100AC5_429003C6,
   0x00000000_00100AC5_429003C7,
   0x00000000_00100AC5_429003C8,
   0x00000000_00100AC5_429003C9,
   0x00000000_00100005_429003CA]
theorem test_decode_system : systemHex.map (decodeTableWord 96) = systemWords.map (fun p => some (p.1 p.2)) := by decide
def prefixHex : List Nat :=
  [0x00000000_00000000_000003FE,
   0x00000000_00000000_000003FF]
theorem test_decode_prefix : prefixHex.map (decodeTableWord 96) = prefixWords.map (fun p => some (p.1 p.2)) := by decide

/-! ### Variants of `world` -/

/-- Scalar registers, vector registers, bytes of memory (above the handle table) and local bytes of `world`. -/
def withS (l : Table Word) (s : State) : State := { s with wave := { s.wave with sregs := l } }
def withV (l : List (Nat × BitVec 4 × (Nat → Word))) (s : State) : State :=
  { s with wave := { s.wave with vregs := l.map fun p => (p.1, ⟨p.2.1, lanesFn p.2.2⟩) } }
def withMem (l : List Host.Cell) (s : State) : State := { s with mem := cells ++ l }
def withLocal (l : List Host.Cell) (s : State) : State := { s with locals := [(7, l)] }
/-- Job 5 owns slots 0 and 1 of both towers. -/
def withSlots (s : State) : State :=
  { s with
    tower0 := { s.tower0 with almanac := [(0, slotEntry 5), (1, slotEntry 5)] }
    tower1 := { s.tower1 with almanac := [(0, slotEntry 5), (1, slotEntry 5)] } }
/-- The context of a word in a state. -/
def cx (k : Fields → Instr) (f : Fields) (s : State) : Ctx := s.ctx (form (k f)) f

/-- A check that succeeds with a value of which P holds. -/
def ok {ε α : Type} (x : Except ε α) (P : α → Bool) : Bool := match x with | .ok v => P v | .error _ => false
theorem ok_ex {ε α : Type} {x : Except ε α} {P : α → Bool} (h : ok x P = true) : ∃ v, x = .ok v ∧ P v = true := by
  cases x with
  | ok v => exact ⟨v, rfl, h⟩
  | error _ => cases h

/-- Where no byte is poisoned, an access's walks write no record. -/
theorem records_nil {p : Plan} {s : State} (h : s.poison = []) : p.records s = s := by
  simp [Plan.records, State.seeWalks, h]

/-- Checks that every lane passes. -/
theorem grants_ex {x : Ctx} {need : Need} {k : AccKind} {n align : Nat} {ls : List (Nat × Int)} (P : List GLane → Bool)
    (h : ok (x.access need n align ls) (fun p => p.2.s.poison.isEmpty &&
      ok (p.2.plan p.1 k n ls) fun q => q.missing.isEmpty && q.denied.isEmpty && P q.go) = true) :
    ∃ e y gs, x.grants need k n align ls e y gs ∧ P gs = true := by
  obtain ⟨⟨e, y⟩, h1, h2⟩ := ok_ex h
  simp only [Bool.and_eq_true, List.isEmpty_iff] at h2
  obtain ⟨p, h3, h4⟩ := ok_ex h2.2
  simp only [Bool.and_eq_true, List.isEmpty_iff] at h4
  exact ⟨e, y, p.go, ⟨h1, p, h3, rfl, h4.1.1, h4.1.2, records_nil h2.1⟩, h4.2⟩

/-- The same for the one address of a uniform word. -/
theorem grantsOne_ex {x : Ctx} {need : Need} {n align : Nat} {k : AccKind} (P : GLane → Bool)
    (h : ok (x.place need n align k) (fun p => P p.1 && decide (p.2.s.tower0 = x.s.tower0 ∧ p.2.s.tower1 = x.s.tower1)) = true) :
    ∃ g y, x.grantsOne need n align k g y ∧ P g = true := by
  obtain ⟨⟨g, y⟩, h1, h2⟩ := ok_ex h
  simp only [Bool.and_eq_true, decide_eq_true_eq] at h2
  exact ⟨g, y, ⟨h1, h2.2⟩, h2.1⟩

/-- The record of a word of the group 0xD. -/
theorem record_ex {x : Ctx} {need : Need} {size align : Nat} {k : AccKind} (P : Ctx → GLane → Bool)
    (h : ok (x.recordAt need size align) (fun p => ok (p.2.recordHit p.1 k size) fun q => P q.2 q.1) = true) :
    ∃ e y g z, x.recordAt need size align = .ok (e, y) ∧ y.recordHit e k size = .ok (g, z) ∧ P z g = true := by
  obtain ⟨⟨e, y⟩, h1, h2⟩ := ok_ex h
  obtain ⟨⟨g, z⟩, h3, h4⟩ := ok_ex h2
  exact ⟨e, y, g, z, h1, h3, h4⟩

/-! ### Witnesses of hypotheses beyond a word's issue -/

theorem witness_retire : world.wave.pendTrap = none ∧ world.wave.live ≠ 0 ∧ world.group.kill = false ∧ world.wave.alive = true ∧
    h0.stop = false ∧ hE.stop = true := by decide
/-- RET and JMPI to an aligned address and to one that is not. -/
theorem witness_jumps : ∀ k ∈ ([.ret, .jmpi] : List (Fields → Instr)), let f := w 0 (.v 0) (.s 16) (.v 0) hE 0
    (withS [(16, 8)] world).Issues (k f) f ∧ ((cx k f (withS [(16, 8)] world)).lane64 f.a 0).toNat % 4 = 0 ∧
    (withS [(16, 7)] world).Issues (k f) f ∧ ((cx k f (withS [(16, 7)] world)).lane64 f.a 0).toNat % 4 ≠ 0 := by
  simp only [State.Issues]; decide
/-- The mask stack with 7, 8, 1 and no entries. -/
theorem witness_stack : let f := w 0 (.v 0) (.v 0) (.v 0) h0 0
    let st (n : Nat) : State := { world with wave := { world.wave with stack := List.replicate n 1 } }
    (st 7).Issues (.empush f) f ∧ (st 7).wave.stack.length < 8 ∧ (st 8).Issues (.empush f) f ∧ 8 ≤ (st 8).wave.stack.length ∧
    (st 1).Issues (.empop f) f ∧ (st 1).wave.stack = [1] ∧ (st 0).Issues (.empop f) f ∧ (st 0).wave.stack = [] := by
  simp only [State.Issues]; decide
/-- One third lies below 1.0; the largest finite F32 is not rounded up. -/
theorem witness_rounding : (Fmt.f32.round .ru false false 1 3).val < 0x7F800000 ∧
    (Fmt.f32.round .ru false false ((2 ^ 24 - 1) * 2 ^ 104) 1).val = 0x7F7FFFFF := by decide
theorem witness_compare : let nan (a : Word) : Prop := 0x7F800000 < (a &&& 0x7FFFFFFF).toNat
    nan 0x7F800001 ∧ ¬nan 0x7F800000 ∧ ¬nan 0xFF800000 := by decide
/-- The integer and F32 forms of the reductions. -/
theorem witness_reductions : ∀ t ∈ [1, 2], let f := w t (.v 8) (.v 16) (.v 0) h0 0
    world.Issues (.redadd f) f ∧ tsel f = t ∧ world.wave.em ≠ 0 := by
  simp only [State.Issues]; decide
theorem witness_scans : ∀ t ∈ [1, 2, 5, 6], let f := w t (.v 8) (.v 16) (.v 0) h0 0
    world.Issues (.scanadd f) f ∧ tsel f = t := by
  simp only [State.Issues]; decide
theorem witness_sqrt : (0x80000001 : Word).msb = true ∧ (0xFF800000 : Word).msb = true ∧ (0xFF800000 : Word).toNat = 0xFF800000 := by
  simp [BitVec.msb_eq_decide]

/-! ### Memory -/

/-- Offsets 8 times the lane number, in v24. -/
def lanes8 : State := withV [(24, 2, fun i => BitVec.ofNat 32 (8 * i))] world

theorem witness_ld : let f := w 3 (.v 8) (.v 0) (.v 24) hT 0
    lanes8.Issues (.ld f) f ∧ (∃ e y gs, (cx .ld f lanes8).grants { spaces := [1], rd := true } ⟨.read, true, false, false, true, kindWave⟩ 8 8
      (cx .ld f lanes8).laneOffs e y gs ∧ decide (gs.map GLane.lane = [0, 5]) = true) ∧
    lanes8.wave.drains ((cx .ld f lanes8).laneOffs.map fun p => (vaOf 0 p.2).toNat) 8 = false :=
  ⟨by simp only [State.Issues]; decide, grants_ex _ (by decide), by decide⟩
theorem witness_lds : let f := w 2 (.s 8) (.v 0) (.s 24) hT 0
    world.Issues (.lds f) f ∧ ∃ e y gs, (cx .lds f world).grants { spaces := [1], rd := true } ⟨.read, true, false, false, true, kindWave⟩ 4 4
      (cx .lds f world).uniOff e y gs ∧ decide (gs.length = 1) = true :=
  ⟨by simp only [State.Issues]; decide, grants_ex _ (by decide)⟩
theorem witness_st : let f := w 3 (.v 0) (.v 16) (.v 24) h0 0
    lanes8.Issues (.st f) f ∧ (∃ e y gs, (cx .st f lanes8).grants { spaces := [1], wr := true } ⟨.write, false, true, false, true, kindWave⟩ 8 8
      (cx .st f lanes8).laneOffs e y gs ∧ gs.all (fun g => !g.hit.disc) = true) ∧
    (cx .st f lanes8).dataBad f.a 2 (mtAccept 3) = false :=
  ⟨by simp only [State.Issues]; decide, grants_ex _ (by decide), by decide⟩
theorem witness_sts : let f := w 2 (.v 0) (.s 16) (.s 24) h0 0
    world.Issues (.sts f) f ∧ ∃ e y gs, (cx .sts f world).grants { spaces := [1], wr := true } ⟨.write, false, true, false, true, kindWave⟩ 4 4
      (cx .sts f world).uniOff e y gs ∧ (decide (gs.length = 1) && gs.all fun g => !g.hit.disc) = true :=
  ⟨by simp only [State.Issues]; decide, grants_ex _ (by decide)⟩
/-- LDL and STL of the handle of the local space, on no live entry; the last word of the space. -/
theorem witness_local : let f := w 2 (.v 8) (.v 0) (.v 24) hT 1
    let g := w 2 (.v 0) (.v 16) (.v 24) h0 (1 + 64 * 0xFFC)
    lanes8.Issues (.ldl f) f ∧ ok ((cx .ldl f lanes8).access { spaces := [2], rd := true } 4 4 (cx .ldl f lanes8).laneOffs) (fun _ => true) = true ∧
    (∀ p ∈ (cx .ldl f lanes8).laneOffs, lanes8.group.boardBlocks false (localOff 0 p.2) 4 = false) ∧
    world.Issues (.stl g) g ∧ ok ((cx .stl g world).access { spaces := [2], wr := true } 4 4 (cx .stl g world).laneOffs) (fun _ => true) = true ∧
    (∀ p ∈ (cx .stl g world).laneOffs, world.group.boardBlocks true (localOff 0 p.2) 4 = false) ∧
    (cx .stl g world).dataBad g.a 1 (mtAccept 2) = false := by
  simp only [State.Issues]; decide
theorem witness_broadcast : let s := withSlots lanes8
    let f := w 2 (.v 8) (.v 0) (.v 24) hT 2
    let g := w 2 (.v 0) (.v 16) (.v 24) h0 2
    s.Issues (.ldb f) f ∧ ok ((cx .ldb f s).access { spaces := [3], rd := true } 4 4 (cx .ldb f s).laneOffs) (fun _ => true) = true ∧
    (∀ p ∈ (cx .ldb f s).laneOffs, s.tower0.grants 5 5 kindWave true false false p.2.toNat (p.2.toNat + 4) = true) ∧
    s.Issues (.stb g) g ∧ ok ((cx .stb g s).access { spaces := [3], wr := true } 4 4 (cx .stb g s).laneOffs) (fun _ => true) = true ∧
    (cx .stb g s).m ≠ 0 ∧ (cx .stb g s).dataBad g.a 1 (mtAccept 2) = false ∧ s.tower0.slotsOf 5 ≠ 0 ∧ s.tower0.queued 5 < 64 ∧
    s.wave.count .bc < 63 ∧
    (∀ p ∈ (cx .stb g s).laneOffs, s.tower0.grants 5 5 kindWave false true false p.2.toNat (p.2.toNat + 4) = true) := by
  simp only [State.Issues]; decide
/-- Cache words on a range, and under an empty mask; HSET, HGET and XLAT. -/
theorem witness_ranges : ∀ k ∈ ([.cinv, .cwb, .pin, .unpin] : List (Fields → Instr)), let f := w 0 (.v 0) (.s 16) (.s 24) h0 0
    let s := withS [(16, 128)] world
    s.Issues (k f) f ∧ ok (cx k f s).range (fun r => decide (r.2.2.1 = 128)) = true ∧ (cx k f s).m ≠ 0 ∧
      needBad { spaces := [1], rd := true } (s.entry (hOf f)) = false := by
  simp only [State.Issues]; decide
theorem witness_handles : let f := w 0 (.v 0) (.v 0) (.v 0) h0 2
    let g := w 0 (.s 8) (.v 0) (.v 0) hT 1
    let h := w 0 (.v 8) (.v 0) (.v 24) hT 0
    world.Issues (.hset f) f ∧ (cx .hset f world).m ≠ 0 ∧ hValid (world.tableEntry 5 2) = true ∧
    world.Issues (.hget g) g ∧ mbits g 0 0 = 0 ∧ world.Issues (.xlat h) h ∧
    ok ((cx .xlat h lanes8).access { spaces := [1] } 1 1 (cx .xlat h lanes8).laneOffs) (fun _ => true) = true := by
  simp only [State.Issues]; decide

/-! ### Atomics and synchronisation -/

/-- ADD of 32 and of 64 bits and CAS by the lanes; RED by an s register. -/
theorem witness_atomics : let f := w 0 (.v 8) (.v 0) (.v 24) hT 0
    let g := w 32 (.v 8) (.v 16) (.v 24) hT 0
    lanes8.Issues (.atom f) f ∧ isS f.d = false ∧ lanes8.Issues (.cas g) g ∧
    (∃ e y gs, (cx .atom f lanes8).grants needAt ⟨.write, true, true, true, false, kindWave⟩ 4 4 (cx .atom f lanes8).laneOffs e y gs ∧
      gs.all (fun g => !g.hit.disc) = true) ∧
    (∃ e y gs, (cx .cas g lanes8).grants needAt ⟨.write, true, true, true, false, kindWave⟩ 8 8 (cx .cas g lanes8).laneOffs e y gs ∧
      gs.all (fun g => !g.hit.disc) = true) :=
  ⟨by simp only [State.Issues]; decide, by decide, by simp only [State.Issues]; decide, grants_ex _ (by decide), grants_ex _ (by decide)⟩
theorem witness_atomics_uniform : let f := w 0 (.s 8) (.v 0) (.s 24) h0 0
    world.Issues (.red f) f ∧ isS f.d = true ∧
    ∃ e y gs, (cx .red f world).grants { spaces := [1], at_ := true } ⟨.write, false, false, true, false, kindWave⟩ 4 4 (cx .red f world).uniOff e y gs ∧
      (decide (gs.length = 1) && gs.all fun g => !g.hit.disc) = true :=
  ⟨by simp only [State.Issues]; decide, by decide, grants_ex _ (by decide)⟩
/-- FENCE.AR.DV and MMSTAT with and without .CLR. -/
theorem witness_fence : let f := w 23 (.v 0) (.v 0) (.v 0) h0 0
    world.Issues (.fence f) f ∧ ordRel f = some .dv ∧ ordAcq f = some .dv ∧ (∀ m ∈ [0, 1], let g := w m (.s 8) (.v 0) (.v 0) hT 0
      world.Issues (.mmstat g) g) := by
  simp only [State.Issues]; decide
/-- A barrier word that expects 2 arrivals, with none and with one; the last offset of the space. -/
theorem witness_barriers : let f := w 0 (.v 0) (.v 16) (.s 24) h0 0
    let g := w 0 (.s 8) (.s 16) (.s 24) hO 0
    let h := w 0 (.s 8) (.v 0) (.s 24) hO 0
    let s (n : Nat) : State := withS [(24, 0xFF8)] (withLocal ((0xFF8, 2) :: if n = 0 then [] else [(0xFFA, 1)]) world)
    let at_ (a : Arrival) : State := { s 0 with wave := { (s 0).wave with arrival := a } }
    (∀ n ∈ [0, 1], (s n).Issues (.bararv f) f ∧ (s n).Issues (.bar g) g ∧ (cx .bararv f (s n)).off 0 = 0xFF8 ∧
      (cx .bar g (s n)).off 0 = 0xFF8 ∧ 0xFF8 + 8 ≤ (s n).group.space ∧
      Mem.readNat ((s n).localMem 7) 0xFF8 8 / 2 ^ 16 % 2 ^ 16 < Mem.readNat ((s n).localMem 7) 0xFF8 8 % 2 ^ 16) ∧
    (∀ a ∈ [Arrival.none, .pending 0xFF8, .complete 0xFF8 9], (at_ a).Issues (.barwt h) h ∧ (cx .barwt h (at_ a)).off 0 = 0xFF8) := by
  simp only [State.Issues]; decide
/-- A free lock, one of another wave, and one of the wave's own, with and without waiters. -/
theorem witness_locks : let f := w 1 (.v 0) (.v 0) (.s 24) hE 0
    let g := w 1 (.v 0) (.v 0) (.s 24) h0 0
    let free : State := world
    let other : State := withMem [(0x100000, 1)] world
    let own : State := withMem [(0x100000, 0x10), (0x100003, 0x80)] world
    (∀ s ∈ [free, other, own], s.Issues (.qlock f) f ∧ s.Issues (.qunlock g) g) ∧
    Mem.readNat free.mem 0x100000 4 = 0 ∧ Mem.readNat other.mem 0x100000 4 ≠ own.wave.tag.toNat ∧
    Mem.readNat own.mem 0x100000 4 = own.wave.tag.toNat ∧ Mem.readNat own.mem 0x100008 4 = 0 ∧
    (∀ s ∈ [free, other, own], ∃ y z, (cx .qlock f s).grantsOne needAt 16 16 accAt y z ∧ decide (y.hit.dpa = 0x100000 ∧ y.hit.disc = false) = true) := by
  refine ⟨by simp only [State.Issues]; decide, by decide, by decide, by decide, by decide, fun s hs => grantsOne_ex _ ?_⟩
  revert s; decide
/-! ### Queues, counters and engine commands -/

/-- A queue of four slots at the handle's base, with COUNT items, its ring at 0x101000. -/
def queue (n : Nat) : State :=
  withMem ([(0x100001, 0x10), (0x100002, 0x10), (0x100008, 4)] ++ if n = 0 then [] else [(0x100014, BitVec.ofNat 8 n)]) world
/-- Empty, full, and half full: two items are pushed or popped, or the request waits. -/
theorem witness_queues : let f := w 0 (.v 8) (.v 0) (.s 24) hE 0
    let g := w 0 (.v 8) (.v 0) (.s 24) hO 0
    let h (m : Nat) := w m (.v 8) (.p 3) (.s 24) hT 0
    ∀ n ∈ [0, 2, 4], (queue n).Issues (.qpush f) f ∧ (queue n).Issues (.qpop g) g ∧ (queue n).Issues (.qtry (h 0)) (h 0) ∧
      (queue n).Issues (.qtry (h 1)) (h 1) ∧ (qLanes f.d (queue n).wave.em).length = 2 ∧ Mem.readNat (queue n).mem 0x100014 4 = n := by
  simp only [State.Issues]; decide
theorem witness_queue_slots : ∀ n ∈ [0, 2, 4], ∀ j < 2,
    ok ((queue n).qSlot ((queue n).qHome 0x100000) true ((queue n).qAddr 0x100000 ((n + j) % 4))) (fun h => !h.disc) = true ∧
    ok ((queue n).qSlot ((queue n).qHome 0x100000) false ((queue n).qAddr 0x100000 ((0 + j) % 4))) (fun h => !h.disc) = true := by decide
theorem witness_queue_record : let f := w 0 (.v 8) (.v 0) (.s 24) hE 0
    ∃ g y, (cx .qpush f (queue 2)).grantsOne needAt 64 64 accAt g y ∧ decide (g.hit.dpa = 0x100000 ∧ g.hit.disc = false) = true :=
  grantsOne_ex _ (by decide)

/-- A counter of 5 with summands -5 and -6, and thresholds 5 and 4. -/
def counted (n : Word) (hi : Word) : State := withS [(16, n), (17, hi)] (withMem [(0x100000, 5)] world)
theorem witness_counters : let f := w 0 (.v 0) (.s 16) (.s 24) h0 0
    let g := w 0 (.v 0) (.s 16) (.s 24) hE 0
    let h := w 0 (.s 8) (.v 0) (.s 24) hT 0
    let less (n : Word) := counted n 0xFFFFFFFF
    mbits f 5 3 = 0 ∧ (less 0xFFFFFFFB).Issues (.ctradd f) f ∧ (less 0xFFFFFFFA).Issues (.ctradd f) f ∧
    (counted 5 0).Issues (.ctrwait g) g ∧ (counted 4 0).Issues (.ctrwait g) g ∧ world.Issues (.ctrget h) h := by
  simp only [State.Issues]; decide
theorem witness_counter_sums : let f := w 0 (.v 0) (.s 16) (.s 24) h0 0
    let g := w 0 (.v 0) (.s 16) (.s 24) hE 0
    let less (n : Word) := counted n 0xFFFFFFFF
    (less 0xFFFFFFFB).counterAt 0x100000 + ((cx .ctradd f (less 0xFFFFFFFB)).uni64 f.a).toInt = 0 ∧
    (less 0xFFFFFFFA).counterAt 0x100000 + ((cx .ctradd f (less 0xFFFFFFFA)).uni64 f.a).toInt = -1 ∧
    (counted 5 0).counterAt 0x100000 = ((cx .ctrwait g (counted 5 0)).uni64 g.a).toInt ∧
    ((cx .ctrwait g (counted 4 0)).uni64 g.a).toInt < (counted 4 0).counterAt 0x100000 := by decide +kernel
theorem witness_counter_places : let f := w 0 (.v 0) (.s 16) (.s 24) h0 0
    let h := w 0 (.s 8) (.v 0) (.s 24) hT 0
    (∃ g y, (cx .ctradd f (counted 5 0)).grantsOne needAt 8 8 accAt g y ∧ (!g.hit.disc) = true) ∧
    (∃ g y, (cx .ctrwait f (counted 5 0)).grantsOne { spaces := [1], rd := true } 8 8 ⟨.revive, true, false, true, false, kindWave⟩ g y ∧
      (!g.hit.disc) = true) ∧
    ∃ e y g z, (cx .ctrget h world).recordAt { spaces := [1], rd := true } 8 8 = .ok (e, y) ∧ y.recordHit e accRd 8 = .ok (g, z) ∧
      decide (g.hit.dpa = 0x100000) = true :=
  ⟨grantsOne_ex _ (by decide), grantsOne_ex _ (by decide), record_ex (fun _ g => decide (g.hit.dpa = 0x100000)) (by decide)⟩

/-- A shape record at 0x100040: 16 words at byte 0x200 of handle 0, a box of 4; s16 names it. -/
def shape1 : List Host.Cell :=
  [(0x100040, 1), (0x100042, 2), (0x100049, 2), (0x100050, 16), (0x100054, 1), (0x100058, 1), (0x10005C, 1), (0x100060, 1), (0x100074, 3)]
def shaped (d co : Word) : State :=
  let s := withSlots (withS [(8, d), (16, 0x100040), (24, co)] (withMem shape1 world))
  { s with
    group := { s.group with slots := [(0, (0, 64))] }
    tower0 := { s.tower0 with csr := [(0x310, 0x8005)] } }
def f_eng (m : Nat) (d : Opnd) (b : Opnd) : Fields := w m d (.s 16) b hT 0
/-- A box that ends at the last element of the tensor, to local memory from byte 0xFF0 up. -/
theorem witness_cpy : let f := f_eng 0 (.s 8) (.s 24)
    let s := shaped 0xFF0 12
    let x := cx .cpy f s
    s.Issues (.cpy f) f ∧ x.m ≠ 0 ∧ ok x.shape (fun r => decide (r.2.s.tower0 = s.tower0 ∧ r.2.s.tower1 = s.tower1) &&
      decide (shRank r.1 = 1 ∧ shCount r.1 * shSize r.1 = 16) && ok (r.2.more f.b 1) (fun _ => true) &&
      ok (r.2.tensor r.1 false (r.2.coords 1)) (fun _ => true) && ok (r.2.tensor r.1 true (r.2.coords 1)) (fun _ => true) &&
      ok r.2.counter fun c => c.isNone) = true ∧ s.group.boardFull 0xFF0 0x1000 = false ∧ s.wave.count .cp < 63 := by
  simp only [State.Issues]; decide
/-- GTHR and SCTR of elements 0 and 5; BCAST to byte 0 of the window through handle 2. -/
theorem witness_gather : let f := f_eng 0 (.v 8) (.v 24)
    let s : State := { shaped 0 0 with wave := { (shaped 0 0).wave with vregs := [(24, ⟨2, lanesFn fun i => BitVec.ofNat 32 i⟩)] } }
    let v : State := { world with wave := { world.wave with em := 0 } }
    s.Issues (.gthr f) f ∧ s.Issues (.sctr f) f ∧ ok ((cx .gthr f s).lanesCmd false) (fun r => r.2.1.length == 1) = true ∧
    ok ((cx .sctr f s).lanesCmd true) (fun r => r.2.2.1.isNone) = true ∧ s.wave.count .gt < 63 ∧
    v.Issues (.gthr f) f ∧ (cx .gthr f v).m = 0 := by
  simp only [State.Issues]; decide
theorem witness_bcast : let f := f_eng 0 (.s 8) (.s 24)
    let s := shaped 2 12
    let x := cx .bcast f s
    let tw := towersOf 0 0
    s.Issues (.bcast f) f ∧ x.m ≠ 0 ∧ needBad { spaces := [3], wr := true } (s.entry 2) = false ∧ ok (x.reach (towerList tw)) (fun _ => true) = true ∧
    (∀ t ∈ towerList tw, (s.tower t).slotsOf 5 ≠ 0) ∧ s.wave.count .bc < 63 ∧ 16 ≤ hLimit (s.entry 2) := by
  simp only [State.Issues]; decide
/-- An element inside the tensor, and one outside it. -/
theorem witness_elements : let s := shaped 0 0
    let sh : BitVec 512 := BitVec.ofNat 512 (Mem.readNat s.mem 0x100040 64)
    boxOff sh [12] 3 = some (0x200 + 60) ∧ boxOff sh [13] 3 = none ∧
    ok (s.engAt .cp false (s.shVa sh (0x200 + 60)) 4) (fun _ => true) = true ∧ ok (s.engAt .cp true (s.shVa sh (0x200 + 60)) 4) (fun h => !h.disc) = true ∧
    ok (s.engAt .gt false (s.shVa sh 0x200) 4) (fun _ => true) = true ∧ laneOff sh [lanesFn fun i => BitVec.ofNat 32 i] 5 = some (0x200 + 20) ∧
    laneOff sh [lanesFn fun i => BitVec.ofNat 32 i] 16 = none := by decide
/-- 63 outstanding commands; a class with and without an unreported error. -/
theorem witness_counts : let f := w 8 (.v 0) (.v 0) (.v 0) hE 0
    let g := w 0 (.s 8) (.v 0) (.v 0) hT 0
    let c (n : Nat) : EngCmd := ⟨n, .cp, .sectors 1, 0, none, none, none, false, [], 0, 0, 0⟩
    let s : State := { world with wave := { world.wave with cmds := (List.range 63).map c } }
    let e : State := { world with wave := { world.wave with engErr := [(.cp, .plain .hinval)] } }
    world.Issues (.cntwait f) f ∧ s.Issues (.cntrd g) g ∧ s.wave.count .cp = 63 ∧ classOf (mbits f 2 0) = .cp ∧ mbits f 6 3 = 1 ∧
    e.Issues (.cntwait f) f ∧ (e.wave.engErr.find? fun x => x.1 = .cp) = some (.cp, .plain .hinval) := by
  simp only [State.Issues]; decide

/-! ### Tiles and scans -/

/-- MZMV both ways, MBSEL of 64 bytes of an owned page, and an MMQ whose B tiles lie in slot 0. -/
theorem witness_tiles : let f := w 1 (.z 1) (.v 8) (.v 0) hT 0
    let g := w 0 (.v 8) (.z 2) (.v 0) hT 0
    world.Issues (.mzmv f) f ∧ f.mod.getLsbD 0 = true ∧ world.Issues (.mzmv g) g ∧ (cx .mzmv g world).tileBad g.a (tileTag 0) = false := by
  simp only [State.Issues]; decide
/-- Both bounds of MBSEL at the end of the slice's first page; MMQ of FP8 elements in every row and column of quarter 0. -/
theorem witness_bslots : let f := w 0 (.v 0) (.s 16) (.s 24) h0 0
    let s := withS [(16, 0xFFC0), (24, 64)] (shaped 0 0)
    let c (a b : Word) : State := { s with wave := { s.wave with sregs := [(16, a), (24, b)] } }
    (c 0xFFC0 64).Issues (.mbsel f) f ∧ (c 0 0).Issues (.mbsel f) f ∧ (s.tower 0).bOwned 5 0xFFC0 0x10000 = true := by
  simp only [State.Issues]; decide
theorem witness_mmq : let s : State := { shaped 0 0 with group := { (shaped 0 0).group with slots := [(0, (0, 0x1000))] } }
    (∀ m ∈ [0, 2, 8], let f := w m (.z 1) (.v 16) (.s 20) h0 0
      s.Issues (.mmq f) f ∧ (cx .mmq f s).tileBad f.d 3 = false ∧ bits (laneAt ((cx .mmq f s).lanes f.b) 0) 19 0 % 64 = 0 ∧
      s.bSlot (ebits f 15 10) 0 (mmqTileBytes m) = some 0) ∧ s.poison = [] := by
  simp only [State.Issues]; decide
/-- MZLD and MZST of handle 0 and of the local handle, rows of 32 bytes. -/
theorem witness_tile_rows : ∀ h ∈ [0, 1], let f := w 0 (.z 1) (.s 16) (.v 24) h0 h
    let g := w 0 (.z 1) (.s 16) (.v 24) hT h
    let s := withS [(16, 32)] world
    s.Issues (.mzld f) f ∧ s.Issues (.mzst g) g ∧ (cx .mzst g s).m ≠ 0 ∧ s.wave.count .mx < 63 ∧
    ok ((cx .mzld f s).tileCheck { spaces := [1, 2], rd := true }) (fun r => decide (r.2.1.map Prod.fst = [0, 5] ∧ hSpace r.1 = h + 1)) = true ∧
    ok ((cx .mzst g s).tileCheck { spaces := [1, 2], wr := true }) (fun _ => true) = true ∧ (cx .mzst g s).tileBad g.d (tileTag 0) = false ∧
    s.group.boardFull 0 0x1000 = false := by
  simp only [State.Issues]; decide
/-- A control block at the handle's base: one step of one channel and state, ranges 0x200 apart. -/
def scanned : State :=
  withMem [(0x100000, 1), (0x100004, 1), (0x100008, 1), (0x10000C, 1), (0x100019, 2), (0x100021, 4), (0x100029, 6), (0x100031, 8),
    (0x100039, 10), (0x100041, 12)] world
theorem witness_scan : let f := w 0 (.s 8) (.v 0) (.s 24) hT 0
    let x := cx .scan f scanned
    let c : BitVec 1024 := BitVec.ofNat 1024 (Mem.readNat scanned.mem 0x100000 128)
    scanned.Issues (.scan f) f ∧ (vaOf (scanned.entry 0) (x.off 0)).toNat % 128 = 0 ∧ scL c = 1 ∧
    x.scanBad c = none ∧ ok (x.scanAccess c) (fun p => p.denied.isEmpty) = true := by
  simp only [State.Issues]; decide
theorem witness_scan_block : let f := w 0 (.s 8) (.v 0) (.s 24) hT 0
    ∃ e y gs, (cx .scan f scanned).grants { spaces := [1], rd := true } ⟨.read, true, false, false, true, kindWave⟩ 128 1
      (cx .scan f scanned).uniOff e y gs ∧ decide (gs.length = 1) = true := grants_ex _ (by decide)

/-! ### Work and its records -/

/-- A launch record of one tile at the handle's base, its counter at 0x100100; as a task record, one of 8 registers. -/
def recorded : State :=
  withMem [(0x100010, 1), (0x100012, 1), (0x100014, 1), (0x100018, 1), (0x100020, 0), (0x100051, 1), (0x100052, 0x10)] world
def tasked : State := withMem [(0x100020, 1)] world
def subOk (r : Sub) (P : State → Bool) : Bool := match r with | .ok s => P s | _ => false
theorem witness_submit : let f := w 0 (.v 0) (.v 0) (.s 24) hO 0
    recorded.Issues (.lnch f) f ∧ tasked.Issues (.taskq f) f ∧ recorded.entryFor recorded.group recorded.wave = true ∧ tasked.entryFor tasked.group tasked.wave = true ∧
    (∃ e y g z, (cx .lnch f recorded).recordAt needRw 128 128 = .ok (e, y) ∧ y.recordHit e accRw 128 = .ok (g, z) ∧
      subOk (((z.s.revive g.hit).release (some .dv)).submitLaunch 5 0 g.va g.hit.dpa 0 (some (1, 7)) 0) (fun t => decide (t.plq.length = 1)) = true) ∧
    (∃ e y g z, (cx .taskq f tasked).recordAt needRw 64 64 = .ok (e, y) ∧ y.recordHit e accRw 64 = .ok (g, z) ∧
      subOk (((z.s.revive g.hit).release (some .dv)).submitTask 5 0 g.va g.hit.dpa 0 (some (1, 7)) 0) (fun t => decide (t.units.length = 1)) = true) :=
  ⟨by simp only [State.Issues]; decide, by simp only [State.Issues]; decide, by decide, by decide,
    record_ex (fun y g => subOk (((y.s.revive g.hit).release (some .dv)).submitLaunch 5 0 g.va g.hit.dpa 0 (some (1, 7)) 0) fun t =>
      decide (t.plq.length = 1)) (by decide),
    record_ex (fun y g => subOk (((y.s.revive g.hit).release (some .dv)).submitTask 5 0 g.va g.hit.dpa 0 (some (1, 7)) 0) fun t =>
      decide (t.units.length = 1)) (by decide)⟩
/-- A group that holds four entries, with .NB. -/
theorem witness_plq_full : let f := w 1 (.p 3) (.v 0) (.s 24) hO 0
    let s : State := { recorded with plq := List.replicate 4 ⟨5, 1, 7, none, none⟩ }
    let g := w 0 (.v 0) (.v 0) (.s 24) hO 0
    s.Issues (.lnch f) f ∧ s.Issues (.taskq f) f ∧ s.Issues (.lnch g) g ∧ s.Issues (.taskq g) g ∧ s.entryFor s.group s.wave = false ∧
    f.mod.getLsbD 0 = true ∧ g.mod.getLsbD 0 = false ∧ s.wave.alive = true ∧ s.group.kill = false ∧ s.wave.live ≠ 0 := by
  simp only [State.Issues]; decide

/-- A live launch of the record, numbered 3, and a unit of it, numbered 7, the focus group's. -/
def launch3 : Launch :=
  { id := 3, addr := 0x100000, dpa := 0x100000, job := 5, tower := 0, image := 1 <<< 128 + 1 <<< 144 + 1 <<< 160 + 1 <<< 192, issued := 0,
    retired := 0, state := 1, req := false, reason := 0, link := .none, hinted := [], next := 0, k0 := 0, k1 := 0, taken := [],
    depth := 0, seq := 3, since := 0, gangfail := false, src := 0, graphAt := 0, hostExp := false }
def unit7 (st : UState) : WorkUnit :=
  { id := 7, job := 5, tower := 0, recVa := 0x100000, tasks := [40 <<< 256], launch := some 3, lin := 0, st := st, layer := 0,
    cluster := 0, seq := 4, link := .none, started := false, cancelled := false, trigger := none, since := 0, posblk := [], src := 0,
    readyAt := 0, placed := 0 }
def linked (l : Link) : State :=
  { world with
    launches := [{ launch3 with link := l }, { launch3 with id := 4, link := .pending 3 }]
    units := [unit7 .running] }
/-- The four links; the unit's launch has a successor linked to it. -/
theorem witness_links : let f := w 0 (.v 0) (.v 0) (.v 0) hE 0
    let g := w 0 (.v 0) (.v 0) (.v 0) h0 0
    (∀ l ∈ [Link.none, .pending 2, .satisfied, .cancelled], (linked l).Issues (.waitpred f) f ∧ (linked l).groupLink (linked l).group = l) ∧
    (linked .none).Issues (.succhint g) g ∧ (linked .none).hasSuccessor 3 = true ∧ (linked .none).hasSuccessor 4 = false ∧
    ((linked .none).findUnit 7).isSome = true := by
  simp only [State.Issues]; decide
/-- A persistent group's FETCHW, with the last place of the space as its mailbox, of the live launch and of a completed one. -/
theorem witness_fetchw : let f := w 0 (.v 0) (.s 16) (.s 24) hO 0
    let done : State := withS [(16, 0xFE0)] (withMem [(0x10007F, 5)] world)
    let s : State := { done with group := { done.group with task := (40 <<< 256) + (1 <<< 281) } }
    let t : State := { s with launches := [launch3] }
    s.Issues (.fetchw f) f ∧ t.Issues (.fetchw f) f ∧ taskBits s.group.task 35 1 1 = 1 ∧ 0xFE0 + 32 ≤ s.group.localSize ∧
    ((t.liveDpa 0x100000).map fun l => (l.job, lnGang l.image)) = some (5, false) ∧ s.liveDpa 0x100000 = none ∧
    bits (s.read64 0x100078) 59 56 ≠ 0 ∧ (Mem.read s.mem 0x10001B).getLsbD 4 = false ∧ s.group.boardFull 0xFE0 0x1000 = false := by
  simp only [State.Issues]; decide
/-- CANCEL of the unit, of a live launch, of a graph and a phase record, and of the job. -/
theorem witness_cancel : let f (lv : Nat) := w lv (.v 0) (.sp .nil) (.s 24) h0 0
    let s (off kind own : Nat) : State := { withS [(24, BitVec.ofNat 32 off)] (withMem ((if kind = 0 then [] else [(0x100020, BitVec.ofNat 8 kind)]) ++
      if own = 0 then [] else [(0x100022, BitVec.ofNat 8 own)]) world) with
      launches := [launch3]
      jobs := [{ job5 with recAt := if kind = 3 then 0x100000 else 0x20000 }] }
    world.Issues (.cancel (w 0 (.v 0) (.sp .nil) (.v 0) h0 0)) (w 0 (.v 0) (.sp .nil) (.v 0) h0 0) ∧ (s 112 0 0).Issues (.cancel (f 1)) (f 1) ∧
    (s 8 1 5).Issues (.cancel (f 2)) (f 2) ∧ (s 8 2 5).Issues (.cancel (f 3)) (f 3) ∧ (s 8 3 5).Issues (.cancel (f 4)) (f 4) ∧
    ((s 112 0 0).liveDpa 0x100000).isSome = true ∧ (s 8 1 5).recKind 0x100000 = 1 ∧ (s 8 2 5).recKind 0x100000 = 2 ∧
    (s 8 3 5).recKind 0x100000 = 3 ∧ Mem.readNat (s 8 1 5).mem 0x100022 2 % 2 ^ 12 = 5 ∧ (s 8 1 5).recRetired 0x100000 = false ∧
    ((s 8 3 5).jobs.find? fun j => j.id = 5 && j.recAt = 0x100000).isSome = true := by
  simp only [State.Issues]; decide
theorem witness_cancel_record : let f := w 2 (.v 0) (.sp .nil) (.s 24) h0 0
    ∃ e y g z, (cx .cancel f (withS [(24, 8)] world)).recordAt needRw 8 8 = .ok (e, y) ∧ y.recordHit e accRw 8 = .ok (g, z) ∧
      decide (g.hit.dpa = 0x100008) = true := record_ex (fun _ g => decide (g.hit.dpa = 0x100008)) (by decide)
/-- WATCH, UNWATCH and WATCHQ of entry 63, on an image of a range of the window and on one of a line of memory. -/
def image (bc : Bool) : List Host.Cell :=
  (if bc then [] else [(0x100002, 0x10)]) ++ [(0x100008, 1), (0x10000C, 1), (0x100028, 1), (0x10002A, 1), (0x10002C, 1)] ++ if bc then [(0x10002D, 1)] else []
theorem witness_watch : let f := w 0 (.v 0) (.s 16) (.s 24) h0 0
    let g := w 0 (.v 0) (.s 16) (.v 0) h0 0
    let h := w 0 (.s 8) (.s 16) (.s 24) hT 0
    let s (bc : Bool) : State := withSlots (withS [(16, 63)] (withMem (image bc) world))
    let img (bc : Bool) : BitVec 512 := BitVec.ofNat 512 (Mem.readNat (s bc).mem 0x100000 64)
    (∀ bc ∈ [true, false], (s bc).Issues (.watch f) f ∧ watchBad (img bc) true = false ∧ taskBits (img bc) 45 0 0 = (if bc then 1 else 0)) ∧
    (s true).Issues (.unwatch g) g ∧ (s true).Issues (.watchq h) h ∧ (s true).wave.count .bc < 63 ∧
    ok ((cx .watch f (s false)).watchFrames (taskBits (img false) 0 63 0) (taskBits (img false) 8 31 0)) (fun l => decide (l = [0x100000])) = true ∧
    ok ((cx .watch f (s true)).reach [0]) (fun _ => true) = true ∧ ((s true).tower 0).queued 5 < 64 ∧ ((s true).tower 0).slotsOf 5 ≠ 0 ∧
    ((s true).tower 0).frames.length < 768 := by
  simp only [State.Issues]; decide
theorem witness_watch_record : let f := w 0 (.v 0) (.s 16) (.s 24) h0 0
    let h := w 0 (.s 8) (.s 16) (.s 24) hT 0
    (∃ e y g z, (cx .watch f world).recordAt { spaces := [1], rd := true } 64 64 = .ok (e, y) ∧ y.recordHit e accRd 64 = .ok (g, z) ∧ true = true) ∧
    ∃ e y g z, (cx .watchq h world).recordAt { spaces := [1], wr := true } 64 64 = .ok (e, y) ∧ y.recordHit e accWr 64 = .ok (g, z) ∧
      (!g.hit.disc) = true := ⟨record_ex (fun _ _ => true) (by decide), record_ex (fun _ g => !g.hit.disc) (by decide)⟩

/-! ### Sampling, display and system -/

/-- Job 5 owns Damask, the display, and the Lanterns. -/
def owner (s : State) : State :=
  let s := withSlots s
  let c : Table Word := [(0x350, 0x500), (0x360, 0x501), (0x370, 0x500)]
  { s with
    tower0 := { s.tower0 with csr := c }
    tower1 := { s.tower1 with csr := c } }
/-- A window of one pixel; samples of band 0; a group with positions. -/
theorem witness_samples : let f := w 0 (.v 8) (.p 3) (.v 0) hT 0
    let g := w 0 (.p 2) (.v 16) (.v 0) hT 3
    let h := w 0 (.v 8) (.s 16) (.s 24) hT 3
    let k := w 0 (.v 8) (.s 16) (.s 24) hT 0x43
    let s := owner (withS [(16, 0x10000), (17, 0x10000)] world)
    let p : State := { world with group := { world.group with task := (40 <<< 256) + (1 <<< 284) } }
    world.Issues (.smpget f) f ∧ world.task 35 4 4 = 0 ∧ p.Issues (.smpget f) f ∧ p.task 35 4 4 = 1 ∧
    s.Issues (.smpput g) g ∧ needBad { spaces := [4], wr := true } (s.entry 3) = false ∧ (s.tower 0).ownsDamask 5 = true ∧
    (∀ i ∈ lanesOf (cx .smpput g s).m, smBad ((cx .smpput g s).sample i) = false ∧ smBand ((cx .smpput g s).sample i) * 2 ^ 22 < hLimit (s.entry 3)) ∧
    s.Issues (.smprd h) h ∧ s.Issues (.eyebor k) k ∧ needBad { spaces := [4], rd := true } (s.entry 3) = false ∧
    winBad ((cx .smprd h s).uni64 h.a) = false ∧ winBand ((cx .smprd h s).uni64 h.a) = 0 ∧ (cx .smprd h s).m ≠ 0 ∧ (s.tower 1).ownsDamask 5 = true ∧
    s.bandPoison 0 0 = false ∧ s.link.down = false ∧ s.wave.count .gt < 63 := by
  simp only [State.Issues]; decide
/-- Cells at the last column and row of the map. -/
theorem witness_map : let f := w 0 (.v 0) (.v 16) (.v 24) h0 0
    let s := owner (withV [(16, 2, fun _ => 0x00EF00EF)] world)
    s.Issues (.pmapwr f) f ∧ bits ((s.tower 0).reg csrLntctl) 19 8 = 5 ∧ (cx .pmapwr f s).m ≠ 0 ∧ (s.tower 0).slotsOf 5 ≠ 0 ∧
    (∀ i ∈ lanesOf (cx .pmapwr f s).m, bits (laneAt ((cx .pmapwr f s).lanes f.a) i) 15 0 = 239 ∧ bits (laneAt ((cx .pmapwr f s).lanes f.a) i) 31 16 = 239) ∧
    (s.tower 0).grants 5 5 kindWave false true false 115198 115200 = true ∧ (s.tower 0).queued 5 < 64 := by
  simp only [State.Issues]; decide
theorem witness_triangles : let f := w 0 (.v 8) (.v 16) (.s 24) hT 0
    let g := w 0 (.p 2) (.v 16) (.v 0) hT 0
    let s (n : Word) := withS [(24, n)] world
    world.Issues (.tricls g) g ∧ (s 1).Issues (.triras f) f ∧ (s 1024).Issues (.triras f) f ∧ (cx .triras f (s 1)).m ≠ 0 ∧ dispOf f = 0 ∧
    needBad needAt (world.entry 0) = false ∧ (vaOf (world.entry 0) 0).toNat % 16 = 0 ∧ 16 * 1024 ≤ hLimit (world.entry 0) ∧
    ok ((cx .triras f (s 1)).plan (world.entry 0) accAt 16 [(32, 0)]) (fun p => p.missing.isEmpty && p.denied.isEmpty) = true := by
  simp only [State.Issues]; decide
/-- A header of one node; slots that are not pending, with a hit, with a bad ray, and with none. -/
theorem witness_rays : let f := w 0 (.v 0) (.v 16) (.v 0) hT 0
    let g := w 0 (.v 8) (.p 3) (.v 0) hT 0
    let s := withMem [(0x100001, 1), (0x100008, 1)] world
    let r (st : Nat) : State := { world with wave := { world.wave with rays := [(0, ⟨[], 0x21, false, false, 0, false, List.replicate 32 st, []⟩)] } }
    let v : State := { world with wave := { world.wave with em := 0 } }
    s.Issues (.rayq f) f ∧ (cx .rayq f s).m ≠ 0 ∧ ok (cx .rayq f s).rayHead (fun u => decide (u.tower0 = s.tower0 ∧ u.tower1 = s.tower1)) = true ∧ (s.wave.raySlot 0).pend = false ∧
    v.Issues (.rayq f) f ∧ (cx .rayq f v).m = 0 ∧ (∀ st ∈ [0, rayHit, rayIsBad], (r st).Issues (.rayrd g) g ∧ ((r st).wave.raySlot 0).status.getD 5 9 = st) := by
  simp only [State.Issues]; decide
/-- The last pixel of a line. -/
theorem witness_rows : let f := w 0 (.s 8) (.s 16) (.s 24) hE 0
    let g := w 0 (.s 8) (.v 16) (.s 24) hT 0
    let s := owner (withS [(25, 3834)] world)
    s.Issues (.rowwait f) f ∧ s.Issues (.rowput g) g ∧ bits ((s.tower 0).reg csrDspctl) 19 8 = 5 ∧
    (∀ i ∈ lanesOf (cx .rowput g s).m, ((cx .rowput g s).uni (.s 25)).toNat + i < 3840) ∧
    (s.tower 0).grants 3 5 kindWave false true false 0 0 = true := by
  simp only [State.Issues]; decide
/-- Waves with and without a handler, within one, and with a TEPC that is aligned or not. -/
theorem witness_traps : let f := w 0 (.v 0) (.v 0) (.v 0) hE 0x5000
    let g := w 0 (.v 0) (.v 0) (.v 0) hE 0
    let s (tvec tepc : DWord) (inh : Bool) : State := { world with wave := { world.wave with tvec := tvec, tepc := tepc, inh := inh } }
    (s 64 0 false).Issues (.trap f) f ∧ (s 64 0 false).Issues (.brkpt f) f ∧ (s 64 0 false).group.kill = false ∧ (s 64 0 false).wave.pendTrap = none ∧
    (s 0 0 false).Issues (.trap f) f ∧ (s 64 0 true).Issues (.brkpt f) f ∧ (s 0 0 false).wave.inGroup (s 0 0 false).group.key = true ∧
    (((s 0 0 false).tower 0).recs.filter fun r => r.job = 5).length < 31 ∧ (s 64 0 false).Issues (.eret g) g ∧ (s 64 8 true).Issues (.eret g) g ∧
    (s 64 7 true).Issues (.eret g) g ∧ (8 : DWord).toNat % 4 = 0 ∧ (7 : DWord).toNat % 4 ≠ 0 := by
  simp only [State.Issues]; decide
theorem witness_registers : let f := w 0 (.s 8) (.v 0) (.v 0) hE 0x300
    let g := w 0 (.s 8) (.s 16) (.v 0) hE 0x310
    world.Issues (.csrr f) f ∧ world.Issues (.csrw g) g ∧ 0x100 ≤ selOf g ∧ csrMask 0x310 ≠ 0 ∧ csrMask 0x300 = 0 := by
  simp only [State.Issues]; decide
/-- PAGEMAP and PAGEMAP.CMP of the word that is there. -/
theorem witness_pagemap : let f (m : Nat) := w m (.s 8) (.s 16) (.s 24) hE 0
    let s := withS [(24, 0x100008)] world
    s.Issues (.pagemap (f 0)) (f 0) ∧ s.Issues (.pagemap (f 1)) (f 1) ∧ dpaOk 0x100008 = true ∧ dpaTower 0x100008 = s.group.tower ∧
    s.globalOk 0 0 5 kindWave true true true 0x100008 0x100010 = true ∧ Mem.read64 s.mem 0x100008 = (cx .pagemap (f 1) s).uni64 (.s 8) := by
  simp only [State.Issues]; decide
/-- Another wave of the job that runs, sleeps, or is parked. -/
def another (x : Wait) : State :=
  { withS [(16, 5), (24, 0x80000011)] world with waves := [{ Wave.empty with job := 5, gid := 1, idx := 1, alive := true, wait := x }] }
theorem witness_waves : let f (m : Nat) := w m (.s 8) (.s 16) (.s 24) hE 0
    (∀ x ∈ [Wait.none, .sleep none, .parked .pagenp 0], ∀ m ∈ [0, 1, 2], (another x).Issues (.wakew (f m)) (f m)) ∧
    ((another .none).tagged 5 0x80000011).isSome = true ∧ world.tagged 5 0x80000011 = none ∧ ((another .none).waves.headD Wave.empty).parkedOn = none ∧
    ((another (.parked .pagenp 0)).waves.headD Wave.empty).isParked = true := by
  simp only [State.Issues]; decide
/-- One slot asked for and given back; none asked for. -/
theorem witness_slots : let f := w 0 (.s 8) (.s 16) (.s 24) hE 0
    let s (n : Nat) := withSlots (withS [(16, 5), (24, BitVec.ofNat 32 n)] world)
    (∀ n ∈ [0, 1, 2], (s n).Issues (.slotreq f) f ∧ (s n).Issues (.slotrel f) f) ∧ ((s 0).tower 0).hostFn 5 = false ∧
    ((s 1).tower 0).slotsOf 5 = 2 ∧ ((s 1).tower 0).queued 5 = 0 := by
  simp only [State.Issues]; decide
/-- LAYERPS of one layer to doze, of all to off, and of layers in transition. -/
theorem witness_layers : let f (m : Nat) := w m (.s 8) (.s 16) (.v 0) hE 0
    let s (n : Nat) := withS [(16, BitVec.ofNat 32 n)] world
    (s 1).Issues (.layerps (f 1)) (f 1) ∧ (s 255).Issues (.layerps (f 2)) (f 2) ∧ world.powerNow = none ∧
    (∀ l < 8, (s 1).tower0.busy l = false) ∧ (s 1).tower0.awake 7 = true ∧ layerStOf (mbits (f 1) 1 0) = .doze := by
  simp only [State.Issues]; decide

/-! ### Steps of the hardware -/

/-- The wave of `world` outside a run, on a core whose firmware runs. -/
def idle (x : Wait) : State :=
  { world with
    wave := { world.wave with
      inRun := false
      wait := x }
    tower0 := { world.tower0 with hostWin := [(0x4000, 3)] } }
def core0 : Place := ⟨0, 0, 0⟩
/-- The waits, each on the focus wave. -/
theorem witness_waits : let s (x : Wait) := idle x
    (∀ x ∈ [Wait.sleep (some 9), .shootdown, .counter 0x100000 0 0 none false, .counter 0x100000 0 (-1) none false, .row 5 0 (.s 8)],
      (s x).findWave (s x).wave.key = some (s x).wave ∧ (s x).wave.wait = x ∧ (s x).wave.alive = true ∧ (s x).wave.live ≠ 0 ∧
      (s x).wave.inGroup (s x).group.key = true ∧ ((s x).groupOf (s x).wave).kill = false ∧ (s x).wave.pendTrap = none) ∧
    (s .none).counterAt 0x100000 = 0 ∧ (s .none).relsOf (locGlobal 0x100000) 8 = [] ∧ (s .none).link.retraining = false := by decide
/-- A token of a wave whose operations are done; one that is clear; commands that are sent, parked, and to be borrowed. -/
theorem witness_operations : let s := idle .none
    let t : State := { s with wave := { s.wave with tokens := 2 } }
    let c (o : EngOp) (k : EngClass) (p : Bool) : State := { s with wave := { s.wave with cmds := [⟨1, k, o, 0, none, none, none, p, [], 0, 0, 0⟩] } }
    t.wave.tokens.getLsbD 1 = true ∧ t.wave.tokHeld 1 = false ∧ s.wave.tokens.getLsbD 1 = false ∧
    (((c (.sectors 0) .bc false).wave.cmds.find? fun x => x.cls = .bc).map fun x => (x.op, x.parked)) = some (.sectors 0, false) ∧
    (((c (.sectors 0) .bc true).wave.cmds.find? fun x => x.cls = .bc).map fun x => x.parked) = some true ∧
    (((c (.eyebor 8 1 2 1 0 0 0) .gt false).wave.cmds.find? fun x => x.cls = .gt).map fun x => x.op) = some (.eyebor 8 1 2 1 0 0 0) ∧
    s.wave.jctl.getLsbD 7 = false := by decide
/-- A live launch with one tile to deal; a held unit; a cancelled one. -/
theorem witness_deals : let s : State := { idle .none with launches := [launch3] }
    let u (c : Bool) : State := { s with
      launches := []
      units := [{ unit7 .held with
        launch := none
        cancelled := c }] }
    let first (s : State) : Option Deal := (sortRank Deal.rank (s.served ((s.deals 0).filter (s.dealOk 0)))).head?
    (match first s with | some (.tile l n) => decide (l.id = 3 ∧ n = 0) | _ => false) = true ∧ s.launchReq launch3 = false ∧
    (s.tileUnit launch3 0 0 (.queued 0 none) 0).placeable = true ∧
    (match first (u false) with | some (.unit x) => !(u false).unitReq x && x.placeable | _ => false) = true ∧
    (match first (u true) with | some (.unit x) => (u true).unitReq x | _ => false) = true ∧ (first (idle .none)).isNone = true := by decide
/-- A unit in a layer's queue, one in a cluster's, and one that runs. -/
def queued (st : UState) : State :=
  { idle .none with
    launches := [launch3]
    units := [unit7 st] }
theorem witness_queues_of_units : let s := queued (.queued 0 none)
    let c := queued (.queued 0 (some 0))
    ((sortRank WorkUnit.rank (s.layerQueue 0 0)).findSome? fun u => ((s.clustersFor 0 0 u).head?).map fun c => (u.id, c)) = some (7, 0) ∧
    (c.clusterQueue 0 0 0).isEmpty = false ∧ c.layerQueue 0 0 = [] ∧ (c.tower 0).awake 0 = true ∧
    ((c.clusterQueue 0 0 0).filter fun u => !c.behind u).length = 1 ∧ c.clusterQueue 0 0 3 = [] := by decide
/-- A free port with one ready wave, and a busy one. -/
theorem witness_run_start : let s := queued .running
    s.clockStop = false ∧ (s.tower 0).booted = true ∧ s.portBusy core0 0 = false ∧
    ((chooseWave [] (s.readyOn core0)).map fun p => p.1.key) = some s.wave.key ∧ s.allWaves.length = 1 ∧
    ({ s with wave := { s.wave with inRun := true } } : State).portBusy core0 0 = true ∧ world.tower0.booted = false ∧
    ({ s with wave := { s.wave with alive := false } } : State).readyOn core0 = [] := by decide
theorem witness_places : let c := queued (.queued 0 (some 0))
    ((sortRank WorkUnit.rank ((c.clusterQueue 0 0 0).filter fun u => !c.behind u)).findSome? fun u =>
      if !u.ran && c.unitReq u then some (u.id, none) else (c.fit u 0 0 0).map fun k => (u.id, some k)).isSome = true := by decide
/-- A group that may start, one that may be saved, one that may come back, and a unit that is done. -/
theorem witness_groups : let s := queued .placed
    let g (x : Group → Group) : State := { s with group := x s.group }
    let a := g fun g => { g with started := false }
    let b := g fun g => { g with stop := true }
    let c := g fun g => { g with resident := false }
    let d := g fun g => { g with ended := true }
    (a.findGroup a.group.key).isSome = true ∧ (a.findUnit 7).isSome = true ∧ a.unitReq (unit7 .placed) = false ∧ (unit7 .placed).st.holds = true ∧
    a.group.stopping = false ∧ b.saveReady (unit7 .placed) = true ∧ s.saveReady (unit7 .placed) = false ∧ c.group.imgBad = none ∧
    ({ d with wave := { d.wave with alive := false } } : State).unitDone (unit7 .placed) = true ∧ s.unitDone (unit7 .placed) = false := by decide
/-- A FETCHW of a launch that is not live, and of one that has a tile to give. -/
theorem witness_mailbox : let s (ls : List Launch) : State := { idle .none with
      launches := ls
      group := { world.group with fetch := some ⟨0x100000, 0, true, none⟩ } }
    (s []).liveAt 5 0x100000 = none ∧ ((s [launch3]).liveAt 5 0x100000).isSome = true ∧ launch3.nextTile = some 0 ∧
    (s [launch3]).linkHolds launch3 = false ∧ (s [launch3]).launchReq launch3 = false := by decide

/-- A change of entry 1 of job 5, whose image allows DEPTH 1, one trigger in a window, and two changes together. -/
def entry1 (rate : Nat) : BitVec 512 := BitVec.ofNat 512 (packBits [(0, 64, 0x100000), (64, 32, 1), (96, 6, 1), (120, 1, 1), (128, 64, 0x200000), (320, 16, 2),
  (336, 16, rate), (352, 4, 1)])
def changed (rate depth : Nat) (trs : List Trigger) : State :=
  { idle .none with tower0 := { (idle .none).tower0 with
      watches := [(321, ⟨entry1 rate, [0x100000]⟩)]
      triggers := trs
      changes := [⟨5, 1, 0, 1, depth, false⟩] } }
/-- A change that opens a trigger, one too deep, one beyond the rate, and one that an open trigger covers. -/
theorem witness_changes : let s := changed 1 1 []
    ((s.tower 0).watch 5 1).isSome = true ∧ wLive ⟨entry1 1, []⟩ = true ∧ wDmax ⟨entry1 1, []⟩ = 1 ∧ wRate ⟨entry1 1, []⟩ = 1 ∧ wCoal ⟨entry1 1, []⟩ = 2 ∧
    wEntry ⟨entry1 1, []⟩ ≠ 0 ∧ (s.tower 0).rated 5 1 = 0 ∧ s.jobOk 5 = true ∧ s.taskAddrBad 5 (triggerTask ⟨entry1 1, []⟩ ⟨5, 1, 0, 1, 1, false⟩) = false ∧
    (s.tower 0).hostFn 1 = false := by decide
/-- Slots of a submission range that are empty, and that hold a task record; a held hardware use. -/
theorem witness_slot_service : let tr : Trigger := ⟨0, 5, 1, 0, 1, 1, 1, false, false, some (true, 64, 0)⟩
    let s (b : List Host.Cell) : State := { withMem [(0x100020, 1)] (idle .none) with tower0 := { (idle .none).tower0 with triggers := [tr], bcast := b } }
    let full := s [(66, 0x10), (72, 1)]
    let s1 : State := full.mapTower 0 fun w => w.freeTrigger (some 0)
    (((s []).tower 0).triggers.find? fun r => r.slot.isSome) = some tr ∧ (s []).slotRead 0 (true, 64, 0) 8 1 = 0 ∧
    s1.slotRead 0 (true, 64, 0) 8 1 = 1 ∧ s1.slotRead 0 (true, 64, 0) 0 8 = 0x100000 ∧
    (match s1.hwAt 5 0 false 64 0x100000 with | .at_ h => decide (h.dpa = 0x100000) && subOk (s1.submitTask 5 0 0x100000 h.dpa 0 none 3) fun _ => true | _ => false) = true ∧
    ({ s [] with held := [⟨5, 0, 0, [.job], 0⟩] } : State).held[0]? = some ⟨5, 0, 0, [.job], 0⟩ := by decide
/-- A DSP unit that waits behind a unit that is to stop; the display on. -/
theorem witness_deadline : let s : State := { queued .running with units := [{ unit7 .running with
      tasks := [(40 <<< 256) + (1 <<< 272)] }, { unit7 (.queued 0 none) with
      id := 8
      launch := none
      tasks := [(40 <<< 256) + (3 <<< 272)] }] }
    let t : State := { s with
      launches := []
      group := { s.group with
        stop := true
        task := (40 <<< 256) + (1 <<< 272) }
      tower0 := { s.tower0 with csr := [(0x370, 0x501)] } }
    (t.findUnit 8).isSome = true ∧ ((t.findUnit 8).map fun u => u.waitsDsp 0) = some true ∧ (t.tower 0).dspOn = true ∧ (s.tower 0).dspOn = false ∧
    ((t.units.filter fun v => v.tower = 0 && v.st.holds && decide (v.cls < 3) && (t.groupsOf v).any Group.stop).length = 1) ∧ t.findUnit 9 = none := by
  decide
/-- A sector of a job with slots, and of one without; a committed image that may apply. -/
theorem witness_sectors : let q : Sector := ⟨5, 0, [(3, 9)], false, ⟨5, 1, 0⟩, 1, 0, [], none⟩
    let s (own : Bool) : State := (if own then withSlots else id) { idle .none with tower0 := { (idle .none).tower0 with sectors := [q] } }
    let c : State := (withSlots (idle .none)).mapTower 0 fun t => { t with almNext := some [(0, slotEntry 5)] }
    (((s true).tower 0).sectors.find? fun q => q.job = 5) = some q ∧ ((s true).tower 0).slotsOf 5 ≠ 0 ∧ ((s false).tower 0).slotsOf 5 = 0 ∧
    ((s true).tower 0).rejoin = [] ∧ (c.tower 0).almNext.isSome = true ∧ (c.tower 0).commitWaits [(0, slotEntry 5)] = false ∧
    (world.tower 0).almNext = none := by decide
/-- Layers on their way, one of them copied; a link that retrains for the first and for the last time. -/
theorem witness_transitions : let s (l : Layer) (r : List Rejoin) (ln : LinkSt) : State := { State.reset with
      link := ln
      tower0 := { Tower.reset with
        layers := l :: List.replicate 7 ⟨.awake, none, none⟩
        rejoin := r } }
    (∀ l ∈ [Layer.mk .doze (some .awake) none, ⟨.off, some .doze, none⟩, ⟨.awake, none, none⟩], ((s l [] ⟨false, 0, false⟩).tower 0).layer 0 = l ∧
      ((s l [] ⟨false, 0, false⟩).tower 0).layers.length = 8) ∧ (((s ⟨.off, some .doze, none⟩ [⟨0, 0, 0, [], 0⟩] ⟨false, 0, false⟩).tower 0).rejoin.any fun r => r.layer = 0) = true ∧
    (s ⟨.awake, none, none⟩ [] ⟨false, 0, false⟩).transReady 0 0 = false ∧ (s ⟨.awake, none, none⟩ [] ⟨true, 2, false⟩).link.failures < 3 ∧
    3 ≤ (s ⟨.awake, none, none⟩ [] ⟨true, 3, false⟩).link.failures := by decide
/-- A page of 64 KiB that the other tower uses often, a frame for it, and a queue that takes the old one. -/
def hot : State :=
  { idle .none with
    mem := Mem.writeBytes cells 0xC008 [1, 0x20, 1] ++ [(0x12000, 1), (0x12001, 0x40), (0x12002, 1), (0x14000, 0x0F), (0x14002, 0x30),
      (0x400001, 1), (0x400002, 0x40), (0x400008, 1), (0x400014, 1), (0x400105, 1)]
    jobs := [{ job5 with jctl0 := 0x00000001FFFFFFFF, jctl1 := 0x00000001FFFFFFFF }]
    remote := [(0x30, (0, 5))]
    tower0 := { (idle .none).tower0 with csr := [(0x332, 5), (0x334, 0x50)] }
    tower1 := { (idle .none).tower1 with csr := [(0x333, 0x40)] } }
theorem witness_migration : (match walk hot.mem (hot.rootOf 5) 0x80000000 with | .ok h => decide (h.lvl = 0 ∧ h.dpa = 0x300000) && !hot.migHeld 0 5 h 0x300000 | _ => false) = true ∧
    bits ((hot.tower 0).reg csrMigctl) 15 0 = 5 ∧ Table.find hot.remote 0x30 = some (0, 5) ∧ (hot.tower 0).now < 25000 ∧ (hot.tower 0).hostFn 6 = false ∧
    dpaOk ((hot.tower 1).migQueue csrMigfreeq) = true ∧ dpaOk ((hot.tower 0).migQueue csrMigrelq) = true ∧ dpaTower 0x10000000000 = 1 ∧
    ((hot.hwQueue (migHome 1) ((hot.tower 1).migQueue csrMigfreeq) false [] 1 []).map fun p => p.2) = some [0x10000000000] := by decide
/-- Power changes in progress, and none. -/
theorem witness_power : let s : State := { world with
      powerNow := some 1
      clockStop := true }
    s.powerNow = some 1 ∧ s.clockStop = true ∧ s.powerNext = [] ∧ world.powerNow = none ∧ (3 : Word) &&& 3 = 3 ∧ (6 : Word) &&& 3 ≠ 3 := by decide
/-- Lanterns that sweep, with a block of draws to emit; the panel and the memory clock. -/
theorem witness_lanterns : let s : State := { idle .none with tower0 := { (idle .none).tower0 with
      csr := [(0x350, 0x501)]
      sweeping := true
      draws := [(0, [(1, 2, 3)])]
      armLine := some 4 } }
    (s.tower 0).lntOn = true ∧ ((s.nextBlock 0).map fun b => (b.1, b.2.1)) = some (0, 0) ∧ s.jobOk (s.tower 0).lntJob = true ∧
    ((s.acceptTask 5 0 ((s.tower 0).sampleTask 0 0 1) 0 0 4 none [(1, 2, 3)]).1.units.map fun u => u.id) = [0] ∧ (world.tower 0).lntOn = false ∧
    (world.tower 0).panelLock = true ∧ (world.tower 0).armLine = none ∧ (s.tower 0).armLine = some 4 ∧ (s.tower 0).dspRp ≠ 0 := by decide
/-- A host queue with one item that POP takes. -/
theorem witness_pop : let s : State := { withMem [(0x100001, 0x10), (0x100002, 0x10), (0x100008, 4), (0x100014, 1), (0x101000, 7)] (idle .none) with
      tower0 := { (idle .none).tower0 with csr := [(0x350, 0x501), (0x35C, 0x100000), (0x390, 8)] } }
    (s.tower 0).hostFn 3 = true ∧ s.emitRoom 0 0 = true ∧ (match s.hwAt 5 0 true 64 ((s.tower 0).reg2 csrLnthq) with
      | .at_ h => decide (h.mtype ≠ 1 ∧ h.dpa = 0x100000) && ((s.hwQueue ⟨5, 0, false⟩ h.dpa false [] 1 []).map fun p => p.2) == some [7]
      | _ => false) = true := by decide
/-- Bad Lantern registers; errors in memory and in a running wave with a handler; a record whose queue takes it. -/
theorem witness_errors : let s : State := { world with
      wave := { world.wave with tvec := 64 }
      tower0 := { world.tower0 with csr := [(0x359, 0)] } }
    (s.tower 0).lntBad = true ∧ (s.tower 0).lntOn = false ∧ dpaOk 0x100000 = true ∧ s.wave.inRun = true ∧ s.wave.inh = false ∧ s.group.kill = false ∧
    s.onCore core0 = [] ∧ ((queued .running).onCore core0).length = 1 := by decide
theorem witness_record_push : let r : FaultRec := ⟨5, 0, true, false⟩
    let s : State := { withMem [(0x100001, 0x10), (0x100002, 0x10), (0x100008, 8)] (idle .none) with
      jobs := [{ job5 with jctl0 := 0x0000000000001001, jctl1 := 0x0000000000001001 }]
      tower0 := { (idle .none).tower0 with recs := [r] } }
    (s.tower 0).firstRecs 5 = [r] ∧ (∀ x ∈ (s.tower 0).recs, x.job = 5) := by decide

/-! ### Results of reductions, conversions, commands, borrows and rays -/

/-- REDMIN and REDMAX of a NaN, and of a zero of each sign; the reductions with no active lane. -/
def floats5 (a : Word) : State := withV [(16, 0, fun i => if i = 5 then a else 0x80000000)] world
theorem witness_reduction_edges : let f := w 2 (.v 8) (.v 16) (.v 0) h0 0
    ((floats5 0x7F800001).Issues (.redmin f) f ∧ (floats5 0x7F800001).Issues (.redmax f) f) ∧
    (floats5 0).Issues (.redmin f) f ∧ (floats5 0).Issues (.redmax f) f :=
  ⟨⟨⟨rfl, rfl, rfl⟩, rfl, rfl, rfl⟩, ⟨rfl, rfl, rfl⟩, rfl, rfl, rfl⟩
theorem witness_reduction_values : let f := w 2 (.v 8) (.v 16) (.v 0) h0 0
    let la (a : Word) (i : Nat) : Nat := ((cx .redmin f (floats5 a)).la i &&& 0x7FFFFFFF).toNat
    laneOn world.wave.em 0 = true ∧ laneOn world.wave.em 5 = true ∧ 0x7F800000 < la 0x7F800001 5 ∧ la 0 0 = 0 ∧ la 0 5 = 0 ∧
    ((cx .redmin f (floats5 0)).la 0).msb = true ∧ ((cx .redmin f (floats5 0)).la 5).msb = false := by decide
theorem witness_reductions_none : let v : State := { world with wave := { world.wave with em := 0 } }
    ∀ p ∈ ([(.redand, 3), (.redor, 3), (.redmin, 1), (.redmax, 2)] : List ((Fields → Instr) × Nat)), let f := w p.2 (.v 8) (.v 16) (.v 0) h0 0
      v.Issues (p.1 f) f := by
  simp only [State.Issues]; decide
/-- 256 values with an infinity; with blocks of zeros, of ρ at 2^−30 and just below it, and of the largest value. A flushed
scale byte and a finite one; S finite, infinite and a NaN. -/
theorem witness_quantised : let xs (a : Word) : List Word := List.replicate 64 0 ++ (0x30800000 :: List.replicate 63 0) ++
      (0x307FFFFF :: List.replicate 63 0) ++ a :: List.replicate 63 0
    let top (k : Nat) : Nat := ((((xs 0x3F800000).drop (64 * k)).take 64).map f32Mag).foldl max 0
    (xs 0x7F800000).length = 256 ∧ ((xs 0x7F800000).any fun y => decide (0x7F800000 ≤ (y &&& 0x7FFFFFFF).toNat)) = true ∧
    ((xs 0x3F800000).all fun y => decide ((y &&& 0x7FFFFFFF).toNat < 0x7F800000)) = true ∧
    (nqEncode (xs 0x3F800000)).1 = 0x3F800000 ∧ top 0 = 0 ∧ 0 < top 2 ∧ top 2 * 2 ^ 30 < f32Mag 0x3F800000 ∧
    ¬top 1 * 2 ^ 30 < f32Mag 0x3F800000 ∧ ¬top 3 * 2 ^ 30 < f32Mag 0x3F800000 ∧ 7 / 8 % 32 = 0 ∧ 8 / 8 % 32 ≠ 0 ∧
    Fmt.f32.decode 0xBF800000 = .fin true 0x800000 (-23) := by decide +kernel
/-- Cells of an MZST in memory and in local memory, and one at an address without a page. -/
theorem witness_tile_stores : let s := world
    let e := s.entry 0
    let far : BitVec 256 := BitVec.ofNat 256 (2 ^ 40)
    hSpace (s.entry 1) = 2 ∧ hSpace e ≠ 2 ∧ ok (s.engAt .mx true (vaOf e 4) 4) (fun h => !h.disc) = true ∧
    (s.mzStop e true [(4, 1), (8, 2)]).isNone = true ∧ (s.mzStop far true [(4, 1)]).isSome = true := by decide
/-- A CPY of four elements, run from its first element to its end, and one whose first element has no page. -/
def copying : State :=
  let s := shaped 0xFF0 12
  { s with wave := { s.wave with cmds := [⟨1, .cp, .cpy true 0xFF0 (BitVec.ofNat 512 (Mem.readNat s.mem 0x100040 64)) [12], 0, none, none, none,
      false, [], 0, 0, 0⟩] } }
def copied (s : State) (c : EngCmd) : Nat → Option State
  | 0 => some s
  | n + 1 => (copied s c n).bind fun u => match u.engElem c.op n with | .ok v => some v | _ => none
theorem witness_command_runs : copying.link.retraining = false ∧ copying.wave.wait = .none ∧
    (match copying.wave.cmds with
      | [c] => decide (c.op.count = 4) && (copied copying c 4).isSome &&
          (match ({ copying with mem := [] } : State).engElem c.op 0 with | .stop _ _ _ => true | _ => false)
      | _ => false) = true := by decide
/-- Counters of commands: above 0, at 0, without a page, and in the other tower's memory, which a retraining or
a failed link cuts off. -/
theorem witness_command_counters : let s (n : Byte) := withMem [(0x100008, n)] world
    let far (r d : Bool) : State := { world with
      mem := Mem.writeBytes cells 0xC008 [0x0F, 0, 0, 0, 0, 1]
      link := ⟨r, 0, d⟩ }
    (∀ n ∈ ([0, 1] : List Byte), (match (s n).translate 5 0 .write 0x100008 with
      | .ok h => !h.disc && decide (h.dpa = 0x100008 ∧ (s n).counterAt h.dpa = n.toNat) &&
          ((s n).denyClass 0 h.mtype 5 (kindEng .cp) true true true h.dpa (h.dpa + 8)).isNone
      | _ => false) = true) ∧
    (s 0).poisoned 0x100008 8 = none ∧ (match (s 0).translate 5 0 .write 0x7000000000 with | .error m => decide (m ≠ .link) | _ => false) = true ∧
    (match (far true false).translate 5 0 .write 0x80000000 with | .ok h => decide (dpaTower h.dpa = 1) | _ => false) = true ∧
    (match (far false true).translate 5 0 .write 0x80000000 with | .error m => decide (m = .link) | _ => false) = true := by decide
/-- Borrows that are on time, late, replayed, of a poisoned band, and over a link that is down or retrains. -/
theorem witness_borrows : let s (now : Nat) (replay : DWord) (r d : Bool) (ps : Table Nat) : State :=
      let o := owner world
      { o with
        wave := { o.wave with
          jctl := replay
          cmds := [⟨1, .gt, .eyebor 8 1 2 0x21 0 0x1000 0, 0, none, none, none, false, [], 0, 0, 0⟩] }
        tower0 := { o.tower0 with now := now }
        tower1 := { o.tower1 with damask := [(0, BitVec.ofNat 256 0)] }
        link := ⟨r, 0, d⟩
        poison := ps }
    (s 10 1 false false []).wave.jctl.getLsbD 7 = false ∧ (s 10 128 false false []).wave.jctl.getLsbD 7 = true ∧
    ((s 10 1 false false []).tower 0).borrowLate 0x1000 = false ∧ ((s 0x1000 1 false false []).tower 0).borrowLate 0x1000 = true ∧
    (s 10 1 false true []).link.down = true ∧ (s 10 1 true false []).link.retraining = true ∧
    (s 10 1 false false []).bandPoison 1 0 = false ∧ (s 10 1 false false [(dmkPoison 1 0 0, 6)]).bandPoison 1 0 = true ∧
    ((s 10 1 false false []).wave.cmds.find? fun x => x.num = 1).isSome = true ∧ (s 10 1 false false []).wave.wait = .none := by decide
/-- A ray along z at a triangle in the plane z = 1, one that is bad, and one whose tmax lies below its tmin; a node, a
leaf of it, and its header. -/
def bvh : State :=
  let o : Word := 0x3F800000
  let r (k : Nat) : Word := [0x3E800000, 0x3E800000, 0, 0, 0, o, 0, 0x7F800000].getD k 0
  let tri : List Word := [0, 0, o, o, 0, o, 0, o, o, 9, 0, 0]
  let node : List Word := [0, 0, 0, o, o, o, 0, 0, 0, o, o, o, 0, 0, 0, o, o, o, 0, 0, 0, o, o, o, 0x80000000, 0, 0, 0, 0, 0, 0, 0]
  let head : List Word := [0x100, 0, 1, 1] ++ List.replicate 28 0
  let bs := (head ++ node ++ tri).flatMap fun x => Mem.bytes x.toNat 4
  { world with
    mem := cells ++ (bs.zipIdx.map fun p => (0x100000 + p.2, p.1)).filter fun c => c.2 ≠ 0
    wave := { world.wave with
      cmds := [⟨1, .ry, .ray 0, 0, none, none, none, false, [], 0, 0, 0⟩]
      rays := [(0, ⟨(List.range 8).map fun k => lanesFn fun i => if i = 5 ∧ k = 5 then 0 else if i = 6 ∧ k = 7 then 0xBF800000 else r k,
        0x61, false, false, 0, true, (List.range 32).map fun i => if i = 0 ∨ i = 5 ∨ i = 6 then rayPending else rayNone, List.replicate 4 (splat 0)⟩)] } }
theorem witness_ray_query : let q := bvh.wave.raySlot 0
    let r (i : Nat) : RayReg := fun k => laneAt (q.rays.getD k (splat 0)) i
    let e := bvh.entry 0
    rayBad (r 0) = false ∧ rayBad (r 5) = true ∧ (rDec (r 0 7)).lt (rDec (r 0 6)) = false ∧ (rDec (r 6 7)).lt (rDec (r 6 6)) = true ∧
    (match bvhRead e 0 8 bvh with | .ok x _ => decide (bvhHeader x = some (0x100, 1, 1)) | _ => false) = true ∧
    (match bvhRead e 128 8 bvh with | .ok x _ => decide (x / 2 ^ 896 = 0) &&
        ((List.range 4).all fun k => !refBad ⟨r 0, false, false, e, 0x100, 1, 1⟩ (x / 2 ^ (32 * (24 + k)) % 2 ^ 32)) | _ => false) = true ∧
    (match bvhRead e 0x100 3 bvh with | .ok x _ => decide ((triHit (r 0) false (Machine.wordOf x) (Machine.wordOf x 9) 0).map RayHit.t = some 0x3F800000) | _ => false) = true ∧
    (match rayQuery q 6 bvh with | .ok none _ => true | _ => false) = true := by decide +kernel
theorem witness_ray_ends : (bvh.rayLanes (bvh.wave.cmds.headD ⟨0, .ry, .ray 0, 0, none, none, none, false, [], 0, 0, 0⟩) 0 [0, 5, 6]).2 = true ∧
    (rDec 0).isFin = true ∧ (rDec 0).eq (rDec 0x3F800000) = false := by decide +kernel
/-- WAKEW of its own tag: in a run, with a SCAN or a command parked, and with none. -/
theorem witness_wake_own : let f (m : Nat) := w m (.s 8) (.s 16) (.s 24) hE 0
    let s (p : Bool) : State :=
      let o := withS [(16, 5), (24, 0x80000010)] world
      { o with wave := { o.wave with scan := some ⟨0, .s 8, 1, [], [], 0, if p then some (.pagenp, 0) else none, 0⟩ } }
    (∀ m ∈ [0, 1, 2], ∀ p ∈ [true, false], (s p).Issues (.wakew (f m)) (f m) ∧ (s p).tagged 5 0x80000010 = some (s p).wave) ∧
    (s true).wave.scanParked ≠ none ∧ (s false).wave.scanParked = none ∧ (s true).wave.wait = .none ∧ (s true).wave.inRun = true := by
  simp only [State.Issues]; decide
/-- Commands of the oldest of a class in a resident group, and in one that is not. -/
theorem witness_command_steps : let s (o : EngOp) (k : EngClass) (r : Bool) : State := { idle .none with
      wave := { (idle .none).wave with cmds := [⟨1, k, o, 0, none, none, none, false, [], 0, 0, 0⟩] }
      group := { (idle .none).group with resident := r } }
    (∀ p ∈ ([(.ray 0, .ry), (.eyebor 8 1 2 1 0 0 0, .gt), (.sectors 0, .bc)] : List (EngOp × EngClass)), ∀ r ∈ [true, false],
      let t := s p.1 p.2 r
      (t.findWave t.wave.key) = some t.wave ∧ (t.focusOn t.wave.key).group.resident = r ∧
        (t.wave.cmds.find? fun x => x.cls = p.2).isSome = true) ∧ EngOp.inFlight (.ray 0) = false := by decide
/-- A slot and a job's record in the other tower while the link retrains; a layer that is busy, and one that is not. -/
theorem witness_far : let s : State := { world with
      jobs := [{ job5 with recAt := 2 ^ 40 }]
      link := ⟨true, 0, false⟩
      tower0 := { world.tower0 with layers := ⟨.awake, some .doze, none⟩ :: world.tower0.layers.drop 1 } }
    s.jobFar 5 0 = true ∧ world.jobFar 5 0 = false ∧ s.slotFar 0 (false, 2 ^ 40, 0) = true ∧ world.slotFar 0 (false, 2 ^ 40, 0) = false ∧
    (s.tower 0).busy 0 = true ∧ (s.tower 0).busy 1 = false ∧ s.powerNow = none ∧ (∀ k, (s.tower k).layers.length = 8) ∧
    (4 : Word) &&& 3 ≠ 3 := by decide
/-- Refresh periods below and at 500 clocks, with the display off and on. -/
theorem witness_display : let s (en : Word) (rp : Word) : State := { world with tower0 := { world.tower0 with csr := [(0x370, en), (0x371, rp)] } }
    ((s 0 499).tower 0).dspRp < 500 ∧ 500 ≤ ((s 0 500).tower 0).dspRp ∧ ((s 0 500).tower 0).dspOn = false ∧ ((s 1 500).tower 0).dspOn = true := by decide

/-! ### Steps of the host -/

/-- Accesses that the port grants, and one that it denies; a register job; a launch whose tiles the host expands. -/
theorem witness_host : let s : State := { idle .none with
      launches := [launch3]
      tower0 := { (idle .none).tower0 with
        csr := [(0x100, 5)]
        hostWin := [(0x4000, 1), (0x4010, 5), (0x4014, 0x80000010), (0x4028, 0x100000), (0x4064, 0x100100)] } }
    s.hostCut 0 0x100000 = false ∧ s.hostOk 0 0x100000 8 true true true = true ∧ s.hostOk 0 0x0000FFFFFFFFFFFF 8 true true true = false ∧
    s.poisoned 0x100000 8 = none ∧ ((s.selJob 0).map Job.id) = some 5 ∧ world.selJob 0 = none ∧
    ((s.launches.find? fun l => l.addr = (s.tower 0).win64 0x4028).map fun l => (l.id, l.state)) = some (3, 1) ∧ lnTiles launch3.image = 1 ∧
    dpaOk ((s.tower 0).win64 0x4064).toNat = true ∧ ((s.tower 0).win64 0x4064).toNat % 256 = 0 ∧
    (s.tagged ((s.tower 0).win 0x4010).toNat ((s.tower 0).win 0x4014)).isSome = true ∧ bits s.tower0.hstat 2 0 = 1 ∧
    world.tagged ((world.tower 0).win 0x4010).toNat ((world.tower 0).win 0x4014) = none ∧ winMask 0x4010 ≠ 0 := by decide
/-- Both towers in STATE 2; a command on a parked wave; the two sides of CLSWAY. -/
theorem witness_boot : let t (n : Word) : Tower := { Tower.reset with hostWin := [(0x4000, n)] }
    let s : State := { State.reset with
      tower0 := t 2
      tower1 := t 2 }
    bits s.tower0.hstat 2 0 = 2 ∧ bits s.tower1.hstat 2 0 = 2 ∧ bits State.reset.tower0.hstat 2 0 = 1 ∧ bits (t 4).hstat 2 0 = 4 ∧
    (idle (.parked .pagenp 0)).wave.isParked = true ∧ (24 : Nat) ≤ 24 ∧ (s.tower 0).hrecq = 0 := by decide

/-! ### Words that the manual writes out, with modifiers, guards and every hint field -/

/-- A word without guard and hint, and the decoder's answer. -/
def hintE (st : BitVec 3) (stop tv : Bool) (tok : BitVec 3) (aw : BitVec 6) : Hint := ⟨st, stop, false, tv, tok, aw⟩

/-- Chapter 3: FADD.RZ v10, v3, 0.5 %st=1; with the guard (p2) it traps GUARDAR. -/
theorem test_word_fadd : decodeTableWord 96 0x3F000000_00020000_0C152100 =
      some (.fadd ⟨0x48, .v 10, .v 3, .v 0, ⟨false, 0⟩, hintE 1 false false 0 0, 0x3F000000⟩) ∧
    (decode 0x3F000000_00022000_0C152100).toOption = none ∧
    staticFault (.fadd ⟨0x48, .v 10, .v 3, .v 0, ⟨false, 2⟩, hintE 1 false false 0 0, 0x3F000000⟩) = some .guardar := by decide
/-- Chapter 3: the FADD's bytes in memory, parcel by parcel and lowest first. -/
theorem test_word_bytes : wordOf [0x00, 0x21, 0x15, 0x0C, 0x00, 0x00, 0x02, 0x00, 0x00, 0x00, 0x00, 0x3F] =
    0x3F000000_00020000_0C152100 := by decide
/-- Chapter 4: LNCH.NB p3, [h2 + s6 + 0x80] %tok=1 %end %await=0b000010. -/
theorem test_word_lnch : decodeTableWord 96 0x00002002_08D00A30_03960740 =
    some (.lnch ⟨1, .p 3, .v 0, .s 6, ⟨false, 0⟩, hintE 0 true true 1 2, 0x2002⟩) := by decide
/-- Chapter 5: FETCHW s20, [h4 + s8] %tok=2 %end %await=0b000100. -/
theorem test_word_fetchw : decodeTableWord 96 0x00000004_11500A45_50000344 =
    some (.fetchw ⟨0, .v 0, .s 20, .s 8, ⟨false, 0⟩, hintE 0 true true 2 4, 4⟩) := by decide
/-- Chapter 6: BRC.Z em, +24 bytes %end. -/
theorem test_word_brc : decodeTableWord 96 0x00000006_00100007_68000001 =
    some (.brc ⟨0, .v 0, .sp .em, .v 0, ⟨false, 0⟩, hintE 0 true false 0 0, 6⟩) := by decide
/-- Chapter 7: FFMA.RU v20, v4, v5, v6. -/
theorem test_word_ffma : decodeTableWord 96 0x00000006_00000028_10284103 =
    some (.ffma ⟨0x10, .v 20, .v 4, .v 5, ⟨false, 0⟩, h0, 6⟩) := by decide
/-- Chapter 8: MMQ.E4M3 z2, v16, s20, bs=3, rowp=p1. -/
theorem test_word_mmq : decodeTableWord 96 0x00000C11_00000AA0_43E40B00 =
    some (.mmq ⟨2, .z 2, .v 16, .s 20, ⟨false, 0⟩, h0, 0xC11⟩) := by decide
/-- Chapter 9: (!p0) LD.F32.ACQ.DV v12, [h7 + v3 + 0x40] %tok=2. -/
theorem test_word_ld : decodeTableWord 96 0x00001007_01410018_00196E40 =
    some (.ld ⟨0x5B, .v 12, .v 0, .v 3, ⟨true, 0⟩, hintE 0 false true 2 0, 0x1007⟩) := by decide
/-- Chapter 10: STB.N32.REL.SK [h5 + v2 + 0x100], v9 %tok=1. -/
theorem test_word_stb : decodeTableWord 96 0x00004005_00C00010_24012A46 =
    some (.stb ⟨0x4A, .v 0, .v 9, .v 2, ⟨false, 0⟩, hintE 0 false true 1 0, 0x4005⟩) := by decide
/-- Chapter 12: ATOM.ADD.N32.AR.DV v6, [h2 + v4] %tok=0. -/
theorem test_word_atom : decodeTableWord 96 0x00000002_00400020_000C5E80 =
    some (.atom ⟨0x17, .v 6, .v 0, .v 4, ⟨false, 0⟩, hintE 0 false true 0 0, 2⟩) := by decide
/-- Chapter 13: (!p1) RAYQ.CULLB v40, [h9], 2 %tok=3. -/
theorem test_word_rayq : decodeTableWord 96 0x00000089_01C11000_A0000784 =
    some (.rayq ⟨1, .v 0, .v 40, .v 0, ⟨true, 1⟩, hintE 0 false true 3 0, 0x89⟩) := by decide
/-- Chapter 14: WAKEW.RES s12, s2, s4 %end. -/
theorem test_word_wakew : decodeTableWord 96 0x00000000_00100A25_0A9807C7 =
    some (.wakew ⟨1, .s 12, .s 2, .s 4, ⟨false, 0⟩, hintE 0 true false 0 0, 0⟩) := by decide
/-- Chapter 15: SMPRD v32, p2, s10:s11, s12:s13, [h6] %tok=1. -/
theorem test_word_smprd : decodeTableWord 96 0x00000086_00C00A65_28400382 =
    some (.smprd ⟨0, .v 32, .s 10, .s 12, ⟨false, 0⟩, hintE 0 false true 1 0, 0x86⟩) := by decide
/-- Chapter 16: HFMA2.BF16 v2, v1, v3, 1.0 %st=3. -/
theorem test_word_hfma2 : decodeTableWord 96 0x3F803F80_00060018_04050582 =
    some (.hfma2 ⟨0x41, .v 2, .v 1, .v 3, ⟨false, 0⟩, hintE 3 false false 0 0, 0x3F803F80⟩) := by decide
/-- Chapter 16: (!p4) BRANY, 21 words of 4 bytes ahead, %end. -/
theorem test_word_brany : decodeTableWord 96 0x00000015_00114000_00000002 =
    some (.brany ⟨0, .v 0, .v 0, .v 0, ⟨true, 4⟩, hintE 0 true false 0 0, 0x15⟩) := by decide
/-- Chapter 17: EYEBOR v40, p2, p3, s36:s37, s34:s35, [dmk] %tok=3. -/
theorem test_word_eyebor : decodeTableWord 96 0x00000C81_01C00B15_90500388 =
    some (.eyebor ⟨0, .v 40, .s 36, .s 34, ⟨false, 0⟩, hintE 0 false true 3 0, 0xC81⟩) := by decide
/-- Chapter 18: (p3) STL.N32 [loc + v13], v8, and LDS.B64.ACQ.DV s26, [flags + s24] with all hints. -/
theorem test_word_stl : decodeTableWord 96 0x00000005_00003068_20002A43 =
    some (.stl ⟨0x0A, .v 0, .v 8, .v 13, ⟨false, 3⟩, h0, 5⟩) := by decide
theorem test_word_lds : decodeTableWord 96 0x00000003_08D00AC0_02B54E44 =
    some (.lds ⟨0x53, .s 26, .v 0, .s 24, ⟨false, 0⟩, hintE 0 true true 1 2, 3⟩) := by decide
/-- Chapter 19: the STS of s24 without an index, displacement 68. -/
theorem test_word_sts : decodeTableWord 96 0x00001101_00000EC5_60014A45 =
    some (.sts ⟨0x52, .v 0, .s 24, .sp .nil, ⟨false, 0⟩, h0, 0x1101⟩) := by decide
/-- Unassigned opcodes at the edges of the groups, a reserved operand index, and no bits beyond the word. -/
theorem test_word_illop : [0x011, 0x03F, 0x063, 0x0CA, 0x10F, 0x28F, 0x3CB, 0x3FD].map (decodeTableWord 96) = List.replicate 8 none ∧
    decodeTableWord 96 (0x061 + 480 * 2 ^ 26) = none ∧ decodeTableWord 96 (0x061 + 495 * 2 ^ 17) = none ∧ bits (0x061 : BitVec 96) 9 0 = 0x61 := by
  decide

/-! ### Ill-formed terms, one for each check -/

/-- What the checks of Table 3.9 answer for a term, which none of them lets through. -/
def refuses (i : Instr) (c : Cause) : Prop := wellFormed i = false ∧ staticFault i = some c

/-- RESBITS: an unused operand field, mod bits, ext bits, AWAIT or YLD without END, ST with END, TOK without TV,
TOK 6 (R67, R69), a field set on a prefix (R84). -/
theorem test_ill_res :
    refuses (.nop (w 0 (.v 1) (.v 0) (.v 0) h0 0)) .resbits ∧ refuses (.ineg (w 0 (.v 8) (.v 16) (.v 1) h0 0)) .resbits ∧
    refuses (.nop (w 1 (.v 0) (.v 0) (.v 0) h0 0)) .resbits ∧ refuses (.fadd (w 0 (.v 8) (.v 16) (.v 24) h0 1)) .resbits ∧
    refuses (.nop (w 0 (.v 0) (.v 0) (.v 0) (hintE 0 false false 0 1) 0)) .resbits ∧
    refuses (.nop (w 0 (.v 0) (.v 0) (.v 0) ⟨0, false, true, false, 0, 0⟩ 0)) .resbits ∧
    refuses (.exit (w 0 (.v 0) (.v 0) (.v 0) (hintE 1 true false 0 0) 0)) .resbits ∧
    refuses (.nop (w 0 (.v 0) (.v 0) (.v 0) (hintE 0 false false 1 0) 0)) .resbits ∧
    refuses (.ld (w 2 (.v 8) (.v 0) (.v 24) (hintE 0 false true 6 0) 0)) .resbits ∧
    refuses (.ximm (w 0 (.v 1) (.v 0) (.v 0) h0 5)) .resbits ∧ refuses (.xfmt (w 0 (.v 0) (.v 0) (.v 0) h0 5)) .resbits := by
  simp only [refuses]; decide
/-- ILLFMT: a starred word without TV, TV on a word of another group, IMM on a V3 word and none on MOVI, a modifier
that the word has not (.SAT, a rounding), a type code or scope 7, a predicate as a source, an odd pair, a special
register as destination, a vector source of a scalar word, a run-ending word without END, a guard on a control word. -/
theorem test_ill_fmt :
    refuses (.ld (w 2 (.v 8) (.v 0) (.v 24) h0 0)) .illfmt ∧ refuses (.iadd (w 0 (.v 8) (.v 16) (.v 24) hT 0)) .illfmt ∧
    refuses (.frcp (w 64 (.v 8) (.v 16) (.v 0) hT 0)) .illfmt ∧ refuses (.movi (w 0 (.v 8) (.v 0) (.v 0) h0 0)) .illfmt ∧
    refuses (.and (w 32 (.v 8) (.v 16) (.v 24) h0 0)) .illfmt ∧ refuses (.and (w 8 (.v 8) (.v 16) (.v 24) h0 0)) .illfmt ∧
    refuses (.fence (w 0x1D (.v 0) (.v 0) (.v 0) h0 0)) .illfmt ∧ refuses (.iadd (w 0 (.v 8) (.p 1) (.v 24) h0 0)) .illfmt ∧
    refuses (.dadd (w 0 (.v 9) (.v 16) (.v 24) h0 0)) .illfmt ∧ refuses (.iadd (w 0 (.sp .clk) (.v 16) (.v 24) h0 0)) .illfmt ∧
    refuses (.iadd (w 0 (.s 8) (.v 16) (.s 24) h0 0)) .illfmt ∧ refuses (.exit (w 0 (.v 0) (.v 0) (.v 0) h0 0)) .illfmt ∧
    refuses (.yield ⟨0, .v 0, .v 0, .v 0, ⟨false, 1⟩, hE, 0⟩) .illfmt := by
  simp only [refuses]; decide
/-- GUARDAR: a guard on a group that takes none. A step of the hardware is no word; the plain FADD is one. -/
theorem test_ill_guard : refuses (.fadd ⟨0, .v 8, .v 16, .v 24, ⟨true, 0⟩, h0, 0⟩) .guardar ∧
    refuses (.mzero ⟨0, .z 0, .v 0, .v 0, ⟨false, 1⟩, h0, 0⟩) .guardar ∧
    wellFormed (.rateWindow 0) = false ∧ wellFormed (.fadd (w 0 (.v 8) (.v 16) (.v 24) h0 0)) = true := by
  simp only [refuses]; decide

/-! ### A step, and results that the manual gives -/

/-- The state after an instruction. -/
def run (k : Fields → Instr) (f : Fields) (s : State) : State := match exec (k f) s with | .next t => t | _ => s
/-- The lanes is of vector register n, and its tag. -/
def vL (t : State) (n : Nat) (is : List Nat) : List Nat := is.map fun i => (laneAt (t.wave.vreg n).lanes i).toNat
def vTag (t : State) (n : Nat) : Nat := (t.wave.vreg n).tag.toNat
def full (s : State) : State := { s with wave := { s.wave with em := 0xFFFFFFFF } }

/-- IADD.N32 v8, v16, 5 as the first word after reset: v8 is 5 in every lane, and the pc has passed it. -/
theorem test_step : (match step (State.reset.withFetchWord 96 0x00000005_00000000_40110040) with
    | .next t => vL t 8 [0, 31] == [5, 5] && t.wave.pc == State.reset.wave.pc + 12
    | _ => false) = true := by decide

/-! ### Results that the manual works out (chapter, example) -/

/-- Chapter 6: the second and the third word of a 96-bit sum, with carry in, one a lane. -/
theorem test_iaddc : let s := withV [(16, 2, fun i => if i = 5 then 1 else 0xFFFFFFFF), (24, 2, fun _ => 0)] { world with wave := { world.wave with preds := [(3, 0x21)] } }
    let t := run .iaddc (w 0 (.v 8) (.v 16) (.v 24) h0 459) s
    vL t 8 [0, 5] = [0, 2] ∧ t.wave.pred 3 = 1 := by decide
/-- Chapter 6: IDIV.S32 of −7 by 2 gives −3 and IREM −1; IDIV.N32 of 7 by 0 gives all ones and sets DZ. -/
theorem test_idiv : let s := withV [(16, 0, fun i => if i = 0 then 0xFFFFFFF9 else 7), (24, 0, fun i => if i = 0 then 2 else 0)] world
    vL (run .idiv (w 0 (.v 8) (.v 16) (.v 24) hT 0) s) 8 [0] = [0xFFFFFFFD] ∧ vL (run .irem (w 0 (.v 8) (.v 16) (.v 24) hT 0) s) 8 [0] = [0xFFFFFFFF] ∧
    vL (run .idiv (w 1 (.v 8) (.v 16) (.v 24) hT 0) s) 8 [5] = [0xFFFFFFFF] := by decide
/-- Chapter 6: SEL v5, p2, v3, 0.0 keeps v3 where p2 is set and takes its tag. -/
theorem test_sel : let s := withV [(3, 3, fun _ => 0x40000000)] (full { world with wave := { world.wave with preds := [(2, 0x55555555)] } })
    let t := run .sel (w 64 (.v 5) (.p 2) (.v 3) h0 0) s
    vL t 5 [0, 1, 30, 31] = [0x40000000, 0, 0x40000000, 0] ∧ vTag t 5 = 3 := by decide
/-- Chapter 7: FFRACT.RNE of −2^−30 is 0x3F7FFFFF, inexact. -/
theorem test_ffract : let t := run .ffract (w 0 (.v 8) (.v 16) (.v 0) h0 0) (withV [(16, 3, fun _ => 0xB0800000)] world)
    vL t 8 [0, 5] = [0x3F7FFFFF, 0x3F7FFFFF] ∧ t.wave.wflags ≠ 0 := by decide
/-- Chapter 7: CVT.S32.F32.RZ of −2.75, 3.0e9 and NaN. -/
theorem test_cvt : let s := withV [(16, 3, fun i => if i = 0 then 0xC0300000 else if i = 1 then 0x4F32D05E else 0x7FC00000)] (full world)
    vL (run .cvt (w 10 (.v 8) (.v 16) (.v 0) h0 0) s) 8 [0, 1, 2] = [0xFFFFFFFE, 0x7FFFFFFF, 0] := by decide
/-- Chapter 7: PACK2.BF16.F32 of two halfway values, .RNE and .RZ. -/
theorem test_pack2 : let s := withV [(16, 3, fun _ => 0x3F808000), (24, 3, fun _ => 0x3F818000)] world
    vL (run .pack2 (w 1 (.v 8) (.v 16) (.v 24) h0 0) s) 8 [0] = [0x3F823F80] ∧ vL (run .pack2 (w 9 (.v 8) (.v 16) (.v 24) h0 0) s) 8 [5] = [0x3F813F80] := by decide
/-- Chapter 7: PERMQ reverses the lanes of each quarter. -/
theorem test_permq : let s := withV [(16, 2, fun i => BitVec.ofNat 32 i)] (full world)
    vL (run .permq (w 64 (.v 8) (.v 16) (.v 0) h0 0x00053977) s) 8 [0, 8, 7, 31] = [7, 15, 0, 24] := by decide
/-- Chapter 7: MATCH.B32 over eight lanes. -/
theorem test_match : let s := withV [(3, 2, fun i => BitVec.ofNat 32 ([3, 7, 3, 3, 9, 7, 0, 3].getD i 0))] { world with wave := { world.wave with em := 0xFF } }
    let t := run .match_ (w 0 (.v 4) (.v 3) (.v 0) h0 0) s
    vL t 4 (List.range 9) = [0x8D, 0x22, 0x8D, 0x8D, 0x10, 0x22, 0x40, 0x8D, 0] ∧ vTag t 4 = 2 := by decide
/-- Chapter 7: SCANADD.N32.EXC. -/
theorem test_scanadd : let s := withV [(8, 2, fun i => BitVec.ofNat 32 ([4, 0, 2, 5].getD i 1))] (full world)
    vL (run .scanadd (w 5 (.v 9) (.v 8) (.v 0) h0 0) s) 9 [0, 1, 2, 3, 4, 31] = [0, 4, 4, 6, 11, 38] := by decide
/-- Chapter 12: ATOM.ADD over offsets 0, 0, 4, 0: what the lanes receive and what memory holds. -/
theorem test_atom : let s := withMem [(0x100000, 100), (0x100004, 9)] (withV [(4, 2, fun i => if i = 2 then 4 else 0), (6, 2, fun i => BitVec.ofNat 32 ([5, 7, 1, 10].getD i 0))]
      { world with wave := { world.wave with em := 0xF } })
    let t := run .atom (w 0x17 (.v 6) (.v 0) (.v 4) (hintE 0 false true 0 0) 0) s
    vL t 6 [0, 1, 2, 3] = [100, 105, 9, 112] ∧ Mem.readNat t.mem 0x100000 4 = 122 ∧ Mem.readNat t.mem 0x100004 4 = 10 := by decide
/-- Chapter 1: bytes 32 to 35 of the task record are s8 of a wave that starts (R26). -/
theorem test_task : taskBits (BitVec.ofNat 512 (0x012910CC * 2 ^ 256)) 32 5 0 = 12 ∧ taskBits (BitVec.ofNat 512 (0x012910CC * 2 ^ 256)) 32 9 6 = 3 := by decide
/-- Chapter 2: 500.0 as E4M3 is 0x7E and −1000.0 is 0xFE. -/
theorem test_e4m3 : (Fmt.f32.convert .e4m3 .rne false 0x43FA0000).val = 0x7E ∧ (Fmt.f32.convert .e4m3 .rne false 0xC47A0000).val = 0xFE := by decide
/-- Chapter 8: element (0, 0) of the MMQ.E4M3, four products and 0.1. -/
theorem test_mmq : (mmqElem 2 (fun k => [0x38, 0x40, 0xB0, 0x7E].getD k 0) [0x30, 0x28, 0x40, 0x20] 4 (some 0x3DCCCCCD)).val = 0x42606666 := by decide
/-- Chapter 9: the walk to a 2 MiB leaf homed in T1. -/
theorem test_walk : let m := [(0x4000, 0x01), (0x4001, 0x80), (0x8000, 0x01), (0x8001, 0xC0), (0xC120, 0x01), (0xC122, 0x01),
      (0x10D10, 0x07), (0x10D12, 0x60), (0x10D13, 0x40), (0x10D15, 0x01)]
    (match walk m 0x4000 0x0000001234567890 with | .ok h => h.dpa == 0x10040767890 && h.w && !h.x | .error _ => false) = true := by decide
/-- Chapter 10: Almanac slot 45 of both towers at reset is TX 6, CLASS 1, JOB 0, and slot 44 is free. -/
theorem test_almanac : bits (almGet State.reset.tower0.almanac 0 45) 2 0 = 6 ∧ bits (almGet State.reset.tower0.almanac 0 45) 6 4 = 1 ∧
    bits (almGet State.reset.tower1.almanac 5 44) 6 4 = 7 := by decide
/-- Chapter 13: the counts of three weights in a sweep of four draws. -/
theorem test_draws : drawCounts 4 7 10 100 0 [5, 3, 2] = [(100, 2), (101, 1), (102, 1)] ∧
    drawOrder 4 0 [(100, 2), (101, 1), (7000, 1)] = [(100, 0), (101, 0), (7000, 0), (100, 1)] := by decide
/-- Chapter 15: a record at X 25,656 with F × B of about 115.2 and depth 2.0 borrows to X 24,734. -/
theorem test_borrow : borrowX 25656 0x42666666 = some 24734 := by decide

/-! ### Witnesses of the other branches -/

/-- LDS beside no open row; STB without a lane and without a slot; LDB that the broadcast table denies. -/
theorem witness_memory_edges : let f := w 2 (.s 8) (.v 0) (.s 24) hT 0
    let g := w 2 (.v 0) (.v 16) (.v 24) h0 2
    let h := w 2 (.v 8) (.v 0) (.v 24) hT 2
    let s := withSlots lanes8
    let n : State := { s with wave := { s.wave with em := 0 } }
    let d : State := { s with tower0 := { s.tower0 with csr := [(csrAtctl, 0x20)] } }
    world.Issues (.lds f) f ∧ world.wave.drains ((cx .lds f world).uniOff.map fun p => (vaOf 0 p.2).toNat) 4 = false ∧
    n.Issues (.stb g) g ∧ (cx .stb g n).m = 0 ∧ (n.tower 0).slotsOf 5 ≠ 0 ∧ lanes8.Issues (.stb g) g ∧ (lanes8.tower 0).slotsOf 5 = 0 ∧
    ok ((cx .stb g lanes8).access { spaces := [3], wr := true } 4 4 (cx .stb g lanes8).laneOffs) (fun _ => true) = true ∧
    (cx .stb g lanes8).dataBad g.a 1 (mtAccept 2) = false ∧ d.Issues (.ldb h) h ∧
    (d.tower 0).grants 5 5 kindWave true false false 40 44 = false ∧ d.wave.pendTrap = none := by
  simp only [State.Issues]; decide
/-- Ranges without a malformed walk, with two lines that PIN may pin; the words of the handle table at their edges. -/
theorem witness_range_pages : ∀ k ∈ ([.cinv, .cwb, .pin, .unpin] : List (Fields → Instr)), let f := w 0 (.v 0) (.s 16) (.s 24) h0 0
    let s := withS [(16, 128)] world
    ok (cx k f s).range (fun r => ok (r.2.2.2.rangePages r.1 r.2.1 r.2.2.1) (fun _ => true) &&
      decide ((s.rangeLines r.1 r.2.1 r.2.2.1).length = 2)) = true := by decide
theorem witness_handle_edges : let f (h : Nat) := w 0 (.v 0) (.v 0) (.v 0) h0 h
    let g (h : Nat) := w 1 (.s 8) (.v 0) (.v 0) hT h
    let n : State := { world with wave := { world.wave with em := 0 } }
    let r : State := { world with group := { world.group with trs := [(3, world.makeTr 0 (world.tableEntry 5 0))] } }
    n.Issues (.hset (f 0)) (f 0) ∧ (cx .hset (f 0) n).m = 0 ∧ world.Issues (.hset (f 63)) (f 63) ∧
    hValid (world.tableEntry 5 63) = false ∧ r.Issues (.hget (g 0)) (g 0) ∧ mbits (g 0) 0 0 = 1 ∧
    (r.group.trFind 0).isSome = true ∧ world.Issues (.hget (g 2)) (g 2) ∧ world.group.trFind 2 = none ∧
    (world.makeTr 0 (world.tableEntry 5 0)).base < 2 ^ 64 ∧ (world.makeTr 2 (world.tableEntry 5 2)).ext < 2 ^ 64 := by
  simp only [State.Issues]; decide
/-- A barrier whose last arrival comes while another wave of the unit waits; misaligned, beyond the space, full, pending. -/
theorem witness_barrier_edges : let f (k : Nat) := w 0 (.v 0) (.v 16) (.s 24) h0 k
    let g := w 0 (.s 8) (.s 16) (.s 24) hO 0
    let s (o : Word) (n : Byte) := withS [(24, o)] (withLocal [(0xFF8, 2), (0xFFA, n)] world)
    let v : Wave := { Wave.empty with job := 5, gid := 1, idx := 1, alive := true, arrival := .pending 0xFF8, wait := .barrier 0xFF8 (.s 9) }
    let t : State := { s 0xFF8 1 with waves := [v] }
    t.Issues (.bar g) g ∧ (t.groupOf v).unit = t.group.unit ∧ (s 0xFF4 1).Issues (.bararv (f 0)) (f 0) ∧ (cx .bar g (s 0xFF4 1)).off 0 = 0xFF4 ∧
    (cx .bar g (s 0x1000 1)).off 0 = 0x1000 ∧ Mem.readNat ((s 0xFF8 2).localMem 7) 0xFF8 8 / 2 ^ 16 % 2 ^ 16 = 2 ∧ t.wave.arrival = .none ∧
    t.wave.wait = .none := by
  simp only [State.Issues]; decide
/-- A lock of the wave's own whose HEAD names a waiter, and one whose HEAD names none. -/
theorem witness_lock_waiters : let g := w 1 (.v 0) (.v 0) (.s 24) h0 0
    let v : Wave := { Wave.empty with job := 5, gid := 1, idx := 1, alive := true, wait := .lock 0x100000 0x100000 none }
    let m : List Host.Cell := [(0x100000, 0x10), (0x100003, 0x80), (0x100004, 1), (0x100008, 0x11), (0x10000B, 0x80), (0x10000C, 0x11), (0x10000F, 0x80)]
    let s (ws : List Wave) : State := { withMem m world with waves := ws }
    (∀ ws ∈ [[v], []], (s ws).Issues (.qunlock g) g ∧ Mem.readNat (s ws).mem 0x100000 4 = (s ws).wave.tag.toNat ∧ Mem.readNat (s ws).mem 0x100008 4 ≠ 0) ∧
    (s [v]).waiter .lock 0x100000 0x80000011 = some v ∧ (s []).waiter .lock 0x100000 0x80000011 = none ∧ v.key ≠ world.wave.key ∧
    ((s [v]).allWaves.map Wave.key).Nodup ∧ world.wave.alive = true ∧ v.pendTrap = none ∧ v.jctl.getLsbD 6 = false ∧
    (((s []).tower 0).recs.filter fun r => r.job = 5).length < 32 := by
  simp only [State.Issues]; decide
/-- Queue words without an item, and with more items than the queue's capacity. -/
theorem witness_queue_edges : ∀ p ∈ ([(.qpush, .v 0, hE), (.qpop, .v 0, hO), (.qtry, .p 3, hT)] : List ((Fields → Instr) × Opnd × Hint)),
    let f := w 0 (.v 8) p.2.1 (.s 24) p.2.2 0
    let n : State := { queue 2 with wave := { (queue 2).wave with em := 0 } }
    let one := withMem [(0x100001, 0x10), (0x100002, 0x10), (0x100008, 1)] world
    n.Issues (p.1 f) f ∧ qLanes f.d n.wave.em = [] ∧ one.Issues (p.1 f) f ∧ Mem.readNat one.mem 0x100008 4 < (qLanes f.d one.wave.em).length := by
  simp only [State.Issues]; decide
/-- A BCAST of four elements whose queues have room, as its command runs. -/
theorem witness_bcast_runs : let s := shaped 2 12
    let sh : BitVec 512 := BitVec.ofNat 512 (Mem.readNat s.mem 0x100040 64)
    let c : EngCmd := ⟨1, .bc, .bcast true false 0x20 sh [12] false 0, 0, none, none, none, false, [], 0, 0, 0⟩
    let t : State := { s with wave := { s.wave with cmds := [c] } }
    c.next = 0 ∧ t.link.down = false ∧ (0x20 + shCount sh * shSize sh + 31) / 32 - 0x20 / 32 = 1 ∧ (t.tower 0).queued 5 + 1 ≤ 64 ∧
    (∀ n < shCount sh, (boxOff sh [12] n).isSome = true ∧ ok (t.engAt .bc false (t.shVa sh (0x200 + 48 + 4 * n)) 4) (fun _ => true) = true) ∧
    (∀ b < 16, (t.tower 0).grants 5 5 (kindEng .bc) false true false (0x20 + b) (0x21 + b) = true) ∧
    t.cpybStop 0 sh [12] 1 ([0, 1, 2].map (1 + ·)) = none := by decide
/-- A handle of global space without open rows for MZLD; an error of another class. -/
theorem witness_rows_drain : let f := w 0 (.z 1) (.s 16) (.v 24) h0 0
    let s := withS [(16, 32)] world
    ok ((cx .mzld f s).tileCheck { spaces := [1, 2], rd := true }) (fun r =>
      !s.wave.drains ((rowElems r.2.1).map fun p => (vaOf r.1 p.2).toNat) 4 &&
        ok (r.2.2.plan r.1 ⟨.read, true, false, false, true, kindWave⟩ 4 (rowElems r.2.1)) fun q => q.missing.isEmpty && q.denied.isEmpty) = true := by
  decide
/-- The SCAN of a block whose accesses are mapped ends; one at an address without a page stops there. -/
theorem witness_scan_ends : let f := w 0 (.s 8) (.v 0) (.s 24) hT 0
    let c (s : State) : BitVec 1024 := BitVec.ofNat 1024 (Mem.readNat s.mem 0x100000 128)
    let go (s : State) := scanGo (s.entry 0) (scStages (c s)) s.fed ⟨c s, f.d, 1, [], [], 0, none, s.wave.pairStart⟩
    (go scanned).2.2.isNone = true ∧ scanned.wave.cmds = [] ∧
    ok ((cx .scan f scanned).scanAccess (c scanned)) (fun p => p.missing.isEmpty && p.denied.isEmpty) = true := by decide

/-- Records that the dispatcher refuses: a launch of no tile, and a task of no register. -/
theorem witness_refused : let f := w 0 (.v 0) (.v 0) (.s 24) hO 0
    let bad (r : Sub) (z : State) : Bool := (match r with | .bad => true | _ => false) && decide (z.tower0 = world.tower0 ∧ z.tower1 = world.tower1)
    world.Issues (.lnch f) f ∧ world.Issues (.taskq f) f ∧ world.entryFor world.group world.wave = true ∧
    (∃ e y g z, (cx .lnch f world).recordAt needRw 128 128 = .ok (e, y) ∧ y.recordHit e accRw 128 = .ok (g, z) ∧
      bad (((z.s.revive g.hit).release (some .dv)).submitLaunch 5 0 g.va g.hit.dpa 0 (some (1, 7)) 0) z.s = true) ∧
    (∃ e y g z, (cx .taskq f world).recordAt needRw 64 64 = .ok (e, y) ∧ y.recordHit e accRw 64 = .ok (g, z) ∧
      bad (((z.s.revive g.hit).release (some .dv)).submitTask 5 0 g.va g.hit.dpa 0 (some (1, 7)) 0) z.s = true) :=
  ⟨by simp only [State.Issues]; decide, by simp only [State.Issues]; decide, by decide,
    record_ex (fun z g => (match ((z.s.revive g.hit).release (some .dv)).submitLaunch 5 0 g.va g.hit.dpa 0 (some (1, 7)) 0 with
      | .bad => true | _ => false) && decide (z.s.tower0 = world.tower0 ∧ z.s.tower1 = world.tower1)) (by decide),
    record_ex (fun z g => (match ((z.s.revive g.hit).release (some .dv)).submitTask 5 0 g.va g.hit.dpa 0 (some (1, 7)) 0 with
      | .bad => true | _ => false) && decide (z.s.tower0 = world.tower0 ∧ z.s.tower1 = world.tower1)) (by decide)⟩
/-- FETCHW of a group that is not persistent, of a mailbox misaligned or beyond the space, while a request is pending,
and of a gang's record, one never submitted, and one of another job. -/
def persistent (mb : Word) (m : List Host.Cell) : State :=
  { withS [(16, mb)] (withMem m world) with group := { world.group with task := (40 <<< 256) + (1 <<< 281) } }
theorem witness_fetchw_edges : let f := w 0 (.v 0) (.s 16) (.s 24) hO 0
    world.Issues (.fetchw f) f ∧ taskBits world.group.task 35 1 1 = 0 ∧ (persistent 0xFE1 []).Issues (.fetchw f) f := by
  simp only [State.Issues]; decide
theorem witness_fetchw_group : taskBits (persistent 0 []).group.task 35 1 1 = 1 ∧ (persistent 0 []).group.localSize = 0x1000 ∧
    (persistent 0 []).wave.live ≠ 0 ∧ (persistent 0 []).group.kill = false := by decide
theorem witness_fetchw_records : lnGang (launch3.image ||| (1 <<< 220)) = true ∧ bits ((persistent 0 []).read64 0x100078) 59 56 = 0 ∧
    Mem.readNat (persistent 0 [(0x10001C, 6)]).mem 0x10001C 2 = 6 ∧ (persistent 0 []).liveDpa 0x100000 = none := by decide
theorem witness_fetchw_pending : let f := w 0 (.v 0) (.s 16) (.s 24) hO 0
    let p : State := { persistent 0xFE0 [] with group := { (persistent 0xFE0 []).group with fetch := some ⟨0x100000, 0, true, none⟩ } }
    let l : State := { persistent 0xFE0 [] with launches := [{ launch3 with job := 6 }] }
    p.Issues (.fetchw f) f ∧ (persistent 0x1000 []).Issues (.fetchw f) f ∧ (l.liveDpa 0x100000).map Launch.job = some 6 := by
  simp only [State.Issues]; decide
/-- CANCEL of a record at an odd place, of another job's, of one that has ended or retired, and of another job without PRIV. -/
theorem witness_cancel_edges : let f (lv : Nat) := w lv (.v 0) (.sp .nil) (.s 24) h0 0
    let s (off : Word) (m : List Host.Cell) : State := withS [(24, off)] (withMem m world)
    (s 120 []).Issues (.cancel (f 1)) (f 1) ∧ (0x100078 - 112 : DWord).toNat % 128 ≠ 0 ∧ ({ s 112 [] with launches := [{ launch3 with job := 6 }] } : State).Issues (.cancel (f 1)) (f 1) ∧
    (s 112 [(0x10007F, 5)]).Issues (.cancel (f 1)) (f 1) ∧ bits ((s 112 [(0x10007F, 5)]).read64 0x100078) 63 56 = 5 ∧
    bits ((s 112 [(0x10007F, 6)]).read64 0x100078) 63 56 = 6 ∧ (s 112 []).liveDpa 0x100000 = none ∧
    (s 8 [(0x100020, 5), (0x100022, 5)]).recRetired 0x100000 = true ∧ (s 8 [(0x100020, 1), (0x100022, 6)]).recKind 0x100000 = 1 ∧
    Mem.readNat (s 8 [(0x100020, 3), (0x100022, 6)]).mem 0x100022 2 % 2 ^ 12 = 6 ∧ (s 8 [(0x100020, 3), (0x100022, 6)]).recKind 0x100000 = 3 ∧
    ({ s 8 [] with wave := { (s 8 []).wave with jctl := 0 } } : State).Issues (.cancel (f 4)) (f 4) ∧ (0x100008 - 8 : DWord).toNat % 64 = 0 := by
  simp only [State.Issues]; decide
/-- Launches and graphs below a graph and a phase; a launch without a request. -/
theorem witness_cancel_below : let s : State := { withMem [(0x100020, 2), (0x100022, 5)] world with
      launches := [{ launch3 with graphAt := 0x100040 }]
      levels := [⟨5, 0x100040, 1, 0x100000, true, false, 0, 0x100040⟩] }
    (s.launches.map fun l => (l.job, l.graphAt, l.req)) = [(5, 0x100040, false)] ∧ (s.levels.map fun q => (q.job, q.kind, q.up)) = [(5, 1, 0x100000)] ∧
    ((s.findLaunch 3).map Launch.req) = some false ∧ s.recKind 0x100000 = 2 ∧ s.recRetired 0x100000 = false := by decide
/-- Words without a lane: SMPRD, EYEBOR and TRIRAS. -/
theorem witness_no_lane : let n : State := { withS [(24, 1)] world with wave := { (withS [(24, 1)] world).wave with em := 0 } }
    let h := w 0 (.v 8) (.s 16) (.s 24) hT 3
    let k := w 0 (.v 8) (.s 16) (.s 24) hT 0x43
    let f := w 0 (.v 8) (.v 16) (.s 24) hT 0
    n.Issues (.smprd h) h ∧ (cx .smprd h n).m = 0 ∧ n.Issues (.eyebor k) k ∧ (cx .eyebor k n).m = 0 ∧ n.Issues (.triras f) f ∧ (cx .triras f n).m = 0 ∧
    ((cx .triras f n).uni f.b).toNat = 1 := by
  simp only [State.Issues]; decide
/-- Bands that are off, that have room, and that hold all their 131,072 records, each of which goes before the new one. -/
def bandTower (n : Nat) : Tower := { Tower.reset with csr := [(csrDmkctl, 1)], damask := (List.range n).map fun k => (dmkKey 0 k, 0) }
theorem bandTower_on (n : Nat) : (bandTower n).bandOn 0 = true := by
  have h : ({ Tower.reset with csr := [(csrDmkctl, 1)] } : Tower).bandOn 0 = true := by decide
  exact h
theorem bandTower_all (n : Nat) (h : n ≤ 131072) : ((bandTower n).damask.filter fun e => e.1 / 131072 = 0) = (bandTower n).damask := by
  apply List.filter_eq_self.2
  intro a ha
  obtain ⟨k, hk, rfl⟩ := List.mem_map.1 ha
  have := List.mem_range.1 hk
  exact decide_eq_true (show (131072 * 0 + k) / 131072 = 0 by omega)
theorem bandTower_records (n : Nat) (h : n ≤ 131072) : (bandTower n).band 0 = (bandTower n).damask.map fun e => (e.1 % 131072, e.2) := by
  rw [Tower.band, if_pos (bandTower_on n), bandTower_all n h]
theorem bandTower_length (n : Nat) (h : n ≤ 131072) : ((bandTower n).band 0).length = n := by
  rw [bandTower_records n h, List.length_map, bandTower, List.length_map, List.length_range]
theorem bandTower_first (n : Nat) (h : n ≤ 131072) (h0 : 0 < n) : (0, 0) ∈ (bandTower n).band 0 := by
  rw [bandTower_records n h]
  exact List.mem_map.2 ⟨(dmkKey 0 0, 0), List.mem_map.2 ⟨0, List.mem_range.2 h0, rfl⟩, rfl⟩
theorem witness_bands : Tower.reset.bandOn 0 = false ∧ (bandTower 0).bandOn 0 = true ∧ smBand 0 = 0 ∧
    ∃ t : Tower, t.bandOn 0 = true ∧ 131072 ≤ (t.band 0).length ∧ ∃ q ∈ t.band 0, evictsFirst (smTs 0) q (131072, 0) = true :=
  ⟨by decide, by decide, by decide, bandTower 131072, bandTower_on _, Nat.le_of_eq (bandTower_length _ (Nat.le_refl _)).symm, (0, 0),
    bandTower_first _ (Nat.le_refl _) (by omega), by decide⟩
/-- Slots that the host deals; a release that queued sectors hold up; LAYERPS during a power change, of a layer on
its way, and one that would leave no layer awake. -/
theorem witness_slot_edges : let f := w 0 (.s 8) (.s 16) (.s 24) hE 0
    let g (m : Nat) := w m (.s 8) (.s 16) (.v 0) hE 0
    let s := withSlots (withS [(16, 5), (24, 2)] world)
    let h : State := { s with tower0 := { s.tower0 with csr := [(csrFnmode, 0x20)] } }
    let q : State := { s with tower0 := { s.tower0 with sectors := [⟨5, 0, [(3, 9)], false, ⟨5, 1, 0⟩, 1, 0, [], none⟩] } }
    let p : State := { withS [(16, 1)] world with powerNow := some 1 }
    let b : State := { withS [(16, 1)] world with tower0 := { world.tower0 with layers := ⟨.awake, some .doze, none⟩ :: List.replicate 7 ⟨.awake, none, none⟩ } }
    (∀ k ∈ ([.slotreq, .slotrel] : List (Fields → Instr)), h.Issues (k f) f) ∧ (h.tower 0).hostFn 5 = true ∧ ((h.tower 0).recs.filter fun r => r.job = 5).length < 32 ∧
    q.Issues (.slotrel f) f ∧ (q.tower 0).hostFn 5 = false ∧ (q.tower 0).slotsOf 5 = 2 ∧ (q.tower 0).queued 5 = 1 ∧
    p.Issues (.layerps (g 1)) (g 1) ∧ p.powerNow ≠ none ∧ b.Issues (.layerps (g 1)) (g 1) ∧ b.powerNow = none ∧ b.tower0.busy 0 = true ∧
    (∀ l < 8, if (255 : Nat).testBit l then layerStOf (mbits (g 1) 1 0) ≠ .awake else world.tower0.awake l = false) ∧ maskLayers 1 = [0] ∧
    q.wave.live ≠ 0 ∧ q.group.kill = false := by
  simp only [State.Issues]; decide
/-- WAKEW without PRIV in another job; an abort of a parked wave of another group. -/
theorem witness_wake_edges : let f (m : Nat) := w m (.s 8) (.s 16) (.s 24) hE 0
    let s := withS [(16, 6), (24, 0x80000011)] { world with wave := { world.wave with jctl := 0 } }
    let v : Wave := { Wave.empty with job := 5, gid := 2, idx := 1, alive := true, wait := .parked .pagenp 0 }
    let t : State := { withS [(16, 5), (24, 0x80000021)] world with waves := [v], groups := [{ Group.empty with job := 5, gid := 2, unit := 9, ended := false }] }
    s.Issues (.wakew (f 0)) (f 0) ∧ s.wave.jctl.getLsbD 0 = false ∧ (cx .wakew (f 0) s).jobArg ≠ s.group.job ∧ t.Issues (.wakew (f 2)) (f 2) ∧
    t.tagged 5 0x80000021 = some v ∧ v.parkedOn ≠ none ∧ v.key ≠ t.wave.key ∧ t.wave.alive = true ∧ t.wave.inGroup t.group.key = true ∧
    t.group.key ≠ ⟨5, 2⟩ ∧ (t.waves.all fun v => decide (v.key ≠ t.wave.key)) = true := by
  simp only [State.Issues]; decide

/-- A wave with a row segment; one whose count has come to 1 below the limit; a hit that a write left. -/
theorem witness_wave_steps : let s := idle .none
    let t : State := { s with wave := { s.wave with tokens := 2, segs := [⟨1, 0, .s 8, [(0, 0)]⟩] } }
    let c : State := { idle (.counter 0x100000 0 (-1) none false) with ctrHits := [s.wave.key] }
    t.wave.tokens.getLsbD 1 = true ∧ t.wave.scan = none ∧ t.wave.pendTrap = none ∧ (t.tower 0).segWaits ⟨1, 0, .s 8, [(0, 0)]⟩ = false ∧
    s.watched s.wave = true ∧ s.wave.dogCount < 2 ^ 24 ∧ s.wave.gone = false ∧ s.wave.key ∈ c.ctrHits ∧
    ((s.allWaves.filter fun v => v.key = s.wave.key).map fun v => decide (v = s.wave)) = [true] := by decide
/-- Waves that one port may take: aged, yielded, and plain. -/
theorem witness_choice : let v (n : Nat) (y : Bool) (p : Nat) : Wave × Group := ({ Wave.empty with idx := n, slot := n, yielded := y, passes := p }, Group.empty)
    ((chooseWave [] [v 0 true 0, v 1 false 0, v 2 false 0]).map fun c => c.1.idx) = some 1 ∧
    (v 3 true (2 ^ 30)).1.aged = true ∧ (v 0 true 0).1.aged = false ∧ ((chooseWave [] [v 1 false 0, v 3 true (2 ^ 30)]).map fun c => c.1.idx) = some 3 := by decide
/-- A held unit that no core can hold, alone and naming a live launch. -/
theorem witness_unplaceable : let u (va : Nat) : WorkUnit := { unit7 .held with launch := none, tasks := [BitVec.ofNat 512 (0x3FF * 2 ^ 256 + va * 2 ^ 320)] }
    let s (va : Nat) : State := { idle .none with launches := [launch3], units := [u va] }
    (u 0).placeable = false ∧ (s 0).unitReq (u 0) = false ∧ (s 0).lookMiss (u 0) = none ∧ (s 0).namedLaunch (u 0) = none ∧
    ((s 0x100000).namedLaunch (u 0x100000)).map Launch.id = some 3 ∧ (s 0x100000).lookMiss (u 0x100000) = none ∧
    ((s 0).dealOk 0 (.unit (u 0))) = true := by decide
/-- An empty cluster beside one with a unit that fits; an empty layer beside one with three units. -/
theorem witness_moves : let s := queued (.queued 0 (some 1))
    let u (n : Nat) : WorkUnit := { unit7 (.queued 1 none) with id := n, lin := n, layer := 1 }
    let d : State := { idle .none with launches := [launch3], units := [u 1, u 2, u 3] }
    s.clusterQueue 0 0 0 = [] ∧ ((s.clusterQueue 0 0 1).filter fun u => (s.fit u 0 0 0).isSome).length = 1 ∧
    (d.tower 0).awake 0 = true ∧ d.layerQueue 0 0 = [] ∧ (d.queuedOn 0 1).length = 3 ∧
    ((d.queuedOn 0 1).all fun u => (d.coreRoom ⟨0, 0, d.bestCore 0 0⟩).covers (taskRoom u.task) && decide (d.poolUsed 0 + u.reservation ≤ (d.tower 0).pool)) = true := by decide
/-- A saved group whose image is poisoned, and one whose image holds a reserved byte. -/
theorem witness_images : let s := queued .placed
    let g (c : Option (Cause × DWord)) (im : List Host.Cell) : Group := { s.group with resident := false, imgBad := c, image := some im }
    (g (some (.eccsram, 0)) []).imgBad = some (.eccsram, 0) ∧ (g none []).imgBad = none ∧ imageBad ((g none []).image.getD []) = false ∧
    imageBad ((g none [(0x5F, 1)]).image.getD []) = true ∧ (unit7 .placed).st.holds = true := by decide
/-- A counter, a successor block and a level above 1, at 1, and at 0; a launch of one tile and of two; a job at each. -/
def lined (m : List Host.Cell) : State := { withMem m (idle .none) with launches := [launch3, { launch3 with id := 4, image := launch3.image ||| (2 <<< 128) }] }
theorem witness_retirement : (∀ n ∈ [(true, 8), (true, 16), (true, 64)], ∀ c ∈ ([[], [(0x100000, 1)], [(0x100000, 2)]] : List (List Host.Cell)),
      (match (lined c).hwAt 5 0 n.1 n.2 0x100000 with | .at_ h => decide (h.dpa = 0x100000) && !h.disc | _ => false) = true) ∧
    (lined []).counterAt 0x100000 = 0 ∧ (lined [(0x100000, 2)]).counterAt 0x100000 = 2 ∧ (lined [(0x100000, 1), (0x100008, 7)]).read64 0x100008 = 7 ∧
    lnTiles launch3.image = 1 ∧ (((lined []).findLaunch 4).map fun l => (l.retired, lnTiles l.image)) = some (0, 3) ∧
    ((lined []).findJob 5).map Job.recAt = some 0x20000 ∧ (lined []).counterAt 0x20000 = 0 ∧ (lined []).link.down = false ∧
    (((lined []).tower 0).recs.filter fun r => r.job = 5).length < 31 := by decide

/-- Changes too deep, beyond the rate, of an open trigger, and of a submission range. -/
theorem witness_change_edges : let r : Trigger := ⟨0, 5, 1, 0, 1, 1, 1, true, false, none⟩
    let d := changed 1 2 []
    let z := changed 0 1 []
    let o := changed 1 1 [r]
    let e : WatchEntry := ⟨setField (entry1 1) 128 64 0, [0x100000]⟩
    (∀ s ∈ [d, z, o], ((s.tower 0).watch 5 1).isSome = true) ∧ wDmax ⟨entry1 1, []⟩ < 2 ∧ wRate ⟨entry1 0, []⟩ ≤ (z.tower 0).rated 5 1 ∧
    (o.tower 0).triggers.find? (fun r => r.isOpen && r.job = 5 && r.entry = 1 && r.line = 0) = some r ∧ wLive e = true ∧ wEntry e = 0 ∧
    (o.tower 0).triggers.length < 512 := by decide
/-- A launch record in a slot, and a KIND that is none. -/
theorem witness_slot_kinds : let tr (b : Bool) : Trigger := ⟨0, 5, 1, 0, 1, 1, 1, false, false, some (b, if b then 64 else 0x101000, 0)⟩
    let s (b : Bool) (k : Byte) : State := { withMem (recorded.mem.drop cells.length ++ if b then [] else [(0x101002, 0x10), (0x101008, k)]) (idle .none) with
      tower0 := { (idle .none).tower0 with triggers := [tr b], bcast := if b then [(66, 0x10), (72, k)] else [] } }
    (∀ b ∈ [true, false], ∀ k ∈ ([2, 3] : List Byte), (s b k).slotRead 0 (b, if b then 64 else 0x101000, 0) 8 1 = k.toNat ∧
      (s b k).slotRead 0 (b, if b then 64 else 0x101000, 0) 0 8 = 0x100000) ∧
    (match (s true 2).hwAt 5 0 true 128 0x100000 with
      | .at_ h => decide (h.dpa = 0x100000) && subOk (((s true 2).revive h).submitLaunch 5 0 0x100000 h.dpa 0 none 3) fun u => decide (u.launches.length = 1)
      | _ => false) = true := by decide
/-- The display on with a guard: a DSP unit that fits nowhere, a running one that may be pre-empted, and both late. -/
def guarded : State :=
  let s := queued .running
  let big (n : Nat) : WorkUnit := { unit7 .running with id := n, tasks := [BitVec.ofNat 512 (0x3FF * 2 ^ 256)], placed := n }
  { s with
    launches := []
    units := [big 7, { unit7 (.queued 0 none) with id := 8, launch := none, tasks := [BitVec.ofNat 512 (0x3FF * 2 ^ 256 + 3 * 2 ^ 272)] }]
    group := { s.group with stop := true, stopAt := some 0, task := BitVec.ofNat 512 (40 * 2 ^ 256 + 2 ^ 272) }
    tower0 := { s.tower0 with csr := [(csrDspctl, 0x501)], now := 1001 } }
theorem witness_guard : (guarded.tower 0).dspOn = true ∧ bits ((guarded.tower 0).reg csrDspguard) 11 0 = 60 ∧
    ((guarded.units.filter fun u => u.waitsDsp 0).map WorkUnit.id) = [8] ∧ (guarded.victims 0).map WorkUnit.id = [7] ∧
    (((guarded.units.filter fun u => u.waitsDsp 0).filter fun u => (guarded.somewhere 0 u).isNone).length) = 1 ∧ (guarded.tower 0).hostFn 4 = false ∧
    ({ guarded.tower 0 with csr := [(csrDspguard, 0)] } : Tower).reg csrDspguard = 0 ∧
    ({ guarded.tower 0 with csr := [(csrFnmode, 0x10)] } : Tower).hostFn 4 = true := by decide
theorem witness_tardy : guarded.group.stop = true ∧ guarded.group.ended = false ∧ (∃ d, guarded.group.stopAt = some d ∧ d + 1000 < (guarded.tower 0).now) ∧
    ((guarded.findUnit 8).map fun u => u.waitsDsp 0) = some true ∧ ((guarded.tower 0).recs.filter fun r => r.job = 5).length < 32 ∧
    (guarded.tower 0).bandAfter 0 = 1 ∧ (guarded.allGroups.any fun g => decide (g.tower = 0) && g.stop) = true :=
  ⟨by decide, by decide, ⟨0, by decide, by decide⟩, by decide, by decide, by decide, by decide⟩
/-- Sectors that write a watch entry, or clear one; layers on each way; a power change without a busy layer, and a GO. -/
theorem witness_power_edges : let y (a : LayerSt) (b : Option LayerSt) : Tower := { Tower.reset with layers := ⟨a, b, none⟩ :: List.replicate 7 ⟨.awake, none, none⟩ }
    let s (a : LayerSt) (b : Option LayerSt) : State := { State.reset with tower0 := y a b }
    let p : State := { State.reset with powerNow := some 1, clockStop := true, clkGoal := 210 }
    ((s .awake (some .doze)).tower 0).layer 0 = ⟨.awake, some .doze, none⟩ ∧ (s .awake (some .doze)).units = [] ∧
    ((s .doze (some .off)).tower 0).layer 0 = ⟨.doze, some .off, none⟩ ∧ (s .doze (some .off)).poolUsed 0 ≤ ((s .doze (some .off)).tower 0).pool ∧
    p.powerNow = some 1 ∧ p.powerNext = [] ∧ p.anyBusy = false ∧ State.reset.clkNow = 210 ∧ State.reset.powerNow = none ∧
    (∀ l < 8, State.reset.tower0.busy l = false ∧ (State.reset.tower0.layer l).st = .awake) ∧ modeLayers 2 = 8 ∧ modeClk 2 = 210 ∧
    modeLayers 0 = 1 ∧ State.reset.tower0.layers.length = 8 ∧ p.clkGoal % 2 ^ 11 = 210 := by decide
theorem witness_sector_watch : let q (e : Option WatchEntry) : Sector := ⟨5, 0x20000, [], false, ⟨5, 1, 0⟩, 1, 0, [], some (1, e)⟩
    let s (e : Option WatchEntry) : State := withSlots { idle .none with tower0 := { (idle .none).tower0 with
      sectors := [q e]
      frames := [(0, 5)]
      watches := [(321, ⟨entry1 1, [0x100000]⟩)] } }
    (∀ e ∈ [none, some (⟨entry1 2, [0x100000]⟩ : WatchEntry)], ((s e).tower 0).sectors.find? (fun q => q.job = 5) = some (q e) ∧
      ((s e).tower 0).slotsOf 5 ≠ 0 ∧ ((s e).tower 0).rejoin = [] ∧ ((s e).tower 0).frameOf 5 = some 0) := by decide
/-- Host accesses during a retraining and with the link down; a report under way; abort of a parked wave; the image of tower 1. -/
theorem witness_host_edges : let s (r d : Bool) : State := { idle .none with link := ⟨r, 0, d⟩ }
    let a : State := { idle .none with tower0 := { (idle .none).tower0 with att := some (0x100100, [1]) } }
    let p : State := { idle (.parked .pagenp 0) with tower0 := { (idle .none).tower0 with hostWin := [(0x4000, 3), (0x4010, 5), (0x4014, 0x80000010)] } }
    (s true false).hostWaits 0 0x10000000000 = true ∧ (s false true).hostWaits 0 0x10000000000 = false ∧ (s false true).hostCut 0 0x10000000000 = true ∧
    (a.tower 0).att = some (0x100100, [1]) ∧ (idle .none).tower0.att = none ∧ p.wave.parkedOn ≠ none ∧
    (p.tagged ((p.tower 0).win 0x4010).toNat ((p.tower 0).win 0x4014)) = some p.wave ∧ p.wave.isParked = true ∧ (idle .none).wave.parkedOn = none := by
  decide
/-- Lantern registers that are bad; a sweep with weights; a line due; ARM; an error in a saved image. -/
theorem witness_display_edges : let t : Tower := { Tower.reset with csr := [(csrDspctl, 0x501)] }
    let s : State := { idle .none with groups := [{ Group.empty with job := 5, gid := 2, resident := false, image := some [] }] }
    t.dspOn = true ∧ t.dspRp ≠ 0 ∧ t.panelLock = true ∧ (5 : Word).getLsbD 0 = true ∧ (s.allGroups.any fun g => decide (g.key = ⟨5, 2⟩) && !g.resident) = true ∧
    dpaOk 0x100000 = true ∧ s.emitRoom 0 0 = true ∧ s.wave.inRun = false ∧ world.wave.inRun = true ∧ world.wave.live ≠ 0 := by decide
/-- A clock step under way, with a turn waiting and without. -/
theorem witness_clock_step : let s : State := { State.reset with clockStop := true }
    s.clockStop = true ∧ s.inbox = [] ∧ s.turns = [] ∧ ({ s with turns := [s.wave.key] }.focusOn s.wave.key).clockStop = true := by decide

/-! ### Links, waiters, discarded pages and float values -/

/-- Operands of every kind in F32 and F16: finite, infinite, NaN and zero; those of FDOT2. -/
theorem witness_float_kinds : Fmt.f32.isFin 0xBF800000 ∧ ¬Fmt.f32.isFin 0x7F800000 ∧ Fmt.f32.isInf 0xFF800000 ∧ Fmt.f32.isNan 0x7F800001 ∧
    ¬Fmt.f32.isNan 0x7F800000 ∧ Fmt.f32.mag 0x80000000 = 0 ∧ Fmt.f32.mag 1 ≠ 0 ∧ Fmt.f32.neg 0x80000000 = true ∧ Fmt.f16.isInf 0x7C00 ∧
    Fmt.f16.isFin 0x8000 ∧ Fmt.f16.mag 0x8000 = 0 ∧ Fmt.f16.isNan 0xFC01 ∧ Fmt.bf16.isFin 0x7F7F ∧ Fmt.f64.isFin 0x7FEFFFFFFFFFFFFF := by
  simp only [Fmt.isFin, Fmt.isInf, Fmt.isNan]; decide
/-- Magnitudes that overflow in each mode, that are tiny, and that are neither, in E4M3 and F32. -/
theorem witness_rounding_edges : let f := Fmt.f32
    let v (n : Nat) : Nat := n * f.one
    let m : Nat := (2 ^ 25 - 1) * 2 ^ 103
    f.mag f.max + f.mag f.top = 2 * v m ∧ f.max % 2 = 1 ∧ f.mag f.max < v m ∧ v m < f.mag f.top ∧ f.mag f.top ≤ v (2 ^ 128) ∧
    4 * v 1 + 2 ^ 127 < 4 * (f.mag (2 ^ f.fw) * 2 ^ 127) ∧ ¬4 * v 1 + 2 ^ 126 < 4 * (f.mag (2 ^ f.fw) * 2 ^ 126) ∧
    Fmt.e4m3.mag Fmt.e4m3.top ≤ 480 * Fmt.e4m3.one ∧ Fmt.e4m3.hasInf = false ∧ Fmt.e5m2.hasInf = true := by decide
/-- UNPIN under an empty mask; the table and the page of a handle's base reached, and beyond a link that is down or retrains. -/
theorem witness_handle_links : let f := w 0 (.v 0) (.v 0) (.v 0) h0 0
    let g := w 0 (.v 0) (.s 16) (.s 24) h0 0
    let k := w 0 (.s 8) (.v 0) (.v 0) hT 0
    let n : State := { world with wave := { world.wave with em := 0 } }
    let s (r d : Bool) : State := { world with jobs := [{ job5 with htab := 0x10000010000 }], link := ⟨r, 0, d⟩ }
    let p (r d : Bool) : State := { world with
      jobs := [{ job5 with ptroot := 0x10000004000 }]
      link := ⟨r, 0, d⟩ }
    n.Issues (.unpin g) g ∧ (cx .unpin g n).m = 0 ∧
    world.Issues (.hset f) f ∧ (cx .hset f world).m ≠ 0 ∧ ok ((cx .hset f world).tableRead 0) (fun _ => true) = true ∧
    hValid (world.tableEntry 5 0) = true ∧ hSpace (world.tableEntry 5 0) = 1 ∧ hSpace (world.tableEntry 5 2) = 3 ∧ hValid (world.tableEntry 5 2) = true ∧
    hValid (world.tableEntry 5 63) = false ∧
    ok ((cx .hset f world).baseLink (world.tableEntry 5 0)) (fun _ => true) = true ∧ ok ((cx .hget k world).baseLink (world.tableEntry 5 0)) (fun _ => true) = true ∧
    (∀ r ∈ [true, false], (s r (!r)).Issues (.hset f) f ∧ dpaTower ((s r (!r)).entryAt 5 0) ≠ (s r (!r)).group.tower ∧ (s r (!r)).link.down = !r ∧
      (p r (!r)).Issues (.hset f) f ∧ (p r (!r)).walkFar 5 0 0x100000 = true ∧ ok ((cx .hset f (p r (!r))).tableRead 0) (fun _ => true) = true) := by
  simp only [State.Issues]; decide
theorem witness_xlat_links : let h := w 0 (.v 8) (.v 0) (.v 24) hT 0
    ok ((cx .xlat h lanes8).walkLink ((cx .xlat h lanes8).laneOffs.map fun p => (p.1, vaOf 0x100000 p.2))) (fun _ => true) = true := by decide
/-- F32 operands of atomics: infinities of both signs, a NaN, and zeros of both signs. -/
theorem witness_atomic_floats : Fmt.f32.isInf 0x7F800000 ∧ Fmt.f32.isInf 0xFF800000 ∧ Fmt.f32.neg 0xFF800000 = true ∧ Fmt.f32.isNan 0x7FC00000 ∧
    Fmt.f32.isFin 0x80000000 ∧ ¬Fmt.f32.isNan 0x80000000 ∧ atomNew 2 1 0 0x80000000 = 0x80000000 ∧ atomNew 2 3 0 0x80000000 = 0 := by
  simp only [Fmt.isFin, Fmt.isInf, Fmt.isNan]; decide
/-- An LD of bytes with no active lane, through a handle of no valid entry. -/
theorem witness_ld_none : let f := w 0 (.v 8) (.v 0) (.v 24) hT 63
    let n : State := { world with wave := { world.wave with em := 0 } }
    n.Issues (.ld f) f ∧ (∃ e y gs, (cx .ld f n).grants { spaces := [1], rd := true } ⟨.read, true, false, false, true, kindWave⟩ 1 1
      (cx .ld f n).laneOffs e y gs ∧ gs.isEmpty = true) ∧ (hDftag (BitVec.ofNat 256 (15 * 2 ^ 152))).toNat = 15 :=
  ⟨by simp only [State.Issues]; decide, grants_ex _ (by decide), by decide⟩
/-- A pop that waits for four items beside a push of two, of which two are queued and then serve it, and a push of two that
waits for room beside a pop of two. -/
def waiting (push : Bool) (n : Byte) : State :=
  let m : List Host.Cell := if push then [(0x100020, 0x11), (0x100023, 0x80), (0x100024, 0x11), (0x100027, 0x80), (0x10002C, 1)]
    else [(0x100018, 0x11), (0x10001B, 0x80), (0x10001C, 0x11), (0x10001F, 0x80), (0x100028, 1)]
  { withMem ([(0x100001, 0x10), (0x100002, 0x10), (0x100008, 4), (0x100014, n)] ++ m) world with
    waves := [{ Wave.empty with
      job := 5
      gid := 1
      idx := 1
      alive := true
      live := 0xFFFFFFFF
      wait := .queue 0x100000 0x100000 push (if push then 3 else 15) (.v 4) (if push then [7, 8] else []) none none }] }
theorem witness_queue_waiters : let f := w 0 (.v 8) (.v 0) (.s 24) hE 0
    let g := w 0 (.v 8) (.v 0) (.s 24) hO 0
    (∀ p ∈ ([(false, 2), (true, 4)] : List (Bool × Byte)), let s := waiting p.1 p.2
      s.Issues (.qpush f) f ∧ s.Issues (.qpop g) g ∧ (qLanes f.d s.wave.em).length = 2 ∧ (qLanes (.v 4) (if p.1 then 3 else 15)).length = (if p.1 then 2 else 4) ∧
      (s.waves.all fun v => decide (s.waiter (if p.1 then .pushes else .pops) 0x100000 0x80000011 = some v ∧ v.tag = 0x80000011 ∧ v.link = 0 ∧ v.pendTrap = none ∧
        v.jctl.getLsbD 6 = false)) = true ∧ (s.allWaves.map Wave.key).Nodup ∧ s.wave.alive = true ∧
      Mem.readNat s.mem (0x100000 + if p.1 then 32 else 24) 4 = 0x80000011 ∧ Mem.readNat s.mem (0x100000 + if p.1 then 24 else 32) 4 = 0 ∧
      Mem.readNat s.mem 0x100014 4 = p.2.toNat) ∧
    (∃ y z, (cx .qpush f (waiting false 2)).grantsOne needAt 64 64 accAt y z ∧ decide (y.hit.dpa = 0x100000 ∧ y.hit.disc = false) = true) ∧
    ∃ y z, (cx .qpop g (waiting true 4)).grantsOne needAt 64 64 accAt y z ∧ decide (y.hit.dpa = 0x100000 ∧ y.hit.disc = false) = true :=
  ⟨by simp only [State.Issues]; decide, grantsOne_ex _ (by decide), grantsOne_ex _ (by decide)⟩
theorem witness_queue_ring : ∀ p ∈ ([(false, 2), (true, 4)] : List (Bool × Byte)), ∀ w ∈ [true, false], ∀ j < 4, let s := waiting p.1 p.2
    ok (s.qSlot (s.qHome 0x100000) w (s.qAddr 0x100000 j)) (fun h => !h.disc && decide (0x100040 ≤ h.dpa)) = true := by decide
/-- A pop of two beside three pushes: it waits for the second push, the third waits for room. -/
theorem witness_queue_lists : let r (push : Bool) (n k : Nat) : QReq := ⟨some ⟨5, 1, k⟩, push, n, if push then List.replicate n 7 else [], 0, false, false, [], none⟩
    let q := QRun.serve 4 4 ⟨0, 0, [r false 3 0], [r true 2 1, r true 2 2, r true 4 3], [], []⟩
    (q.done.map fun d => d.1.key.map WaveKey.idx) = [some 1, some 2, some 0] ∧ q.pops.length = 0 ∧ q.pushes.length = 1 ∧ q.count = 1 := by decide
/-- Records that the hardware reaches, beside the link that is down. -/
theorem witness_level_links : world.link.down = false ∧ world.hwDeny 5 0 true 0x100020 1 = none ∧ dpaTower 0x100020 = 0 ∧
    ({ world with tower0 := { world.tower0 with csr := [(csrAtctl, 1)] } } : State).hwDeny 5 0 true 0x100020 1 = some 0 := by decide
/-- A lane of a GTHR that is off; a counter beyond a link that retrains. -/
theorem witness_command_links : laneOn 0x21 1 = false ∧ (let s : State := { world with
      jobs := [{ job5 with ptroot := 0x10000004000 }]
      link := ⟨true, 0, false⟩ }
    s.link.retraining = true ∧ s.walkFar s.group.job s.group.tower 0x100008 = true) ∧ world.walkFar 5 0 0x100008 = false := by decide
/-- A state with the page of 64 KiB at 0x100000 discarded (a table of L1 at 0x12000, one of L0 at 0x14000). -/
def discarded (s : State) : State :=
  { s with mem := [(0xC000, [1, 0x20, 1]), (0x12000, [1, 0x40, 1]), (0x14080, [0x1F, 0, 0x10])].foldl (fun m p => Mem.writeBytes m p.1 p.2) s.mem }
/-- FETCHW of a record on a discarded page, and CANCEL of launch and graph records there. -/
theorem witness_discarded_records : let f := w 0 (.v 0) (.s 16) (.s 24) hO 0
    let k (lv : Nat) := w lv (.v 0) (.sp .nil) (.s 24) h0 0
    let s := discarded (persistent 0xFE0 [(0x10007F, 5)])
    let c (off : Word) := discarded (withS [(24, off)] (withMem [(0x100020, 1), (0x100022, 5), (0x10007F, 7)] world))
    s.Issues (.fetchw f) f ∧ s.liveDpa 0x100000 = none ∧ (c 112).Issues (.cancel (k 1)) (k 1) ∧ (c 8).Issues (.cancel (k 2)) (k 2) ∧ (c 112).liveDpa 0x100000 = none ∧
    ok ((cx .fetchw f s).recordAt { spaces := [1], rd := true } 128 128) (fun p => ok (p.2.recordHit p.1 accRd 128) fun q => q.1.hit.disc) = true ∧
    ok ((cx .cancel (k 1) (c 112)).recordAt needRw 8 8) (fun p => ok (p.2.recordHit p.1 accRw 8) fun q => q.1.hit.disc && decide (q.1.hit.dpa = 0x100070)) = true ∧
    ok ((cx .cancel (k 2) (c 8)).recordAt needRw 8 8) (fun p => ok (p.2.recordHit p.1 accRw 8) fun q => q.1.hit.disc) = true := by
  simp only [State.Issues]; decide
/-- Other groups of the unit, cancel-masked and not; launches whose records lie near, far, and where the tables deny a write. -/
theorem witness_cancel_groups : let f := w 0 (.v 0) (.sp .nil) (.v 0) h0 0
    let g (k : Nat) (m : Nat) : Group := { Group.empty with job := 5, gid := k, unit := 7, ended := false, task := BitVec.ofNat 512 (m * 2 ^ 282) }
    let s : State := { queued .running with wave := world.wave, groups := [g 2 1, g 3 0] }
    let l (far r d : Bool) (tb : Word) : State := { idle .none with
      launches := [if far then { launch3 with dpa := 2 ^ 40 } else launch3]
      link := ⟨r, 0, d⟩
      tower0 := { (idle .none).tower0 with csr := [(csrAtctl, tb)] } }
    s.Issues (.cancel f) f ∧ mbits f 2 0 = 0 ∧ (s.findUnit s.group.unit).isSome = true ∧ (s.allGroups.map Group.key).Nodup ∧
    (s.groups.map fun h => (h.unit, taskBits h.task 35 2 2)) = [(7, 1), (7, 0)] ∧ s.group.ended = false ∧
    (l false true false 0).hwDeny 5 0 true 0x100070 8 = none ∧ ((l false false false 1).hwDeny 5 0 true 0x100070 8).isSome = true ∧
    (∀ r ∈ [true, false], ∀ d ∈ [true, false], ((l true r d 0).findLaunch 3).map (fun q => dpaTower (q.dpa + 112)) = some 1) := by
  simp only [State.Issues]; decide
/-- A ray slot with a walk too deep. -/
theorem witness_ray_deep : let g := w 0 (.v 8) (.p 3) (.v 0) hT 0
    let s (st : Nat) : State := { world with wave := { world.wave with rays := [(0, ⟨[], 0x21, false, false, 0, false, (List.replicate 32 rayHit).set 5 st, []⟩)] } }
    (s rayDeep).Issues (.rayrd g) g ∧ ((s rayDeep).wave.raySlot 0).pend = false ∧ (lanesOf (cx .rayrd g (s rayDeep)).m).map (fun i => ((s rayDeep).wave.raySlot 0).status.getD i 0) = [rayHit, rayDeep] := by
  simp only [State.Issues]; decide
/-- CSRR of the first and last tower register, which pass with PRIV, and of PROBETHR without it. -/
theorem witness_privileged_reads : let f (k : Nat) := w 0 (.s 8) (.v 0) (.v 0) hE k
    let u : State := { world with wave := { world.wave with jctl := 0 } }
    world.Issues (.csrr (f 0x300)) (f 0x300) ∧ selOf (f 0x300) = 0x300 ∧ u.Issues (.csrr (f 0x35E)) (f 0x35E) ∧ ¬u.Issues (.csrr (f 0x300)) (f 0x300) := by
  simp only [State.Issues]; decide
/-- SLOTREQ and SLOTREL where FNMODE.SLOTS is set. -/
theorem witness_fnmode_slots : let f := w 0 (.s 8) (.s 16) (.s 24) hE 0
    let s := withSlots (withS [(16, 5), (24, 2)] world)
    let h : State := { s with tower0 := { s.tower0 with csr := [(csrFnmode, 0x20)] } }
    ∀ k ∈ ([.slotreq, .slotrel] : List (Fields → Instr)), h.Issues (k f) f ∧ (h.tower h.group.tower).hostFn 5 = true ∧
      bits ((cx k f h).uni f.a) 11 0 = 5 ∧ ((h.tower h.group.tower).recs.filter fun r => r.job = 5).length < 32 := by
  simp only [State.Issues]; decide
/-- LAYERPS during a power change, and of a layer that is in a transition: both wait. -/
theorem witness_layerps_waits : let f := w 1 (.s 8) (.s 16) (.v 0) hE 0
    let p : State := { withS [(16, 1)] world with powerNow := some 1 }
    let b : State := { withS [(16, 1)] world with tower0 := { world.tower0 with layers := ⟨.awake, some .doze, none⟩ :: List.replicate 7 ⟨.awake, none, none⟩ } }
    p.Issues (.layerps f) f ∧ p.powerNow ≠ none ∧ b.Issues (.layerps f) f ∧ b.powerNow = none ∧ towerList (towersOf 0 (mbits f 3 2)) = [0] ∧
    bits ((cx .layerps f b).uni f.a) 7 0 = 1 ∧ maskLayers 1 = [0] ∧ (b.tower 0).busy 0 = true ∧
    ¬(∀ l < 8, if (1 : Nat).testBit l then layerStOf (mbits f 1 0) ≠ .awake else (b.tower 0).awake l = false) ∧
    p.wave.live ≠ 0 ∧ p.group.kill = false ∧ b.group.kill = false := by
  simp only [State.Issues]; decide
/-- A sleeping wave on a core whose counter counts, stands before the deadline, and stands at it. -/
def sleeper (stop : Bool) (c : DWord) : State :=
  { idle (.sleep (some 9)) with
    clockStop := stop
    tower0 := { (idle .none).tower0 with clk := [(0, c)] } }
theorem witness_sleep_clock : (∀ stop ∈ [true, false], (sleeper stop 3).clkRuns (sleeper stop 3).group = !stop) ∧
    (sleeper true 3).clock (sleeper true 3).group = 3 ∧ (sleeper true 9).clock (sleeper true 9).group = 9 ∧
    (sleeper true 3).wave.wait = .sleep (some 9) ∧ (sleeper true 3).wave.alive = true ∧
    (∀ stop ∈ [true, false], ((sleeper stop 3).findWave (sleeper stop 3).wave.key).isSome = true ∧
      decide (((sleeper stop 3).focusOn (sleeper stop 3).wave.key).group = (sleeper stop 3).group) = true) := by decide
/-- A launch to deal whose job the machine knows; its tile retired while the link retrains, and when it does not. -/
theorem witness_deal_job : let s (far r : Bool) : State := { idle .none with
      launches := [if far then { launch3 with dpa := 2 ^ 40 } else launch3]
      link := ⟨r, 0, false⟩ }
    ((s false false).findJob launch3.job).isSome = true ∧ (∀ r ∈ [true, false], ((s true r).findLaunch 3).map (fun l => decide (dpaTower l.dpa ≠ l.tower)) = some true) ∧
    ((s false true).findLaunch 3).map (fun l => decide (dpaTower (l.dpa + 120) = l.tower ∧ l.retired + 1 = lnTiles l.image)) = some true ∧
    (s false true).hwDeny 5 0 true 0x100078 8 = none ∧ (s false false).hwDeny 5 0 true 0x20000 8 = none := by decide
/-- Slots in memory: one that the access tables deny, and a task record on a discarded page. -/
theorem witness_slot_pages : let tr (b : Bool) (n : Nat) : Trigger := ⟨0, 5, 1, 0, 1, 1, 1, false, false, some (b, n, 0)⟩
    let s (b : Bool) (n : Nat) (tb : Word) : State := discarded { withMem [(0x101002, 0x10), (0x101008, 1)] (idle .none) with
      tower0 := { (idle .none).tower0 with triggers := [tr b n], bcast := [(66, 0x10), (72, 1)], csr := [(csrAtctl, tb)] } }
    ((s false 0x101000 1).hwDeny 5 0 false 0x101000 16).isSome = true ∧ (s false 0x101000 1).slotFar 0 (false, 0x101000, 0) = false ∧
    (s true 64 0).slotRead 0 (true, 64, 0) 8 1 = 1 ∧ (s true 64 0).slotRead 0 (true, 64, 0) 0 8 = 0x100000 ∧
    (match (s true 64 0).hwAt 5 0 false 64 0x100000 with | .at_ h => h.disc | _ => false) = true := by decide
/-- A word that does not issue yet: HSET of a table beyond a link that retrains. -/
theorem witness_stalled_word : let f := w 0 (.v 0) (.v 0) (.v 0) h0 0
    let s : State := { world with jobs := [{ job5 with htab := 0x10000010000 }], link := ⟨true, 0, false⟩ }
    s.Issues (.hset f) f ∧ dpaTower (s.entryAt s.group.job (hOf f)) ≠ s.group.tower ∧ s.link.down = false ∧ s.link.retraining = true ∧ s.inbox = [] ∧ s.turns = [] ∧
    s.stalled = false ∧ s.clockStop = false := by
  simp only [State.Issues]; decide
/-- ATTOUT in range and aligned with a job that is live, whose report reads its record and its table. -/
theorem witness_attest_job : let s : State := { idle .none with tower0 := { (idle .none).tower0 with hostWin := [(0x4000, 3), (0x4060, 5), (0x4064, 0x100100)] } }
    ((s.tower 0).win 0x4060).toNat = 5 ∧ ((s.findJob 5).map fun j => (j.retired, j.live0)) = some (false, true) ∧ dpaOk ((s.tower 0).win64 0x4064).toNat = true ∧
    ((s.tower 0).win64 0x4064).toNat % 256 = 0 ∧ (s.tower 0).att = none := by decide

end Sys2Proof.Tests
end

/-! PROOFS. The state right after reset (R8, R262, R276, R417, R425): what each accessor reads there, and the
obligation on it. The one lemma that all control registers rest on is `State.csrRead_reset`. -/

namespace Sys2Proof.Machine

/-! ### A tower after reset -/

/-- Both towers come out of reset alike. -/
@[simp] theorem State.tower_reset (t : TowerId) : State.reset.tower t = Tower.reset := ite_self _

@[simp] theorem Tower.hstat_reset : Tower.reset.hstat = 1 := rfl

/-- HSTAT is 1 and not 3, so the cores are held (R417). -/
theorem Tower.booted_reset : Tower.reset.booted = false := by
  simp only [Tower.booted, Tower.hstat_reset]
  decide

/-- The eight layers are awake and in no transition (Table 10.6). -/
theorem Tower.layer_reset {l : Nat} (hl : l < 8) : Tower.reset.layer l = ⟨.awake, none, none⟩ := by
  have hlist : Tower.reset.layers = List.replicate 8 ⟨.awake, none, none⟩ := rfl
  simp only [Tower.layer, hlist, List.getElem?_replicate, if_pos hl, Option.getD_some]

/-- AWAKE of LAYERST names all eight layers; DOZE and BUSY name none. -/
theorem Tower.layerst_reset : Tower.reset.layerst = 0xFF := by decide

@[simp] theorem Tower.almGet_reset (a k : Nat) : almGet Tower.reset.almanac a k = almReset k := rfl

/-- No broadcast slot is granted: the live Almanac lists no entry. -/
theorem Tower.slotsOf_reset (job : Nat) : Tower.reset.slotsOf job = 0 := rfl

/-- Slot 45 of every array after reset: transmitter 6, class 1 (Table 10.2, R425). -/
theorem almReset_45 : almReset 45 = 0x16 := by decide

/-- The counters and enables are registers other than LAYERST and ALMDATA, and their tables reset them to 0. -/
theorem csrReset_counters : ∀ n ∈ [0x100, 0x103, 0x303, 0x331, 0x333, 0x334, 0x350, 0x35B, 0x360, 0x361, 0x370, 0x376,
    0x380, 0x390], (n ≠ 0x330 ∧ n ≠ 0x341) ∧ csrReset n = 0 := by decide

/-! ### The control registers and the register window after reset -/

/-- Every control register but LAYERST and ALMDATA reads as the reset value of its table: the state that stands
behind a composed register (no job selected, no image pending, display at line 0 and off, no access entry, no power
change) adds nothing there. -/
theorem State.csrRead_reset (t : TowerId) (n : Nat) (hn : n ≠ 0x330 ∧ n ≠ 0x341) :
    State.reset.csrRead t n = csrReset n := by
  obtain ⟨hLayerst, hAlmdata⟩ := hn
  simp only [State.csrRead, State.tower_reset]
  split
  case h_3 => exact absurd rfl hLayerst
  case h_4 => exact absurd rfl hAlmdata
  all_goals rfl

theorem State.csrRead_layerst_reset (t : TowerId) : State.reset.csrRead t 0x330 = 0xFF := by
  simp only [State.csrRead, State.tower_reset, Tower.layerst_reset]

theorem State.winRead_hstat_reset (t : TowerId) : State.reset.winRead t 0x4000 = 1 := by
  simp [State.winRead]

/-! ### Memory after reset -/

/-- Memory lists nothing, so every byte reads as the blank value (log 1). -/
theorem State.read_mem_reset (a : Nat) : Mem.read State.reset.mem a = 0 := Table.get_nil Mem.blank a

end Sys2Proof.Machine

/-! ### The obligation -/

namespace Sys2Proof

open Machine

/-- Settles O1: the stores and lists are those of `State.reset`, and each control register but LAYERST is
one instance of `State.csrRead_reset`. -/
theorem resetState : Obligations.ResetState := by
  unfold Obligations.ResetState
  refine ⟨rfl, rfl, rfl, rfl, rfl, rfl, rfl, rfl, rfl, rfl, rfl, State.read_mem_reset, rfl, rfl, rfl, rfl, rfl, rfl,
    fun t => ?_⟩
  have hcsr := State.csrRead_reset t
  rw [State.tower_reset]
  refine ⟨State.winRead_hstat_reset t, Tower.booted_reset, fun _ => Tower.layer_reset, rfl, rfl, rfl, rfl, rfl, rfl,
    ?tx, ?cls, Tower.slotsOf_reset, hcsr 0x300 (by decide), hcsr 0x301 (by decide), hcsr 0x302 (by decide),
    State.csrRead_layerst_reset t, hcsr 0x332 (by decide), hcsr 0x357 (by decide), hcsr 0x359 (by decide),
    hcsr 0x35E (by decide), hcsr 0x364 (by decide), hcsr 0x371 (by decide), hcsr 0x3A0 (by decide), ?zero⟩
  case tx => rw [Tower.almGet_reset, almReset_45]; decide
  case cls => rw [Tower.almGet_reset, almReset_45]; decide
  case zero =>
    intro n hn
    obtain ⟨hplain, hzero⟩ := csrReset_counters n hn
    exact (hcsr n hplain).trans hzero

end Sys2Proof
